-- ==== Sys2Proof/Word.lean ====
section
/-! DEFINITION. The bit widths the spec gives: bytes, 8-byte words, seconds of 48 bits, reference counts of 32 bits,
master numbers, system addresses and region offsets (spec/00_scope.md, Conventions and Pins). -/

namespace Sys2Proof

/-- One byte of memory or of a bus access. -/
abbrev Byte := BitVec 8

/-- One 8-byte word of the region; byte 0, at the lowest address, is the most significant (00_scope.md, Words). -/
abbrev Word := BitVec 64

/-- A uniform second, 0 to 2^48 - 1 (00_scope.md, Terms: S). -/
abbrev Second := BitVec 48

/-- A value of the reference counter (R54). -/
abbrev Count := BitVec 32

/-- A bus master's number, 0 to 15 (00_scope.md, Pins). -/
abbrev Master := BitVec 4

/-- A system byte address of the 16 MiB memory (00_scope.md, Pins). -/
abbrev Address := BitVec 24

/-- A byte offset from the base of the 64 KiB scale region (R153). -/
abbrev Offset := BitVec 16

/-- An intake source, 0 to 7 (R91). -/
abbrev SourceNo := Fin 8

/-- A downstream port, 0 to 15 (R132). -/
abbrev PortNo := Fin 16

/-- A zone scale, 0 to 3 (R1). -/
abbrev ZoneNo := Fin 4

end Sys2Proof
end

