-- ==== Sys2Proof/Syntax.lean ====
section
/-! DEFINITION. The commands of the part: one constructor of `Instr` per row of spec/opcode_table.json, with the bus
accesses, shapes and events their operands are made of. -/

namespace Sys2Proof

/-- Direction of an access (00_scope.md, Pins). -/
inductive Dir
  | read
  | write
  deriving DecidableEq, Repr

/-- Sizes of a single beat: 1, 2, 4 or 8 bytes (00_scope.md, Pins). -/
inductive BeatSize
  | one
  | two
  | four
  | eight
  deriving DecidableEq, Repr

/-- Size of an access: one beat, or a burst of `m + 1` beats of 8 bytes, 1 to 8 of them (00_scope.md, Pins). -/
inductive Shape
  | beat (n : BeatSize)
  | burst (m : Fin 8)
  deriving DecidableEq, Repr

/-- One access of the memory-path protocol: master, address, direction, size and, for a write, its data
(00_scope.md, Pins; R154). -/
structure Access where
  master : Master
  addr : Address
  dir : Dir
  shape : Shape
  data : List Byte
  deriving DecidableEq, Repr

/-- The 16 events of the part, in the bit order of the event word (R190). -/
inductive Event
  | commit
  | lateCommit
  | scheduleChange
  | freeze
  | dispute
  | sourcesDisagree
  | sourceSilent
  | sourceFault
  | timebaseChange
  | longHoldover
  | stepBack
  | accessFault
  | scheduleFull
  | historyDiscard
  | portTransfer
  | activation
  deriving DecidableEq, Repr

/-- The commands, in the order of spec/opcode_table.json. The table gives a row no operands; they are read from the
rules (log entries 2, 6 and 17). A claim, record or notice that a command takes stands in the state, where it waits. -/
inductive Instr
  /-- RESET_ASSERT (R182). -/
  | resetAssert
  /-- RESET_RELEASE (R183): the levels of the REGION-BASE and CONTROL-MASTER straps at the release. -/
  | resetRelease (page : BitVec 8) (control : Master)
  /-- SECOND_MARK (R54): an edge, `elapsed` reference cycles after the last counted one. -/
  | secondMark (elapsed : Count)
  /-- WINDOW_EXPIRY (R62): `elapsed` reference cycles after the last counted one. -/
  | windowExpiry (elapsed : Count)
  /-- FORWARDED_ACCESS (R154): any access offered at a system address. -/
  | forwardedAccess (access : Access)
  /-- REGION_WRITE (R165). -/
  | regionWrite (m : Master) (off : Offset) (shape : Shape) (data : List Byte)
  /-- CONFIGURATION_WRITE (R174). -/
  | configurationWrite (m : Master) (off : Offset) (shape : Shape) (data : List Byte)
  /-- PORT_SHADOW_WRITE (R134). -/
  | portShadowWrite (m : Master) (off : Offset) (shape : Shape) (data : List Byte)
  /-- INTAKE_SLOT_WRITE (R93). -/
  | intakeSlotWrite (m : Master) (off : Offset) (shape : Shape) (data : List Byte)
  /-- MEMORY_ANSWER (R155): OK or ERROR, with the data of a read. -/
  | memoryAnswer (ok : Bool) (data : List Byte)
  /-- STATUS_READ (R185). -/
  | statusRead (m : Master) (off : Offset) (shape : Shape)
  /-- ACTIVATE (R176): a write of the command word with code 1; `arg` is bytes 1 to 7. -/
  | activate (m : Master) (shape : Shape) (arg : BitVec 56)
  /-- DEACTIVATE (R178), code 2. -/
  | deactivate (m : Master) (shape : Shape) (arg : BitVec 56)
  /-- FLUSH (R179), code 3. -/
  | flush (m : Master) (shape : Shape) (arg : BitVec 56)
  /-- RESYNC-NOW (R180), code 4. -/
  | resyncNow (m : Master) (shape : Shape) (arg : BitVec 56)
  /-- CLEAR-FAULT (R194), code 5. -/
  | clearFault (m : Master) (shape : Shape) (arg : BitVec 56)
  /-- PORT-TRANSFER (R145), code 6: bytes 1 to 5, the port byte and the trigger byte. -/
  | portTransfer (m : Master) (shape : Shape) (unused : BitVec 40) (port trigger : Byte)
  /-- ANNOUNCEMENT_BLOCK_READ (R135). -/
  | announcementBlockRead (m : Master) (off : Offset) (shape : Shape)
  /-- TIME_VIEW_READ (R32). -/
  | timeViewRead (m : Master) (off : Offset) (shape : Shape)
  /-- VIEW_0_WRITE (R31). -/
  | view0Write (m : Master) (off : Offset) (shape : Shape) (data : List Byte)
  /-- CONVERTED_VIEW_WRITE (R47). -/
  | convertedViewWrite (m : Master) (off : Offset) (shape : Shape) (data : List Byte)
  /-- FREEZE_AND_COMMIT_CLAIM (R76). -/
  | freezeAndCommitClaim
  /-- ARM_REQUEST (R18). -/
  | armRequest
  /-- REPLACE_REQUEST (R22). -/
  | replaceRequest
  /-- WITHDRAW_REQUEST (R23). -/
  | withdrawRequest
  /-- LIST_FLUSH (R26). -/
  | listFlush
  /-- LOOKUP_CLAIM (R10). -/
  | lookupClaim
  /-- SNAPSHOT_CLAIM (R15). -/
  | snapshotClaim
  /-- QUALIFIER_TAKE (R98). -/
  | qualifierTake
  /-- INTAKE_CHANGE_OF_S (R113). -/
  | intakeChangeOfS
  /-- CIVIL_COMMIT_NOTICE (R115). -/
  | civilCommitNotice
  /-- INTAKE_FLUSH (R116). -/
  | intakeFlush
  /-- ELECTION_TRIGGER (R119). -/
  | electionTrigger
  /-- ELECTION_FLUSH (R130). -/
  | electionFlush
  /-- PORT_CHANGE_OF_S (R147). -/
  | portChangeOfS
  /-- COMMIT_NOTICE (R148). -/
  | commitNotice
  /-- EVENT_RAISE (R190): which raised event the Status Unit takes. -/
  | eventRaise (e : Event)
  /-- UNKNOWN_COMMAND_CODE (R199): a write of the command word with code 0 or 7 and above. -/
  | unknownCommandCode (m : Master) (shape : Shape) (code : Byte) (arg : BitVec 56)
  /-- REFUSED_REGION_READ (R159). -/
  | refusedRegionRead (m : Master) (off : Offset) (shape : Shape)
  deriving DecidableEq, Repr

end Sys2Proof
end

