-- ==== Sys2Proof/Decode.lean ====
section
/-! DEFINITION. The part is a block: its commands come from outside as bus accesses and line events, and no row of
spec/opcode_table.json gives bits. So no word spells a command. -/

namespace Sys2Proof

/-- The command a table word spells: none, since no row of the table gives bits. -/
def decodeTableWord (_nbits _w : Nat) : Option Instr := none

end Sys2Proof
end

