-- ==== Sys2Proof/Config.lean ====
section
/-! DEFINITION. Numbers the part fixes (nominal count, limits of the schedule) and the model's one free value. -/

namespace Sys2Proof.Config

/-- N: nominal reference counts per second (R53, 00_scope.md). -/
def nominalCount : Nat := 100000000

/-- The widest mark tolerance the Second Supervisor uses (R173). -/
def maxTolerance : Nat := 10000000

/-- The greatest uniform second, 2^48 - 1 (R53). -/
def maxSecond : Nat := 281474976710655

/-- Magnitude limit of a zone offset (R1). -/
def zoneLimit : Int := 64800

/-- Magnitude limit of one zone shift (R1). -/
def shiftLimit : Int := 43200

/-- Least distance of two boundaries of one zone (R20). -/
def zoneSpacing : Int := 86400

/-- Range of a civil offset (R1). -/
def civilMin : Int := -32768
/-- Range of a civil offset (R1). -/
def civilMax : Int := 32767

/-- Entries the change list can hold (R6). -/
def capacity : Nat := 32

/-- Pending zone entries the change list can hold (R6). -/
def pendingZoneLimit : Nat := 15

/-- Fraction units in one nanosecond, 2^16 (R28). -/
def unitsPerNano : Int := 65536

/-- Nanoseconds in one second. -/
def nanosPerSecond : Int := 1000000000

/-- FREE VALUE, log entry 12. What the 48-bit floor-end field of the status page shows for a floor end that does
not fit in it (at least 2^48): no rule states it. Nothing constrains this constant. -/
opaque floorEndShown : Nat → BitVec 48

end Sys2Proof.Config
end

