-- ==== Sys2Proof/Machine/State.lean ====
section
/-! DEFINITION. The state of the part, block by block, as plain data, and its value right after reset. Every item
cites the rule that names it; INVENTORY.md lists them all with their reset values. -/

namespace Sys2Proof.Machine

/-- The part never stops at a fault: a refused access is answered with ERROR and the next one is taken as usual (R164).
So there is no fault. -/
inductive Fault
  deriving DecidableEq, Repr

/-- Reasons a command has no meaning in the model. -/
inductive Refusal
  /-- A command whose meaning is not written: raised by an arm of `exec` alone; safe. No arm raises it. -/
  | notModelled (mnemonic : String)
  deriving DecidableEq, Repr

/-! ## The Change List -/

/-- The time scale a change alters (R1). -/
inductive Scale
  | civil
  | zone (k : ZoneNo)
  deriving DecidableEq, Repr

/-- The kind of a leap (R1). -/
inductive LeapKind
  | insert
  | delete
  deriving DecidableEq, Repr

/-- The kind of an entry: a leap, or a zone shift (R1). -/
inductive Kind
  | leap (k : LeapKind)
  | zoneShift
  deriving DecidableEq, Repr

/-- The state of an entry (R2). -/
inductive EntryState
  | armed
  | frozen
  | applied
  deriving DecidableEq, Repr

/-- One entry of the change list (R1). -/
structure Entry where
  boundary : Second
  scale : Scale
  kind : Kind
  prior : Int
  new : Int
  origin : SourceNo
  state : EntryState
  late : Bool
  steppedOver : Bool
  gridDated : Bool
  deriving DecidableEq, Repr

/-- The base record (R8). The floor end is a count, since the fold of a discarded entry may reach past 2^48 - 1. -/
structure BaseRecord where
  floor : Second
  floorEnd : Nat
  civil : Int
  zones : Vector Int 4
  deriving DecidableEq, Repr

/-- The entries and the base record: what lookups and snapshots are answered from (R10, R15). -/
structure Schedule where
  entries : List Entry
  base : BaseRecord
  deriving DecidableEq, Repr

/-- A change of S as it is handed on: the value before and the value after (R56). -/
structure SChange where
  before : Second
  after : Second
  deriving DecidableEq, Repr

/-- A request to the list: arm, replace, withdraw, or the FLUSH claim (R18, R22, R23, R26). -/
inductive Request
  | armCivil (b : Second) (kind : LeapKind) (origin : SourceNo) (grid : Bool)
  | armZone (k : ZoneNo) (b : Second) (new : Int) (origin : SourceNo)
  | replace (b : Second) (kind : LeapKind) (origin : SourceNo) (grid : Bool)
  | withdrawCivil
  | withdrawZone (k : ZoneNo) (b : Second)
  | flush
  deriving DecidableEq, Repr

/-- Who waits for the answer to a claim; `abandoned` when its requester has been abandoned (R100, R130, R135). -/
inductive Asker
  | qualifier
  | election
  | converter
  | patcher
  | quiet
  | statusPage
  | statusUnit
  | abandoned
  deriving DecidableEq, Repr

/-- A waiting request, with its requester (R16). -/
structure WaitingRequest where
  request : Request
  asker : Asker
  deriving DecidableEq, Repr

/-- A waiting lookup or snapshot claim (R16). The instants of a lookup are those of its requester's record. -/
inductive Query
  | lookup (asker : Asker)
  | snapshot (asker : Asker)
  deriving DecidableEq, Repr

/-- The outcome of a request, in the order of the list-answer codes (R17, R196). -/
inductive ListAnswer
  | armed
  | armedFrozen
  | replacedArmed
  | replacedFrozen
  | withdrawn
  | unchanged
  | tooLate
  | full
  | tooClose
  | shiftTooLarge
  | noChange
  | offsetLimit
  | frozen
  | noSuchEntry
  deriving DecidableEq, Repr

/-- The Change List: schedule, list second and waiting claims (R1, R8, R16, R73). A freeze-and-commit claim is on its way
(`coming`) from the change of S until it reaches the list, and then waits there (`claims`), each in the order in which S
changed (R70, R75, R143; log entry 28). A request of the Intake Unit or the Election Unit is on its way (`sending`) from when
it is sent until it reaches the list, and then waits there (`requests`) with the FLUSH claims (R16, R26; log entry 31). -/
structure ChangeList where
  sched : Schedule
  listSecond : Second
  claims : List SChange
  coming : List SChange
  requests : List WaitingRequest
  sending : List WaitingRequest
  queries : List Query
  deriving DecidableEq, Repr

/-! ## The Second Supervisor -/

/-- The time-base state (R53). -/
inductive TimeBase
  | unset
  | acquiring
  | locked
  | flywheel
  deriving DecidableEq, Repr

/-- The stray run: its length, and the capture of its last stray (R53, R65). -/
inductive StrayRun
  | none
  | one (last : Count)
  | two (last : Count)
  deriving DecidableEq, Repr

/-- The Second Supervisor (R53). -/
structure Supervisor where
  s : Second
  timeBase : TimeBase
  present : Option Count
  previous : Option Count
  p : Count
  missed : BitVec 16
  holdover : Bool
  stray : StrayRun
  disagree : Nat
  resyncPending : Bool
  deriving DecidableEq, Repr

/-! ## The Intake Unit -/

/-- The state of a source (R92). -/
inductive SourceState
  | disabled
  | waiting
  | listening
  | silent
  deriving DecidableEq, Repr

/-- What a leap record says (R91): no change, or a kind with a dated boundary. -/
inductive LeapContent
  | noChange
  | change (kind : LeapKind) (b : Second)
  deriving DecidableEq, Repr

/-- What a record says (R91). -/
inductive Content
  | leap (c : LeapContent)
  | zoneSet (k : ZoneNo) (b : Second) (new : Int)
  | zoneCancel (k : ZoneNo) (b : Second)
  deriving DecidableEq, Repr

/-- A proposal still being counted (R91, R108). -/
structure Candidate where
  content : Content
  count : Nat
  gridDated : Bool
  deriving DecidableEq, Repr

/-- A confirmed leap proposal (R91, R108). -/
structure Confirmed where
  content : LeapContent
  gridDated : Bool
  deriving DecidableEq, Repr

/-- The three staging words of a slot, each absent or a value (R93). -/
structure Staging where
  w0 : Option Word
  w1 : Option Word
  w2 : Option Word
  deriving DecidableEq, Repr

/-- An accepted announcement record (R95). -/
structure Record where
  words : Staging
  seq : BitVec 16
  arrival : Second
  preAcquisition : Bool
  deriving DecidableEq, Repr

/-- Outcomes of a record (R111). -/
inductive DispositionOutcome
  | none
  | malformed
  | unusable
  | offsetDisagree
  | offGrid
  | tooLate
  | tooFar
  | tooSoon
  | counted
  | confirmed
  | refused
  deriving DecidableEq, Repr

/-- The last disposition (R111). -/
structure Disposition where
  outcome : DispositionOutcome
  seq : Option (BitVec 16)
  answer : Option ListAnswer
  deriving DecidableEq, Repr

/-- One source's state (R91). The fault flags are the six bits of R112, in the order of section 11.7. -/
structure Source where
  state : SourceState
  staging : Staging
  lastSeq : Option (BitVec 16)
  queue : List Record
  lastHeard : Option Second
  lastCounted : Option Second
  candidate : Option Candidate
  confirmed : Option Confirmed
  disposition : Disposition
  flags : BitVec 6
  deriving DecidableEq, Repr

/-- What the qualifier still has to do for its record (R99): a leap record waits for its lookup answer, with its
reported offset and its kind and given boundary (none for pending kind NONE); a zone record waits for the list. -/
inductive QualifierWork
  | leap (offset : Int) (change : Option (LeapKind × Option Second))
  | zoneAnswer
  deriving DecidableEq, Repr

/-- The record in the qualifier (R98, R99). -/
structure Qualifying where
  source : SourceNo
  seq : BitVec 16
  arrival : Second
  work : QualifierWork
  deriving DecidableEq, Repr

/-- The Intake Unit (R91). -/
structure Intake where
  sources : Vector Source 8
  qualifier : Option Qualifying
  civilHorizon : Option Second
  deriving DecidableEq, Repr

/-! ## The Election Unit -/

/-- A run in progress, past step 3 (R120): the winner and its proposal as read, then waiting for the snapshot or for
the answer to its request. -/
inductive Run
  | awaitingSnapshot (winner : SourceNo) (proposal : Confirmed)
  | awaitingAnswer (winner : SourceNo)
  deriving DecidableEq, Repr

/-- Triggers of a run handed on by the Intake Unit, FLUSH apart (R118). -/
inductive ElectionTrigger
  | proposalChanged (n : SourceNo)
  | leavingSilent (n : SourceNo)
  | enteringSilent (ns : List SourceNo)
  | civilCommit
  deriving DecidableEq, Repr

/-- The Election Unit (R117). -/
structure Election where
  lastWinner : Option SourceNo
  disagree : Bool
  run : Option Run
  runPending : Bool
  deriving DecidableEq, Repr

/-! ## The Port Patcher and the configuration copy -/

/-- A port policy (R132), in the held widths of table 11.6c. -/
structure Policy where
  enabled : Bool
  scale : BitVec 4
  zone : BitVec 2
  mask : BitVec 6
  lead : BitVec 24
  hold : BitVec 16
  deriving DecidableEq, Repr

/-- Triggers of a pending transfer (R133); IMMEDIATE is never held. -/
inductive TransferTrigger
  | nextMark
  | nextCommit
  | quiet
  deriving DecidableEq, Repr

/-- One port: its active policy, and its pending transfer with its trigger (R133). The trigger is present exactly while
transfer pending is set, so the two are one field. -/
structure Port where
  active : Policy
  transfer : Option TransferTrigger
  deriving DecidableEq, Repr

/-- The Port Patcher (R133). -/
structure PortPatcher where
  ports : Vector Port 16
  judgement : Option Second
  waiting : List SChange
  deriving DecidableEq, Repr

/-- The kind of a source (R172). -/
inductive SourceKind
  | network
  | localSource
  deriving DecidableEq, Repr

/-- The source fields of one source (R172, table 11.6b). -/
structure SourceConfig where
  enabled : Bool
  kind : SourceKind
  priority : BitVec 4
  owner : Master
  deep : Bool
  confirm : BitVec 4
  deriving DecidableEq, Repr

/-- The global fields of the configuration copy (R172, table 11.6a). -/
structure GlobalConfig where
  civilOffset : BitVec 16
  zoneOffsets : Vector (BitVec 32) 4
  zoneCount : BitVec 3
  clockMaster : Master
  spacing : BitVec 8
  silence : BitVec 32
  minLead : BitVec 32
  horizon : BitVec 32
  freezeLead : BitVec 16
  grid : BitVec 32
  smearEnable : Bool
  smearExponent : BitVec 5
  tolerance : BitVec 32
  holdoverLimit : BitVec 16
  resyncCount : BitVec 3
  enableMask : BitVec 16
  deriving DecidableEq, Repr

/-- The configuration copy (R172). -/
structure ConfigCopy where
  glob : GlobalConfig
  sources : Vector SourceConfig 8
  shadows : Vector Policy 16
  deriving DecidableEq, Repr

/-! ## The Status Unit -/

/-- TRANSPARENT or ACTIVE (R175). -/
inductive PartState
  | transparent
  | active
  deriving DecidableEq, Repr

/-- The configuration error code (R176). -/
inductive ConfigError
  | none
  | zoneCount
  | freezeLead
  | horizon
  | grid
  | confirmCount (n : SourceNo)
  | smearExponent
  | tolerance
  deriving DecidableEq, Repr

/-- The Status Unit (R172, R175, R176, R190, R199). -/
structure StatusUnit where
  part : PartState
  config : ConfigCopy
  configError : ConfigError
  eventWord : BitVec 16
  lastCommand : Word
  deriving DecidableEq, Repr

/-! ## The Path Unit -/

/-- The sampled straps (R153). -/
structure Straps where
  page : BitVec 8
  control : Master
  deriving DecidableEq, Repr

/-- Kinds of refusal (R168), in the order of the fault-kind codes. -/
inductive FaultKind
  | badSize
  | badAddress
  | notOwner
  | configLocked
  | badCommand
  | nonexistentTime
  | outOfRangeTime
  | splitWrite
  | viewReadOnly
  deriving DecidableEq, Repr

/-- An occupied access fault record (R168). -/
structure FaultRecord where
  kind : FaultKind
  master : Master
  off : Offset
  dir : Dir
  second : Second
  deriving DecidableEq, Repr

/-- A filled read latch (R43). -/
structure Latch where
  record : BitVec 8
  view : Fin 7
  word1 : Word
  deriving DecidableEq, Repr

/-- Which words of a record a time-view read asks for (R44 to R46). -/
inductive RecordPart
  | word0
  | word1
  | both
  deriving DecidableEq, Repr

/-- To whom a write is handed when memory answers it OK (R166). -/
inductive HandOff
  | none
  | config
  | intake
  | liveWrite
  deriving DecidableEq, Repr

/-- The sample of an announcement read (R135). -/
structure PatchSample where
  s : Second
  timeBase : TimeBase
  policies : Vector Policy 16
  deriving DecidableEq, Repr

/-- The arrival sample of a status read (R185). -/
structure StatusSample where
  part : PartState
  configError : ConfigError
  straps : Straps
  sup : Supervisor
  lastWinner : Option SourceNo
  disagree : Bool
  fault : Option FaultRecord
  secondFault : Bool
  ports : Vector Port 16
  lastCommand : Word
  deriving DecidableEq, Repr

/-- What the Path Unit still has to do for the access it holds (R165). -/
inductive Job
  /-- The memory answer is relayed to the master, with no hand-off. -/
  | relay
  /-- An access carried to memory at its own address: memory's answer is relayed, and a write is handed off at memory OK
  (R157, R166). -/
  | store (h : HandOff)
  /-- A time-view read waiting for memory (R32 step 1). -/
  | timeRead (view : Fin 7) (record : BitVec 8) (part : RecordPart)
  /-- A converted read waiting for its lookup answer (R32 step 3), with the stored words. -/
  | timeConvert (view : Fin 7) (record : BitVec 8) (part : RecordPart) (w0 w1 : Word)
  /-- A converted write waiting for its lookup answer (R47 step 2), with the written words. -/
  | timeInvert (view : Fin 7) (record : BitVec 8) (w0 w1 : Word)
  /-- An announcement read (R135): its sample, the block bytes memory has answered, whether a snapshot answer is
  awaited, and the snapshot once answered. -/
  | announce (sample : PatchSample) (blocks : List Byte) (awaiting : Bool) (snap : Option Schedule)
  /-- A status read waiting for its snapshot (R185). -/
  | status (sample : StatusSample)
  /-- An allowed command write waiting for memory (R167). -/
  | command (word : Word)
  /-- A taken FLUSH: whether the list and the Intake Unit have taken it (R179). -/
  | flushing (listDone intakeDone : Bool)
  deriving DecidableEq, Repr

/-- The held access (R152). -/
structure Held where
  access : Access
  job : Job
  deriving DecidableEq, Repr

/-- The Path Unit: held access, memory-side port, latches and fault record (R43, R152, R155, R168, R170). -/
structure PathUnit where
  held : Option Held
  outstanding : Option Access
  stale : Bool
  toIssue : List Access
  latches : Vector (Option Latch) 16
  fault : Option FaultRecord
  secondFault : Bool
  deriving DecidableEq, Repr

/-- An answer given on the system-side port (R152): to which master, OK or ERROR, and the data of a read. -/
structure SysAnswer where
  master : Master
  ok : Bool
  data : List Byte
  deriving DecidableEq, Repr

/-- A civil-commit notice (R82). -/
structure CivilCommit where
  s : Second
  boundary : Second
  kind : Kind
  deriving DecidableEq, Repr

/-- Events, notices and commands on their way between blocks, each kind in the order it was sent. -/
structure Wires where
  events : List Event
  intakeS : List SChange
  portS : List SChange
  civilCommits : List CivilCommit
  commits : List Second
  intakeFlushes : Nat
  electionFlushes : Nat
  triggers : List ElectionTrigger
  deriving DecidableEq, Repr

/-! ## The whole part -/

/-- The state of the part, with the model's own three fields: `card` (accesses waiting on the card), `answers` (the
answers given on the system-side port) and `pending` (the queue of commands). -/
structure State where
  resetAsserted : Bool
  straps : Straps
  counter : Count
  status : StatusUnit
  sup : Supervisor
  list : ChangeList
  intake : Intake
  election : Election
  patcher : PortPatcher
  path : PathUnit
  wires : Wires
  card : List Access
  answers : List SysAnswer
  pending : List Instr
  deriving DecidableEq, Repr

/-! ## Reset values -/

/-- The default policy (R132). -/
def Policy.default : Policy :=
  { enabled := false, scale := 1#4, zone := 0#2, mask := 0x3F#6, lead := 43200#24, hold := 60#16 }

/-- The default source fields (R172). -/
def SourceConfig.default : SourceConfig :=
  { enabled := false, kind := .network, priority := 0#4, owner := 0#4, deep := false, confirm := 3#4 }

/-- The default global fields (R172). -/
def GlobalConfig.default : GlobalConfig :=
  { civilOffset := 0#16, zoneOffsets := #v[0#32, 0#32, 0#32, 0#32], zoneCount := 0#3, clockMaster := 0#4,
    spacing := 1#8, silence := 300#32, minLead := 60#32, horizon := 31622400#32, freezeLead := 10#16,
    grid := 86400#32, smearEnable := false, smearExponent := 16#5, tolerance := 2000#32, holdoverLimit := 60#16,
    resyncCount := 3#3, enableMask := 0#16 }

/-- The configuration copy after reset (R172). -/
def ConfigCopy.default : ConfigCopy :=
  { glob := .default, sources := Vector.replicate 8 .default, shadows := Vector.replicate 16 .default }

/-- The Status Unit after reset (R183, R199). -/
def StatusUnit.reset : StatusUnit :=
  { part := .transparent, config := .default, configError := .none, eventWord := 0#16, lastCommand := 0#64 }

/-- The Second Supervisor after reset (R53). -/
def Supervisor.reset : Supervisor :=
  { s := 0#48, timeBase := .unset, present := none, previous := none, p := 0#32, missed := 0#16, holdover := false,
    stray := .none, disagree := 0, resyncPending := false }

/-- The base record after reset (R8). -/
def BaseRecord.reset : BaseRecord := { floor := 0#48, floorEnd := 0, civil := 0, zones := #v[0, 0, 0, 0] }

/-- The Change List after reset (R27, R73). -/
def ChangeList.reset : ChangeList :=
  { sched := { entries := [], base := .reset }, listSecond := 0#48, claims := [], coming := [], requests := [],
    sending := [], queries := [] }

/-- Absent staging words (R91). -/
def Staging.absent : Staging := { w0 := none, w1 := none, w2 := none }

/-- The disposition NONE (R111). -/
def Disposition.initial : Disposition := { outcome := .none, seq := none, answer := none }

/-- A source after reset (R91). -/
def Source.reset : Source :=
  { state := .disabled, staging := .absent, lastSeq := none, queue := [], lastHeard := none, lastCounted := none,
    candidate := none, confirmed := none, disposition := .initial, flags := 0#6 }

/-- The Intake Unit after reset (R91). -/
def Intake.reset : Intake :=
  { sources := Vector.replicate 8 .reset, qualifier := none, civilHorizon := none }

/-- The Election Unit after reset (R117). -/
def Election.reset : Election := { lastWinner := none, disagree := false, run := none, runPending := false }

/-- The Port Patcher after reset (R133). -/
def PortPatcher.reset : PortPatcher :=
  { ports := Vector.replicate 16 { active := .default, transfer := none }, judgement := none, waiting := [] }

/-- The Path Unit after reset (R168, R170, R43). -/
def PathUnit.reset : PathUnit :=
  { held := none, outstanding := none, stale := false, toIssue := [], latches := Vector.replicate 16 none,
    fault := none, secondFault := false }

/-- Nothing on its way between blocks. -/
def Wires.empty : Wires :=
  { events := [], intakeS := [], portS := [], civilCommits := [], commits := [], intakeFlushes := 0,
    electionFlushes := 0, triggers := [] }

/-- The part right after the release of RESET (R183). DESIGN CHOICE, log entry 8: both straps read 0. -/
def State.reset : State :=
  { resetAsserted := false, straps := { page := 0#8, control := 0#4 }, counter := 0#32, status := .reset,
    sup := .reset, list := .reset, intake := .reset, election := .reset, patcher := .reset, path := .reset,
    wires := .empty, card := [], answers := [], pending := [] }

end Sys2Proof.Machine
end

