-- ==== Sys2Proof/WellFormed.lean ====
section
/-! DEFINITION. Well-formed commands: a write carries as many bytes as its shape asks for, a row's region offset lies
in the window the row is named for, and the code of an unknown command is none of the six known ones. Every command
that is not well-formed still has its meaning (it acts as the access it is, log entry 17). -/

namespace Sys2Proof

/-- Bytes of a single beat (00_scope.md, Pins). -/
def BeatSize.bytes : BeatSize → Nat
  | .one => 1
  | .two => 2
  | .four => 4
  | .eight => 8

/-- Bytes of an access (00_scope.md, Pins). -/
def Shape.bytes : Shape → Nat
  | .beat n => n.bytes
  | .burst m => 8 * (m.val + 1)

/-- The data of an access agree with its direction and size: a write carries its bytes, a read none. -/
def Access.wf (a : Access) : Bool :=
  match a.dir with
  | .read => a.data.isEmpty
  | .write => a.data.length == a.shape.bytes

/-- A region offset lies in the range a row is named for (R156). -/
def Offset.within (off : Offset) (lo hi : Nat) : Bool := decide (lo ≤ off.toNat ∧ off.toNat ≤ hi)

/-- Well-formed commands. -/
def Instr.wf : Instr → Bool
  | .forwardedAccess a => a.wf
  | .regionWrite _ _ sh d => d.length == sh.bytes
  | .configurationWrite _ off sh d => d.length == sh.bytes && off.within 0x0000 0x03FF
  | .portShadowWrite _ off sh d => d.length == sh.bytes && off.within 0x0200 0x03FF
  | .intakeSlotWrite _ off sh d => d.length == sh.bytes && off.within 0x0800 0x08FF
  | .memoryAnswer ok d => ok || d.isEmpty
  | .statusRead _ off _ => off.within 0x1000 0x1FFF
  | .announcementBlockRead _ off _ => off.within 0x2000 0x23FF
  | .timeViewRead _ off _ => off.within 0x8000 0xEFFF
  | .view0Write _ off sh d => d.length == sh.bytes && off.within 0x8000 0x8FFF
  | .convertedViewWrite _ off sh d => d.length == sh.bytes && off.within 0x9000 0xEFFF
  | .unknownCommandCode _ _ code _ => decide (code = 0#8 ∨ 7 ≤ code.toNat)
  | .resetAssert => true
  | .resetRelease _ _ => true
  | .secondMark _ => true
  | .windowExpiry _ => true
  | .activate _ _ _ => true
  | .deactivate _ _ _ => true
  | .flush _ _ _ => true
  | .resyncNow _ _ _ => true
  | .clearFault _ _ _ => true
  | .portTransfer _ _ _ _ _ => true
  | .freezeAndCommitClaim => true
  | .armRequest => true
  | .replaceRequest => true
  | .withdrawRequest => true
  | .listFlush => true
  | .lookupClaim => true
  | .snapshotClaim => true
  | .qualifierTake => true
  | .intakeChangeOfS => true
  | .civilCommitNotice => true
  | .intakeFlush => true
  | .electionTrigger => true
  | .electionFlush => true
  | .portChangeOfS => true
  | .commitNotice => true
  | .eventRaise _ => true
  | .refusedRegionRead _ _ _ => true

end Sys2Proof
end

