-- ==== Sys2Proof/Machine/Ops.lean ====
section
/-! DEFINITION. The named operations over the state that every block's rules use: field updates, bit fields of words,
raising an event, handing on a change of S, answering the master, issuing memory accesses, sending claims to the list
and abandoning them. -/

namespace Sys2Proof.Machine

/-! ## One update per field -/

/-- The state with `resetAsserted` replaced. -/
def State.setResetAsserted (s : State) (x : Bool) : State := { s with resetAsserted := x }
/-- The state with `straps` replaced. -/
def State.setStraps (s : State) (x : Straps) : State := { s with straps := x }
/-- The state with `counter` replaced. -/
def State.setCounter (s : State) (x : Count) : State := { s with counter := x }
/-- The state with `status` replaced. -/
def State.setStatus (s : State) (x : StatusUnit) : State := { s with status := x }
/-- The state with `sup` replaced. -/
def State.setSup (s : State) (x : Supervisor) : State := { s with sup := x }
/-- The state with `list` replaced. -/
def State.setList (s : State) (x : ChangeList) : State := { s with list := x }
/-- The state with `intake` replaced. -/
def State.setIntake (s : State) (x : Intake) : State := { s with intake := x }
/-- The state with `election` replaced. -/
def State.setElection (s : State) (x : Election) : State := { s with election := x }
/-- The state with `patcher` replaced. -/
def State.setPatcher (s : State) (x : PortPatcher) : State := { s with patcher := x }
/-- The state with `path` replaced. -/
def State.setPath (s : State) (x : PathUnit) : State := { s with path := x }
/-- The state with `wires` replaced. -/
def State.setWires (s : State) (x : Wires) : State := { s with wires := x }
/-- The state with `card` replaced. -/
def State.setCard (s : State) (x : List Access) : State := { s with card := x }
/-- The state with `answers` replaced. -/
def State.setAnswers (s : State) (x : List SysAnswer) : State := { s with answers := x }
/-- The state with `pending` replaced. -/
def State.setPending (s : State) (x : List Instr) : State := { s with pending := x }

/-! ## Bytes and words (00_scope.md, Words and byte order) -/

/-- As many bytes as asked for: cut short, or filled up with zero bytes (log entry 6). -/
def fit (n : Nat) (d : List Byte) : List Byte := (d ++ List.replicate n 0#8).take n

/-- Byte `i` of a word; byte 0 is the most significant. -/
def wordByte (w : Word) (i : Nat) : Byte := w.extractLsb' (8 * (7 - i)) 8

/-- The eight bytes of a word, lowest address first. -/
def wordBytes (w : Word) : List Byte := (List.range 8).map (wordByte w)

/-- The word that bytes spell, most significant first. -/
def bytesWord (d : List Byte) : Word := d.foldl (fun acc b => (acc <<< 8) ||| b.setWidth 64) 0#64

/-- The field of a word that ends at byte `last` and is `width` bits wide. -/
def field (w : Word) (last width : Nat) : BitVec width := w.extractLsb' (8 * (7 - last)) width

/-- A word that holds `x` in the field ending at byte `last`, and 0 elsewhere (R197). -/
def place (last : Nat) {width : Nat} (x : BitVec width) : Word := (x.setWidth 64) <<< (8 * (7 - last))

/-- A word that holds one bit: bit `bit` of byte `last`. -/
def placeBit (last bit : Nat) (b : Bool) : Word := if b then 1#64 <<< (8 * (7 - last) + bit) else 0#64

/-- A word with byte `i` replaced. -/
def setWordByte (w : Word) (i : Nat) (b : Byte) : Word := bytesWord ((wordBytes w).set i b)

/-- A field with its byte `i`, counted from its least significant byte, replaced (R174, R198). -/
def putByte {width : Nat} (x : BitVec width) (i : Nat) (b : Byte) : BitVec width :=
  (x &&& ~~~((0xFF#8).setWidth width <<< (8 * i))) ||| (b.setWidth width <<< (8 * i))

/-- `len` bytes at byte offset `off` of an area given word by word. -/
def areaBytes (area : Nat → Word) (off len : Nat) : List Byte :=
  (List.range len).map fun j => wordByte (area ((off + j) / 8)) ((off + j) % 8)

/-! ## Raising events and handing on changes of S -/

/-- Raise events: they are on their way to the Status Unit (R190, log entry 10). -/
def raise (es : List Event) (s : State) : State :=
  s.setWires { s.wires with events := s.wires.events ++ es }

/-- Set S, and hand a change on to the Change List, the Intake Unit and the Port Patcher (R55, R56, R75). DESIGN CHOICE,
log entry 28: the claim is on its way to the list until REFERENCE-CLOCK is next counted. -/
def changeS (new : Second) (s : State) : State :=
  let old := s.sup.s
  if new = old then s
  else
    let c : SChange := { before := old, after := new }
    ((s.setSup { s.sup with s := new }).setList { s.list with coming := s.list.coming ++ [c] }).setWires
      { s.wires with intakeS := s.wires.intakeS ++ [c], portS := s.wires.portS ++ [c] }

/-- The freeze-and-commit claims and the requests on their way reach the list and wait there (R16, R26, R75, R88). -/
def claimsArrive (s : State) : State :=
  s.setList { s.list with
    claims := s.list.claims ++ s.list.coming, coming := []
    requests := s.list.requests ++ s.list.sending, sending := [] }

/-- S advanced by one; it stays at 2^48 - 1 (R55). -/
def succSecond (x : Second) : Second := if x.toNat = Config.maxSecond then x else x + 1#48

/-! ## Claims sent to the list -/

/-- Send a lookup or snapshot claim (R16). -/
def ask (q : Query) (s : State) : State := s.setList { s.list with queries := s.list.queries ++ [q] }

/-- Send a request of the Intake Unit or the Election Unit (R16). DESIGN CHOICE, log entry 31: it is on its way to the list
until REFERENCE-CLOCK is next counted, so a FLUSH claim may come before it (R26, R126, R179). -/
def request (r : Request) (who : Asker) (s : State) : State :=
  s.setList { s.list with sending := s.list.sending ++ [{ request := r, asker := who }] }

/-- Send the FLUSH claim, which waits at the list at once (R26, R179; log entry 31). -/
def claimFlush (s : State) : State :=
  s.setList { s.list with requests := s.list.requests ++ [{ request := .flush, asker := .statusUnit }] }

/-- The requester `who` of a claim is gone: nobody takes the answer (R100, R130, R135). -/
def Asker.abandonIf (who a : Asker) : Asker := if a = who then .abandoned else a

/-- A query whose requester `who` is gone. -/
def Query.abandonIf (who : Asker) : Query → Query
  | .lookup a => .lookup (who.abandonIf a)
  | .snapshot a => .snapshot (who.abandonIf a)

/-- Every claim of `who`, waiting at the list or on its way, stays, and its answer will be discarded (log entry 19). -/
def abandonClaims (who : Asker) (s : State) : State :=
  s.setList { s.list with
    queries := s.list.queries.map (Query.abandonIf who)
    requests := s.list.requests.map fun r => { r with asker := who.abandonIf r.asker }
    sending := s.list.sending.map fun r => { r with asker := who.abandonIf r.asker } }

/-! ## The system-side and memory-side ports -/

/-- The access the unit holds (R152). -/
def hold (a : Access) (j : Job) (s : State) : State := s.setPath { s.path with held := some { access := a, job := j } }

/-- Answer an access: the answer is given and the unit is free (R152). A write is answered with no data. -/
def answer (a : Access) (ok : Bool) (d : List Byte) (s : State) : State :=
  let data := match a.dir with
    | .read => fit a.shape.bytes d
    | .write => []
  (s.setPath { s.path with held := none }).setAnswers
    (s.answers ++ [{ master := a.master, ok := ok, data := data }])

/-- Answer ERROR with zero data (R152, R155, R164; log entry 23). -/
def answerError (a : Access) (s : State) : State := answer a false [] s

/-- Issue the next memory access, when none is unanswered (R155, R170). -/
def issueNext (s : State) : State :=
  match s.path.outstanding, s.path.toIssue with
  | none, a :: rest => s.setPath { s.path with outstanding := some a, toIssue := rest }
  | _, _ => s

/-- Issue memory accesses for the held access, one after another (R155). -/
def issue (as : List Access) (s : State) : State := issueNext (s.setPath { s.path with toIssue := as })

/-- Replace the latch of a master (R43). -/
def setLatch (m : Master) (l : Option Latch) (s : State) : State :=
  s.setPath { s.path with latches := s.path.latches.set m.toFin l }

/-- Empty every latch (R43). -/
def emptyLatches (s : State) : State := s.setPath { s.path with latches := Vector.replicate 16 none }

/-- The fault record after a refusal (R169). -/
def recordFault (r : FaultRecord) (p : PathUnit) : PathUnit :=
  match p.fault with
  | none => { p with fault := some r }
  | some _ => { p with secondFault := true }

/-! ## Sources and ports -/

/-- Update one source. -/
def updSource (n : SourceNo) (f : Source → Source) (s : State) : State :=
  s.setIntake { s.intake with sources := s.intake.sources.set n (f s.intake.sources[n]) }

/-- Update one port. -/
def updPort (p : PortNo) (f : Port → Port) (s : State) : State :=
  s.setPatcher { s.patcher with ports := s.patcher.ports.set p (f s.patcher.ports[p]) }

/-- Update every source. -/
def mapSources (f : SourceNo → Source → Source) (v : Vector Source 8) : Vector Source 8 :=
  Vector.ofFn fun n => f n v[n]

/-- The part is ACTIVE and RESET is not asserted. -/
def isActive (s : State) : Bool := s.status.part == .active && !s.resetAsserted

/-! ## Working values of configuration fields (R173) -/

/-- Freeze lead F in seconds. -/
def freezeLead (s : State) : Int := s.status.config.glob.freezeLead.toNat

/-- tol as the Second Supervisor uses it: at most 10,000,000 (R173). -/
def tolerance (s : State) : Nat := min s.status.config.glob.tolerance.toNat Config.maxTolerance

/-- The resync count as the Second Supervisor uses it: 0 counts as 1 (R173). -/
def resyncCount (s : State) : Nat := max s.status.config.glob.resyncCount.toNat 1

/-- Configured number of zones. -/
def zoneCount (s : State) : Nat := s.status.config.glob.zoneCount.toNat

end Sys2Proof.Machine
end

