-- ==== Sys2Proof/Machine/ChangeList.lean ====
section
/-! DEFINITION. The change list as a schedule: order, lookups, prior offsets, the checks and effects of arm, replace and
withdraw requests, discard, FLUSH, and freeze and commit (spec/01_the_change_list.md, spec/04_freeze_and_commit.md). -/

namespace Sys2Proof.Machine

/-! ## Order and horizons -/

/-- CIVIL stands before ZONE0 to ZONE3 (R5). -/
def Scale.rank : Scale → Nat
  | .civil => 0
  | .zone k => k.val + 1

/-- The strict order of the list: by boundary, then by scale (R5). -/
def Entry.precedes (e f : Entry) : Bool :=
  decide (e.boundary.toNat < f.boundary.toNat ∨ (e.boundary = f.boundary ∧ e.scale.rank < f.scale.rank))

/-- ARMED and FROZEN entries are pending (R2). -/
def Entry.pending (e : Entry) : Bool := e.state != .applied

/-- The entry is APPLIED (R2). -/
def Entry.isApplied (e : Entry) : Bool := e.state == .applied

/-- Place an entry where the order puts it (R5). -/
def insertEntry (e : Entry) : List Entry → List Entry
  | [] => [e]
  | f :: fs => if e.precedes f then e :: f :: fs else f :: insertEntry e fs

/-- The newest APPLIED entry of the list, of any scale. -/
def newestApplied (es : List Entry) : Option Entry := (es.filter Entry.isApplied).getLast?

/-- The newest APPLIED entry of one scale. -/
def newestAppliedOf (sc : Scale) (es : List Entry) : Option Entry :=
  (es.filter fun e => e.isApplied && e.scale == sc).getLast?

/-- The applied horizon (R7). -/
def appliedHorizon (es : List Entry) : Option Second := (newestApplied es).map (·.boundary)

/-- The civil applied horizon: the boundary of the newest APPLIED civil entry (R7, R103). -/
def civilAppliedHorizon (es : List Entry) : Option Second := (newestAppliedOf .civil es).map (·.boundary)

/-- `b` is at or below a horizon, where there is one. -/
def atOrBelow (b : Int) (h : Option Second) : Bool :=
  match h with
  | none => false
  | some x => decide (b ≤ x.toNat)

/-- The pending CIVIL entry (R6). -/
def pendingCivil (es : List Entry) : Option Entry := es.find? fun e => e.pending && e.scale == .civil

/-- Number of pending zone entries, of any zones (R6). -/
def pendingZones (es : List Entry) : Nat := (es.filter fun e => e.pending && e.scale != .civil).length

/-- The base offset of a scale (R8). -/
def BaseRecord.offset (b : BaseRecord) : Scale → Int
  | .civil => b.civil
  | .zone k => b.zones[k]

/-- The offset of a scale presented to ports and on the summary: the new offset of its newest APPLIED entry, or the
base offset (R138, R141, R186). -/
def presentedOffset (sched : Schedule) (sc : Scale) : Int :=
  match newestAppliedOf sc sched.entries with
  | some e => e.new
  | none => sched.base.offset sc

/-! ## Lookups (R10 to R14) -/

/-- The offset of a scale in effect at second `s`: the new offset of its latest entry with B ≤ s, of any state, or the
base offset (R11, R12, R13). -/
def offsetAt (sched : Schedule) (sc : Scale) (s : Nat) : Int :=
  match (sched.entries.filter fun e => e.scale == sc && decide (e.boundary.toNat ≤ s)).getLast? with
  | some e => e.new
  | none => sched.base.offset sc

/-- Inserted: a CIVIL INSERT has B = s (R12). -/
def insertedAt (sched : Schedule) (s : Nat) : Bool :=
  sched.entries.any fun e => e.scale == .civil && e.kind == .leap .insert && e.boundary.toNat == s

/-- Fold k: a backward zone-k entry of magnitude Δ has B ≤ s < B + Δ (R13). -/
def foldAt (sched : Schedule) (k : ZoneNo) (s : Nat) : Bool :=
  sched.entries.any fun e =>
    e.scale == .zone k &&
      decide (e.new < e.prior ∧ e.boundary.toNat ≤ s ∧ (s : Int) < e.boundary.toNat + (e.prior - e.new))

/-- The next civil change: the earliest CIVIL entry with B > s (R12). -/
def nextCivil (sched : Schedule) (s : Nat) : Option Entry :=
  sched.entries.find? fun e => e.scale == .civil && decide (s < e.boundary.toNat)

/-- The answer of a lookup for one instant (R12, R13): civil offset, inserted, next civil change, and for each zone
its offset and fold. -/
structure LookupAnswer where
  civil : Int
  inserted : Bool
  next : Option (Second × Kind)
  zones : Vector (Int × Bool) 4
  deriving DecidableEq, Repr

/-- A lookup; `none` is OUT-OF-RANGE, for an instant below the floor end (R14). -/
def lookup (sched : Schedule) (s : Nat) : Option LookupAnswer :=
  if s < sched.base.floorEnd then none
  else some
    { civil := offsetAt sched .civil s
      inserted := insertedAt sched s
      next := (nextCivil sched s).map fun e => (e.boundary, e.kind)
      zones := Vector.ofFn fun k => (offsetAt sched (.zone k) s, foldAt sched k s) }

/-! ## Prior offsets (R24) -/

/-- The new offset that a kind gives over a prior offset (R1); a zone entry keeps its own. -/
def Kind.apply (kind : Kind) (prior own : Int) : Int :=
  match kind with
  | .leap .insert => prior + 1
  | .leap .delete => prior - 1
  | .zoneShift => own

/-- Prior offsets of the pending entries of one scale set again, `running` being the offset before them (R24). APPLIED
entries keep theirs (R4, log entry 16). -/
def reprior (sc : Scale) (running : Int) : List Entry → List Entry
  | [] => []
  | e :: es =>
    if e.scale = sc then
      if e.isApplied then e :: reprior sc e.new es
      else
        let new := e.kind.apply running e.new
        { e with prior := running, new := new } :: reprior sc new es
    else e :: reprior sc running es

/-- The schedule with its entries replaced and the prior offsets of a scale recomputed (R24). -/
def Schedule.withEntries (sched : Schedule) (sc : Scale) (es : List Entry) : Schedule :=
  { sched with entries := reprior sc (sched.base.offset sc) es }

/-- The prior offset an entry of a scale takes at boundary `b` (R24). -/
def priorAt (sched : Schedule) (sc : Scale) (b : Second) : Int :=
  match (sched.entries.filter fun e => e.scale == sc && decide (e.boundary.toNat < b.toNat)).getLast? with
  | some e => e.new
  | none => sched.base.offset sc

/-! ## Discard (R9, R25) -/

/-- The end of an entry's interval (R9). -/
def intervalEnd (e : Entry) : Nat :=
  match e.kind with
  | .leap .insert => e.boundary.toNat + 1
  | .leap .delete => e.boundary.toNat
  | .zoneShift => e.boundary.toNat + (e.prior - e.new).toNat

/-- The base record after the discard of an entry (R8, R9, R25). -/
def BaseRecord.afterDiscard (b : BaseRecord) (e : Entry) : BaseRecord :=
  let b' : BaseRecord := { b with floor := e.boundary, floorEnd := max b.floorEnd (intervalEnd e) }
  match e.scale with
  | .civil => { b' with civil := e.new }
  | .zone k => { b' with zones := b.zones.set k e.new }

/-- The oldest entry discarded when the list holds 32 (R21 step 1, R25). -/
def discardIfFull (sched : Schedule) : Schedule × List Event :=
  match sched.entries with
  | [] => (sched, [])
  | e :: es =>
    if Config.capacity ≤ sched.entries.length then
      ({ entries := es, base := sched.base.afterDiscard e }, [.historyDiscard])
    else (sched, [])

/-! ## Requests (R17 to R23). `s` is the list second and `f` the freeze lead. -/

/-- What a request comes to: the answer, the schedule after it and the events it raises. -/
structure Verdict where
  answer : ListAnswer
  sched : Schedule
  events : List Event
  deriving DecidableEq, Repr

/-- A refused request leaves list and base record as they were and raises nothing (R17). -/
def refuseRequest (sched : Schedule) (a : ListAnswer) : Verdict := { answer := a, sched := sched, events := [] }

/-- TOO-LATE: the boundary is at or below the list second or the applied horizon (R19, R20, R22). -/
def tooLate (sched : Schedule) (s b : Second) : Bool :=
  decide (b.toNat ≤ s.toNat) || atOrBelow b.toNat (appliedHorizon sched.entries)

/-- The state a boundary gives a new entry: FROZEN when B - S ≤ F (R21, R22). -/
def entryStateFor (f : Int) (s b : Second) : EntryState :=
  if (b.toNat : Int) - s.toNat ≤ f then .frozen else .armed

/-- FREEZE accompanies an entry that enters FROZEN directly (R21, R22). -/
def freezeEvents (st : EntryState) : List Event := if st = .frozen then [.freeze] else []

/-- A new civil offset outside its range (R19 step 4). -/
def civilOffsetBad (kind : LeapKind) (prior : Int) : Bool :=
  match kind with
  | .insert => decide (Config.civilMax < prior + 1)
  | .delete => decide (prior - 1 < Config.civilMin)

/-- A new entry inserted (R21). -/
def acceptArm (f : Int) (s : Second) (sched : Schedule) (e : Entry) : Verdict :=
  let st := entryStateFor f s e.boundary
  let d := discardIfFull sched
  { answer := if st = .frozen then .armedFrozen else .armed
    sched := d.1.withEntries e.scale (insertEntry { e with state := st } d.1.entries)
    events := d.2 ++ .scheduleChange :: freezeEvents st }

/-- A new entry before its offsets are derived: flags absent but GRID-DATED as asked (R3, R21). -/
def newEntry (b : Second) (sc : Scale) (kind : Kind) (new : Int) (origin : SourceNo) (grid : Bool) : Entry :=
  { boundary := b, scale := sc, kind := kind, prior := 0, new := new, origin := origin, state := .armed,
    late := false, steppedOver := false, gridDated := grid }

/-- Rewrite the pending entry of a scale at a boundary in place and recompute (R19, R20). -/
def rewritePending (sched : Schedule) (sc : Scale) (b : Second) (g : Entry → Entry) : Schedule :=
  sched.withEntries sc (sched.entries.map fun e => if e.pending && e.scale == sc && e.boundary == b then g e else e)

/-- The pending entry of a scale at a boundary (R19, R20). -/
def pendingAt (es : List Entry) (sc : Scale) (b : Second) : Option Entry :=
  es.find? fun e => e.pending && e.scale == sc && e.boundary == b

/-- A civil arm request (R19, R21). -/
def armCivil (f : Int) (s : Second) (sched : Schedule) (b : Second) (kind : LeapKind) (origin : SourceNo)
    (grid : Bool) : Verdict :=
  if tooLate sched s b then refuseRequest sched .tooLate
  else
    match pendingAt sched.entries .civil b with
    | some e =>
      if e.state = .frozen then refuseRequest sched .frozen
      else if e.kind = .leap kind then refuseRequest sched .unchanged
      else if civilOffsetBad kind (priorAt sched .civil b) then refuseRequest sched .offsetLimit
      else
        { answer := .replacedArmed
          sched := rewritePending sched .civil b
            (fun e => { e with kind := .leap kind, origin := origin, gridDated := grid })
          events := [.scheduleChange] }
    | none =>
      if (pendingCivil sched.entries).isSome then refuseRequest sched .full
      else if civilOffsetBad kind (priorAt sched .civil b) then refuseRequest sched .offsetLimit
      else acceptArm f s sched (newEntry b .civil (.leap kind) 0 origin grid)

/-- The other entries of zone k: all but a pending one at the requested boundary (R20). -/
def otherZone (sched : Schedule) (k : ZoneNo) (b : Second) : List Entry :=
  sched.entries.filter fun e => e.scale == .zone k && !(e.pending && e.boundary == b)

/-- The next later other entry of zone k (R20). -/
def nextLater (others : List Entry) (b : Second) : Option Entry :=
  others.find? fun e => decide (b.toNat < e.boundary.toNat)

/-- Checks 4 to 7 of a zone arm request (R20). -/
def zoneChecks (sched : Schedule) (k : ZoneNo) (b : Second) (new : Int) : Option ListAnswer :=
  let others := otherZone sched k b
  let prior := priorAt sched (.zone k) b
  let later := nextLater others b
  if new < -Config.zoneLimit ∨ Config.zoneLimit < new then some .offsetLimit
  else if others.any fun e => decide (|(b.toNat : Int) - e.boundary.toNat| < Config.zoneSpacing) then some .tooClose
  else if new = prior ∨ later.any (fun e => e.new == new) then some .noChange
  else if Config.shiftLimit < |new - prior| ∨ later.any (fun e => decide (Config.shiftLimit < |e.new - new|)) then
    some .shiftTooLarge
  else none

/-- A zone arm request (R20, R21). -/
def armZone (f : Int) (s : Second) (sched : Schedule) (k : ZoneNo) (b : Second) (new : Int) (origin : SourceNo) :
    Verdict :=
  if tooLate sched s b then refuseRequest sched .tooLate
  else
    match pendingAt sched.entries (.zone k) b with
    | some e =>
      if e.state = .frozen then refuseRequest sched .frozen
      else if e.new = new then refuseRequest sched .unchanged
      else
        match zoneChecks sched k b new with
        | some r => refuseRequest sched r
        | none =>
          { answer := .replacedArmed
            sched := rewritePending sched (.zone k) b (fun e => { e with new := new, origin := origin })
            events := [.scheduleChange] }
    | none =>
      if Config.pendingZoneLimit ≤ pendingZones sched.entries then refuseRequest sched .full
      else
        match zoneChecks sched k b new with
        | some r => refuseRequest sched r
        | none => acceptArm f s sched (newEntry b (.zone k) .zoneShift new origin false)

/-- The list without the pending CIVIL entry. -/
def withoutPendingCivil (es : List Entry) : List Entry := es.filter fun e => !(e.pending && e.scale == .civil)

/-- A replace request (R22). -/
def replaceCivil (f : Int) (s : Second) (sched : Schedule) (b : Second) (kind : LeapKind) (origin : SourceNo)
    (grid : Bool) : Verdict :=
  match pendingCivil sched.entries with
  | none => refuseRequest sched .noSuchEntry
  | some e =>
    if e.state = .frozen then refuseRequest sched .frozen
    else if e.boundary = b ∧ e.kind = .leap kind then refuseRequest sched .unchanged
    else if tooLate sched s b then refuseRequest sched .tooLate
    else
      let rest := withoutPendingCivil sched.entries
      if civilOffsetBad kind (priorAt { sched with entries := rest } .civil b) then refuseRequest sched .offsetLimit
      else
        let st := entryStateFor f s b
        { answer := if st = .frozen then .replacedFrozen else .replacedArmed
          sched := sched.withEntries .civil
            (insertEntry { e with boundary := b, kind := .leap kind, origin := origin, gridDated := grid, state := st }
              rest)
          events := .scheduleChange :: freezeEvents st }

/-- A civil withdraw request (R23). -/
def withdrawCivil (sched : Schedule) : Verdict :=
  match pendingCivil sched.entries with
  | none => refuseRequest sched .noSuchEntry
  | some e =>
    if e.state = .frozen then refuseRequest sched .frozen
    else
      { answer := .withdrawn
        sched := sched.withEntries .civil (withoutPendingCivil sched.entries)
        events := [.scheduleChange] }

/-- A zone withdraw request (R23). -/
def withdrawZone (sched : Schedule) (k : ZoneNo) (b : Second) : Verdict :=
  match sched.entries.find? fun e => e.scale == .zone k && e.boundary == b with
  | none => refuseRequest sched .noSuchEntry
  | some e =>
    if e.state = .applied then refuseRequest sched .tooLate
    else if e.state = .frozen then refuseRequest sched .frozen
    else
      let later := sched.entries.find? fun g => g.scale == .zone k && decide (b.toNat < g.boundary.toNat)
      if later.any (fun g => g.new == e.prior) then refuseRequest sched .noChange
      else if later.any (fun g => decide (Config.shiftLimit < |g.new - e.prior|)) then
        refuseRequest sched .shiftTooLarge
      else
        { answer := .withdrawn
          sched := sched.withEntries (.zone k)
            (sched.entries.filter fun g => !(g.scale == .zone k && g.boundary == b))
          events := [.scheduleChange] }

/-- FLUSH at the list: every pending entry removed (R26). -/
def flushSchedule (sched : Schedule) : Schedule × List Event :=
  ({ sched with entries := sched.entries.filter Entry.isApplied },
    if sched.entries.any Entry.pending then [.scheduleChange] else [])

/-! ## Freeze and commit (R76 to R82) -/

/-- The entry is committed by a forward claim to `s` (R76). -/
def committedBy (s : Second) (e : Entry) : Bool := e.pending && decide (e.boundary.toNat ≤ s.toNat)

/-- The entry is frozen by a forward claim to `s` (R76, R78). -/
def frozenBy (f : Int) (s : Second) (e : Entry) : Bool :=
  e.state == .armed && decide (s.toNat < e.boundary.toNat ∧ (e.boundary.toNat : Int) - s.toNat ≤ f)

/-- An entry after a forward claim to `s` (R76, R77, R78). -/
def forwardEntry (f : Int) (s : Second) (e : Entry) : Entry :=
  if committedBy s e then { e with state := .applied, late := decide (e.boundary.toNat < s.toNat) }
  else if frozenBy f s e then { e with state := .frozen }
  else e

/-- An APPLIED entry that lies above `s` (R79). -/
def steppedBy (s : Second) (e : Entry) : Bool := e.isApplied && decide (s.toNat < e.boundary.toNat)

/-- An entry after a backward claim to `s` (R79). -/
def backwardEntry (s : Second) (e : Entry) : Entry := if steppedBy s e then { e with steppedOver := true } else e

/-- The entries after a claim (R76, R79). -/
def claimEntries (f : Int) (c : SChange) (es : List Entry) : List Entry :=
  if c.before.toNat < c.after.toNat then es.map (forwardEntry f c.after)
  else if c.after.toNat < c.before.toNat then es.map (backwardEntry c.after)
  else es

/-- An event raised at most once when a condition holds (R81). -/
def eventIf (b : Bool) (e : Event) : List Event := if b then [e] else []

/-- The events of a claim (R81). -/
def claimEvents (f : Int) (c : SChange) (es : List Entry) : List Event :=
  if c.before.toNat < c.after.toNat then
    eventIf (es.any (committedBy c.after)) .commit ++
    eventIf (es.any fun e => committedBy c.after e && decide (e.boundary.toNat < c.after.toNat)) .lateCommit ++
    eventIf (es.any (frozenBy f c.after)) .freeze
  else if c.after.toNat < c.before.toNat then eventIf (es.any (steppedBy c.after)) .stepBack
  else []

/-- The entries a claim commits (R76). -/
def claimCommits (c : SChange) (es : List Entry) : List Entry :=
  if c.before.toNat < c.after.toNat then es.filter (committedBy c.after) else []

/-- The civil-commit notices of a claim (R82); at most one civil entry is pending (R6). -/
def civilNotices (c : SChange) (es : List Entry) : List CivilCommit :=
  ((claimCommits c es).filter fun e => e.scale == .civil).map fun e =>
    { s := c.after, boundary := e.boundary, kind := e.kind }

/-- The commit notices of a claim (R82). -/
def commitNotices (c : SChange) (es : List Entry) : List Second :=
  if (claimCommits c es).isEmpty then [] else [c.after]

end Sys2Proof.Machine
end

