-- ==== Sys2Proof/Machine/Election.lean ====
section
/-! DEFINITION. The Election Unit: triggers, runs, contenders and winner, the decision, answers from the list and the
sources-disagree indication (spec/06_source_election.md). -/

namespace Sys2Proof.Machine

/-- A source is SILENT. -/
def isSilent (s : State) (n : SourceNo) : Bool := s.intake.sources[n].state == .silent

/-- The priority of a source (R98, R121). -/
def priorityOf (s : State) (n : SourceNo) : Nat := s.status.config.sources[n].priority.toNat

/-- Source `a` stands before source `b` by the first two keys of the order (R121). -/
def standsBefore (s : State) (a b : SourceNo) : Bool :=
  if isSilent s a = isSilent s b then decide (priorityOf s b < priorityOf s a)
  else !isSilent s a

/-- The better of the contender found so far and source `n`; a tie keeps the lower number (R121). -/
def betterContender (s : State) (best : Option SourceNo) (n : SourceNo) : Option SourceNo :=
  if s.intake.sources[n].confirmed.isSome then
    match best with
    | none => some n
    | some b => if standsBefore s n b then some n else some b
  else best

/-- The first contender, when there is one (R121). -/
def winner (s : State) : Option SourceNo := (List.finRange 8).foldl (betterContender s) none

/-- The contents of the confirmed proposals of the sources that are not SILENT (R128). -/
def heardContents (s : State) : List LeapContent :=
  (List.finRange 8).filterMap fun n =>
    if isSilent s n then none else s.intake.sources[n].confirmed.map (·.content)

/-- At least two heard sources hold proposals of different content (R128). -/
def sourcesDisagree (s : State) : Bool :=
  match heardContents s with
  | [] => false
  | c :: cs => cs.any (· != c)

/-- Step 2 of a run: the indication brought up to date (R128). -/
def updateIndication (s : State) : State :=
  let d := sourcesDisagree s
  let s1 := s.setElection { s.election with disagree := d }
  if d && !s.election.disagree then raise [.sourcesDisagree] s1 else s1

/-- Steps 1 to 4 of a run: read, indication, contenders, snapshot claim (R120). -/
def startRun (s : State) : State :=
  let s1 := updateIndication s
  match winner s with
  | none => s1.setElection { s1.election with lastWinner := none, run := none }
  | some n =>
    match s.intake.sources[n].confirmed with
    | none => s1
    | some p => ask (.snapshot .election) (s1.setElection { s1.election with run := some (.awaitingSnapshot n p) })

/-- A run ends; a pending one then starts at once (R119). -/
def endRun (s : State) : State :=
  let s1 := s.setElection { s.election with run := none, runPending := false }
  if s.election.runPending then startRun s1 else s1

/-- A trigger is taken: a run starts, or run pending is set (R119). -/
def takeTrigger (s : State) : State :=
  match s.election.run with
  | none => startRun s
  | some _ => s.setElection { s.election with runPending := true }

/-- FLUSH at the Election Unit: the run in progress is abandoned and a new one starts (R130). -/
def flushElection (s : State) : State :=
  let s1 := abandonClaims .election s
  startRun (s1.setElection { s1.election with run := none, runPending := false })

/-- What a decision comes to (R123). -/
inductive Decision
  | nothing
  | dispute
  | send (r : Request)
  deriving DecidableEq, Repr

/-- The decision of a run on its snapshot (R123, R124, R125). -/
def decideRun (w : SourceNo) (p : Confirmed) (es : List Entry) : Decision :=
  match p.content, pendingCivil es with
  | .change k b, none => .send (.armCivil b k w p.gridDated)
  | .change k b, some e =>
    if e.boundary = b ∧ e.kind = .leap k then .nothing
    else if e.state = .frozen then .dispute
    else .send (.replace b k w p.gridDated)
  | .noChange, none => .nothing
  | .noChange, some e => if e.state = .frozen then .dispute else .send .withdrawCivil

/-- Steps 5 and 6 of a run on its snapshot (R120, R122, R123). -/
def electionSnapshot (sched : Schedule) (s : State) : State :=
  match s.election.run with
  | some (.awaitingSnapshot w p) =>
    let s1 := s.setElection { s.election with lastWinner := some w }
    match decideRun w p sched.entries with
    | .nothing => endRun s1
    | .dispute => endRun (raise [.dispute] s1)
    | .send r => request r .election (s1.setElection { s1.election with run := some (.awaitingAnswer w) })
  | _ => s

/-- The answers that a run reports as a dispute (R126). -/
def disputeAnswer : ListAnswer → Bool
  | .frozen => true
  | .offsetLimit => true
  | .full => true
  | _ => false

/-- The list's answer to a run's request (R126). -/
def electionAnswer (a : ListAnswer) (s : State) : State :=
  match s.election.run with
  | some (.awaitingAnswer _) => endRun (if disputeAnswer a then raise [.dispute] s else s)
  | _ => s

/-- ELECTION_TRIGGER (R119): the Election Unit takes the oldest trigger on its way; with none, nothing (log entry 3). -/
def execElectionTrigger (s : State) : Host.Outcome State Fault Refusal :=
  match s.wires.triggers with
  | [] => .next s
  | _ :: rest => .next (takeTrigger (s.setWires { s.wires with triggers := rest }))

/-- ELECTION_FLUSH (R130). -/
def execElectionFlush (s : State) : Host.Outcome State Fault Refusal :=
  match s.wires.electionFlushes with
  | 0 => .next s
  | n + 1 => .next (flushElection (s.setWires { s.wires with electionFlushes := n }))

end Sys2Proof.Machine
end

