-- ==== Sys2Proof/Machine/Flags.lean ====
section
/-! DEFINITION. Every flag computation of the part: the event word and its mask, the interrupt line, and the sticky
fault flags of a source. -/

namespace Sys2Proof.Machine

/-- The bit of an event in the event word and in the enable mask (R190, section 10.5). -/
def eventBit : Event → Nat
  | .commit => 0
  | .lateCommit => 1
  | .scheduleChange => 2
  | .freeze => 3
  | .dispute => 4
  | .sourcesDisagree => 5
  | .sourceSilent => 6
  | .sourceFault => 7
  | .timebaseChange => 8
  | .longHoldover => 9
  | .stepBack => 10
  | .accessFault => 11
  | .scheduleFull => 12
  | .historyDiscard => 13
  | .portTransfer => 14
  | .activation => 15

/-- The event word with one indication set (R190). -/
def withEvent (e : Event) (w : BitVec 16) : BitVec 16 := w ||| (1#16 <<< eventBit e)

/-- An indication of the event word. -/
def hasEvent (e : Event) (w : BitVec 16) : Bool := w.getLsbD (eventBit e)

/-- The Status Unit sets an indication of its event word (R190). -/
def setEvent (e : Event) (s : State) : State :=
  s.setStatus { s.status with eventWord := withEvent e s.status.eventWord }

/-- The interrupt line: asserted exactly when the event word ANDed with the mask is non-zero, and not while RESET is
asserted (R182, R193). -/
def interruptAsserted (s : State) : Bool :=
  !s.resetAsserted && (s.status.eventWord &&& s.status.config.glob.enableMask) != 0#16

/-- The sticky fault flags of a source, in the bit order of section 11.7 (R112). -/
inductive SourceFlag
  | malformed
  | overrun
  | offsetDisagree
  | offGrid
  | tooLate
  | tooFar
  deriving DecidableEq, Repr

/-- The bit of a fault flag (section 11.7, word 6). -/
def SourceFlag.bit : SourceFlag → Nat
  | .malformed => 0
  | .overrun => 1
  | .offsetDisagree => 2
  | .offGrid => 3
  | .tooLate => 4
  | .tooFar => 5

/-- The flags with one set (R112). -/
def withFlag (f : SourceFlag) (w : BitVec 6) : BitVec 6 := w ||| (1#6 <<< SourceFlag.bit f)

/-- Set a fault flag of source `n` and raise SOURCE-FAULT, whether or not the flag was set (R112). -/
def sourceFault (n : SourceNo) (f : SourceFlag) (s : State) : State :=
  raise [.sourceFault] (updSource n (fun src => { src with flags := withFlag f src.flags }) s)

end Sys2Proof.Machine
end

