-- ==== Sys2Proof/Machine/Intake.lean ====
section
/-! DEFINITION. The Intake Unit: staging and closing, queues, the qualifier and its steps, dispositions, silence, stale
proposals and FLUSH (spec/05_announcement_intake.md, layout in section 11.4). -/

namespace Sys2Proof.Machine

/-! ## Staging and queues (R93, R96) -/

/-- A staging word with one byte written: absent becomes present with its other bytes 0 (R93). -/
def stageByte (w : Option Word) (i : Nat) (b : Byte) : Option Word := some (setWordByte (w.getD 0#64) i b)

/-- One byte written at byte `j` of a slot's words 0 to 2 (R93). -/
def Staging.write (st : Staging) (j : Nat) (b : Byte) : Staging :=
  if j < 8 then { st with w0 := stageByte st.w0 j b }
  else if j < 16 then { st with w1 := stageByte st.w1 (j - 8) b }
  else if j < 24 then { st with w2 := stageByte st.w2 (j - 16) b }
  else st

/-- One written byte of source `n`'s slot is staged, unless the source is DISABLED (R93). -/
def stageWrite (n : SourceNo) (j : Nat) (b : Byte) (s : State) : State :=
  if s.intake.sources[n].state = .disabled then s
  else updSource n (fun src => { src with staging := src.staging.write j b }) s

/-- The sequence in word 0 of an announcement record (section 11.4). -/
def annSeq (w0 : Word) : BitVec 16 := field w0 7 16

/-- Set a source's last disposition (R111). -/
def dispose (n : SourceNo) (o : DispositionOutcome) (seq : BitVec 16) (a : Option ListAnswer) (s : State) : State :=
  updSource n (fun src => { src with disposition := { outcome := o, seq := some seq, answer := a } }) s

/-- The configured depth of a source's queue (R96). -/
def queueDepth (s : State) (n : SourceNo) : Nat := if s.status.config.sources[n].deep then 2 else 1

/-- An accepted record joins its queue, or replaces the youngest queued record (R96). -/
def joinQueue (n : SourceNo) (r : Record) (s : State) : State :=
  if s.intake.sources[n].queue.length < queueDepth s n then
    updSource n (fun src => { src with queue := src.queue ++ [r] }) s
  else sourceFault n .overrun (updSource n (fun src => { src with queue := src.queue.dropLast ++ [r] }) s)

/-! ## The fields of a record (section 11.4) and the validity step (R101) -/

/-- What a valid record says (R101). -/
inductive Announcement
  | leap (offset : Option Int) (change : Option (LeapKind × Option Second))
  | zone (c : Content)
  deriving DecidableEq, Repr

/-- The offset field of word 1 (section 11.4). -/
def annOffset (w1 : Word) : Int := (field w1 7 32).toInt

/-- The boundary field of word 2 (section 11.4). -/
def annBoundary (w2 : Word) : Second := field w2 7 48

/-- The reported civil offset of a LEAP-STATE record: not used when OFFSET-VALID is clear; MALFORMED (`none`) when it
is used and absent or out of range (R101). -/
def leapOffset (valid : Bool) (w1 : Option Word) : Option (Option Int) :=
  if valid then
    match w1 with
    | none => none
    | some w => if Config.civilMin ≤ annOffset w ∧ annOffset w ≤ Config.civilMax then some (some (annOffset w)) else none
  else some none

/-- The announced change of a LEAP-STATE record: kind, and the boundary when BOUNDARY-PRESENT is set; `none` when
MALFORMED (R101). -/
def leapChange (pendingKind : Byte) (present : Bool) (w2 : Option Word) : Option (Option (LeapKind × Option Second)) :=
  if pendingKind = 0#8 then some none
  else if pendingKind = 1#8 ∨ pendingKind = 2#8 then
    let k : LeapKind := if pendingKind = 1#8 then .insert else .delete
    if present then w2.map fun w => some (k, some (annBoundary w)) else some (some (k, none))
  else none

/-- The zone named by a zone record: below the zone count (R101). -/
def annZone (zones : Nat) (index : Byte) : Option ZoneNo :=
  if h : index.toNat < 4 then (if index.toNat < zones then some ⟨index.toNat, h⟩ else none) else none

/-- A zone record's content (R101). -/
def zoneContent (set : Bool) (zones : Nat) (index : Byte) (w1 w2 : Option Word) : Option Content :=
  match annZone zones index, w2 with
  | some k, some b =>
    if set then
      match w1 with
      | none => none
      | some w =>
        if -Config.zoneLimit ≤ annOffset w ∧ annOffset w ≤ Config.zoneLimit then
          some (.zoneSet k (annBoundary b) (annOffset w))
        else none
    else some (.zoneCancel k (annBoundary b))
  | _, _ => none

/-- The validity step: what the record says, or `none` when it is MALFORMED (R101). -/
def readRecord (zones : Nat) (kind : SourceKind) (st : Staging) : Option Announcement :=
  match st.w0 with
  | none => none
  | some w0 =>
    let recordKind : Byte := field w0 0 8
    let flags : Byte := field w0 1 8
    if recordKind = 1#8 then
      match leapOffset (flags.getLsbD 0) st.w1, leapChange (field w0 2 8) (flags.getLsbD 1) st.w2 with
      | some o, some c => some (.leap o c)
      | _, _ => none
    else if (recordKind = 2#8 ∨ recordKind = 3#8) ∧ kind = .localSource then
      (zoneContent (recordKind = 2#8) zones (field w0 3 8) st.w1 st.w2).map .zone
    else none

/-! ## The heard step (R102) -/

/-- The heard step (R102). -/
def hear (n : SourceNo) (arrival : Second) (s : State) : State :=
  let was := s.intake.sources[n].state
  let s1 := updSource n (fun src => { src with
    lastHeard := some arrival
    state := if src.state = .waiting ∨ src.state = .silent then .listening else src.state }) s
  if was = .silent then s1.setWires { s1.wires with triggers := s1.wires.triggers ++ [.leavingSilent n] } else s1

/-! ## Spacing and counting (R107, R108, R109, R110) -/

/-- The record is TOO-SOON (R107). -/
def tooSoon (spacing : Nat) (last : Option Second) (arrival : Second) : Bool :=
  match last with
  | none => false
  | some l => decide (spacing ≠ 0) && decide ((arrival.toNat : Int) - l.toNat < spacing)

/-- Spacing M (R107). -/
def spacing (s : State) : Nat := s.status.config.glob.spacing.toNat

/-- Confirmation count K of a source (R108). -/
def confirmCount (s : State) (n : SourceNo) : Nat := s.status.config.sources[n].confirm.toNat

/-- The candidate after a record of content `c` is counted (R108). -/
def countCandidate (k : Nat) (old : Option Candidate) (c : Content) (dated : Bool) : Candidate :=
  match old with
  | none => { content := c, count := 1, gridDated := dated }
  | some o =>
    if o.content = c then { content := c, count := min (o.count + 1) k, gridDated := o.gridDated && dated }
    else { content := c, count := 1, gridDated := dated }

/-- The candidate had already reached K with this content (R108). -/
def alreadyAtK (k : Nat) (old : Option Candidate) (c : Content) : Bool :=
  match old with
  | none => false
  | some o => o.content == c && decide (k ≤ o.count)

/-- The lower of the arrival second and S (R108, R114). -/
def countedSecond (arrival s : Second) : Second := if s.toNat < arrival.toNat then s else arrival

/-- The counting step's effect on the source: candidate and last counted second (R108). -/
def count (n : SourceNo) (c : Content) (dated : Bool) (arrival : Second) (s : State) : State :=
  updSource n (fun src => { src with
    candidate := some (countCandidate (confirmCount s n) src.candidate c dated)
    lastCounted := some (countedSecond arrival s.sup.s) }) s

/-- A leap record counted, and confirmed when the count reaches K (R108, R109). -/
def countLeap (n : SourceNo) (seq : BitVec 16) (arrival : Second) (c : LeapContent) (dated : Bool) (s : State) :
    State :=
  let k := confirmCount s n
  let old := s.intake.sources[n]
  let cand := countCandidate k old.candidate (.leap c) dated
  let s1 := count n (.leap c) dated arrival s
  if k ≤ cand.count then
    let s2 := updSource n (fun src => { src with confirmed := some { content := c, gridDated := cand.gridDated } }) s1
    let s3 := dispose n (if alreadyAtK k old.candidate (.leap c) then .counted else .confirmed) seq none s2
    if old.confirmed.any (fun p => p.content == c) then s3
    else s3.setWires { s3.wires with triggers := s3.wires.triggers ++ [.proposalChanged n] }
  else dispose n .counted seq none s1

/-- The request of a confirmed zone record (R110). -/
def zoneRequest (n : SourceNo) : Content → Option Request
  | .zoneSet k b new => some (.armZone k b new n)
  | .zoneCancel k b => some (.withdrawZone k b)
  | .leap _ => none

/-- The qualifier becomes free (R98, R99). -/
def freeQualifier (s : State) : State := s.setIntake { s.intake with qualifier := none }

/-- A zone record: spacing and counting, and its request when the count reaches K (R99, R107, R110). -/
def zoneSteps (n : SourceNo) (seq : BitVec 16) (arrival : Second) (c : Content) (s : State) : State :=
  let src := s.intake.sources[n]
  if tooSoon (spacing s) src.lastCounted arrival then freeQualifier (dispose n .tooSoon seq none s)
  else
    let s1 := count n c false arrival s
    if confirmCount s n ≤ (countCandidate (confirmCount s n) src.candidate c false).count then
      let s2 := updSource n (fun src => { src with candidate := none }) s1
      match zoneRequest n c with
      | some r =>
        request r .qualifier (s2.setIntake { s2.intake with
          qualifier := some { source := n, seq := seq, arrival := arrival, work := .zoneAnswer } })
      | none => freeQualifier s2
    else freeQualifier (dispose n .counted seq none s1)

/-! ## The take (R98) -/

/-- The better of the waiting source found so far and source `n` (R98). -/
def betterWaiting (s : State) (best : Option SourceNo) (n : SourceNo) : Option SourceNo :=
  if s.intake.sources[n].queue.isEmpty then best
  else
    match best with
    | none => some n
    | some b =>
      if s.status.config.sources[b].priority.toNat < s.status.config.sources[n].priority.toNat then some n else some b

/-- The waiting source of highest priority, the lowest number among equals (R98). -/
def nextSource (s : State) : Option SourceNo := (List.finRange 8).foldl (betterWaiting s) none

/-- The record in the qualifier: validity and heard steps, then one of the three ways of R99. -/
def handleRecord (n : SourceNo) (r : Record) (s : State) : State :=
  let arrival := if r.preAcquisition then s.sup.s else r.arrival
  match readRecord (zoneCount s) s.status.config.sources[n].kind r.words with
  | none => dispose n .malformed r.seq none (sourceFault n .malformed s)
  | some (.leap none _) =>
    dispose n .unusable r.seq none (updSource n (fun src => { src with candidate := none }) (hear n arrival s))
  | some (.leap (some o) change) =>
    let s1 := hear n arrival s
    ask (.lookup .qualifier) (s1.setIntake { s1.intake with
      qualifier := some { source := n, seq := r.seq, arrival := arrival, work := .leap o change } })
  | some (.zone c) => zoneSteps n r.seq arrival c (hear n arrival s)

/-- The conditions of a take (R98). -/
def canTake (s : State) : Bool := isActive s && s.sup.timeBase != .unset && s.intake.qualifier.isNone

/-- The qualifier takes the head record of the next source, when it can (R98). -/
def takeRecord (s : State) : State :=
  if canTake s then
    match nextSource s with
    | none => s
    | some n =>
      match s.intake.sources[n].queue with
      | [] => s
      | r :: rest => handleRecord n r (updSource n (fun src => { src with queue := rest }) s)
  else s

/-- The records in all queues. -/
def queuedRecords (s : State) : Nat := ((List.finRange 8).map fun n => s.intake.sources[n].queue.length).sum

/-- At most `n` records taken one after another, each when the qualifier can. -/
def takeRecords : Nat → State → State
  | 0, s => s
  | n + 1, s => takeRecords n (takeRecord s)

/-- The qualifier takes a record when it can, and where its handling is complete at once the next one, until it waits or none
is left: the takes of the first moment at which their conditions hold (R98, R99). -/
def qualifierTake (s : State) : State := takeRecords (queuedRecords s) s

/-! ## Closing (R94, R95, R166) -/

/-- A closing with sequence echo `echo` (R94, R95); an accepted record is taken at once when the qualifier can (R98). -/
def closeRecord (n : SourceNo) (echo : BitVec 16) (s : State) : State :=
  let src := s.intake.sources[n]
  if src.state = .disabled then s
  else
    match src.staging.w0 with
    | none => dispose n .malformed echo none (sourceFault n .malformed s)
    | some w0 =>
      if echo ≠ annSeq w0 then dispose n .malformed (annSeq w0) none (sourceFault n .malformed s)
      else if src.lastSeq = some echo then s
      else
        qualifierTake (joinQueue n
          { words := src.staging, seq := echo, arrival := s.sup.s, preAcquisition := s.sup.timeBase == .unset }
          (updSource n (fun src => { src with lastSeq := some echo }) s))

/-- One word-aligned part of an intake write, handed over (R93, R94, R166): bytes of slot `n` from byte `j` of word
`w`. All 8 bytes of word 3 close the record; a part of word 3 closes nothing. -/
def intakeWord (n : SourceNo) (w j : Nat) (d : List Byte) (s : State) : State :=
  if w = 3 then
    if d.length = 8 then closeRecord n (field (bytesWord d) 7 16) s else s
  else (d.zipIdx).foldl (fun s bi => stageWrite n (8 * w + j + bi.2) bi.1 s) s

/-- An intake write handed over word by word in ascending order; `off` is its offset from 0800h, `count` the words of
8 bytes still to hand over (R94, R166). -/
def intakeWords : Nat → Nat → List Byte → State → State
  | 0, _, _, s => s
  | count + 1, off, d, s =>
    intakeWords count (off + (8 - off % 8)) (d.drop (8 - off % 8))
      (intakeWord (Fin.ofNat 8 (off / 0x20)) (off / 8 % 4) (off % 8) (d.take (8 - off % 8)) s)

/-! ## The steps on a lookup answer (R103 to R109) -/

/-- The day grid G (R104). -/
def gridOf (s : State) : Int := s.status.config.glob.grid.toNat

/-- A given boundary is on-grid for its kind (R104). -/
def onGrid (g d : Int) (k : LeapKind) (b : Int) : Bool :=
  match k with
  | .insert => decide ((b - d) % g = 0)
  | .delete => decide ((b - d + 1) % g = 0)

/-- The smallest on-grid boundary greater than the arrival second (R105). -/
def datedBoundary (g d a : Int) : LeapKind → Int
  | .insert => d + g * ((a - d) / g + 1)
  | .delete => d - 1 + g * ((a - d + 1) / g + 1)

/-- The range step (R106): the fault it finds, if any. -/
def rangeFault (lMin lMax a b : Int) (listHorizon copy : Option Second) : Option SourceFlag :=
  if b - a ≤ lMin ∨ atOrBelow b listHorizon ∨ atOrBelow b copy then some .tooLate
  else if lMax < b - a ∨ (Config.maxSecond : Int) < b then some .tooFar
  else none

/-- The outcome that goes with a fault flag (R111). -/
def flagOutcome : SourceFlag → DispositionOutcome
  | .malformed => .malformed
  | .overrun => .none
  | .offsetDisagree => .offsetDisagree
  | .offGrid => .offGrid
  | .tooLate => .tooLate
  | .tooFar => .tooFar

/-- A record refused with a fault: flag, SOURCE-FAULT and disposition (R103, R104, R106). -/
def refuseRecord (n : SourceNo) (seq : BitVec 16) (f : SourceFlag) (s : State) : State :=
  dispose n (flagOutcome f) seq none (sourceFault n f s)

/-- Spacing and counting of a leap record (R107, R108). -/
def leapCountSteps (n : SourceNo) (seq : BitVec 16) (arrival : Second) (c : LeapContent) (dated : Bool) (s : State) :
    State :=
  if tooSoon (spacing s) s.intake.sources[n].lastCounted arrival then dispose n .tooSoon seq none s
  else countLeap n seq arrival c dated s

/-- Content and range steps of a record that announces a change (R104 to R106), `d` its reported offset. -/
def changeSteps (n : SourceNo) (seq : BitVec 16) (arrival : Second) (d : Int) (k : LeapKind) (given : Option Second)
    (listHorizon : Option Second) (s : State) : State :=
  let a : Int := arrival.toNat
  let g := gridOf s
  let b : Int := match given with
    | some x => x.toNat
    | none => datedBoundary g d a k
  if given.isSome && !onGrid g d k b then refuseRecord n seq .offGrid s
  else
    match rangeFault s.status.config.glob.minLead.toNat s.status.config.glob.horizon.toNat a b listHorizon
        s.intake.civilHorizon with
    | some f => refuseRecord n seq f s
    | none => leapCountSteps n seq arrival (.change k (BitVec.ofInt 48 b)) given.isNone s

/-- The steps of a LEAP-STATE record on its lookup answer: offset step, then content, range, spacing and counting steps
(R99, R103). -/
def leapSteps (sched : Schedule) (n : SourceNo) (seq : BitVec 16) (a : Second) (d : Int)
    (change : Option (LeapKind × Option Second)) (s : State) : State :=
  if (lookup sched a.toNat).map (·.civil) ≠ some d then refuseRecord n seq .offsetDisagree s
  else
    match change with
    | none => leapCountSteps n seq a .noChange false s
    | some (k, given) => changeSteps n seq a d k given (civilAppliedHorizon sched.entries) s

/-- The lookup answer of the record in the qualifier: its handling is complete, and the next record is taken at once (R98,
R99). -/
def qualifierLookup (sched : Schedule) (s : State) : State :=
  match s.intake.qualifier with
  | some { source := n, seq := seq, arrival := a, work := .leap d change } =>
    qualifierTake (leapSteps sched n seq a d change (freeQualifier s))
  | _ => s

/-! ## The list's answer to a zone request (R110) -/

/-- The answer is an acceptance (R17). -/
def isAcceptance : ListAnswer → Bool
  | .armed => true
  | .armedFrozen => true
  | .replacedArmed => true
  | .replacedFrozen => true
  | .withdrawn => true
  | .unchanged => true
  | _ => false

/-- The list's answer recorded as the source's disposition (R110, R111). -/
def recordAnswer (n : SourceNo) (seq : BitVec 16) (ans : ListAnswer) (s : State) : State :=
  if isAcceptance ans then dispose n .confirmed seq (some ans) s
  else
    raise (.sourceFault :: (if ans = .full then [.scheduleFull] else []))
      (dispose n .refused seq (some ans) s)

/-- The list's answer to the qualifier's request: its handling is complete, and the next record is taken at once (R98, R99,
R110). -/
def qualifierAnswer (ans : ListAnswer) (s : State) : State :=
  match s.intake.qualifier with
  | some { source := n, seq := seq, arrival := _, work := .zoneAnswer } =>
    qualifierTake (recordAnswer n seq ans (freeQualifier s))
  | _ => s

/-! ## Changes of S, civil commits, FLUSH (R113 to R116) -/

/-- A stored second brought down to the new S (R114). -/
def lower (new : Second) (x : Second) : Second := if new.toNat < x.toNat then new else x

/-- A source after the adjustments of a backward change (R114). -/
def lowerSource (new : Second) (src : Source) : Source :=
  { src with lastHeard := src.lastHeard.map (lower new), lastCounted := src.lastCounted.map (lower new),
             queue := src.queue.map fun r => { r with arrival := lower new r.arrival } }

/-- A LISTENING source becomes SILENT at the new S (R113). -/
def fallsSilent (timeout : Nat) (new : Second) (src : Source) : Bool :=
  src.state == .listening &&
    match src.lastHeard with
    | none => false
    | some h => decide (h.toNat ≤ new.toNat ∧ timeout ≤ new.toNat - h.toNat)

/-- The Intake Unit takes a change of S (R113, R114). -/
def intakeChange (c : SChange) (s : State) : State :=
  let lowered := if c.after.toNat < c.before.toNat then mapSources (fun _ => lowerSource c.after) s.intake.sources
    else s.intake.sources
  let timeout := s.status.config.glob.silence.toNat
  let silent := (List.finRange 8).filter fun n => fallsSilent timeout c.after lowered[n]
  let judged := mapSources (fun _ src => if fallsSilent timeout c.after src then { src with state := .silent } else src)
    lowered
  let s1 := s.setIntake { s.intake with sources := judged }
  if silent.isEmpty then s1
  else raise [.sourceSilent] (s1.setWires { s1.wires with triggers := s1.wires.triggers ++ [.enteringSilent silent] })

/-- A content dated at or below a second (R115). -/
def Content.staleAt (x : Second) : Content → Bool
  | .leap .noChange => false
  | .leap (.change _ b) => decide (b.toNat ≤ x.toNat)
  | .zoneSet _ b _ => decide (b.toNat ≤ x.toNat)
  | .zoneCancel _ b => decide (b.toNat ≤ x.toNat)

/-- A source with its stale proposals cleared (R115). -/
def clearStale (x : Second) (src : Source) : Source :=
  { src with candidate := src.candidate.filter (fun c => !c.content.staleAt x)
             confirmed := src.confirmed.filter (fun p => !(Content.leap p.content).staleAt x) }

/-- The civil horizon copy raised to a boundary (R115). -/
def raiseHorizon (b : Second) : Option Second → Option Second
  | none => some b
  | some h => if h.toNat < b.toNat then some b else some h

/-- The Intake Unit takes a civil-commit notice and passes it on (R115, R118). -/
def civilCommit (c : CivilCommit) (s : State) : State :=
  let s1 := s.setIntake { s.intake with
    civilHorizon := raiseHorizon c.boundary s.intake.civilHorizon
    sources := mapSources (fun _ => clearStale c.s) s.intake.sources }
  s1.setWires { s1.wires with triggers := s1.wires.triggers ++ [.civilCommit] }

/-- A source after FLUSH (R91, R116). -/
def flushSource (src : Source) : Source :=
  { src with queue := [], candidate := none, confirmed := none, lastSeq := none, lastCounted := none }

/-- FLUSH at the Intake Unit, handed on to the Election Unit (R100, R116). -/
def flushIntake (s : State) : State :=
  let s1 := abandonClaims .qualifier s
  let s2 := s1.setIntake { s1.intake with qualifier := none, sources := mapSources (fun _ => flushSource) s1.intake.sources }
  s2.setWires { s2.wires with electionFlushes := s2.wires.electionFlushes + 1 }

/-- QUALIFIER_TAKE (R98): the take at the first moment, which the commands that bring that moment about make in their own
step; with no record to take, nothing (log entries 3 and 4). -/
def execQualifierTake (s : State) : Host.Outcome State Fault Refusal := .next (qualifierTake s)

/-- INTAKE_CHANGE_OF_S (R113). -/
def execIntakeChangeOfS (s : State) : Host.Outcome State Fault Refusal :=
  match s.wires.intakeS with
  | [] => .next s
  | c :: rest => .next (intakeChange c (s.setWires { s.wires with intakeS := rest }))

/-- CIVIL_COMMIT_NOTICE (R115). -/
def execCivilCommitNotice (s : State) : Host.Outcome State Fault Refusal :=
  match s.wires.civilCommits with
  | [] => .next s
  | c :: rest => .next (civilCommit c (s.setWires { s.wires with civilCommits := rest }))

end Sys2Proof.Machine
end

