-- ==== Sys2Proof/Machine/Operands.lean ====
section
/-! DEFINITION. Every form an access can take: where its bytes lie, its window, and the four checks of section 8.3
that accept it or name its refusal (R153, R156, R158 to R163). -/

namespace Sys2Proof.Machine

/-! ## Where the bytes of an access lie -/

/-- Bytes the access covers. -/
def accessLen (a : Access) : Nat := a.shape.bytes

/-- The bytes a write carries (log entry 6). -/
def accessBytes (a : Access) : List Byte := fit (accessLen a) a.data

/-- First system address of the region (R153). -/
def regionBase (s : State) : Nat := s.straps.page.toNat * 0x10000

/-- At least one byte of the access lies in the system addresses from `base + lo` to `base + hi`. -/
def touches (a : Access) (base lo hi : Nat) : Bool :=
  decide (a.addr.toNat ≤ base + hi ∧ base + lo < a.addr.toNat + accessLen a)

/-- The access is in the region (R153). -/
def inRegion (a : Access) (base : Nat) : Bool := touches a base 0 0xFFFF

/-- The region offset of an access in the region: of the first of its bytes that lies there (R153). -/
def regionOff (a : Access) (base : Nat) : Nat := if a.addr.toNat < base then 0 else a.addr.toNat - base

/-- The system address of a region offset. -/
def systemAddress (base off : Nat) : Address := BitVec.ofNat 24 (base + off)

/-- An access of a row that names a region offset. -/
def regionAccess (s : State) (m : Master) (off : Offset) (dir : Dir) (shape : Shape) (data : List Byte) : Access :=
  { master := m, addr := systemAddress (regionBase s) off.toNat, dir := dir, shape := shape, data := data }

/-! ## Windows (R156) -/

/-- The windows of the region. -/
inductive Window
  | config
  | intake
  | status
  | announce
  | views
  | unassigned
  deriving DecidableEq, Repr

/-- The window that holds a region offset (R156). -/
def windowOf (off : Nat) : Window :=
  if off ≤ 0x03FF then .config
  else if 0x0800 ≤ off ∧ off ≤ 0x08FF then .intake
  else if 0x1000 ≤ off ∧ off ≤ 0x1FFF then .status
  else if 0x2000 ≤ off ∧ off ≤ 0x23FF then .announce
  else if 0x8000 ≤ off ∧ off ≤ 0xEFFF then .views
  else .unassigned

/-- First and last offset of a window (R156). -/
def Window.range : Window → Nat × Nat
  | .config => (0x0000, 0x03FF)
  | .intake => (0x0800, 0x08FF)
  | .status => (0x1000, 0x1FFF)
  | .announce => (0x2000, 0x23FF)
  | .views => (0x8000, 0xEFFF)
  | .unassigned => (0, 0)

/-- The command word (R156). -/
def commandOffset : Nat := 0x1FF8

/-- The view a time-view offset lies in (R30). -/
def viewOf (off : Nat) : Fin 7 := Fin.ofNat 7 ((off - 0x8000) / 0x1000)

/-- The record a time-view offset lies in (R30). -/
def recordOf (off : Nat) : BitVec 8 := BitVec.ofNat 8 (off / 0x10)

/-- Region offset of a record's view-0 location (R30). -/
def view0Offset (r : BitVec 8) : Nat := 0x8000 + r.toNat * 0x10

/-! ## The four checks (R158) -/

/-- A single beat of 8 bytes; a burst of 1 beat is treated as one (R160). -/
def isEight : Shape → Bool
  | .beat .eight => true
  | .burst 0 => true
  | _ => false

/-- The address step (R159). -/
def addressStep (s : State) (a : Access) (off : Nat) : Option FaultKind :=
  match windowOf off with
  | .unassigned => some .badAddress
  | .views =>
    let v := (viewOf off).val
    if 2 ≤ v ∧ v ≤ 5 ∧ ¬ v - 2 < zoneCount s then some .badAddress else none
  | .status => if a.dir = .write ∧ off ≠ commandOffset then some .badAddress else none
  | _ => none

/-- The shapes of section 8.3 for the time views (R160). -/
def viewShapeOk (a : Access) : Bool :=
  (isEight a.shape && a.addr.toNat % 8 == 0) || (a.shape == .burst 1 && a.addr.toNat % 16 == 0)

/-- The shapes of section 8.3 for the other windows, size and alignment (R161). -/
def plainShapeOk (a : Access) : Bool :=
  match a.shape with
  | .beat .eight => a.addr.toNat % 8 == 0
  | .beat .four => a.addr.toNat % 4 == 0
  | .burst _ => a.addr.toNat % 8 == 0
  | _ => false

/-- The whole access lies in the window of its region offset (R161). -/
def staysInWindow (base : Nat) (a : Access) (w : Window) : Bool :=
  decide (base + w.range.1 ≤ a.addr.toNat ∧ a.addr.toNat + accessLen a ≤ base + w.range.2 + 1)

/-- The shape step (R160, R161). -/
def shapeStep (s : State) (a : Access) (off : Nat) : Option FaultKind :=
  let w := windowOf off
  let ok : Bool := match w with
    | .views => viewShapeOk a
    | .status => plainShapeOk a && staysInWindow (regionBase s) a w && (a.dir == .read || isEight a.shape)
    | _ => plainShapeOk a && staysInWindow (regionBase s) a w
  if ok then none else some .badSize

/-- Intake slot `n` is covered by the access (R93). -/
def coversSlot (base : Nat) (a : Access) (n : SourceNo) : Bool :=
  touches a base (0x0800 + n.val * 0x20) (0x0800 + n.val * 0x20 + 0x1F)

/-- The master owns every slot the write covers (R162). -/
def ownsSlots (s : State) (a : Access) : Bool :=
  (List.finRange 8).all fun n =>
    !coversSlot (regionBase s) a n || s.status.config.sources[n].owner == a.master

/-- The ownership step (R162). -/
def ownershipStep (s : State) (a : Access) (off : Nat) : Option FaultKind :=
  match a.dir with
  | .read => none
  | .write =>
    match windowOf off with
    | .config =>
      if a.master ≠ s.straps.control then some .notOwner
      else if touches a (regionBase s) 0x0000 0x01FF then some .configLocked
      else none
    | .intake => if ownsSlots s a then none else some .notOwner
    | .status => if a.master = s.straps.control then none else some .notOwner
    | .announce => if a.master = s.straps.control then none else some .notOwner
    | .views =>
      if recordOf off = 0#8 ∧ ¬ (a.master = s.status.config.glob.clockMaster ∧ viewOf off = 0) then some .notOwner
      else none
    | .unassigned => none

/-- The view-write step (R163). -/
def viewWriteStep (a : Access) (off : Nat) : Option FaultKind :=
  if a.dir = .write ∧ windowOf off = .views then
    if viewOf off = 6 then some .viewReadOnly
    else if viewOf off ≠ 0 ∧ isEight a.shape then some .splitWrite
    else none
  else none

/-- The four steps in order; the first that fails names the refusal (R158). -/
def checkAccess (s : State) (a : Access) : Option FaultKind :=
  let off := regionOff a (regionBase s)
  addressStep s a off <|> shapeStep s a off <|> ownershipStep s a off <|> viewWriteStep a off

/-- The access touches at least one byte of the status page (R157). -/
def touchesStatus (s : State) (a : Access) : Bool := touches a (regionBase s) 0x1000 0x1FFF

/-- The accesses that are checked: every access in the region while ACTIVE, status-page accesses in both part states
(R157, R158). -/
def isChecked (s : State) (a : Access) : Bool :=
  inRegion a (regionBase s) && (s.status.part == .active || touchesStatus s a)

end Sys2Proof.Machine
end

