-- ==== Sys2Proof/Machine/PortPatcher.lean ====
section
/-! DEFINITION. The Port Patcher: patched words of an announcement block, policy transfers and their triggers, and the
QUIET judgement (spec/07_port_announcements.md, layout in section 11.5). -/

namespace Sys2Proof.Machine

/-! ## The patched words (R136 to R143) -/

/-- The zone of a policy (R132). -/
def Policy.zoneNo (p : Policy) : ZoneNo := p.zone.toFin

/-- Word `w` of a block is patched under a policy (R136). -/
def isPatched (p : Policy) (w : Nat) : Bool := p.enabled && decide (w < 6) && p.mask.getLsbD w

/-- The announced civil entry: the civil entry of smallest boundary with 0 < B - S ≤ lead (R139). -/
def announcedCivil (p : Policy) (s : Second) (es : List Entry) : Option Entry :=
  es.find? fun e =>
    e.scale == .civil && decide (s.toNat < e.boundary.toNat ∧ e.boundary.toNat ≤ s.toNat + p.lead.toNat)

/-- The recent civil entry: the civil entry of largest boundary with 0 ≤ S - B < hold (R140). -/
def recentCivil (p : Policy) (s : Second) (es : List Entry) : Option Entry :=
  (es.filter fun e =>
    e.scale == .civil && decide (e.boundary.toNat ≤ s.toNat ∧ s.toNat < e.boundary.toNat + p.hold.toNat)).getLast?

/-- The pending zone entry of the port's zone: the earliest one above S, when it lies within the lead (R141). -/
def pendingZone (p : Policy) (s : Second) (es : List Entry) : Option Entry :=
  match es.find? fun e => e.scale == .zone p.zoneNo && decide (s.toNat < e.boundary.toNat) with
  | none => none
  | some e => if e.boundary.toNat ≤ s.toNat + p.lead.toNat then some e else none

/-- The code of a time-base state (section 11.2). -/
def TimeBase.code : TimeBase → Byte
  | .unset => 0#8
  | .acquiring => 1#8
  | .locked => 2#8
  | .flywheel => 3#8

/-- OFFSET-VALID (R138). -/
def offsetValid : TimeBase → Bool
  | .locked => true
  | .flywheel => true
  | _ => false

/-- The presented scale code: the scale field, with the zone in bits 4 and 5 when it is ZONE (R132, section 11.5). -/
def scaleCode (p : Policy) : Byte :=
  if p.scale = 2#4 then p.scale.setWidth 8 ||| (p.zone.setWidth 8 <<< 4) else p.scale.setWidth 8

/-- Word 0, the civil word (R138). -/
def civilWord (sm : PatchSample) (p : Policy) (sched : Schedule) : Word :=
  let a := announcedCivil p sm.s sched.entries
  place 1 (BitVec.ofInt 16 (presentedOffset sched .civil)) |||
    placeBit 2 0 (offsetValid sm.timeBase) |||
    placeBit 2 1 (a.any fun e => e.kind == .leap .insert) |||
    placeBit 2 2 (a.any fun e => e.kind == .leap .delete) |||
    placeBit 2 3 (recentCivil p sm.s sched.entries).isSome |||
    placeBit 2 4 (a.any fun e => e.state == .frozen) |||
    place 3 (scaleCode p)

/-- Word 1, the countdown (R139). -/
def countdownWord (sm : PatchSample) (p : Policy) (sched : Schedule) : Word :=
  match announcedCivil p sm.s sched.entries with
  | none => 0#64
  | some e => BitVec.ofNat 64 (e.boundary.toNat - sm.s.toNat)

/-- Word 2, the boundary (R139). -/
def boundaryWord (sm : PatchSample) (p : Policy) (sched : Schedule) : Word :=
  match announcedCivil p sm.s sched.entries with
  | none => 0#64
  | some e => place 7 e.boundary

/-- Word 3, the zone word (R141). -/
def zoneWord (sm : PatchSample) (p : Policy) (sched : Schedule) : Word :=
  let z := pendingZone p sm.s sched.entries
  place 2 (BitVec.ofInt 24 (presentedOffset sched (.zone p.zoneNo))) |||
    placeBit 3 0 z.isSome |||
    match z with
    | none => 0#64
    | some e => place 6 (BitVec.ofInt 24 e.new)

/-- Word 4, the zone boundary (R141). -/
def zoneBoundaryWord (sm : PatchSample) (p : Policy) (sched : Schedule) : Word :=
  match pendingZone p sm.s sched.entries with
  | none => 0#64
  | some e => place 7 e.boundary

/-- Word 5, the state stamp (R142). -/
def stampWord (sm : PatchSample) : Word := place 1 sm.timeBase.code ||| place 7 sm.s

/-- The patched form of words 0 to 5 (R138 to R142). -/
def patchedWord (sm : PatchSample) (p : Policy) (sched : Schedule) (w : Nat) : Word :=
  match w with
  | 0 => civilWord sm p sched
  | 1 => countdownWord sm p sched
  | 2 => boundaryWord sm p sched
  | 3 => zoneWord sm p sched
  | 4 => zoneBoundaryWord sm p sched
  | _ => stampWord sm

/-! ## One read of the window (R135, R137) -/

/-- The sample taken when the read arrives (R135; log entry 27). -/
def patchSample (s : State) : PatchSample :=
  { s := s.sup.s, timeBase := s.sup.timeBase, policies := Vector.ofFn fun p => s.patcher.ports[p].active }

/-- The policy sampled for word `j` of the window, `j` counted from its start. -/
def policyOfWord (sm : PatchSample) (j : Nat) : Policy := sm.policies[(Fin.ofNat 16 (j / 8) : PortNo)]

/-- The words of the window that an access at `rel`, counted from its start, covers. -/
def wordsCovered (rel len : Nat) : List Nat :=
  (List.range ((rel + len - 1) / 8 + 1)).filter fun j => decide (rel / 8 ≤ j)

/-- The ports whose blocks the access touches, ascending (R135 step 3). -/
def blocksTouched (rel len : Nat) : List Nat :=
  (List.range ((rel + len - 1) / 64 + 1)).filter fun p => decide (rel / 64 ≤ p)

/-- A snapshot is needed: a word among words 0 to 4 is covered and patched (R135 step 2). -/
def needsSnapshot (sm : PatchSample) (rel len : Nat) : Bool :=
  (wordsCovered rel len).any fun j => decide (j % 8 ≤ 4) && isPatched (policyOfWord sm j) (j % 8)

/-- Word `j` of the window as the read forms it (R136); `blocks` holds the memory bytes from block `first` on. -/
def formedWord (sm : PatchSample) (sched : Schedule) (blocks : List Byte) (first j : Nat) : Word :=
  let p := policyOfWord sm j
  if isPatched p (j % 8) then patchedWord sm p sched (j % 8)
  else bytesWord ((blocks.drop (8 * j - 64 * first)).take 8)

/-- The bytes an announcement read returns (R135 step 4, R137). -/
def announceBytes (sm : PatchSample) (sched : Schedule) (blocks : List Byte) (rel len : Nat) : List Byte :=
  areaBytes (formedWord sm sched blocks (rel / 64)) rel len

/-! ## Transfers (R145 to R148) -/

/-- A transfer of port `p`: the shadow policy is copied, the pending transfer cleared, PORT-TRANSFER raised (R146). -/
def transferPort (p : PortNo) (s : State) : State :=
  raise [.portTransfer]
    (updPort p (fun _ => { active := s.status.config.shadows[p], transfer := none }) s)

/-- Transfer every port of a list. -/
def transferPorts (ps : List PortNo) (s : State) : State := ps.foldl (fun s p => transferPort p s) s

/-- The ports whose transfer is pending with a trigger. -/
def portsPending (t : TransferTrigger) (s : State) : List PortNo :=
  (List.finRange 16).filter fun p => s.patcher.ports[p].transfer == some t

/-- The trigger that a code of the PORT-TRANSFER command names: IMMEDIATE is `none` (section 11.2). -/
def triggerOf (code : Byte) : Option TransferTrigger :=
  if code = 2#8 then some .nextMark
  else if code = 3#8 then some .nextCommit
  else if code = 4#8 then some .quiet
  else none

/-- The PORT-TRANSFER command taken (R145). -/
def takePortTransfer (p : PortNo) (t : Option TransferTrigger) (s : State) : State :=
  match t with
  | none => transferPort p s
  | some t => updPort p (fun port => { port with transfer := some t }) s

/-! ## The QUIET judgement (R149, R150) -/

/-- A boundary lies in a policy's interval [S - hold, S + lead] (R149). -/
def inInterval (p : Policy) (s b : Second) : Bool :=
  decide ((s.toNat : Int) - p.hold.toNat ≤ b.toNat ∧ b.toNat ≤ s.toNat + p.lead.toNat)

/-- Port quiet at second `s` under its active and shadow policies (R149). -/
def quietAt (active shadow : Policy) (s : Second) (es : List Entry) : Bool :=
  es.all fun e =>
    !(e.scale == .civil || e.scale == .zone active.zoneNo || e.scale == .zone shadow.zoneNo) ||
      (!inInterval active s e.boundary && !inInterval shadow s e.boundary)

/-- A change of S is taken: NEXT-MARK transfers, then a judgement when a QUIET transfer is pending (R147, R150). -/
def takeChangeOfS (c : SChange) (s : State) : State :=
  let s1 := transferPorts (portsPending .nextMark s) s
  if (portsPending .quiet s1).isEmpty then s1
  else ask (.snapshot .quiet) (s1.setPatcher { s1.patcher with judgement := some c.after })

/-- A change of S arrives: it waits while a judgement awaits its snapshot (R150). -/
def arriveChangeOfS (c : SChange) (s : State) : State :=
  if s.patcher.judgement.isSome then s.setPatcher { s.patcher with waiting := s.patcher.waiting ++ [c] }
  else takeChangeOfS c s

/-- The waiting changes taken one after another, until one awaits a snapshot (R150). -/
def drainChanges : List SChange → State → State
  | [], s => s.setPatcher { s.patcher with waiting := [] }
  | c :: cs, s =>
    let s1 := takeChangeOfS c (s.setPatcher { s.patcher with waiting := cs })
    if s1.patcher.judgement.isSome then s1 else drainChanges cs s1

/-- The ports found quiet on the answer (R150; log entry 15). DESIGN CHOICE, log entry 32: a port that has left QUIET since the
judgement began (R145) and has been set to QUIET again is tested too. -/
def quietPorts (x : Second) (sched : Schedule) (s : State) : List PortNo :=
  (portsPending .quiet s).filter fun p =>
    quietAt s.patcher.ports[p].active s.status.config.shadows[p] x sched.entries

/-- The snapshot answer of a judgement (R150). -/
def quietSnapshot (sched : Schedule) (s : State) : State :=
  match s.patcher.judgement with
  | none => s
  | some x =>
    let s1 := transferPorts (quietPorts x sched s) (s.setPatcher { s.patcher with judgement := none })
    drainChanges s1.patcher.waiting s1

/-- PORT_CHANGE_OF_S (R147, R150). -/
def execPortChangeOfS (s : State) : Host.Outcome State Fault Refusal :=
  match s.wires.portS with
  | [] => .next s
  | c :: rest => .next (arriveChangeOfS c (s.setWires { s.wires with portS := rest }))

/-- COMMIT_NOTICE (R148). -/
def execCommitNotice (s : State) : Host.Outcome State Fault Refusal :=
  match s.wires.commits with
  | [] => .next s
  | _ :: rest =>
    .next (transferPorts (portsPending .nextCommit s) (s.setWires { s.wires with commits := rest }))

end Sys2Proof.Machine
end

