-- ==== Sys2Proof/Machine/Configuration.lean ====
section
/-! DEFINITION. The configuration copy and how it is snooped, the checks of ACTIVATE, the setting up of every block, the
deactivation of every block, and reset (spec/09_configuration_activation_and_reset.md, layout in section 11.6). -/

namespace Sys2Proof.Machine

/-! ## Snooping (R172, R174, R198, tables 11.6a to 11.6c) -/

/-- One byte of the global area (table 11.6a). -/
def snoopGlobal (off : Nat) (b : Byte) (g : GlobalConfig) : GlobalConfig :=
  if off < 0x02 then { g with civilOffset := putByte g.civilOffset (0x01 - off) b }
  else if off = 0x02 then { g with zoneCount := b.setWidth 3 }
  else if off = 0x03 then { g with clockMaster := b.setWidth 4 }
  else if off = 0x04 then { g with spacing := b }
  else if off = 0x05 then { g with resyncCount := b.setWidth 3 }
  else if off < 0x08 then { g with enableMask := putByte g.enableMask (0x07 - off) b }
  else if h : off < 0x18 then
    let k : Fin 4 := ⟨(off - 0x08) / 4, by omega⟩
    { g with zoneOffsets := g.zoneOffsets.set k (putByte g.zoneOffsets[k] (3 - off % 4) b) }
  else if off < 0x1C then { g with silence := putByte g.silence (0x1B - off) b }
  else if off < 0x20 then { g with grid := putByte g.grid (0x1F - off) b }
  else if off < 0x24 then { g with minLead := putByte g.minLead (0x23 - off) b }
  else if off < 0x28 then { g with horizon := putByte g.horizon (0x27 - off) b }
  else if off < 0x2C then { g with tolerance := putByte g.tolerance (0x2B - off) b }
  else if off < 0x2E then { g with freezeLead := putByte g.freezeLead (0x2D - off) b }
  else if off < 0x30 then { g with holdoverLimit := putByte g.holdoverLimit (0x2F - off) b }
  else if off = 0x30 then { g with smearEnable := b.getLsbD 0 }
  else if off = 0x31 then { g with smearExponent := b.setWidth 5 }
  else g

/-- One byte of a source area, `j` counted from its start (table 11.6b). -/
def snoopSource (j : Nat) (b : Byte) (c : SourceConfig) : SourceConfig :=
  match j with
  | 0 => { c with enabled := b.getLsbD 0 }
  | 1 => { c with kind := if b.getLsbD 0 then .localSource else .network }
  | 2 => { c with priority := b.setWidth 4 }
  | 3 => { c with owner := b.setWidth 4 }
  | 4 => { c with deep := b.getLsbD 0 }
  | 5 => { c with confirm := b.setWidth 4 }
  | _ => c

/-- One byte of a port-shadow area, `j` counted from its start (table 11.6c). -/
def snoopShadow (j : Nat) (b : Byte) (p : Policy) : Policy :=
  match j with
  | 0 => { p with enabled := b.getLsbD 0 }
  | 1 => { p with scale := b.setWidth 4 }
  | 2 => { p with zone := b.setWidth 2 }
  | 3 => { p with mask := b.setWidth 6 }
  | 5 => { p with lead := putByte p.lead 2 b }
  | 6 => { p with lead := putByte p.lead 1 b }
  | 7 => { p with lead := putByte p.lead 0 b }
  | 8 => { p with hold := putByte p.hold 1 b }
  | 9 => { p with hold := putByte p.hold 0 b }
  | _ => p

/-- One written byte at a region offset of the configuration block, in the held bits of its field (R174, R198). -/
def snoopByte (off : Nat) (b : Byte) (c : ConfigCopy) : ConfigCopy :=
  if off < 0x100 then { c with glob := snoopGlobal off b c.glob }
  else if h : off < 0x200 then
    let n : SourceNo := ⟨(off - 0x100) / 0x20, by omega⟩
    { c with sources := c.sources.set n (snoopSource (off % 0x20) b c.sources[n]) }
  else if h : off < 0x400 then
    let p : PortNo := ⟨(off - 0x200) / 0x20, by omega⟩
    { c with shadows := c.shadows.set p (snoopShadow (off % 0x20) b c.shadows[p]) }
  else c

/-- Written bytes from system address `at` on, those that fall in the configuration block (R157, R174). -/
def snoopBytes (base addr : Nat) (d : List Byte) (c : ConfigCopy) : ConfigCopy :=
  d.zipIdx.foldl (fun c bi => if base ≤ addr + bi.2 then snoopByte (addr + bi.2 - base) bi.1 c else c) c

/-- A write snooped into the configuration copy (R166, R174). -/
def snoopWrite (a : Access) (s : State) : State :=
  s.setStatus { s.status with config := snoopBytes (regionBase s) a.addr.toNat (accessBytes a) s.status.config }

/-! ## The checks of ACTIVATE (R176) -/

/-- The lowest source number that is enabled with K outside 1 to 8 (R176 check 5). -/
def badConfirmCount (c : ConfigCopy) : Option SourceNo :=
  (List.finRange 8).find? fun n =>
    c.sources[n].enabled && !decide (1 ≤ c.sources[n].confirm.toNat ∧ c.sources[n].confirm.toNat ≤ 8)

/-- The seven checks in order; NONE when all pass (R176). -/
def activationCheck (c : ConfigCopy) : ConfigError :=
  let g := c.glob
  if 4 < g.zoneCount.toNat then .zoneCount
  else if g.minLead.toNat ≤ g.freezeLead.toNat then .freezeLead
  else if g.horizon.toNat ≤ g.minLead.toNat then .horizon
  else if g.grid.toNat < 1 then .grid
  else
    match badConfirmCount c with
    | some n => .confirmCount n
    | none =>
      if 17 < g.smearExponent.toNat then .smearExponent
      else if g.tolerance.toNat = 0 ∨ Config.nominalCount / 4 ≤ g.tolerance.toNat then .tolerance
      else .none

/-! ## Activation (R177) -/

/-- The nearer limit for an initial zone offset outside the working range (R173, R177). -/
def clampZone (z : Int) : Int :=
  if z < -Config.zoneLimit then -Config.zoneLimit else if Config.zoneLimit < z then Config.zoneLimit else z

/-- The base record a successful ACTIVATE sets (R8, R177). -/
def activatedBase (g : GlobalConfig) : BaseRecord :=
  { floor := 0#48, floorEnd := 0, civil := g.civilOffset.toInt,
    zones := Vector.ofFn fun k => clampZone g.zoneOffsets[k].toInt }

/-- A source after a successful ACTIVATE (R91). -/
def activatedSource (c : SourceConfig) (src : Source) : Source :=
  { Source.reset with state := if c.enabled then .waiting else .disabled, flags := src.flags }

/-- Every block set up from the configuration copy, the part ACTIVE (R177). The Status Unit sets its own ACTIVATION
indication (log entry 10). -/
def activatePart (s : State) : State :=
  let c := s.status.config
  let s1 := s.setList { ChangeList.reset with sched := { entries := [], base := activatedBase c.glob } }
  let s2 := s1.setSup { Supervisor.reset with present := s.sup.present, previous := s.sup.previous }
  let s3 := s2.setIntake { Intake.reset with sources := mapSources (fun n => activatedSource c.sources[n]) s.intake.sources }
  let s4 := s3.setElection Election.reset
  let s5 := s4.setPatcher { PortPatcher.reset with
    ports := Vector.ofFn fun p => { active := c.shadows[p], transfer := none } }
  let s6 := emptyLatches s5
  s6.setStatus { s.status with part := .active, configError := .none }

/-- ACTIVATE taken (R176). -/
def takeActivate (s : State) : State :=
  match activationCheck s.status.config with
  | .none => setEvent .activation (activatePart s)
  | e => setEvent .activation (s.setStatus { s.status with configError := e })

/-! ## Deactivation (R178) -/

/-- A source after DEACTIVATE (R91). -/
def deactivatedSource (src : Source) : Source :=
  { Source.reset with disposition := src.disposition, flags := src.flags }

/-- DEACTIVATE taken: every block at its deactivation values, claims and notices gone, the part TRANSPARENT (R178).
Events already raised stay on their way (log entry 10). -/
def takeDeactivate (s : State) : State :=
  let s1 := s.setList { ChangeList.reset with sched := { entries := [], base := s.list.sched.base } }
  let s2 := s1.setSup Supervisor.reset
  let s3 := s2.setIntake { Intake.reset with sources := mapSources (fun _ => deactivatedSource) s.intake.sources }
  let s4 := s3.setElection Election.reset
  let s5 := s4.setPatcher { PortPatcher.reset with
    ports := Vector.ofFn fun p => { active := s.patcher.ports[p].active, transfer := none } }
  let s6 := emptyLatches s5
  let s7 := s6.setWires { Wires.empty with events := s.wires.events }
  s7.setStatus { s.status with part := .transparent }

/-! ## Reset (R170, R182, R183) -/

/-- Assertion of RESET: the held access is answered ERROR, work in flight is abandoned, a memory access issued is left
to complete and its answer will be discarded (R170, R182). -/
def assertReset (s : State) : State :=
  if s.resetAsserted then s
  else
    let s1 := match s.path.held with
      | none => s
      | some h => answerError h.access s
    let s2 := emptyLatches (s1.setPath { s1.path with toIssue := [], stale := s1.path.outstanding.isSome })
    let s3 := s2.setList { s2.list with claims := [], coming := [], requests := [], sending := [], queries := [] }
    let s4 := s3.setIntake { s3.intake with qualifier := none }
    let s5 := s4.setElection { s4.election with run := none, runPending := false }
    let s6 := s5.setPatcher { s5.patcher with judgement := none, waiting := [] }
    (s6.setWires Wires.empty).setResetAsserted true

/-- The part at the release of RESET, before it takes an access: every block at its reset values, straps sampled. What
stays is outside the part: accesses waiting on the card, a memory access still unanswered, the answers given and the
queue of commands (R170, R183). -/
def releasedPart (page : BitVec 8) (control : Master) (s : State) : State :=
  { State.reset with
    straps := { page := page, control := control }
    path := { PathUnit.reset with outstanding := s.path.outstanding, stale := s.path.outstanding.isSome }
    card := s.card
    answers := s.answers
    pending := s.pending }

end Sys2Proof.Machine
end

