-- ==== Sys2Proof/Machine/SecondSupervisor.lean ====
section
/-! DEFINITION. The Second Supervisor: the reference counter, mark captures, the mark window, substitute marks, strays
and re-anchoring, live writes and the live check (spec/03_the_second_supervisor.md). -/

namespace Sys2Proof.Machine

/-- Reference cycles have passed (R54; log entry 2). DESIGN CHOICE, log entries 28 and 31: with the first of
them the freeze-and-commit claims and the requests on their way reach the list. -/
def advanceCounter (elapsed : Count) (s : State) : State :=
  (if elapsed = 0#32 then s else claimsArrive s).setCounter (s.counter + elapsed)

/-- The distance from a count to a later one, modulo 2^32 (R54). -/
def distance (x a : Count) : Nat := (x - a).toNat

/-- A distance lies in [N - tol, N + tol] (R60, R65). -/
def nearNominal (tol d : Nat) : Bool := decide (Config.nominalCount - tol ≤ d ∧ d ≤ Config.nominalCount + tol)

/-- A mark window exists in LOCKED and FLYWHEEL (R53, R60). -/
def hasWindow : TimeBase → Bool
  | .locked => true
  | .flywheel => true
  | _ => false

/-- A count lies in the mark window (R60). -/
def inWindow (s : State) (x : Count) : Bool := nearNominal (tolerance s) (distance x s.sup.p)

/-- The open window has ended: the counter has reached P + N + tol + 1 (R60). -/
def windowOver (s : State) : Bool :=
  hasWindow s.sup.timeBase && decide (Config.nominalCount + tolerance s + 1 ≤ distance s.counter s.sup.p)

/-- A mark is captured: the present capture moves into the previous one (R54). -/
def capture (s : State) : State :=
  s.setSup { s.sup with previous := s.sup.present, present := some s.counter }

/-- The first mark in ACQUIRING, captured at `x` (R59). -/
def acquiringLock (x : Count) (s : State) : State :=
  raise [.timebaseChange] (changeS (succSecond s.sup.s)
    (s.setSup { s.sup with timeBase := .locked, p := x, missed := 0#16, stray := .none, disagree := 0 }))

/-- A mark inside the window (R61). -/
def inWindowMark (x : Count) (s : State) : State :=
  let s' := changeS (succSecond s.sup.s)
    (s.setSup { s.sup with timeBase := .locked, p := x, missed := 0#16, stray := .none,
                           holdover := if s.sup.timeBase = .flywheel then false else s.sup.holdover })
  if s.sup.timeBase = .flywheel then raise [.timebaseChange] s' else s'

/-- The third stray of a run re-anchors the time base (R66). -/
def reAnchor (x : Count) (s : State) : State :=
  let s1 := s.setSup { s.sup with timeBase := .locked, p := x, missed := 0#16, stray := .none, holdover := false }
  let s2 := if distance x s.sup.p < Config.nominalCount / 2 then s1 else changeS (succSecond s.sup.s) s1
  raise [.timebaseChange] s2

/-- A mark outside the window (R65). -/
def strayMark (x : Count) (s : State) : State :=
  match s.sup.stray with
  | .none => s.setSup { s.sup with stray := .one x }
  | .one last =>
    if nearNominal (tolerance s) (distance x last) then s.setSup { s.sup with stray := .two x }
    else s.setSup { s.sup with stray := .one x }
  | .two last =>
    if nearNominal (tolerance s) (distance x last) then reAnchor x s
    else s.setSup { s.sup with stray := .one x }

/-- A captured mark judged by the time-base state (R58, R59, R61, R65). -/
def judgeMark (x : Count) (s : State) : State :=
  match s.sup.timeBase with
  | .unset => s
  | .acquiring => acquiringLock x s
  | .locked => if inWindow s x then inWindowMark x s else strayMark x s
  | .flywheel => if inWindow s x then inWindowMark x s else strayMark x s

/-- An edge on SECOND-MARK: not captured while RESET is asserted (R54, R71). -/
def mark (s : State) : State := if s.resetAsserted then s else judgeMark s.counter (capture s)

/-- The missed count raised by one, saturating (R63). -/
def raiseMissed (m : BitVec 16) : BitVec 16 := if m = 0xFFFF#16 then m else m + 1#16

/-- A substitute mark (R62, R63). -/
def substituteMark (s : State) : State :=
  let missed := if s.sup.timeBase = .flywheel then raiseMissed s.sup.missed else 1#16
  let report := missed = s.status.config.glob.holdoverLimit ∧ s.sup.holdover = false
  let s1 := changeS (succSecond s.sup.s)
    (s.setSup { s.sup with timeBase := .flywheel, p := s.sup.p + BitVec.ofNat 32 Config.nominalCount,
                           missed := missed, holdover := s.sup.holdover || decide report })
  raise ((if s.sup.timeBase = .locked then [.timebaseChange] else []) ++
    (if report then [.longHoldover] else [])) s1

/-- The expiry of the open window, when the counter has passed its end (R60, R62, R63). -/
def windowExpiry (s : State) : State :=
  if s.resetAsserted then s else if windowOver s then substituteMark s else s

/-- A resync: S set to W (R68). -/
def resync (w : Second) (s : State) : State :=
  raise [.timebaseChange] (changeS w (s.setSup { s.sup with disagree := 0 }))

/-- The live check in LOCKED and FLYWHEEL; `pending` is resync pending as the write finds it (R67, R69). -/
def liveCheck (pending : Bool) (w : Second) (s : State) : State :=
  if w = s.sup.s then s.setSup { s.sup with disagree := 0 }
  else if pending then resync w s
  else if s.sup.disagree + 1 = resyncCount s then resync w s
  else s.setSup { s.sup with disagree := s.sup.disagree + 1 }

/-- A live write of seconds W taken by the supervisor (R57, R58, R59, R67, R69). -/
def liveWrite (w : Second) (s : State) : State :=
  let s1 := s.setSup { s.sup with resyncPending := false }
  match s.sup.timeBase with
  | .unset => raise [.timebaseChange] (changeS w (s1.setSup { s1.sup with timeBase := .acquiring }))
  | .acquiring => changeS w s1
  | .locked => liveCheck s.sup.resyncPending w s1
  | .flywheel => liveCheck s.sup.resyncPending w s1

/-- SECOND_MARK (R54). -/
def execSecondMark (elapsed : Count) (s : State) : Host.Outcome State Fault Refusal :=
  .next (mark (advanceCounter elapsed s))

/-- WINDOW_EXPIRY (R62). -/
def execWindowExpiry (elapsed : Count) (s : State) : Host.Outcome State Fault Refusal :=
  .next (windowExpiry (advanceCounter elapsed s))

end Sys2Proof.Machine
end

