-- ==== Sys2Proof/Machine/ScaleConverter.lean ====
section
/-! DEFINITION. The Scale Converter: time records, forward conversion through the views and inverse conversion of writes
(spec/02_scale_views_and_time_records.md, layout in section 11.3). -/

namespace Sys2Proof.Machine

/-! ## The time record (R28, section 11.3) -/

/-- Seconds of word 0. -/
def recSeconds (w0 : Word) : Second := field w0 5 48
/-- Scale tag of word 0. -/
def recTag (w0 : Word) : Byte := field w0 6 8
/-- INSERTED of word 0. -/
def recInserted (w0 : Word) : Bool := (field w0 7 8).getLsbD 0
/-- FOLD of word 0. -/
def recFold (w0 : Word) : Bool := (field w0 7 8).getLsbD 1
/-- UNCONVERTED of word 0. -/
def recUnconverted (w0 : Word) : Bool := (field w0 7 8).getLsbD 2
/-- Nanoseconds of word 1. -/
def recNanos (w1 : Word) : Nat := (field w1 3 32).toNat
/-- Fraction of word 1. -/
def recFraction (w1 : Word) : Nat := (field w1 5 16).toNat
/-- Writer tag of word 1. -/
def recWriter (w1 : Word) : BitVec 16 := field w1 7 16

/-- Scale tags (section 11.2). -/
def tagUniform : Byte := 0#8
/-- The tag of a converted record of a view (R30, section 11.2). -/
def viewTag (v : Fin 7) : Byte := BitVec.ofNat 8 v.val

/-- A word 0 that the part forms (R197). -/
def mkWord0 (seconds : Second) (tag : Byte) (inserted fold : Bool) : Word :=
  place 5 seconds ||| place 6 tag ||| placeBit 7 0 inserted ||| placeBit 7 1 fold

/-- A word 1 from its fields (section 11.3). -/
def mkWord1 (nanos fraction : Nat) (writer : BitVec 16) : Word :=
  place 3 (BitVec.ofNat 32 nanos) ||| place 5 (BitVec.ofNat 16 fraction) ||| place 7 writer

/-- A stored record is convertible (R29). -/
def convertible (w0 w1 : Word) : Bool := recTag w0 == tagUniform && decide (recNanos w1 ≤ 999999999)

/-- Word 0 of the unconverted record: as stored, with UNCONVERTED set (R33). -/
def unconvertedWord0 (w0 : Word) : Word := w0 ||| placeBit 7 2 true

/-! ## Civil and zone views (R34 to R38) -/

/-- A result of a writable converted view: seconds value with its INSERTED and FOLD indications (R35, R50). -/
structure Triple where
  seconds : Int
  inserted : Bool
  fold : Bool
  deriving DecidableEq, Repr

/-- The zone of a view: view 2 + k shows zone k, view 1 none (R30). -/
def viewZone (v : Fin 7) : Option ZoneNo :=
  if 2 ≤ v.val ∧ v.val ≤ 5 then some (Fin.ofNat 4 (v.val - 2)) else none

/-- What a writable converted view produces for uniform second `s` (R34, R36, R37). -/
def rawResult (sched : Schedule) (v : Fin 7) (s : Nat) : Triple :=
  let d := offsetAt sched .civil s
  match viewZone v with
  | none => { seconds := s - d, inserted := insertedAt sched s, fold := false }
  | some k =>
    { seconds := s - d + offsetAt sched (.zone k) s, inserted := insertedAt sched s, fold := foldAt sched k s }

/-- The offsets of a scale that some second has: the base offset and the new offset of each of its entries. -/
def offsetsOf (sched : Schedule) (sc : Scale) : List Int :=
  sched.base.offset sc :: (sched.entries.filter fun e => e.scale == sc).map (·.new)

/-- The uniform seconds that could give a seconds value: the value plus a civil offset minus a zone offset
(R50; DEDUCED, log entry 14). -/
def candidates (sched : Schedule) (v : Fin 7) (t : Triple) : List Int :=
  match viewZone v with
  | none => (offsetsOf sched .civil).map fun d => t.seconds + d
  | some k =>
    (offsetsOf sched .civil).flatMap fun d => (offsetsOf sched (.zone k)).map fun z => t.seconds + d - z

/-- Second `s`, at or above the floor end, gives the triple in this view. -/
def gives (sched : Schedule) (v : Fin 7) (t : Triple) (s : Int) : Bool :=
  decide (0 ≤ s ∧ s ≤ Config.maxSecond ∧ (sched.base.floorEnd : Int) ≤ s) && rawResult sched v s.toNat == t

/-- The smaller of a number and one that may be absent. -/
def minOption (m : Option Nat) (n : Nat) : Option Nat :=
  match m with
  | none => some n
  | some x => some (min x n)

/-- The earliest uniform second at or above the floor end that gives a triple in a view, where there is one
(R35, R50). -/
def firstGiving (sched : Schedule) (v : Fin 7) (t : Triple) : Option Nat :=
  (((candidates sched v t).filter (gives sched v t)).map Int.toNat).foldl minOption none

/-- A seconds value fits the record's 48-bit field (R33). -/
def secondsFit (x : Int) : Bool := decide (0 ≤ x ∧ x ≤ Config.maxSecond)

/-- Word 0 of a read through views 1 to 5, for a convertible record; `none` where R33 asks for the unconverted record
(R33 to R36). -/
def convertPlain (sched : Schedule) (v : Fin 7) (s : Second) : Option Word :=
  if s.toNat < sched.base.floorEnd then none
  else
    let t := rawResult sched v s.toNat
    if !secondsFit t.seconds then none
    else
      match firstGiving sched v t with
      | some s' =>
        if s' < s.toNat then none
        else some (mkWord0 (BitVec.ofInt 48 t.seconds) (viewTag v) t.inserted t.fold)
      | none => some (mkWord0 (BitVec.ofInt 48 t.seconds) (viewTag v) t.inserted t.fold)

/-! ## Smeared civil (R39 to R42) -/

/-- One second in fraction units (R28). -/
def unitsPerSecond : Int := Config.nanosPerSecond * Config.unitsPerNano

/-- The smear amount before the civil change at `b`, in fraction units (R40). -/
def smearAmount (k : Nat) (b s nanos fraction : Int) : Int :=
  let e := ((s - (b - 2 ^ k)) * Config.nanosPerSecond + nanos) * Config.unitsPerNano + fraction
  e / 2 ^ k

/-- An instant in fraction units brought back into seconds, nanoseconds and fraction (R41). -/
def unitsToParts (u : Int) : Int × Nat × Nat :=
  (u / unitsPerSecond, ((u % unitsPerSecond) / Config.unitsPerNano).toNat, (u % Config.unitsPerNano).toNat)

/-- Both words of a view-6 read of a convertible record; `none` for the unconverted record (R33, R39 to R41). DESIGN CHOICE,
log entry 30: where the windows of two civil changes overlap (R42), the amount is that of the next change alone (R39), so the
later change's begins at the earlier boundary. -/
def convertSmeared (k : Nat) (sched : Schedule) (w0 w1 : Word) : Option (Word × Word) :=
  let s := (recSeconds w0).toNat
  if s < sched.base.floorEnd then none
  else
    let old : Int := s - offsetAt sched .civil s
    let plain : Option (Word × Word) :=
      if secondsFit old then some (mkWord0 (BitVec.ofInt 48 old) (viewTag 6) false false, w1) else none
    match nextCivil sched s with
    | none => plain
    | some e =>
      if (s : Int) < e.boundary.toNat - 2 ^ k then plain
      else
        let a := smearAmount k e.boundary.toNat s (recNanos w1) (recFraction w1)
        let u := (old * Config.nanosPerSecond + recNanos w1) * Config.unitsPerNano + recFraction w1
        let u' := if e.kind = .leap .delete then u + a else u - a
        let p := unitsToParts u'
        if secondsFit p.1 then
          some (mkWord0 (BitVec.ofInt 48 p.1) (viewTag 6) false false, mkWord1 p.2.1 p.2.2 (recWriter w1))
        else none

/-! ## A converted read as a whole -/

/-- A converted read needs a lookup: the record is convertible and the view is not a disabled view 6 (R32, R33). -/
def needsLookup (smear : Bool) (v : Fin 7) (w0 w1 : Word) : Bool := convertible w0 w1 && (v != 6 || smear)

/-- The two words a converted read returns on its lookup answer (R32 step 4). -/
def convertRead (k : Nat) (sched : Schedule) (v : Fin 7) (w0 w1 : Word) : Word × Word :=
  let r : Option (Word × Word) :=
    if v = 6 then convertSmeared k sched w0 w1
    else (convertPlain sched v (recSeconds w0)).map fun w => (w, w1)
  r.getD (unconvertedWord0 w0, w1)

/-! ## Writes through the views (R47 to R51) -/

/-- The form of a record written through views 1 to 5 is one the view produces (R49). -/
def writtenFormOk (v : Fin 7) (w0 w1 : Word) : Bool :=
  recTag w0 == viewTag v && decide (recNanos w1 ≤ 999999999) && !(v == 1 && recFold w0)

/-- The triple a written record names (R50). -/
def writtenTriple (w0 : Word) : Triple :=
  { seconds := (recSeconds w0).toNat, inserted := recInserted w0, fold := recFold w0 }

/-- The outcome of inverse conversion: word 0 of the stored record, or the refusal (R50, R51). -/
def convertWrite (sched : Schedule) (v : Fin 7) (w0 : Word) : Except FaultKind Word :=
  let t := writtenTriple w0
  match firstGiving sched v t with
  | some s => .ok (mkWord0 (BitVec.ofNat 48 s) tagUniform false false)
  | none =>
    if t.seconds < (rawResult sched v sched.base.floorEnd).seconds then .error .outOfRangeTime
    else .error .nonexistentTime

end Sys2Proof.Machine
end

