-- ==== Sys2Proof/Machine/StatusPage.lean ====
section
/-! DEFINITION. The status page: the codes of its fields, its words, what a read samples, and what a read clears
(spec/10_status_page_events_and_interrupt.md, sections 11.2 and 11.7). -/

namespace Sys2Proof.Machine

/-! ## Codes (section 11.2) -/

/-- Part state. -/
def PartState.code : PartState → Byte
  | .transparent => 0#8
  | .active => 1#8

/-- Configuration error code. -/
def ConfigError.code : ConfigError → Byte
  | .none => 0#8
  | .zoneCount => 1#8
  | .freezeLead => 2#8
  | .horizon => 3#8
  | .grid => 4#8
  | .confirmCount _ => 5#8
  | .smearExponent => 6#8
  | .tolerance => 7#8

/-- The source number beside CONFIRM-COUNT, 0 with any other code (R186). -/
def ConfigError.sourceByte : ConfigError → Byte
  | .confirmCount n => BitVec.ofNat 8 n.val
  | _ => 0#8

/-- Source state. -/
def SourceState.code : SourceState → Byte
  | .disabled => 0#8
  | .waiting => 1#8
  | .listening => 2#8
  | .silent => 3#8

/-- Content kind of a leap content. -/
def LeapContent.code : LeapContent → Byte
  | .noChange => 1#8
  | .change .insert _ => 2#8
  | .change .delete _ => 3#8

/-- Content kind. -/
def Content.code : Content → Byte
  | .leap c => c.code
  | .zoneSet _ _ _ => 4#8
  | .zoneCancel _ _ => 5#8

/-- Boundary of a leap content, 0 where it has none. -/
def LeapContent.boundary : LeapContent → Second
  | .noChange => 0#48
  | .change _ b => b

/-- Boundary of a content, 0 where it has none. -/
def Content.boundary : Content → Second
  | .leap c => c.boundary
  | .zoneSet _ b _ => b
  | .zoneCancel _ b => b

/-- Zone index of a content, 0 where it has none. -/
def Content.zoneByte : Content → Byte
  | .leap _ => 0#8
  | .zoneSet k _ _ => BitVec.ofNat 8 k.val
  | .zoneCancel k _ => BitVec.ofNat 8 k.val

/-- New zone offset of a content, 0 where it has none. -/
def Content.newOffset : Content → Int
  | .zoneSet _ _ z => z
  | _ => 0

/-- Disposition outcome. -/
def DispositionOutcome.code : DispositionOutcome → Byte
  | .none => 0#8
  | .malformed => 1#8
  | .unusable => 2#8
  | .offsetDisagree => 3#8
  | .offGrid => 4#8
  | .tooLate => 5#8
  | .tooFar => 6#8
  | .tooSoon => 7#8
  | .counted => 8#8
  | .confirmed => 9#8
  | .refused => 10#8

/-- List answer. -/
def ListAnswer.code : ListAnswer → Byte
  | .armed => 1#8
  | .armedFrozen => 2#8
  | .replacedArmed => 3#8
  | .replacedFrozen => 4#8
  | .withdrawn => 5#8
  | .unchanged => 6#8
  | .tooLate => 7#8
  | .full => 8#8
  | .tooClose => 9#8
  | .shiftTooLarge => 10#8
  | .noChange => 11#8
  | .offsetLimit => 12#8
  | .frozen => 13#8
  | .noSuchEntry => 14#8

/-- Fault kind. -/
def FaultKind.code : FaultKind → Byte
  | .badSize => 1#8
  | .badAddress => 2#8
  | .notOwner => 3#8
  | .configLocked => 4#8
  | .badCommand => 5#8
  | .nonexistentTime => 6#8
  | .outOfRangeTime => 7#8
  | .splitWrite => 8#8
  | .viewReadOnly => 9#8

/-- Entry kind. -/
def Kind.code : Kind → Byte
  | .leap .insert => 1#8
  | .leap .delete => 2#8
  | .zoneShift => 3#8

/-- Entry state. -/
def EntryState.code : EntryState → Byte
  | .armed => 1#8
  | .frozen => 2#8
  | .applied => 3#8

/-- Trigger of a pending transfer, 0 when absent. -/
def triggerCode : Option TransferTrigger → Byte
  | none => 0#8
  | some .nextMark => 2#8
  | some .nextCommit => 3#8
  | some .quiet => 4#8

/-- Direction. -/
def dirByte : Dir → Byte
  | .read => 0#8
  | .write => 1#8

/-! ## The words of the page (section 11.7) -/

/-- A signed 32-bit field. -/
def signed32 (x : Int) : BitVec 32 := BitVec.ofInt 32 x

/-- Two signed 32-bit fields in one word. -/
def twoOffsets (x y : Int) : Word := place 3 (signed32 x) ||| place 7 (signed32 y)

/-- The capture difference (R54, R186). -/
def captureDifference (s : Supervisor) : Count :=
  match s.present, s.previous with
  | some x, some y => x - y
  | _, _ => 0#32

/-- Number of entries in a state (R186). -/
def countState (st : EntryState) (es : List Entry) : Byte := BitVec.ofNat 8 (es.filter fun e => e.state == st).length

/-- The summary, words 1000h to 1038h (R184, R186). -/
def summaryWord (sm : StatusSample) (sched : Schedule) (i : Nat) : Word :=
  match i with
  | 0 =>
    place 0 sm.part.code ||| place 1 sm.configError.code ||| place 2 sm.configError.sourceByte |||
      place 3 sm.straps.page ||| place 4 sm.straps.control ||| place 5 sm.sup.timeBase.code |||
      place 6 (match sm.lastWinner with
        | none => 0xFF#8
        | some n => BitVec.ofNat 8 n.val) |||
      placeBit 7 0 sm.disagree
  | 1 => place 7 sm.sup.s
  | 2 => place 3 (sm.sup.present.getD 0#32) ||| place 7 (sm.sup.previous.getD 0#32)
  | 3 =>
    place 3 (captureDifference sm.sup) ||| place 5 sm.sup.missed ||| placeBit 6 0 sm.sup.present.isSome |||
      placeBit 6 1 sm.sup.previous.isSome
  | 4 =>
    place 1 (BitVec.ofInt 16 (presentedOffset sched .civil)) ||| place 2 (countState .armed sched.entries) |||
      place 3 (countState .frozen sched.entries) ||| place 4 (countState .applied sched.entries)
  | 5 => twoOffsets (presentedOffset sched (.zone 0)) (presentedOffset sched (.zone 1))
  | 6 => twoOffsets (presentedOffset sched (.zone 2)) (presentedOffset sched (.zone 3))
  | _ => 0#64

/-- The 48-bit field that shows a floor end; a free value where it does not fit (log entry 12). -/
def floorEndField (n : Nat) : Second := if n ≤ Config.maxSecond then BitVec.ofNat 48 n else Config.floorEndShown n

/-- The base record, words 1080h to 10A0h (R184). -/
def baseWord (b : BaseRecord) (i : Nat) : Word :=
  match i with
  | 0 => place 7 b.floor
  | 1 => place 7 (floorEndField b.floorEnd)
  | 2 => place 1 (BitVec.ofInt 16 b.civil)
  | 3 => twoOffsets b.zones[0] b.zones[1]
  | 4 => twoOffsets b.zones[2] b.zones[3]
  | _ => 0#64

/-- Word `k` of a source record (R188). -/
def sourceWord (src : Source) (k : Nat) : Word :=
  match k with
  | 0 =>
    place 0 src.state.code ||| place 1 src.disposition.outcome.code |||
      place 2 ((src.disposition.answer.map ListAnswer.code).getD 0#8) |||
      placeBit 3 0 src.disposition.seq.isSome ||| placeBit 3 1 src.disposition.answer.isSome |||
      place 5 (src.disposition.seq.getD 0#16)
  | 1 =>
    match src.candidate with
    | none => 0#64
    | some c =>
      place 0 c.content.code ||| place 1 (BitVec.ofNat 8 c.count) ||| placeBit 2 0 c.gridDated |||
        place 3 c.content.zoneByte ||| place 7 (signed32 c.content.newOffset)
  | 2 =>
    match src.candidate with
    | none => 0#64
    | some c => place 7 c.content.boundary
  | 3 =>
    match src.confirmed with
    | none => 0#64
    | some p => place 0 p.content.code ||| placeBit 1 0 p.gridDated
  | 4 =>
    match src.confirmed with
    | none => 0#64
    | some p => place 7 p.content.boundary
  | 5 => placeBit 0 0 src.lastHeard.isSome ||| place 7 (src.lastHeard.getD 0#48)
  | 6 => place 7 (src.flags.setWidth 8)
  | _ => 0#64

/-- The fault record, words 1300h and 1308h (R189). -/
def faultWord (f : Option FaultRecord) (second : Bool) (i : Nat) : Word :=
  match f, i with
  | some r, 0 =>
    placeBit 0 0 true ||| placeBit 0 1 second ||| place 1 r.kind.code ||| place 2 (r.master.setWidth 8) |||
      place 3 (dirByte r.dir) ||| place 7 r.off
  | none, 0 => placeBit 0 1 second
  | some r, 1 => place 7 r.second
  | _, _ => 0#64

/-- Word `k` of an entry image; an empty slot reads 0 throughout (R187). -/
def entryWord (e : Option Entry) (k : Nat) : Word :=
  match e, k with
  | some e, 0 =>
    placeBit 0 0 true ||| place 1 (BitVec.ofNat 8 e.scale.rank) ||| place 2 e.kind.code ||| place 3 e.state.code |||
      placeBit 4 0 e.late ||| placeBit 4 1 e.steppedOver ||| placeBit 4 2 e.gridDated |||
      place 5 (BitVec.ofNat 8 e.origin.val)
  | some e, 1 => place 7 e.boundary
  | some e, 2 => twoOffsets e.prior e.new
  | _, _ => 0#64

/-- Word `k` of a port record (R189). -/
def portWord (p : Port) (k : Nat) : Word :=
  match k with
  | 0 =>
    placeBit 0 0 p.active.enabled ||| place 1 (p.active.scale.setWidth 8) ||| place 2 (p.active.zone.setWidth 8) |||
      place 3 (p.active.mask.setWidth 8) ||| place 7 p.active.lead
  | 1 => place 1 p.active.hold ||| placeBit 2 0 p.transfer.isSome ||| place 3 (triggerCode p.transfer)
  | _ => 0#64

/-- Everything one status read is formed from (R185). -/
structure PageView where
  sample : StatusSample
  sched : Schedule
  eventWord : BitVec 16
  sources : Vector Source 8

/-- Word `w` of the page, counted from 1000h; a word outside every item reads 0 (section 11.7, R197). -/
def pageWord (v : PageView) (w : Nat) : Word :=
  if w < 0x08 then summaryWord v.sample v.sched w
  else if 0x10 ≤ w ∧ w < 0x15 then baseWord v.sched.base (w - 0x10)
  else if w = 0x18 then place 7 v.eventWord
  else if 0x20 ≤ w ∧ w < 0x60 then sourceWord v.sources[(Fin.ofNat 8 ((w - 0x20) / 8) : SourceNo)] (w % 8)
  else if 0x60 ≤ w ∧ w < 0x62 then faultWord v.sample.fault v.sample.secondFault (w - 0x60)
  else if 0x80 ≤ w ∧ w < 0x100 then entryWord v.sched.entries[(w - 0x80) / 4]? (w % 4)
  else if 0x100 ≤ w ∧ w < 0x140 then portWord v.sample.ports[(Fin.ofNat 16 ((w - 0x100) / 4) : PortNo)] (w % 4)
  else if w = 0x1FF then v.sample.lastCommand
  else 0#64

/-! ## One read (R185, R188, R191) -/

/-- The arrival sample (R185). -/
def statusSample (s : State) : StatusSample :=
  { part := s.status.part, configError := s.status.configError, straps := s.straps, sup := s.sup,
    lastWinner := s.election.lastWinner, disagree := s.election.disagree, fault := s.path.fault,
    secondFault := s.path.secondFault, ports := s.patcher.ports, lastCommand := s.status.lastCommand }

/-- A read of `len` bytes at page offset `rel` covers a byte of [lo, hi]. -/
def coversRange (rel len lo hi : Nat) : Bool := decide (rel ≤ hi ∧ lo < rel + len)

/-- The read covers a byte of the summary, the base record or the entry images (R185). -/
def coversList (rel len : Nat) : Bool :=
  coversRange rel len 0x000 0x03F || coversRange rel len 0x080 0x0A7 || coversRange rel len 0x400 0x7FF

/-- The read covers the event word (R191, section 11.7). -/
def coversEvents (rel len : Nat) : Bool := coversRange rel len 0x0C4 0x0C7

/-- The read covers the fault flags of source `n` (R188, section 11.7). -/
def coversFlags (rel len : Nat) (n : SourceNo) : Bool :=
  coversRange rel len (0x134 + n.val * 0x40) (0x137 + n.val * 0x40)

/-- What an answered read clears: the event word and the fault flags it covers (R188, R191). -/
def clearRead (rel len : Nat) (s : State) : State :=
  let s1 := if coversEvents rel len then s.setStatus { s.status with eventWord := 0#16 } else s
  s1.setIntake { s1.intake with sources :=
    (mapSources (fun n src => if coversFlags rel len n then { src with flags := 0#6 } else src) s1.intake.sources) }

/-- What the page shows at the answer moment of a read (R185). -/
def pageView (sm : StatusSample) (sched : Schedule) (s : State) : PageView :=
  { sample := sm, sched := sched, eventWord := s.status.eventWord, sources := s.intake.sources }

/-- The answer of a status read: sample, clear and answer in one event (R185). -/
def answerStatus (a : Access) (sm : StatusSample) (sched : Schedule) (s : State) : State :=
  let rel := regionOff a (regionBase s) - 0x1000
  let d := areaBytes (pageWord (pageView sm sched s)) rel (accessLen a)
  answer a true d (clearRead rel (accessLen a) s)

/-- EVENT_RAISE (R190): the Status Unit takes one raising of event `e` that is on its way, and sets its indication;
with none on its way, nothing (log entry 3). -/
def execEventRaise (e : Event) (s : State) : Host.Outcome State Fault Refusal :=
  if s.wires.events.contains e then
    .next (setEvent e (s.setWires { s.wires with events := s.wires.events.erase e }))
  else .next s

end Sys2Proof.Machine
end

