-- ==== Sys2Proof/Machine/MemoryPath.lean ====
section
/-! DEFINITION. The Path Unit: taking an access, refusing it, carrying it out, the command word, what a memory answer
does, hand-offs, and the accesses that wait on the card (spec/08_the_memory_path.md, section 9.3, section 11.8). -/

namespace Sys2Proof.Machine

/-! ## Refusal (R164, R169) -/

/-- A refused access: recorded, ACCESS-FAULT raised, answered ERROR; a time-view access empties its master's latch
(R46, R164, R169). -/
def refuse (kind : FaultKind) (a : Access) (s : State) : State :=
  let off := regionOff a (regionBase s)
  let r : FaultRecord :=
    { kind := kind, master := a.master, off := BitVec.ofNat 16 off, dir := a.dir, second := s.sup.s }
  let s1 := raise [.accessFault] (s.setPath (recordFault r s.path))
  let s2 := if windowOf off = .views then setLatch a.master none s1 else s1
  answerError a s2

/-! ## Memory accesses (R155, R165) -/

/-- A memory read of `m + 1` beats at a region offset. -/
def memRead (s : State) (m : Master) (off : Nat) (beats : Fin 8) : Access :=
  { master := m, addr := systemAddress (regionBase s) off, dir := .read, shape := .burst beats, data := [] }

/-- The 2-beat read of a record at its view-0 location (R32). -/
def recordRead (s : State) (m : Master) (r : BitVec 8) : Access := memRead s m (view0Offset r) 1

/-- The 2-beat write of a record at its view-0 location (R47). -/
def recordWrite (s : State) (m : Master) (r : BitVec 8) (w0 w1 : Word) : Access :=
  { master := m, addr := systemAddress (regionBase s) (view0Offset r), dir := .write, shape := .burst 1,
    data := wordBytes w0 ++ wordBytes w1 }

/-- An access carried to memory as it came: same master, address, direction, size and data (R154, R165). -/
def carried (a : Access) : Access := { a with data := match a.dir with
  | .read => []
  | .write => accessBytes a }

/-- Hold an access for a job and issue its memory accesses. -/
def holdAndIssue (a : Access) (j : Job) (ms : List Access) (s : State) : State := issue ms (hold a j s)

/-! ## Time views (R31, R32, R44 to R48) -/

/-- Which words of its record an accepted time-view access names (R160). -/
def partOf (a : Access) (off : Nat) : RecordPart :=
  if isEight a.shape then (if off % 16 < 8 then .word0 else .word1) else .both

/-- The bytes that answer a time-view read. -/
def partBytes (p : RecordPart) (w0 w1 : Word) : List Byte :=
  match p with
  | .word0 => wordBytes w0
  | .word1 => wordBytes w1
  | .both => wordBytes w0 ++ wordBytes w1

/-- The latch answers this word-1 read: its word 1 (R45). -/
def latchedWord1 (s : State) (a : Access) (off : Nat) : Option Word :=
  match s.path.latches[a.master.toFin] with
  | none => none
  | some l => if partOf a off = .word1 ∧ l.record = recordOf off ∧ l.view = viewOf off then some l.word1 else none

/-- A time-view read is answered; a word-0 read fills the latch (R32 step 5, R44). -/
def finishTimeRead (a : Access) (v : Fin 7) (r : BitVec 8) (p : RecordPart) (w : Word × Word) (s : State) : State :=
  let s1 := if p = .word0 then setLatch a.master (some { record := r, view := v, word1 := w.2 }) s else s
  answer a true (partBytes p w.1 w.2) s1

/-- An accepted read in the time views (R32, R44, R45, R46). -/
def timeViewRead (a : Access) (off : Nat) (s : State) : State :=
  let s1 := setLatch a.master none s
  match latchedWord1 s a off with
  | some w => answer a true (wordBytes w) s1
  | none =>
    holdAndIssue a (.timeRead (viewOf off) (recordOf off) (partOf a off)) [recordRead s a.master (recordOf off)] s1

/-- The word an access writes or reads first. -/
def firstWord (a : Access) : Word := bytesWord ((accessBytes a).take 8)

/-- The second word a burst writes. -/
def secondWord (a : Access) : Word := bytesWord (((accessBytes a).drop 8).take 8)

/-- An accepted view-0 write is a live write (R57, R166): record 0, covering word 0, tag UNIFORM. The ownership step has
found the clock master. -/
def isLiveWrite (a : Access) (off : Nat) : Bool :=
  recordOf off == 0#8 && decide (off % 16 = 0) && recTag (firstWord a) == tagUniform

/-- An accepted write in the time views (R31, R47, R48, R49). DESIGN CHOICE, log entry 29: a write refused for its form makes
no lookup claim and is refused at once. -/
def timeViewWrite (a : Access) (off : Nat) (s : State) : State :=
  let s1 := setLatch a.master none s
  let v := viewOf off
  if v = 0 then holdAndIssue a (.store (if isLiveWrite a off then .liveWrite else .none)) [carried a] s1
  else
    let w0 := firstWord a
    let w1 := secondWord a
    if recUnconverted w0 then holdAndIssue a .relay [recordWrite s a.master (recordOf off) w0 w1] s1
    else if writtenFormOk v w0 w1 then ask (.lookup .converter) (hold a (.timeInvert v (recordOf off) w0 w1) s1)
    else refuse .nonexistentTime a s1

/-! ## Status page and command word (R167, R175, R199) -/

/-- An accepted read of the status page (R185). -/
def statusRead (a : Access) (off : Nat) (s : State) : State :=
  if s.status.part = .active ∧ coversList (off - 0x1000) (accessLen a) then
    ask (.snapshot .statusPage) (hold a (.status (statusSample s)) s)
  else answerStatus a (statusSample s) s.list.sched s

/-- The commands (R175); PORT-TRANSFER with its port and trigger, IMMEDIATE being no trigger. -/
inductive Command
  | activate
  | deactivate
  | flush
  | resyncNow
  | clearFault
  | portTransfer (p : PortNo) (t : Option TransferTrigger)
  deriving DecidableEq, Repr

/-- The command a word names, whatever the part state; `none` for an unknown code or a bad argument (R199). -/
def commandOf (w : Word) : Option Command :=
  let code : Byte := field w 0 8
  let port : Byte := field w 6 8
  let trigger : Byte := field w 7 8
  if code = 1#8 then some .activate
  else if code = 2#8 then some .deactivate
  else if code = 3#8 then some .flush
  else if code = 4#8 then some .resyncNow
  else if code = 5#8 then some .clearFault
  else if code = 6#8 then
    if h : port.toNat < 16 then
      (if 1 ≤ trigger.toNat ∧ trigger.toNat ≤ 4 then some (.portTransfer ⟨port.toNat, h⟩ (triggerOf trigger)) else none)
    else none
  else none

/-- The part state allows the command (R175). -/
def commandAllowed (p : PartState) : Command → Bool
  | .activate => p == .transparent
  | .clearFault => true
  | .deactivate => p == .active
  | .flush => p == .active
  | .resyncNow => p == .active
  | .portTransfer _ _ => p == .active

/-- A write accepted at the command word: judged, then refused or carried to memory (R167, R175). -/
def commandWrite (a : Access) (s : State) : State :=
  let w := firstWord a
  if (commandOf w).any (commandAllowed s.status.part) then holdAndIssue a (.command w) [carried a] s
  else refuse .badCommand a s

/-- CLEAR-FAULT taken (R194). -/
def takeClearFault (s : State) : State := s.setPath { s.path with fault := none, secondFault := false }

/-- RESYNC-NOW taken (R69, R180). -/
def takeResyncNow (s : State) : State := s.setSup { s.sup with resyncPending := true }

/-- FLUSH taken: handed to the Change List and the Intake Unit, and its write held until both have taken it (R179). -/
def takeFlush (a : Access) (s : State) : State :=
  let s1 := claimFlush (hold a (.flushing false false) s)
  s1.setWires { s1.wires with intakeFlushes := s1.wires.intakeFlushes + 1 }

/-- A command taken on memory's OK: kept as the last command, acting before the access is answered (R167, R199). -/
def takeCommand (a : Access) (w : Word) (s : State) : State :=
  let s1 := s.setStatus { s.status with lastCommand := w }
  match commandOf w with
  | some .activate => answer a true [] (takeActivate s1)
  | some .deactivate => answer a true [] (takeDeactivate s1)
  | some .flush => takeFlush a s1
  | some .resyncNow => answer a true [] (takeResyncNow s1)
  | some .clearFault => answer a true [] (takeClearFault s1)
  | some (.portTransfer p t) => answer a true [] (takePortTransfer p t s1)
  | none => answer a true [] s1

/-- The held FLUSH is answered once the list and the Intake Unit have both taken it (R179). -/
def flushProgress (list intake : Bool) (s : State) : State :=
  match s.path.held with
  | some { access := a, job := .flushing l i } =>
    if (l || list) && (i || intake) then answer a true [] s else hold a (.flushing (l || list) (i || intake)) s
  | _ => s

/-! ## Announcement blocks (R135) -/

/-- The memory reads of an announcement read: each touched block whole, ascending (R135 step 3). -/
def blockReads (s : State) (m : Master) (rel len : Nat) : List Access :=
  (blocksTouched rel len).map fun p => memRead s m (0x2000 + p * 0x40) 7

/-- An accepted read of the announcement blocks (R135). -/
def announceRead (a : Access) (off : Nat) (s : State) : State :=
  let sm := patchSample s
  let rel := off - 0x2000
  let snap := needsSnapshot sm rel (accessLen a)
  let s1 := holdAndIssue a (.announce sm [] snap none) (blockReads s a.master rel (accessLen a)) s
  if snap then ask (.snapshot .patcher) s1 else s1

/-- An announcement read is answered once memory and the snapshot, if any, have answered (R135 steps 4 and 5). -/
def announceProgress (s : State) : State :=
  match s.path.held with
  | some { access := a, job := .announce sm blocks awaiting snap } =>
    if awaiting || s.path.outstanding.isSome || !s.path.toIssue.isEmpty then s
    else
      answer a true (announceBytes sm (snap.getD s.list.sched) blocks (regionOff a (regionBase s) - 0x2000)
        (accessLen a)) s
  | _ => s

/-- The snapshot answer of an announcement read (R135 step 2). -/
def patcherSnapshot (sched : Schedule) (s : State) : State :=
  match s.path.held with
  | some { access := a, job := .announce sm blocks _ _ } =>
    announceProgress (hold a (.announce sm blocks false (some sched)) s)
  | _ => s

/-! ## Taking an access (R152 to R165) -/

/-- An accepted access carried out, by its window (R165). -/
def carryOut (a : Access) (s : State) : State :=
  let off := regionOff a (regionBase s)
  match windowOf off, a.dir with
  | .config, .read => holdAndIssue a .relay [carried a] s
  | .config, .write => holdAndIssue a (.store .config) [carried a] s
  | .intake, .read => holdAndIssue a .relay [carried a] s
  | .intake, .write => holdAndIssue a (.store .intake) [carried a] s
  | .status, .read => statusRead a off s
  | .status, .write => commandWrite a s
  | .announce, .read => announceRead a off s
  | .announce, .write => holdAndIssue a (.store .none) [carried a] s
  | .views, .read => timeViewRead a off s
  | .views, .write => timeViewWrite a off s
  | .unassigned, _ => refuse .badAddress a s

/-- A forwarded write that is also snooped: by the control master, covering bytes of the configuration block, while
TRANSPARENT (R157, R166). -/
def forwardedHandOff (s : State) (a : Access) : HandOff :=
  if a.dir = .write ∧ a.master = s.straps.control ∧ touches a (regionBase s) 0x0000 0x03FF then .config else .none

/-- An access forwarded to memory unchanged (R154, R157). -/
def forward (a : Access) (s : State) : State :=
  let j : Job := if inRegion a (regionBase s) then .store (forwardedHandOff s a) else .relay
  holdAndIssue a j [carried a] s

/-- The Path Unit takes an access (R152): forwarded, refused or carried out (R154, R157, R158). -/
def takeAccess (a : Access) (s : State) : State :=
  if isChecked s a then
    match checkAccess s a with
    | some kind => refuse kind a s
    | none => carryOut a s
  else forward a s

/-- The Path Unit takes accesses: it is free and RESET is not asserted (R152, R170). -/
def pathFree (s : State) : Bool := s.path.held.isNone && !s.resetAsserted

/-- Accesses waiting on the card are taken while the unit is free, at most `n` of them (R152; log entry 5). -/
def serveUpTo : Nat → State → State
  | 0, s => s
  | n + 1, s =>
    if pathFree s then
      match s.card with
      | [] => s
      | a :: rest => serveUpTo n (takeAccess a (s.setCard rest))
    else s

/-- Accesses waiting on the card are taken while the unit is free (R152). -/
def serve (s : State) : State := serveUpTo s.card.length s

/-- An access offered: taken at once when the unit is free, else it waits on the card (R152, R182). -/
def offer (a : Access) (s : State) : State := serve (s.setCard (s.card ++ [a]))

/-! ## Memory's answer (R155, R166) -/

/-- A live write taken by the supervisor; when it leaves UNSET by it, the qualifier may take a record (R57, R58, R98). -/
def liveWriteTaken (w : Second) (s : State) : State :=
  if s.sup.timeBase = .unset then qualifierTake (liveWrite w s) else liveWrite w s

/-- The hand-off of a write that memory has answered OK (R166). -/
def handOff (h : HandOff) (a : Access) (s : State) : State :=
  match h with
  | .none => s
  | .config => snoopWrite a s
  | .intake =>
    let off := regionOff a (regionBase s) - 0x0800
    intakeWords ((accessLen a + 7) / 8) off (accessBytes a) s
  | .liveWrite => liveWriteTaken (recSeconds (firstWord a)) s

/-- Memory has answered a time-view read with the record's two words (R32 steps 2 and 3). -/
def timeReadAnswered (a : Access) (v : Fin 7) (r : BitVec 8) (p : RecordPart) (d : List Byte) (s : State) : State :=
  let w0 := bytesWord (d.take 8)
  let w1 := bytesWord ((d.drop 8).take 8)
  if v = 0 then finishTimeRead a v r p (w0, w1) s
  else if needsLookup s.status.config.glob.smearEnable v w0 w1 then
    ask (.lookup .converter) (hold a (.timeConvert v r p w0 w1) s)
  else finishTimeRead a v r p (unconvertedWord0 w0, w1) s

/-- Memory's OK to the held access's outstanding memory access, with `d` the bytes of a read (R155, R165). -/
def memoryOk (h : Held) (d : List Byte) (s : State) : State :=
  match h.job with
  | .relay => answer h.access true d s
  | .store o => answer h.access true d (handOff o h.access s)
  | .timeRead v r p => timeReadAnswered h.access v r p d s
  | .announce sm blocks awaiting snap =>
    announceProgress (issueNext (hold h.access (.announce sm (blocks ++ d) awaiting snap) s))
  | .command w => takeCommand h.access w s
  | .timeConvert _ _ _ _ _ => s
  | .timeInvert _ _ _ _ => s
  | .status _ => s
  | .flushing _ _ => s

/-- Memory's ERROR: no further memory access, no hand-off, and the held access is answered ERROR; a snapshot answer
that still comes for an announcement read is discarded (R135, R155). -/
def memoryError (h : Held) (s : State) : State :=
  let s1 := s.setPath { s.path with toIssue := [] }
  match h.job with
  | .announce _ _ _ _ => answerError h.access (abandonClaims .patcher s1)
  | _ => answerError h.access s1

/-- Memory's answer taken (R155, R170): one issued before a reset is discarded, and a memory access that waited for it
is issued. With no memory access unanswered, nothing (log entry 3). -/
def memoryAnswer (ok : Bool) (d : List Byte) (s : State) : State :=
  match s.path.outstanding with
  | none => s
  | some m =>
    let s1 := s.setPath { s.path with outstanding := none, stale := false }
    if s.path.stale then issueNext s1
    else
      match s.path.held with
      | none => s1
      | some h => if ok then memoryOk h (fit m.shape.bytes d) s1 else memoryError h s1

/-! ## The commands that are accesses, memory's answer, and reset -/

/-- The access of a command write: code byte and bytes 1 to 7 at the command word, in the shape it comes in (R199). -/
def commandAccess (s : State) (m : Master) (shape : Shape) (code : Byte) (arg : BitVec 56) : Access :=
  regionAccess s m (BitVec.ofNat 16 commandOffset) .write shape
    (fit shape.bytes (wordBytes (place 0 code ||| place 7 arg)))

/-- FORWARDED_ACCESS (R154). -/
def execForwardedAccess (a : Access) (s : State) : Host.Outcome State Fault Refusal := .next (offer a s)

/-- REGION_WRITE (R165). -/
def execRegionWrite (m : Master) (off : Offset) (sh : Shape) (d : List Byte) (s : State) :
    Host.Outcome State Fault Refusal := .next (offer (regionAccess s m off .write sh d) s)

/-- CONFIGURATION_WRITE (R174). -/
def execConfigurationWrite (m : Master) (off : Offset) (sh : Shape) (d : List Byte) (s : State) :
    Host.Outcome State Fault Refusal := .next (offer (regionAccess s m off .write sh d) s)

/-- PORT_SHADOW_WRITE (R134). -/
def execPortShadowWrite (m : Master) (off : Offset) (sh : Shape) (d : List Byte) (s : State) :
    Host.Outcome State Fault Refusal := .next (offer (regionAccess s m off .write sh d) s)

/-- INTAKE_SLOT_WRITE (R93). -/
def execIntakeSlotWrite (m : Master) (off : Offset) (sh : Shape) (d : List Byte) (s : State) :
    Host.Outcome State Fault Refusal := .next (offer (regionAccess s m off .write sh d) s)

/-- MEMORY_ANSWER (R155). -/
def execMemoryAnswer (ok : Bool) (d : List Byte) (s : State) : Host.Outcome State Fault Refusal :=
  .next (serve (memoryAnswer ok d s))

/-- STATUS_READ (R185). -/
def execStatusRead (m : Master) (off : Offset) (sh : Shape) (s : State) : Host.Outcome State Fault Refusal :=
  .next (offer (regionAccess s m off .read sh []) s)

/-- ACTIVATE (R176), code 1. -/
def execActivate (m : Master) (sh : Shape) (arg : BitVec 56) (s : State) : Host.Outcome State Fault Refusal :=
  .next (offer (commandAccess s m sh 1#8 arg) s)

/-- DEACTIVATE (R178), code 2. -/
def execDeactivate (m : Master) (sh : Shape) (arg : BitVec 56) (s : State) : Host.Outcome State Fault Refusal :=
  .next (offer (commandAccess s m sh 2#8 arg) s)

/-- FLUSH (R179), code 3. -/
def execFlush (m : Master) (sh : Shape) (arg : BitVec 56) (s : State) : Host.Outcome State Fault Refusal :=
  .next (offer (commandAccess s m sh 3#8 arg) s)

/-- RESYNC-NOW (R180), code 4. -/
def execResyncNow (m : Master) (sh : Shape) (arg : BitVec 56) (s : State) : Host.Outcome State Fault Refusal :=
  .next (offer (commandAccess s m sh 4#8 arg) s)

/-- CLEAR-FAULT (R194), code 5. -/
def execClearFault (m : Master) (sh : Shape) (arg : BitVec 56) (s : State) : Host.Outcome State Fault Refusal :=
  .next (offer (commandAccess s m sh 5#8 arg) s)

/-- PORT-TRANSFER (R145), code 6. -/
def execPortTransfer (m : Master) (sh : Shape) (unused : BitVec 40) (port trigger : Byte) (s : State) :
    Host.Outcome State Fault Refusal :=
  .next (offer (commandAccess s m sh 6#8 (unused ++ port ++ trigger)) s)

/-- ANNOUNCEMENT_BLOCK_READ (R135). -/
def execAnnouncementBlockRead (m : Master) (off : Offset) (sh : Shape) (s : State) :
    Host.Outcome State Fault Refusal := .next (offer (regionAccess s m off .read sh []) s)

/-- TIME_VIEW_READ (R32). -/
def execTimeViewRead (m : Master) (off : Offset) (sh : Shape) (s : State) : Host.Outcome State Fault Refusal :=
  .next (offer (regionAccess s m off .read sh []) s)

/-- VIEW_0_WRITE (R31). -/
def execView0Write (m : Master) (off : Offset) (sh : Shape) (d : List Byte) (s : State) :
    Host.Outcome State Fault Refusal := .next (offer (regionAccess s m off .write sh d) s)

/-- CONVERTED_VIEW_WRITE (R47). -/
def execConvertedViewWrite (m : Master) (off : Offset) (sh : Shape) (d : List Byte) (s : State) :
    Host.Outcome State Fault Refusal := .next (offer (regionAccess s m off .write sh d) s)

/-- UNKNOWN_COMMAND_CODE (R199). -/
def execUnknownCommandCode (m : Master) (sh : Shape) (code : Byte) (arg : BitVec 56) (s : State) :
    Host.Outcome State Fault Refusal := .next (offer (commandAccess s m sh code arg) s)

/-- REFUSED_REGION_READ (R159). -/
def execRefusedRegionRead (m : Master) (off : Offset) (sh : Shape) (s : State) : Host.Outcome State Fault Refusal :=
  .next (offer (regionAccess s m off .read sh []) s)

/-- RESET_ASSERT (R182). -/
def execResetAssert (s : State) : Host.Outcome State Fault Refusal := .next (assertReset s)

/-- RESET_RELEASE (R183): while RESET is asserted, the part at its reset values with the straps sampled, which then takes
the accesses waiting on the card; else there is no release, and nothing (log entry 18). -/
def execResetRelease (page : BitVec 8) (control : Master) (s : State) : Host.Outcome State Fault Refusal :=
  if s.resetAsserted then .next (serve (releasedPart page control s)) else .next s

/-- INTAKE_FLUSH (R116): the Intake Unit takes FLUSH, and the held command write goes on (R179). -/
def execIntakeFlush (s : State) : Host.Outcome State Fault Refusal :=
  match s.wires.intakeFlushes with
  | 0 => .next s
  | n + 1 =>
    .next (serve (flushProgress false true (flushIntake (s.setWires { s.wires with intakeFlushes := n }))))

end Sys2Proof.Machine
end

