-- ==== Sys2Proof/Machine/ListClaims.lean ====
section
/-! DEFINITION. The claims the Change List takes, in the order of R16, and what each answer does at its requester. -/

namespace Sys2Proof.Machine

/-- The request the list takes next, when no freeze-and-commit claim waits (R16); one still on its way holds nothing back
(R73; log entry 28). When no request waits, the oldest on its way is taken as it reaches the list (log entry 31). -/
def nextRequest (s : State) : Option WaitingRequest :=
  match s.list.claims with
  | [] => (s.list.requests ++ s.list.sending).head?
  | _ :: _ => none

/-- The lookup or snapshot claim the list takes next, when no other claim waits (R16, R88); a freeze-and-commit claim still
on its way holds nothing back (R70, R143; log entry 28). -/
def nextQuery (s : State) : Option Query :=
  match s.list.claims, s.list.requests with
  | [], [] => s.list.queries.head?
  | _, _ => none

/-- The list hands an answer to a request's requester (R17); an abandoned requester's answer is discarded. -/
def deliverAnswer (who : Asker) (a : ListAnswer) (s : State) : State :=
  match who with
  | .qualifier => qualifierAnswer a s
  | .election => electionAnswer a s
  | _ => s

/-- The oldest request leaves the list, from among those that wait or else from those on their way. -/
def popRequest (s : State) : State :=
  match s.list.requests with
  | _ :: rest => s.setList { s.list with requests := rest }
  | [] => s.setList { s.list with sending := s.list.sending.tail }

/-- The head query leaves the queue. -/
def popQuery (s : State) : State := s.setList { s.list with queries := s.list.queries.tail }

/-- A request handled whole: schedule, events, answer (R16, R17). -/
def handleRequest (who : Asker) (v : Verdict) (s : State) : State :=
  let s1 := popRequest s
  deliverAnswer who v.answer (raise v.events (s1.setList { s1.list with sched := v.sched }))

/-- What a request comes to against the list as it stands (R18 to R23); FLUSH is not judged here. -/
def judgeRequest (s : State) : Request → Option Verdict
  | .armCivil b k o g => some (armCivil (freezeLead s) s.list.listSecond s.list.sched b k o g)
  | .armZone k b z o => some (armZone (freezeLead s) s.list.listSecond s.list.sched k b z o)
  | .replace b k o g => some (replaceCivil (freezeLead s) s.list.listSecond s.list.sched b k o g)
  | .withdrawCivil => some (withdrawCivil s.list.sched)
  | .withdrawZone k b => some (withdrawZone s.list.sched k b)
  | .flush => none

/-- The three kinds of request the table has a row for. -/
inductive RequestRow
  | arm
  | replace
  | withdraw
  deriving DecidableEq, Repr

/-- The row of a request. -/
def rowOf : Request → Option RequestRow
  | .armCivil _ _ _ _ => some .arm
  | .armZone _ _ _ _ => some .arm
  | .replace _ _ _ _ => some .replace
  | .withdrawCivil => some .withdraw
  | .withdrawZone _ _ => some .withdraw
  | .flush => none

/-- The list takes its next request when it is of the row named; else nothing (R16, log entry 3). -/
def takeRequest (row : RequestRow) (s : State) : State :=
  match nextRequest s with
  | none => s
  | some { request := r, asker := who } =>
    if rowOf r = some row then
      match judgeRequest s r with
      | some v => handleRequest who v s
      | none => s
    else s

/-- The list without its oldest freeze-and-commit claim, one on its way being taken as it reaches the list (R16). -/
def popClaim (l : ChangeList) : Option (SChange × ChangeList) :=
  match l.claims, l.coming with
  | c :: rest, _ => some (c, { l with claims := rest })
  | [], c :: rest => some (c, { l with coming := rest })
  | [], [] => none

/-- The Change List takes a freeze-and-commit claim (R73, R76, R79, R81, R82). -/
def takeClaim (c : SChange) (s : State) : State :=
  let es := s.list.sched.entries
  let f := freezeLead s
  let s1 := s.setList { s.list with
    listSecond := c.after
    sched := { s.list.sched with entries := claimEntries f c es } }
  let s2 := raise (claimEvents f c es) s1
  s2.setWires { s2.wires with
    civilCommits := s2.wires.civilCommits ++ civilNotices c es
    commits := s2.wires.commits ++ commitNotices c es }

/-- The Change List takes its FLUSH claim (R26, R179). -/
def takeListFlush (s : State) : State :=
  let s1 := popRequest s
  let f := flushSchedule s1.list.sched
  flushProgress true false (raise f.2 (s1.setList { s1.list with sched := f.1 }))

/-- The lookup answer at the Scale Converter: the held read is converted and answered, or the held write is stored or
refused (R32, R47). -/
def converterLookup (sched : Schedule) (s : State) : State :=
  match s.path.held with
  | some { access := a, job := .timeConvert v r p w0 w1 } =>
    finishTimeRead a v r p (convertRead s.status.config.glob.smearExponent.toNat sched v w0 w1) s
  | some { access := a, job := .timeInvert v r w0 w1 } =>
    match convertWrite sched v w0 with
    | .ok stored => holdAndIssue a .relay [recordWrite s a.master r stored w1] s
    | .error kind => refuse kind a s
  | _ => s

/-- The list hands a lookup answer to its requester (R10). -/
def deliverLookup (who : Asker) (sched : Schedule) (s : State) : State :=
  match who with
  | .converter => converterLookup sched s
  | .qualifier => qualifierLookup sched s
  | _ => s

/-- The snapshot answer of a held status read (R185). -/
def statusSnapshot (sched : Schedule) (s : State) : State :=
  match s.path.held with
  | some { access := a, job := .status sm } => answerStatus a sm sched s
  | _ => s

/-- The list hands a snapshot answer to its requester (R15). -/
def deliverSnapshot (who : Asker) (sched : Schedule) (s : State) : State :=
  match who with
  | .election => electionSnapshot sched s
  | .patcher => patcherSnapshot sched s
  | .quiet => quietSnapshot sched s
  | .statusPage => statusSnapshot sched s
  | _ => s

/-- FREEZE_AND_COMMIT_CLAIM (R76): the oldest waiting claim is taken, ahead of every other class (R16). -/
def execFreezeAndCommitClaim (s : State) : Host.Outcome State Fault Refusal :=
  match popClaim s.list with
  | none => .next s
  | some (c, l) => .next (takeClaim c (s.setList l))

/-- The list takes its FLUSH claim, when it is the next request (R16, R26). -/
def takeFlushClaim (s : State) : State :=
  match nextRequest s with
  | some { request := .flush, asker := _ } => serve (takeListFlush s)
  | _ => s

/-- The list takes a lookup claim, when one is next (R10, R16). -/
def takeLookup (s : State) : State :=
  match nextQuery s with
  | some (.lookup who) => serve (deliverLookup who s.list.sched (popQuery s))
  | _ => s

/-- The list takes a snapshot claim, when one is next (R15, R16). -/
def takeSnapshot (s : State) : State :=
  match nextQuery s with
  | some (.snapshot who) => serve (deliverSnapshot who s.list.sched (popQuery s))
  | _ => s

/-- ARM_REQUEST (R18). -/
def execArmRequest (s : State) : Host.Outcome State Fault Refusal := .next (takeRequest .arm s)

/-- REPLACE_REQUEST (R22). -/
def execReplaceRequest (s : State) : Host.Outcome State Fault Refusal := .next (takeRequest .replace s)

/-- WITHDRAW_REQUEST (R23). -/
def execWithdrawRequest (s : State) : Host.Outcome State Fault Refusal := .next (takeRequest .withdraw s)

/-- LIST_FLUSH (R26). -/
def execListFlush (s : State) : Host.Outcome State Fault Refusal := .next (takeFlushClaim s)

/-- LOOKUP_CLAIM (R10). -/
def execLookupClaim (s : State) : Host.Outcome State Fault Refusal := .next (takeLookup s)

/-- SNAPSHOT_CLAIM (R15). -/
def execSnapshotClaim (s : State) : Host.Outcome State Fault Refusal := .next (takeSnapshot s)

end Sys2Proof.Machine
end

