-- ==== Sys2Proof/Machine/Dispatch.lean ====
section
/-! DEFINITION. The meaning of every command: one arm per row of spec/opcode_table.json. -/

namespace Sys2Proof.Machine

/-- The effect of a command on everything but the queue of commands. -/
def exec (i : Instr) (s : State) : Host.Outcome State Fault Refusal :=
  match i with
  -- reset lines, mark line and clock
  | .resetAssert => Sys2Proof.Machine.execResetAssert s
  | .resetRelease page control => Sys2Proof.Machine.execResetRelease page control s
  | .secondMark elapsed => Sys2Proof.Machine.execSecondMark elapsed s
  | .windowExpiry elapsed => Sys2Proof.Machine.execWindowExpiry elapsed s
  -- accesses and memory's answer
  | .forwardedAccess access => Sys2Proof.Machine.execForwardedAccess access s
  | .regionWrite m off shape data => Sys2Proof.Machine.execRegionWrite m off shape data s
  | .configurationWrite m off shape data => Sys2Proof.Machine.execConfigurationWrite m off shape data s
  | .portShadowWrite m off shape data => Sys2Proof.Machine.execPortShadowWrite m off shape data s
  | .intakeSlotWrite m off shape data => Sys2Proof.Machine.execIntakeSlotWrite m off shape data s
  | .memoryAnswer ok data => Sys2Proof.Machine.execMemoryAnswer ok data s
  | .statusRead m off shape => Sys2Proof.Machine.execStatusRead m off shape s
  -- command writes
  | .activate m shape arg => Sys2Proof.Machine.execActivate m shape arg s
  | .deactivate m shape arg => Sys2Proof.Machine.execDeactivate m shape arg s
  | .flush m shape arg => Sys2Proof.Machine.execFlush m shape arg s
  | .resyncNow m shape arg => Sys2Proof.Machine.execResyncNow m shape arg s
  | .clearFault m shape arg => Sys2Proof.Machine.execClearFault m shape arg s
  | .portTransfer m shape unused port trigger => Sys2Proof.Machine.execPortTransfer m shape unused port trigger s
  -- announcement blocks and time views
  | .announcementBlockRead m off shape => Sys2Proof.Machine.execAnnouncementBlockRead m off shape s
  | .timeViewRead m off shape => Sys2Proof.Machine.execTimeViewRead m off shape s
  | .view0Write m off shape data => Sys2Proof.Machine.execView0Write m off shape data s
  | .convertedViewWrite m off shape data => Sys2Proof.Machine.execConvertedViewWrite m off shape data s
  -- claims at the Change List
  | .freezeAndCommitClaim => Sys2Proof.Machine.execFreezeAndCommitClaim s
  | .armRequest => Sys2Proof.Machine.execArmRequest s
  | .replaceRequest => Sys2Proof.Machine.execReplaceRequest s
  | .withdrawRequest => Sys2Proof.Machine.execWithdrawRequest s
  | .listFlush => Sys2Proof.Machine.execListFlush s
  | .lookupClaim => Sys2Proof.Machine.execLookupClaim s
  | .snapshotClaim => Sys2Proof.Machine.execSnapshotClaim s
  -- events of the other blocks
  | .qualifierTake => Sys2Proof.Machine.execQualifierTake s
  | .intakeChangeOfS => Sys2Proof.Machine.execIntakeChangeOfS s
  | .civilCommitNotice => Sys2Proof.Machine.execCivilCommitNotice s
  | .intakeFlush => Sys2Proof.Machine.execIntakeFlush s
  | .electionTrigger => Sys2Proof.Machine.execElectionTrigger s
  | .electionFlush => Sys2Proof.Machine.execElectionFlush s
  | .portChangeOfS => Sys2Proof.Machine.execPortChangeOfS s
  | .commitNotice => Sys2Proof.Machine.execCommitNotice s
  | .eventRaise e => Sys2Proof.Machine.execEventRaise e s
  -- refused accesses
  | .unknownCommandCode m shape code arg => Sys2Proof.Machine.execUnknownCommandCode m shape code arg s
  | .refusedRegionRead m off shape => Sys2Proof.Machine.execRefusedRegionRead m off shape s

end Sys2Proof.Machine
end

