-- ==== Sys2Proof/Machine/Step.lean ====
section
/-! DEFINITION. One step: the command at the front of the queue, or one idle cycle of REFERENCE-CLOCK. -/

namespace Sys2Proof.Machine

/-- One step (log entry 1): the command at the front of the queue, run on the state with the queue's rest; on an empty
queue one REFERENCE-CLOCK cycle passes, which the reference counter counts (R54) and with which the freeze-and-commit
claims and the requests on their way reach the list (log entries 28 and 31), and nothing else happens. -/
def step (s : State) : Host.Outcome State Fault Refusal :=
  match s.pending with
  | [] => .next (advanceCounter 1#32 s)
  | c :: rest => exec c (s.setPending rest)

/-- The state with the command a table word spells put at the front of the queue; no row of the table gives bits, so no
word spells one and the state is as it was (log entry 25). -/
def State.withFetchWord (s : State) (nbits w : Nat) : State :=
  match decodeTableWord nbits w with
  | none => s
  | some c => s.setPending (c :: s.pending)

end Sys2Proof.Machine
end

