-- ==== Sys2Proof/Safety.lean ====
section
/-! DEFINITION. What the statements are made of: the access a command offers, the states in which an access is taken at
once, a held access waiting for memory, and the laws of the change list, of its offsets, of the intake queues and of the
TRANSPARENT part that every step keeps. -/

namespace Sys2Proof.Machine

/-! ## Accesses -/

/-- The access a command offers, for the rows that are accesses (R152, R199). -/
def accessOf (s : State) : Instr → Option Access
  | .forwardedAccess a => some a
  | .regionWrite m off sh d => some (regionAccess s m off .write sh d)
  | .configurationWrite m off sh d => some (regionAccess s m off .write sh d)
  | .portShadowWrite m off sh d => some (regionAccess s m off .write sh d)
  | .intakeSlotWrite m off sh d => some (regionAccess s m off .write sh d)
  | .view0Write m off sh d => some (regionAccess s m off .write sh d)
  | .convertedViewWrite m off sh d => some (regionAccess s m off .write sh d)
  | .statusRead m off sh => some (regionAccess s m off .read sh [])
  | .announcementBlockRead m off sh => some (regionAccess s m off .read sh [])
  | .timeViewRead m off sh => some (regionAccess s m off .read sh [])
  | .refusedRegionRead m off sh => some (regionAccess s m off .read sh [])
  | .activate m sh arg => some (commandAccess s m sh 1#8 arg)
  | .deactivate m sh arg => some (commandAccess s m sh 2#8 arg)
  | .flush m sh arg => some (commandAccess s m sh 3#8 arg)
  | .resyncNow m sh arg => some (commandAccess s m sh 4#8 arg)
  | .clearFault m sh arg => some (commandAccess s m sh 5#8 arg)
  | .portTransfer m sh unused port trigger => some (commandAccess s m sh 6#8 (unused ++ port ++ trigger))
  | .unknownCommandCode m sh code arg => some (commandAccess s m sh code arg)
  | _ => none

/-- The state in which an access offered is taken at once: RESET is not asserted, the unit is free, no memory access is
unanswered and nothing waits on the card (R152, R170). -/
structure Ready (s : State) : Prop where
  running : s.resetAsserted = false
  free : s.path.held = none
  quiet : s.path.outstanding = none
  fresh : s.path.stale = false
  issued : s.path.toIssue = []
  alone : s.card = []

/-- The state while access `a` is held for job `j` and its only memory access `m` is unanswered (R155, R165). -/
def State.waitingFor (s : State) (a : Access) (j : Job) (m : Access) : State :=
  s.setPath { s.path with held := some { access := a, job := j }, outstanding := some m }

/-- The state while access `a` is held for job `j` with no memory access. -/
def State.holding (s : State) (a : Access) (j : Job) : State :=
  s.setPath { s.path with held := some { access := a, job := j } }

/-- The state with one more answer given on the system-side port (R152). -/
def State.answered (s : State) (m : Master) (ok : Bool) (d : List Byte) : State :=
  s.setAnswers (s.answers ++ [{ master := m, ok := ok, data := d }])

/-- The state with more events on their way to the Status Unit (R190). -/
def State.raised (s : State) (es : List Event) : State := s.setWires { s.wires with events := s.wires.events ++ es }

/-- What a step of S from one second to another hands on: one change, or nothing when S stands still (R55, R56). -/
def handOn (before after : Second) : List SChange :=
  if after = before then [] else [{ before := before, after := after }]

/-- The state with the supervisor replaced, a change of S handed on to the Change List, the Intake Unit and the Port
Patcher (R56), and events raised. -/
def State.moved (s : State) (new : Supervisor) (es : List Event) : State :=
  ((s.setSup new).setList { s.list with coming := s.list.coming ++ handOn s.sup.s new.s }).setWires
    { s.wires with
      events := s.wires.events ++ es
      intakeS := s.wires.intakeS ++ handOn s.sup.s new.s
      portS := s.wires.portS ++ handOn s.sup.s new.s }

/-- As many zero bytes as a read asks for; none for a write (R152). -/
def zeroData (a : Access) : List Byte :=
  match a.dir with
  | .read => List.replicate (accessLen a) 0#8
  | .write => []

/-- The state after a refusal: the fault record takes the refusal, or SECOND-FAULT is set; ACCESS-FAULT is raised; an
access to the time views empties its master's latch; the answer is ERROR with zero data (R46, R164, R169). -/
def State.refusedWith (s : State) (kind : FaultKind) (a : Access) : State :=
  let off := regionOff a (regionBase s)
  let path := match s.path.fault with
    | none => { s.path with
        fault := some
          { kind := kind, master := a.master, off := BitVec.ofNat 16 off, dir := a.dir, second := s.sup.s } }
    | some _ => { s.path with secondFault := true }
  let latches :=
    if 0x8000 ≤ off ∧ off ≤ 0xEFFF then s.path.latches.set a.master.toFin none else s.path.latches
  ((s.setPath { path with latches := latches }).raised [.accessFault]).answered a.master false (zeroData a)

/-- The shapes accepted outside the time views: an aligned beat of 8 or 4 bytes, or an aligned burst (R161). -/
def PlainShape (sh : Shape) (off : Offset) : Prop :=
  (sh = .beat .eight ∧ off.toNat % 8 = 0) ∨ (sh = .beat .four ∧ off.toNat % 4 = 0) ∨
    ∃ k, sh = .burst k ∧ off.toNat % 8 = 0

/-- The list has no claim waiting (R16); freeze-and-commit claims and requests may be on their way to it (log entries 28
and 31). -/
def ListFree (s : State) : Prop := s.list.claims = [] ∧ s.list.requests = [] ∧ s.list.queries = []

/-! ## The supervisor -/

/-- S advanced by one at a mark, an expiry or a re-anchor; it stays at 2^48 - 1 (R55). -/
def State.nextSecond (s : State) : Second := if s.sup.s.toNat = 2 ^ 48 - 1 then s.sup.s else s.sup.s + 1#48

/-- The state after reference cycles have passed: the counter counts them (R54), and when there is at least one, the
freeze-and-commit claims and the requests on their way wait at the list (log entries 28 and 31). -/
def State.elapsed (s : State) (e : Count) : State :=
  (if e = 0#32 then s
    else s.setList { s.list with
      claims := s.list.claims ++ s.list.coming, coming := []
      requests := s.list.requests ++ s.list.sending, sending := [] }).setCounter (s.counter + e)

/-- The supervisor after a mark captured at `x`, before the mark is judged (R54). -/
def State.captured (s : State) (x : Count) : Supervisor :=
  { s.sup with previous := s.sup.present, present := some x }

/-- tol: the configured tolerance, at most 10,000,000 (R60, R173). -/
def State.tol (s : State) : Nat := min s.status.config.glob.tolerance.toNat 10000000

/-! ## Staging words -/

/-- Staging word `k` of a slot (R93). -/
def Staging.word (st : Staging) : Fin 3 → Option Word
  | 0 => st.w0
  | 1 => st.w1
  | 2 => st.w2

/-- Staging word `k` of a slot set (R93). -/
def Staging.put (st : Staging) (k : Fin 3) (w : Word) : Staging :=
  match k with
  | 0 => { st with w0 := some w }
  | 1 => { st with w1 := some w }
  | 2 => { st with w2 := some w }

/-- The status unit with a command taken (R189, R199). -/
def State.took (s : State) (w : Word) : State := s.setStatus { s.status with lastCommand := w }

/-- The word a command write carries (section 11.8). -/
def commandWord (code : Byte) (arg : BitVec 56) : Word := place 0 code ||| place 7 arg

/-! ## Laws of the change list -/

/-- The order law: strictly increasing (boundary, scale), CIVIL first (R5). -/
def OrderLaw (es : List Entry) : Prop := es.Pairwise fun e f => e.precedes f = true

/-- The capacity law (R6). -/
structure CapacityLaw (es : List Entry) : Prop where
  total : es.length ≤ Config.capacity
  civil : (es.filter fun e => e.pending && e.scale == .civil).length ≤ 1
  zones : pendingZones es ≤ Config.pendingZoneLimit

/-- Every APPLIED entry stands before every pending entry (R7). -/
def AppliedFirst (es : List Entry) : Prop := es.Pairwise fun e f => f.isApplied = true → e.isApplied = true

/-- No pending entry lies at or below a second (R74). -/
def PendingAbove (s : Second) (es : List Entry) : Prop :=
  ∀ e ∈ es, e.pending = true → s.toNat < e.boundary.toNat

/-- LATE and STEPPED-OVER are absent on every pending entry (R3). -/
def PendingUnflagged (es : List Entry) : Prop :=
  ∀ e ∈ es, e.pending = true → e.late = false ∧ e.steppedOver = false

/-- The waiting claims lead from one second to another, each a change (R75). -/
def ClaimChain : Second → List SChange → Second → Prop
  | x, [], y => x = y
  | x, c :: cs, y => c.before = x ∧ c.after ≠ c.before ∧ ClaimChain c.after cs y

/-- The claims, waiting and on their way, lead from the list second to S; while RESET is asserted there is none and no
access is held (R75, R182). -/
def ClaimsLaw (s : State) : Prop :=
  if s.resetAsserted = true then s.list.claims = [] ∧ s.list.coming = [] ∧ s.path.held = none
  else ClaimChain s.list.listSecond (s.list.claims ++ s.list.coming) s.sup.s

/-- The laws of the change list (R3, R5, R6, R7, R74, R75). -/
structure ListLaws (s : State) : Prop where
  order : OrderLaw s.list.sched.entries
  capacity : CapacityLaw s.list.sched.entries
  appliedFirst : AppliedFirst s.list.sched.entries
  pendingAbove : PendingAbove s.list.listSecond s.list.sched.entries
  unflagged : PendingUnflagged s.list.sched.entries
  claims : ClaimsLaw s

/-! ## Laws of the offsets -/

/-- Kind and scale go together: leaps are civil, zone shifts are of zones (R1). -/
def Entry.kindFits (e : Entry) : Prop := e.scale = .civil ↔ e.kind ≠ .zoneShift

/-- Prior offsets follow one another from the base offset on, and a leap moves the offset by one (R1, R24). -/
def OffsetChain : Int → List Entry → Prop
  | _, [] => True
  | base, e :: es => e.prior = base ∧ e.new = e.kind.apply base e.new ∧ OffsetChain e.new es

/-- An offset lies in the range of its scale (R1). -/
def OffsetInRange : Scale → Int → Prop
  | .civil, x => Config.civilMin ≤ x ∧ x ≤ Config.civilMax
  | .zone _, x => -Config.zoneLimit ≤ x ∧ x ≤ Config.zoneLimit

/-- A zone shift is never zero and never above its limit (R1). -/
def ShiftLaw (e : Entry) : Prop :=
  e.scale ≠ .civil → e.new ≠ e.prior ∧ |e.new - e.prior| ≤ Config.shiftLimit

/-- Entries of one zone stand at least 86,400 s apart (R13, R20). -/
def ZoneSpacing (es : List Entry) : Prop :=
  es.Pairwise fun e f =>
    e.scale = f.scale → e.scale ≠ .civil → (e.boundary.toNat : Int) + Config.zoneSpacing ≤ f.boundary.toNat

/-- The laws of the offsets of a schedule (R1, R8, R13, R24). -/
structure OffsetLaws (sched : Schedule) : Prop where
  kinds : ∀ e ∈ sched.entries, e.kindFits
  chains : ∀ sc, OffsetChain (sched.base.offset sc) (sched.entries.filter fun e => e.scale == sc)
  baseRange : ∀ sc, OffsetInRange sc (sched.base.offset sc)
  ranges : ∀ e ∈ sched.entries, OffsetInRange e.scale e.new
  shifts : ∀ e ∈ sched.entries, ShiftLaw e
  spacing : ZoneSpacing sched.entries

/-! ## Laws of the intake queues and of the locked configuration -/

/-- A write held for the snoop while the part is ACTIVE covers no global and no source byte (R162, R174). -/
def HeldSnoopLaw (s : State) : Prop :=
  s.status.part = .active → ∀ a, s.path.held = some { access := a, job := .store .config } →
    touches a (regionBase s) 0x0000 0x01FF = false

/-- No record waits that the qualifier could take: it takes one at the first moment all its conditions hold (R98). -/
def NoTakeDue (s : State) : Prop :=
  s.resetAsserted = false → s.status.part = .active → s.sup.timeBase ≠ .unset → s.intake.qualifier = none →
    ∀ n : SourceNo, s.intake.sources[n].queue = []

/-- No queue holds more records than its configured depth, while the part is TRANSPARENT every source is DISABLED with an
empty queue, and no record waits that the qualifier could take (R91, R96, R98). -/
structure IntakeLaws (s : State) : Prop where
  depth : ∀ n : SourceNo, s.intake.sources[n].queue.length ≤ queueDepth s n
  idle : s.status.part = .transparent →
    ∀ n : SourceNo, s.intake.sources[n].state = .disabled ∧ s.intake.sources[n].queue = []
  locked : HeldSnoopLaw s
  taken : NoTakeDue s

/-! ## The TRANSPARENT part -/

/-- The jobs an access can be held for while the part is TRANSPARENT: forwarded, snooped, or an allowed command (R157,
R167, R175). -/
def transparentJob : Job → Bool
  | .relay => true
  | .store .none => true
  | .store .config => true
  | .command w => (commandOf w).any (commandAllowed .transparent)
  | _ => false

/-- What the blocks hold while the part is TRANSPARENT: an empty list that receives no claims, a time base that is
UNSET with S at 0, no qualifier record, no election run, no pending transfer, empty latches, and nothing but events on
its way between blocks (R27, R43, R72, R91, R117, R133, R178). -/
structure TransparentLaws (s : State) : Prop where
  entries : s.list.sched.entries = []
  list : s.list.listSecond = 0#48 ∧ s.list.claims = [] ∧ s.list.coming = [] ∧ s.list.requests = [] ∧ s.list.sending = [] ∧
    s.list.queries = []
  supervisor : s.sup = { Supervisor.reset with present := s.sup.present, previous := s.sup.previous }
  qualifier : s.intake.qualifier = none ∧ s.intake.civilHorizon = none
  election : s.election = .reset
  transfers : (∀ p : PortNo, s.patcher.ports[p].transfer = none) ∧ s.patcher.judgement = none ∧ s.patcher.waiting = []
  latches : ∀ m : Fin 16, s.path.latches[m] = none
  wires : s.wires = { Wires.empty with events := s.wires.events }
  held : ∀ h, s.path.held = some h → transparentJob h.job = true

/-- While the part is TRANSPARENT, every block is idle. -/
def TransparentIdle (s : State) : Prop := s.status.part = .transparent → TransparentLaws s

end Sys2Proof.Machine
end

