-- ==== Sys2Proof/Certificates/Slice0/Obligations.lean ====
section
/-! DEFINITION. The statements for the provers. An access command and memory's answer to it are two commands, so the
statement of such an access runs both. -/

section Statements

open Sys2Proof Sys2Proof.Machine

/-! ## One step -/

/-- A step runs the command at the front of the queue on the state with the queue's rest. On an empty queue it is one cycle
of REFERENCE-CLOCK, which the reference counter counts (R54) and with which the freeze-and-commit claims and the
requests on their way reach the list, and changes nothing else (the model's choices, log entries 1, 28 and 31). -/
def Obligations.StepRunsTheFrontCommand : Prop :=
  (∀ (c : Instr) (rest : List Instr) (s : State), step (s.setPending (c :: rest)) = exec c (s.setPending rest)) ∧
  ∀ s : State, s.pending = [] → step s = .next (s.elapsed 1#32)

/-- No command stops the part, and none touches the queue (log entry 1). -/
def Obligations.EveryCommandAnswersANextState : Prop :=
  ∀ (c : Instr) (s : State), ∃ t, exec c s = .next t ∧ t.pending = s.pending

/-! ## RESET -/

/-- The release of RESET with nothing waiting on the card: the straps are sampled and every block holds its reset values;
what stays is the queue, the answers given and a memory access still unanswered, whose answer will be discarded (R170,
R183). A release while RESET is not asserted changes nothing (the model's choice, log entry 18). -/
def Obligations.ResetReleaseSetsTheResetValues : Prop :=
  ∀ (page : BitVec 8) (control : Master) (s : State),
    (s.resetAsserted = false → exec (.resetRelease page control) s = .next s) ∧
    (s.resetAsserted = true → s.card = [] →
      ∃ t, exec (.resetRelease page control) s = .next t ∧
        t.resetAsserted = false ∧ t.straps = { page := page, control := control } ∧ t.counter = 0#32 ∧
        t.status.part = .transparent ∧ t.status.configError = .none ∧ t.status.eventWord = 0#16 ∧
        t.status.lastCommand = 0#64 ∧
        t.status.config.glob =
          { civilOffset := 0#16, zoneOffsets := #v[0#32, 0#32, 0#32, 0#32], zoneCount := 0#3, clockMaster := 0#4,
            spacing := 1#8, silence := 300#32, minLead := 60#32, horizon := 31622400#32, freezeLead := 10#16,
            grid := 86400#32, smearEnable := false, smearExponent := 16#5, tolerance := 2000#32,
            holdoverLimit := 60#16, resyncCount := 3#3, enableMask := 0#16 } ∧
        (∀ n : SourceNo, t.status.config.sources[n] =
          { enabled := false, kind := .network, priority := 0#4, owner := 0#4, deep := false, confirm := 3#4 }) ∧
        (∀ p : PortNo, t.status.config.shadows[p] =
            { enabled := false, scale := 1#4, zone := 0#2, mask := 0x3F#6, lead := 43200#24, hold := 60#16 } ∧
          t.patcher.ports[p] = { active := t.status.config.shadows[p], transfer := none }) ∧
        t.patcher.judgement = none ∧ t.patcher.waiting = [] ∧
        t.sup = { s := 0#48, timeBase := .unset, present := none, previous := none, p := 0#32, missed := 0#16,
                  holdover := false, stray := .none, disagree := 0, resyncPending := false } ∧
        t.list.sched.entries = [] ∧
        t.list.sched.base = { floor := 0#48, floorEnd := 0, civil := 0, zones := #v[0, 0, 0, 0] } ∧
        t.list.listSecond = 0#48 ∧ t.list.claims = [] ∧ t.list.coming = [] ∧ t.list.requests = [] ∧
        t.list.sending = [] ∧ t.list.queries = [] ∧
        (∀ n : SourceNo, t.intake.sources[n] =
          { state := .disabled, staging := { w0 := none, w1 := none, w2 := none }, lastSeq := none, queue := [],
            lastHeard := none, lastCounted := none, candidate := none, confirmed := none,
            disposition := { outcome := .none, seq := none, answer := none }, flags := 0#6 }) ∧
        t.intake.qualifier = none ∧ t.intake.civilHorizon = none ∧
        t.election = { lastWinner := none, disagree := false, run := none, runPending := false } ∧
        t.path.held = none ∧ t.path.toIssue = [] ∧ t.path.fault = none ∧ t.path.secondFault = false ∧
        (∀ m : Fin 16, t.path.latches[m] = none) ∧
        t.path.outstanding = s.path.outstanding ∧ t.path.stale = s.path.outstanding.isSome ∧
        t.wires = { events := [], intakeS := [], portS := [], civilCommits := [], commits := [], intakeFlushes := 0,
                    electionFlushes := 0, triggers := [] } ∧
        interruptAsserted t = false ∧
        t.card = [] ∧ t.answers = s.answers ∧ t.pending = s.pending)

/-- The assertion of RESET answers the held access ERROR with zero data without recording it, abandons the work in
flight, empties the latches, leaves a memory access already issued to complete with its answer to be discarded, and
releases the interrupt line (R52, R170, R182). That an assertion while RESET is asserted changes nothing, and that
registers such as the fault record and the straps keep their values until the release, is the model's inference (log
entry 18). -/
def Obligations.ResetAssertAbandonsWorkInFlight : Prop :=
  ∀ s : State,
    (s.resetAsserted = true → exec .resetAssert s = .next s) ∧
    (s.resetAsserted = false →
      ∃ t, exec .resetAssert s = .next t ∧
        t.resetAsserted = true ∧ interruptAsserted t = false ∧
        t.answers = s.answers ++ (match s.path.held with
          | none => []
          | some h => [{ master := h.access.master, ok := false, data := zeroData h.access }]) ∧
        t.path.held = none ∧ t.path.toIssue = [] ∧
        t.path.outstanding = s.path.outstanding ∧ t.path.stale = s.path.outstanding.isSome ∧
        t.path.fault = s.path.fault ∧ t.path.secondFault = s.path.secondFault ∧
        (∀ m : Fin 16, t.path.latches[m] = none) ∧
        t.list.claims = [] ∧ t.list.coming = [] ∧ t.list.requests = [] ∧ t.list.sending = [] ∧
        t.list.queries = [] ∧
        t.intake.qualifier = none ∧ t.election.run = none ∧ t.patcher.judgement = none ∧ t.patcher.waiting = [] ∧
        t.wires = Wires.empty ∧
        t.card = s.card ∧ t.straps = s.straps ∧ t.counter = s.counter ∧ t.pending = s.pending ∧
        (s.path.outstanding ≠ none → ∀ ok d, exec (.memoryAnswer ok d) t =
          .next (t.setPath { t.path with outstanding := none, stale := false })))

/-- While RESET is asserted a mark is not captured, no window expires, no record is taken, and an access offered is not taken
(R54, R71, R170, R182). The model's choices: SECOND_MARK and WINDOW_EXPIRY then only let the cycles they carry pass (log
entries 2, 28 and 31), and the access joins the end of those waiting on the card (log entry 5). -/
def Obligations.NothingIsTakenWhileResetIsAsserted : Prop :=
  ∀ s : State, s.resetAsserted = true →
    (∀ e : Count, exec (.secondMark e) s = .next (s.elapsed e)) ∧
    (∀ e : Count, exec (.windowExpiry e) s = .next (s.elapsed e)) ∧
    exec .qualifierTake s = .next s ∧
    (∀ (c : Instr) (a : Access), accessOf s c = some a → exec c s = .next (s.setCard (s.card ++ [a])))

/-! ## The Second Supervisor -/

/-- A mark before the time base is locked: in UNSET it is captured and has no other effect (R54, R58); in ACQUIRING it
advances S, anchors P, clears the runs and the missed count, locks the time base and raises TIMEBASE-CHANGE (R59). The
cycles the mark carries pass first (the model's choice, log entries 2, 28 and 31). -/
def Obligations.MarkBeforeLockIsCapturedAndLocks : Prop :=
  ∀ (e : Count) (s : State), s.resetAsserted = false →
    (s.sup.timeBase = .unset →
      exec (.secondMark e) s = .next ((s.elapsed e).setSup (s.captured (s.counter + e)))) ∧
    (s.sup.timeBase = .acquiring →
      exec (.secondMark e) s = .next ((s.elapsed e).moved
        { s.captured (s.counter + e) with
          s := s.nextSecond, timeBase := .locked, p := s.counter + e, missed := 0#16, stray := .none, disagree := 0 }
        [.timebaseChange]))

/-- A mark inside the window, in LOCKED or FLYWHEEL, advances S by one, anchors P at its capture, clears the missed count
and the stray run and leaves the time base LOCKED; out of FLYWHEEL it also clears holdover reported and raises
TIMEBASE-CHANGE (R54, R60, R61). The cycles the mark carries pass first (the model's choice, log entries 2, 28 and 31). -/
def Obligations.InWindowMarkAdvancesTheSecond : Prop :=
  ∀ (e : Count) (s : State), s.resetAsserted = false →
    100000000 - s.tol ≤ (s.counter + e - s.sup.p).toNat → (s.counter + e - s.sup.p).toNat ≤ 100000000 + s.tol →
    (s.sup.timeBase = .locked →
      exec (.secondMark e) s = .next ((s.elapsed e).moved
        { s.captured (s.counter + e) with
          s := s.nextSecond, timeBase := .locked, p := s.counter + e, missed := 0#16, stray := .none } [])) ∧
    (s.sup.timeBase = .flywheel →
      exec (.secondMark e) s = .next ((s.elapsed e).moved
        { s.captured (s.counter + e) with
          s := s.nextSecond, timeBase := .locked, p := s.counter + e, missed := 0#16, stray := .none,
          holdover := false } [.timebaseChange]))

/-- A mark outside the window moves nothing but the stray run, which it extends when it lies N within tol after the run's
last stray, and else restarts (R65); the third stray of a run re-anchors the time base, and advances S when it lies N/2
or more after P (R66). The cycles the mark carries pass first (the model's choice, log entries 2, 28 and 31). -/
def Obligations.StrayMarksReAnchorAtTheThird : Prop :=
  ∀ (e : Count) (s : State), s.resetAsserted = false →
    s.sup.timeBase = .locked ∨ s.sup.timeBase = .flywheel →
    ¬ (100000000 - s.tol ≤ (s.counter + e - s.sup.p).toNat ∧
        (s.counter + e - s.sup.p).toNat ≤ 100000000 + s.tol) →
    let x := s.counter + e
    let near := fun last : Count => 100000000 - s.tol ≤ (x - last).toNat ∧ (x - last).toNat ≤ 100000000 + s.tol
    let strays := fun r : StrayRun =>
      exec (.secondMark e) s = .next ((s.elapsed e).setSup { s.captured x with stray := r })
    (s.sup.stray = .none → strays (.one x)) ∧
    (∀ last, s.sup.stray = .one last → (near last → strays (.two x)) ∧ (¬ near last → strays (.one x))) ∧
    (∀ last, s.sup.stray = .two last →
      (¬ near last → strays (.one x)) ∧
      (near last →
        exec (.secondMark e) s = .next ((s.elapsed e).moved
          { s.captured x with
            s := if (x - s.sup.p).toNat < 50000000 then s.sup.s else s.nextSecond
            timeBase := .locked, p := x, missed := 0#16, stray := .none, holdover := false }
          [.timebaseChange])))

/-- The expiry of the open window makes a substitute mark: S advances, P moves by N, the missed count becomes 1 or rises,
saturating, the time base is FLYWHEEL, no mark is captured, and LONG-HOLDOVER is raised once, when the missed count
equals the limit (R62, R63). With no window, or before its end, nothing expires (R60; that the row then only lets
its cycles pass is the model's choice, log entries 2, 28 and 31). -/
def Obligations.WindowExpiryMakesASubstituteMark : Prop :=
  ∀ (e : Count) (s : State), s.resetAsserted = false →
    let x := s.counter + e
    let ended := 100000000 + s.tol + 1 ≤ (x - s.sup.p).toNat
    let reports := fun missed : BitVec 16 =>
      missed = s.status.config.glob.holdoverLimit ∧ s.sup.holdover = false
    let raised : BitVec 16 := if s.sup.missed = 65535#16 then 65535#16 else s.sup.missed + 1#16
    (s.sup.timeBase = .unset ∨ s.sup.timeBase = .acquiring ∨ ¬ ended →
      exec (.windowExpiry e) s = .next (s.elapsed e)) ∧
    (s.sup.timeBase = .locked → ended →
      exec (.windowExpiry e) s = .next ((s.elapsed e).moved
        { s.sup with s := s.nextSecond, timeBase := .flywheel, p := s.sup.p + 100000000#32, missed := 1#16,
                     holdover := s.sup.holdover || decide (reports 1#16) }
        (.timebaseChange :: (if reports 1#16 then [.longHoldover] else [])))) ∧
    (s.sup.timeBase = .flywheel → ended →
      exec (.windowExpiry e) s = .next ((s.elapsed e).moved
        { s.sup with s := s.nextSecond, p := s.sup.p + 100000000#32, missed := raised,
                     holdover := s.sup.holdover || decide (reports raised) }
        (if reports raised then [.longHoldover] else [])))

/-- A mark captured at or after the expiry count, less than half a second late, and the expiry leave the same supervisor
and the same waiting claims in either order (R64). -/
def Obligations.MarkAndExpiryAgreeInEitherOrder : Prop :=
  ∀ (e : Count) (s : State), s.resetAsserted = false →
    s.sup.timeBase = .locked ∨ s.sup.timeBase = .flywheel →
    100000000 + s.tol + 1 ≤ (s.counter + e - s.sup.p).toNat →
    (s.counter + e - s.sup.p).toNat < 150000000 →
    ∃ m mx x xm : State,
      exec (.secondMark e) s = .next m ∧ exec (.windowExpiry 0#32) m = .next mx ∧
      exec (.windowExpiry e) s = .next x ∧ exec (.secondMark 0#32) x = .next xm ∧
      mx.sup = xm.sup ∧ mx.list = xm.list

/-- A live write, of word 0 or of the whole record 0 through view 0 by the clock master with tag UNIFORM, empties that
master's latch and reaches memory as written; when memory answers OK the supervisor takes it: in UNSET it sets S and the
state becomes ACQUIRING (R58), and the qualifier takes a record at once where one waits (R98); in ACQUIRING it sets S
(R59); in LOCKED and FLYWHEEL equality with S clears the disagreement run, and a difference resyncs when resync pending
is set or the run reaches the resync count, 0 counting as 1, and else lengthens the run (R67 to R69). Resync pending is
cleared in every state (R69). When memory answers ERROR nothing is taken (R57). -/
def Obligations.LiveWriteSetsOrChecksTheSecond : Prop :=
  ∀ (w : Word) (sh : Shape) (rest d : List Byte) (s : State), Ready s → s.status.part = .active →
    field w 6 8 = 0#8 → (sh = .beat .eight ∧ rest = []) ∨ (sh = .burst 1 ∧ rest.length = 8) →
    let m := s.status.config.glob.clockMaster
    let a := regionAccess s m 0x8000#16 .write sh (wordBytes w ++ rest)
    let second : Second := field w 5 48
    let s1 := setLatch m none s
    let sup := { s.sup with resyncPending := false }
    let count := max s.status.config.glob.resyncCount.toNat 1
    ∃ t, exec (.view0Write m 0x8000#16 sh (wordBytes w ++ rest)) s = .next t ∧
      t.path.outstanding = some a ∧ t.sup = s.sup ∧
      exec (.memoryAnswer false d) t = .next (s1.answered m false []) ∧
      (let takes := fun (new : Supervisor) (es : List Event) =>
        exec (.memoryAnswer true d) t = .next ((s1.moved new es).answered m true [])
      (s.sup.timeBase = .unset → exec (.memoryAnswer true d) t = exec .qualifierTake
        ((s1.moved { sup with s := second, timeBase := .acquiring } [.timebaseChange]).answered m true [])) ∧
      (s.sup.timeBase = .acquiring → takes { sup with s := second } []) ∧
      (s.sup.timeBase = .locked ∨ s.sup.timeBase = .flywheel →
        (second = s.sup.s → takes { sup with disagree := 0 } []) ∧
        (second ≠ s.sup.s → s.sup.resyncPending = true ∨ s.sup.disagree + 1 = count →
          takes { sup with s := second, disagree := 0 } [.timebaseChange]) ∧
        (second ≠ s.sup.s → s.sup.resyncPending = false → s.sup.disagree + 1 ≠ count →
          takes { sup with disagree := s.sup.disagree + 1 } [])))

/-! ## Forwarding and refusal -/

/-- An access outside the region, in both part states, and while TRANSPARENT one in the region that touches no status byte
and is no write of the control master to the configuration block, goes to memory as it came; memory's answer is relayed,
OK with memory's data or ERROR with zero data, and nothing else changes (R154, R155, R157). While memory still owes an
answer to an access issued before a reset, the access is held and not issued; that answer, OK or ERROR, is discarded, and
the access is issued then (R170). The model's choices: data of another length than asked are fitted to it (log entry 6),
and bytes past FFFFFFh do not wrap to address 0, so such an access counts as outside the region (log entry 11). -/
def Obligations.ForwardedAccessIsPassedOnUnchanged : Prop :=
  (∀ (a : Access) (s : State), Ready s → a.wf = true →
    (a.addr.toNat + a.shape.bytes ≤ s.straps.page.toNat * 0x10000 ∨
      s.straps.page.toNat * 0x10000 + 0x10000 ≤ a.addr.toNat) ∨
    (s.status.part = .transparent ∧ touches a (regionBase s) 0x1000 0x1FFF = false ∧
      ¬ (a.dir = .write ∧ a.master = s.straps.control ∧ touches a (regionBase s) 0x0000 0x03FF = true)) →
    ∃ t, exec (.forwardedAccess a) s = .next t ∧ t.path.outstanding = some a ∧
      (∀ d, exec (.memoryAnswer true d) t =
        .next (s.answered a.master true (if a.dir = .read then fit a.shape.bytes d else []))) ∧
      (∀ d, exec (.memoryAnswer false d) t = .next (s.answered a.master false (zeroData a)))) ∧
  ∀ (a owed : Access) (s : State), s.resetAsserted = false → s.path.held = none → s.path.toIssue = [] → s.card = [] →
    s.path.outstanding = some owed → s.path.stale = true → a.wf = true →
    (a.addr.toNat + a.shape.bytes ≤ s.straps.page.toNat * 0x10000 ∨
      s.straps.page.toNat * 0x10000 + 0x10000 ≤ a.addr.toNat) →
    ∃ t u, exec (.forwardedAccess a) s = .next t ∧ t.path.outstanding = some owed ∧ t.answers = s.answers ∧
      (∀ ok d, exec (.memoryAnswer ok d) t = .next u) ∧ u.path.outstanding = some a ∧ u.answers = s.answers ∧
      ∀ d, exec (.memoryAnswer true d) u =
        .next ((s.setPath { s.path with outstanding := none, stale := false }).answered a.master true
          (if a.dir = .read then fit a.shape.bytes d else []))

/-- Whatever the row, an access that a check refuses is recorded, raises ACCESS-FAULT, is answered ERROR with zero data
and reaches no memory; a time-view access also empties its master's latch; nothing else changes (R46, R158, R164, R169).
While the part is ACTIVE the first of these that holds refuses an access of the region. BAD-ADDRESS: an unassigned
offset, the view of a zone at or above the zone count, a write of the status page other than at the command word (R159).
BAD-SIZE: in the time views any other shape than an aligned beat of 8 bytes or an aligned burst of 2 beats (R160);
elsewhere any other than an aligned beat of 8 or 4 bytes or an aligned burst, a last byte outside the window, and a
write of the command word that is not 8 bytes (R161). For a write, NOT-OWNER: another master than the control master,
than the owner of a covered slot, or, for record 0, than the clock master through view 0; then CONFIG-LOCKED for a
global or source byte (R162). Then VIEW-READ-ONLY through view 6, and SPLIT-WRITE for one word through views 1 to 5
(R163). -/
def Obligations.RefusedAccessIsRecordedAndAnswered : Prop :=
  (∀ (c : Instr) (a : Access) (s : State) (kind : FaultKind), Ready s → accessOf s c = some a →
    isChecked s a = true → checkAccess s a = some kind → exec c s = .next (s.refusedWith kind a)) ∧
  ∀ (c : Instr) (a : Access) (s : State), Ready s → accessOf s c = some a → s.status.part = .active →
    let base := s.straps.page.toNat * 0x10000
    let refused := fun kind => exec c s = .next (s.refusedWith kind a)
    (a.addr.toNat < base → base < a.addr.toNat + a.shape.bytes → refused .badSize) ∧
    (base ≤ a.addr.toNat → a.addr.toNat < base + 0x10000 →
      let o := a.addr.toNat - base
      let last := o + a.shape.bytes - 1
      let eight := a.shape = .beat .eight ∨ a.shape = .burst 0
      let status := 0x1000 ≤ o ∧ o ≤ 0x1FFF
      let views := 0x8000 ≤ o ∧ o ≤ 0xEFFF
      let view := (o - 0x8000) / 0x1000
      let badAddress :=
        (0x0400 ≤ o ∧ o ≤ 0x07FF) ∨ (0x0900 ≤ o ∧ o ≤ 0x0FFF) ∨ (0x2400 ≤ o ∧ o ≤ 0x7FFF) ∨ 0xF000 ≤ o ∨
          (views ∧ 2 ≤ view ∧ view ≤ 5 ∧ s.status.config.glob.zoneCount.toNat ≤ view - 2) ∨
          (a.dir = .write ∧ status ∧ o ≠ 0x1FF8)
      let inside := last ≤ 0x03FF ∨ (0x0800 ≤ o ∧ last ≤ 0x08FF) ∨ (status ∧ last ≤ 0x1FFF) ∨ (0x2000 ≤ o ∧ last ≤ 0x23FF)
      let shapeOk :=
        (views → (eight ∧ o % 8 = 0) ∨ (a.shape = .burst 1 ∧ o % 16 = 0)) ∧
        (¬ views → inside ∧ (a.dir = .write ∧ status → eight) ∧
          (((a.shape = .beat .eight ∨ ∃ k, a.shape = .burst k) ∧ o % 8 = 0) ∨ (a.shape = .beat .four ∧ o % 4 = 0)))
      let foreign :=
        ((o ≤ 0x03FF ∨ status ∨ (0x2000 ≤ o ∧ o ≤ 0x23FF)) ∧ a.master ≠ s.straps.control) ∨
          (0x0800 ≤ o ∧ o ≤ 0x08FF ∧ ∃ n : SourceNo, o ≤ 0x081F + n.val * 0x20 ∧ 0x0800 + n.val * 0x20 ≤ last ∧
            a.master ≠ s.status.config.sources[n].owner) ∨
          (views ∧ o / 0x10 % 0x100 = 0 ∧ ¬ (a.master = s.status.config.glob.clockMaster ∧ view = 0))
      (badAddress → refused .badAddress) ∧
      (¬ badAddress → ¬ shapeOk → refused .badSize) ∧
      (¬ badAddress → shapeOk → a.dir = .write →
        (foreign → refused .notOwner) ∧
        (¬ foreign → o ≤ 0x01FF → refused .configLocked) ∧
        (¬ foreign → views → view = 6 → refused .viewReadOnly) ∧
        (¬ foreign → views → 1 ≤ view → view ≤ 5 → eight → refused .splitWrite)))

/-- While the part is ACTIVE, a read at an unassigned offset, or in the view of a zone at or above the zone count, is
refused with BAD-ADDRESS, and a read of 1 or 2 bytes anywhere else in the region with BAD-SIZE (R159 to R161). -/
def Obligations.RegionReadsAreRefusedByAddressThenShape : Prop :=
  ∀ (m : Master) (off : Offset) (sh : Shape) (s : State), Ready s → s.status.part = .active →
    let o := off.toNat
    let unassigned := (0x0400 ≤ o ∧ o ≤ 0x07FF) ∨ (0x0900 ≤ o ∧ o ≤ 0x0FFF) ∨ (0x2400 ≤ o ∧ o ≤ 0x7FFF) ∨ 0xF000 ≤ o
    let noZone := 0xA000 ≤ o ∧ o ≤ 0xDFFF ∧ s.status.config.glob.zoneCount.toNat ≤ (o - 0xA000) / 0x1000
    let a := regionAccess s m off .read sh []
    (unassigned ∨ noZone → exec (.refusedRegionRead m off sh) s = .next (s.refusedWith .badAddress a)) ∧
    (¬ (unassigned ∨ noZone) → sh = .beat .one ∨ sh = .beat .two →
      exec (.refusedRegionRead m off sh) s = .next (s.refusedWith .badSize a))

/-- A write of the command word, by any of the seven command rows and in both part states, is refused with BAD-SIZE when it
is not 8 bytes and with NOT-OWNER when it does not come from the control master (R161, R162, R194); with code 0 or 7 and
above it is else refused with BAD-COMMAND (R175, R199). -/
def Obligations.UnknownCommandCodeIsRefused : Prop :=
  ∀ (m : Master) (sh : Shape) (arg : BitVec 56) (unused : BitVec 40) (port trigger code : Byte) (s : State), Ready s →
    (∀ (c : Instr) (a : Access), accessOf s c = some a →
      c ∈ [.activate m sh arg, .deactivate m sh arg, .flush m sh arg, .resyncNow m sh arg, .clearFault m sh arg,
        .portTransfer m sh unused port trigger, .unknownCommandCode m sh code arg] →
      (isEight sh = false → exec c s = .next (s.refusedWith .badSize a)) ∧
      (isEight sh = true → m ≠ s.straps.control → exec c s = .next (s.refusedWith .notOwner a))) ∧
    (isEight sh = true → m = s.straps.control → code = 0#8 ∨ 7 ≤ code.toNat →
      exec (.unknownCommandCode m sh code arg) s =
        .next (s.refusedWith .badCommand (commandAccess s m sh code arg)))

/-! ## Writes that memory takes as they are -/

/-- A write of the control master to the announcement blocks, while ACTIVE, reaches memory at its own address as written,
is answered with memory's answer, and changes nothing else (R155, R165). -/
def Obligations.AnnouncementWriteReachesMemoryOnly : Prop :=
  ∀ (m : Master) (off : Offset) (sh : Shape) (d : List Byte) (s : State), Ready s → s.status.part = .active →
    m = s.straps.control → d.length = sh.bytes → PlainShape sh off →
    0x2000 ≤ off.toNat → off.toNat + sh.bytes ≤ 0x2400 →
    ∃ t, exec (.regionWrite m off sh d) s = .next t ∧
      t.path.outstanding = some (regionAccess s m off .write sh d) ∧
      (∀ x, exec (.memoryAnswer true x) t = .next (s.answered m true [])) ∧
      (∀ x, exec (.memoryAnswer false x) t = .next (s.answered m false []))

/-- While TRANSPARENT a write that begins in the configuration block reaches memory as it came; when it comes from the
control master and memory answers OK, each written byte is snooped into the copy at its own offset; from another master,
or on ERROR, nothing is snooped. While ACTIVE a write of the control master that begins in the global or the source area
is refused with CONFIG-LOCKED, and one of another master with NOT-OWNER (R157, R162, R166, R174). -/
def Obligations.ConfigurationWriteIsSnoopedOrLocked : Prop :=
  ∀ (m : Master) (off : Offset) (sh : Shape) (d : List Byte) (s : State), Ready s → d.length = sh.bytes →
    off.toNat ≤ 0x03FF →
    let a := regionAccess s m off .write sh d
    let snooped := d.zipIdx.foldl (fun c bi => snoopByte (off.toNat + bi.2) bi.1 c) s.status.config
    (s.status.part = .transparent →
      ∃ t, exec (.configurationWrite m off sh d) s = .next t ∧ t.path.outstanding = some a ∧
        (∀ x, exec (.memoryAnswer false x) t = .next (s.answered m false [])) ∧
        (m ≠ s.straps.control → ∀ x, exec (.memoryAnswer true x) t = .next (s.answered m true [])) ∧
        (m = s.straps.control → ∀ x, exec (.memoryAnswer true x) t =
          .next ((s.setStatus { s.status with config := snooped }).answered m true []))) ∧
    (s.status.part = .active → PlainShape sh off → off.toNat + sh.bytes ≤ 0x0400 →
      (m ≠ s.straps.control → exec (.configurationWrite m off sh d) s = .next (s.refusedWith .notOwner a)) ∧
      (m = s.straps.control → off.toNat ≤ 0x01FF →
        exec (.configurationWrite m off sh d) s = .next (s.refusedWith .configLocked a)))

/-- While ACTIVE a write of the control master to the port-shadow areas reaches memory as written, and when memory answers
OK its bytes are snooped into the shadow policies; active policies and everything else stay (R134, R166, R174). -/
def Obligations.PortShadowWriteUpdatesTheShadow : Prop :=
  ∀ (off : Offset) (sh : Shape) (d : List Byte) (s : State), Ready s → s.status.part = .active →
    d.length = sh.bytes → PlainShape sh off → 0x0200 ≤ off.toNat → off.toNat + sh.bytes ≤ 0x0400 →
    let m := s.straps.control
    ∃ t, exec (.portShadowWrite m off sh d) s = .next t ∧
      t.path.outstanding = some (regionAccess s m off .write sh d) ∧
      (∀ x, exec (.memoryAnswer false x) t = .next (s.answered m false [])) ∧
      (∀ x, exec (.memoryAnswer true x) t = .next ((s.setStatus { s.status with
        config := d.zipIdx.foldl (fun c bi => snoopByte (off.toNat + bi.2) bi.1 c) s.status.config }).answered
          m true []))

/-- A snooped byte fills the held bits of its field, a field of several bytes being filled from its most significant byte
on, and changes no other field, for every byte of tables 11.6a to 11.6c; a byte that belongs to no field changes nothing
(R174, R198). -/
def Obligations.SnoopedByteFillsTheHeldBits : Prop :=
  ∀ (b : Byte) (c : ConfigCopy),
    let g := c.glob
    let global := fun (o : Nat) (new : GlobalConfig) => snoopByte o b c = { c with glob := new }
    let high := fun x : BitVec 16 => b ++ x.extractLsb' 0 8
    let low := fun x : BitVec 16 => x.extractLsb' 8 8 ++ b
    let put : BitVec 32 → Fin 4 → BitVec 32 := fun x j => match j with
      | 0 => b ++ x.extractLsb' 0 24
      | 1 => x.extractLsb' 24 8 ++ b ++ x.extractLsb' 0 16
      | 2 => x.extractLsb' 16 16 ++ b ++ x.extractLsb' 0 8
      | 3 => x.extractLsb' 8 24 ++ b
    global 0x00 { g with civilOffset := high g.civilOffset } ∧
    global 0x01 { g with civilOffset := low g.civilOffset } ∧
    global 0x02 { g with zoneCount := b.extractLsb' 0 3 } ∧
    global 0x03 { g with clockMaster := b.extractLsb' 0 4 } ∧
    global 0x04 { g with spacing := b } ∧
    global 0x05 { g with resyncCount := b.extractLsb' 0 3 } ∧
    global 0x06 { g with enableMask := high g.enableMask } ∧
    global 0x07 { g with enableMask := low g.enableMask } ∧
    (∀ j : Fin 4,
      (∀ k : ZoneNo, global (0x08 + 4 * k.val + j.val)
        { g with zoneOffsets := g.zoneOffsets.set k (put g.zoneOffsets[k] j) }) ∧
      global (0x18 + j.val) { g with silence := put g.silence j } ∧
      global (0x1C + j.val) { g with grid := put g.grid j } ∧
      global (0x20 + j.val) { g with minLead := put g.minLead j } ∧
      global (0x24 + j.val) { g with horizon := put g.horizon j } ∧
      global (0x28 + j.val) { g with tolerance := put g.tolerance j }) ∧
    global 0x2C { g with freezeLead := high g.freezeLead } ∧
    global 0x2D { g with freezeLead := low g.freezeLead } ∧
    global 0x2E { g with holdoverLimit := high g.holdoverLimit } ∧
    global 0x2F { g with holdoverLimit := low g.holdoverLimit } ∧
    global 0x30 { g with smearEnable := b.getLsbD 0 } ∧
    global 0x31 { g with smearExponent := b.extractLsb' 0 5 } ∧
    (∀ n : SourceNo,
      let old := c.sources[n]
      let source := fun (j : Nat) (new : SourceConfig) =>
        snoopByte (0x100 + n.val * 0x20 + j) b c = { c with sources := c.sources.set n new }
      source 0 { old with enabled := b.getLsbD 0 } ∧
      source 1 { old with kind := if b.getLsbD 0 then .localSource else .network } ∧
      source 2 { old with priority := b.extractLsb' 0 4 } ∧
      source 3 { old with owner := b.extractLsb' 0 4 } ∧
      source 4 { old with deep := b.getLsbD 0 } ∧
      source 5 { old with confirm := b.extractLsb' 0 4 }) ∧
    (∀ p : PortNo,
      let old := c.shadows[p]
      let shadow := fun (j : Nat) (new : Policy) =>
        snoopByte (0x200 + p.val * 0x20 + j) b c = { c with shadows := c.shadows.set p new }
      shadow 0 { old with enabled := b.getLsbD 0 } ∧
      shadow 1 { old with scale := b.extractLsb' 0 4 } ∧
      shadow 2 { old with zone := b.extractLsb' 0 2 } ∧
      shadow 3 { old with mask := b.extractLsb' 0 6 } ∧
      shadow 5 { old with lead := b ++ old.lead.extractLsb' 0 16 } ∧
      shadow 6 { old with lead := old.lead.extractLsb' 16 8 ++ b ++ old.lead.extractLsb' 0 8 } ∧
      shadow 7 { old with lead := old.lead.extractLsb' 8 16 ++ b } ∧
      shadow 8 { old with hold := high old.hold } ∧
      shadow 9 { old with hold := low old.hold }) ∧
    (∀ o : Nat,
      (0x32 ≤ o ∧ o ≤ 0xFF) ∨ (0x100 ≤ o ∧ o ≤ 0x1FF ∧ 6 ≤ o % 0x20) ∨
        (0x200 ≤ o ∧ o ≤ 0x3FF ∧ (o % 0x20 = 4 ∨ 10 ≤ o % 0x20)) ∨ 0x400 ≤ o →
      snoopByte o b c = c)

/-! ## Intake slots -/

/-- While ACTIVE a write of the owner master to words 0 to 2 of its slot reaches memory as written; when memory answers OK
and the source is not DISABLED, the written bytes replace those of the staging word, and an absent word becomes present
with its other bytes 0 (R93). -/
def Obligations.IntakeWriteIsStaged : Prop :=
  ∀ (n : SourceNo) (k : Fin 3) (j : Nat) (sh : Shape) (d : List Byte) (s : State), Ready s →
    s.status.part = .active → d.length = sh.bytes →
    (sh = .beat .eight ∧ j = 0) ∨ (sh = .beat .four ∧ (j = 0 ∨ j = 4)) →
    let m := s.status.config.sources[n].owner
    let off := BitVec.ofNat 16 (0x0800 + n.val * 0x20 + k.val * 8 + j)
    let src := s.intake.sources[n]
    ∃ t, exec (.intakeSlotWrite m off sh d) s = .next t ∧
      t.path.outstanding = some (regionAccess s m off .write sh d) ∧
      (∀ x, exec (.memoryAnswer false x) t = .next (s.answered m false [])) ∧
      (src.state = .disabled → ∀ x, exec (.memoryAnswer true x) t = .next (s.answered m true [])) ∧
      (src.state ≠ .disabled → ∃ w : Word,
        (∀ i < 8, wordByte w i =
          if j ≤ i ∧ i < j + d.length then d.getD (i - j) 0#8 else wordByte ((src.staging.word k).getD 0#64) i) ∧
        ∀ x, exec (.memoryAnswer true x) t =
          .next ((updSource n (fun src => { src with staging := src.staging.put k w }) s).answered m true []))

/-- A write of all 8 bytes of word 3 by the owner master closes the record when memory answers OK: dropped for a
DISABLED source; MALFORMED when staging word 0 is absent or its sequence differs from the echo; dropped as a repeat of
the last accepted sequence; else accepted into the queue, or in place of the youngest record of a full queue, with
OVERRUN (R94 to R96), and taken at once where the qualifier can take it (R98). A burst into slots of one owner is handed
over when memory answers OK, and does what single writes of its words in ascending order do: words before a word 3 are
part of the record it closes, and slot n closes before slot n + 1 is staged (R94). -/
def Obligations.ClosingAcceptsOrDropsTheRecord : Prop :=
  (∀ (n : SourceNo) (w : Word) (s : State), Ready s → s.status.part = .active →
    let m := s.status.config.sources[n].owner
    let off := BitVec.ofNat 16 (0x0818 + n.val * 0x20)
    let src := s.intake.sources[n]
    let echo : BitVec 16 := field w 7 16
    let record : Record :=
      { words := src.staging, seq := echo, arrival := s.sup.s, preAcquisition := s.sup.timeBase == .unset }
    let full := (if s.status.config.sources[n].deep then 2 else 1) ≤ src.queue.length
    let malformed := fun seq : BitVec 16 =>
      ((updSource n (fun src => { src with
        flags := src.flags ||| 0x01#6, disposition := { outcome := .malformed, seq := some seq, answer := none } }) s).raised
          [.sourceFault])
    ∃ t, exec (.intakeSlotWrite m off (.beat .eight) (wordBytes w)) s = .next t ∧
      t.path.outstanding = some (regionAccess s m off .write (.beat .eight) (wordBytes w)) ∧
      (∀ x, exec (.memoryAnswer false x) t = .next (s.answered m false [])) ∧
      (let closes := fun u : State => ∀ x, exec (.memoryAnswer true x) t = .next (u.answered m true [])
      let accepts := fun u : State => ∀ x, exec (.memoryAnswer true x) t = exec .qualifierTake (u.answered m true [])
      (src.state = .disabled → closes s) ∧
      (src.state ≠ .disabled →
        (src.staging.w0 = none → closes (malformed echo)) ∧
        (∀ w0, src.staging.w0 = some w0 →
          (field w0 7 16 ≠ echo → closes (malformed (field w0 7 16))) ∧
          (field w0 7 16 = echo →
            (src.lastSeq = some echo → closes s) ∧
            (src.lastSeq ≠ some echo → ¬ full →
              accepts (updSource n (fun src => { src with
                lastSeq := some echo, queue := src.queue ++ [record] }) s)) ∧
            (src.lastSeq ≠ some echo → full →
              accepts ((updSource n (fun src => { src with
                lastSeq := some echo, queue := src.queue.dropLast ++ [record],
                flags := src.flags ||| 0x02#6 }) s).raised [.sourceFault]))))))) ∧
  ∀ (m : Master) (i : Nat) (k : Fin 8) (ws : List Word) (s : State), Ready s → s.status.part = .active →
    ws.length = k.val + 1 → i + ws.length ≤ 32 →
    (∀ n : SourceNo, 4 * n.val < i + ws.length → i < 4 * n.val + 4 → s.status.config.sources[n].owner = m) →
    let slotWrite := fun (j : Nat) (sh : Shape) (d : List Byte) =>
      Instr.intakeSlotWrite m (BitVec.ofNat 16 (0x0800 + 8 * j)) sh d
    let writes := fun (j : Nat) (w : Word) (u v : State) =>
      ∃ t, exec (slotWrite j (.beat .eight) (wordBytes w)) u = .next t ∧
        ∀ x, exec (.memoryAnswer true x) t = .next (v.answered m true [])
    ∃ us : Nat → State, us 0 = s ∧ (∀ j w, ws[j]? = some w → writes (i + j) w (us j) (us (j + 1))) ∧
      ∃ t, exec (slotWrite i (.burst k) (ws.flatMap wordBytes)) s = .next t ∧
        t.path.outstanding = some (regionAccess s m (BitVec.ofNat 16 (0x0800 + 8 * i)) .write (.burst k)
          (ws.flatMap wordBytes)) ∧
        (∀ x, exec (.memoryAnswer false x) t = .next (s.answered m false [])) ∧
        ∀ x, exec (.memoryAnswer true x) t = .next ((us ws.length).answered m true [])

/-! ## The status page -/

/-- A read that covers the event word returns it as it stands and clears all 16 indications in the same step; a read of
the other half of its word clears nothing; a read that covers the fault flags of a source returns and clears those six
flags; in both part states, for any master (R184, R185, R188, R191). A read of any other word of a source record, of the
fault record, of a port record or of the command word is answered at once with that word as section 11.7 lays it out, and
changes nothing (R188, R189, R197, R199). -/
def Obligations.StatusReadsReturnAndClear : Prop :=
  ∀ (m : Master) (n : SourceNo) (p : PortNo) (s : State), Ready s →
    exec (.statusRead m 0x10C0#16 (.beat .eight)) s =
      .next ((s.setStatus { s.status with eventWord := 0#16 }).answered m true
        (wordBytes (s.status.eventWord.setWidth 64))) ∧
    exec (.statusRead m 0x10C4#16 (.beat .four)) s =
      .next ((s.setStatus { s.status with eventWord := 0#16 }).answered m true
        ([0#8, 0#8, s.status.eventWord.extractLsb' 8 8, s.status.eventWord.extractLsb' 0 8])) ∧
    exec (.statusRead m 0x10C0#16 (.beat .four)) s = .next (s.answered m true [0#8, 0#8, 0#8, 0#8]) ∧
    exec (.statusRead m (BitVec.ofNat 16 (0x1130 + n.val * 0x40)) (.beat .eight)) s =
      .next ((updSource n (fun src => { src with flags := 0#6 }) s).answered m true
        (wordBytes (s.intake.sources[n].flags.setWidth 64))) ∧
    (let src := s.intake.sources[n]
    let port := s.patcher.ports[p]
    let reads := fun (off : Nat) (w : Word) =>
      exec (.statusRead m (BitVec.ofNat 16 off) (.beat .eight)) s = .next (s.answered m true (wordBytes w))
    let bit : Bool → Byte := fun b => if b then 1#8 else 0#8
    let code : Nat → Byte := BitVec.ofNat 8
    let state := [SourceState.disabled, .waiting, .listening, .silent].idxOf src.state
    let outcome := [DispositionOutcome.none, .malformed, .unusable, .offsetDisagree, .offGrid, .tooLate, .tooFar, .tooSoon,
      .counted, .confirmed, .refused].idxOf src.disposition.outcome
    let answers := [ListAnswer.armed, .armedFrozen, .replacedArmed, .replacedFrozen, .withdrawn, .unchanged, .tooLate, .full,
      .tooClose, .shiftTooLarge, .noChange, .offsetLimit, .frozen, .noSuchEntry]
    let kinds := [FaultKind.badSize, .badAddress, .notOwner, .configLocked, .badCommand, .nonexistentTime, .outOfRangeTime,
      .splitWrite, .viewReadOnly]
    let shown : Content → Nat × Nat × Int × Second := fun c => match c with
      | .leap .noChange => (1, 0, 0, 0#48)
      | .leap (.change .insert b) => (2, 0, 0, b)
      | .leap (.change .delete b) => (3, 0, 0, b)
      | .zoneSet k b new => (4, k.val, new, b)
      | .zoneCancel k b => (5, k.val, 0, b)
    let source := fun (k : Nat) (w : Word) => reads (0x1100 + n.val * 0x40 + k * 8) w
    source 0 (code state ++ code outcome ++ (match src.disposition.answer with
        | none => 0#8
        | some a => code (answers.idxOf a + 1)) ++
      code ((if src.disposition.seq.isSome then 1 else 0) + (if src.disposition.answer.isSome then 2 else 0)) ++
      src.disposition.seq.getD 0#16 ++ 0#16) ∧
    (src.candidate = none → source 1 0#64 ∧ source 2 0#64) ∧
    (∀ c, src.candidate = some c →
      source 1 (code (shown c.content).1 ++ code c.count ++ bit c.gridDated ++ code (shown c.content).2.1 ++
        BitVec.ofInt 32 (shown c.content).2.2.1) ∧
      source 2 (0#16 ++ (shown c.content).2.2.2)) ∧
    (src.confirmed = none → source 3 0#64 ∧ source 4 0#64) ∧
    (∀ c, src.confirmed = some c →
      source 3 (code (shown (.leap c.content)).1 ++ bit c.gridDated ++ 0#48) ∧
      source 4 (0#16 ++ (shown (.leap c.content)).2.2.2)) ∧
    source 5 (bit src.lastHeard.isSome ++ 0#8 ++ src.lastHeard.getD 0#48) ∧
    source 7 0#64 ∧
    (s.path.fault = none → s.path.secondFault = false → reads 0x1300 0#64 ∧ reads 0x1308 0#64) ∧
    (∀ f, s.path.fault = some f →
      reads 0x1300 (code (if s.path.secondFault then 3 else 1) ++ code (kinds.idxOf f.kind + 1) ++ (0#4 ++ f.master) ++
        bit (f.dir == .write) ++ 0#16 ++ f.off) ∧
      reads 0x1308 (0#16 ++ f.second)) ∧
    reads (0x1800 + p.val * 0x20) (bit port.active.enabled ++ (0#4 ++ port.active.scale) ++ (0#6 ++ port.active.zone) ++
      (0#2 ++ port.active.mask) ++ 0#8 ++ port.active.lead) ∧
    reads (0x1808 + p.val * 0x20) (port.active.hold ++ bit port.transfer.isSome ++ (match port.transfer with
        | none => 0#8
        | some .nextMark => 2#8
        | some .nextCommit => 3#8
        | some .quiet => 4#8) ++ 0#32) ∧
    reads (0x1810 + p.val * 0x20) 0#64 ∧ reads (0x1818 + p.val * 0x20) 0#64 ∧
    reads 0x1FF8 s.status.lastCommand)

/-- While TRANSPARENT a read of the summary, the base record or an entry image is answered at once. While ACTIVE it
waits for one snapshot: straps, error code, S, time base, captures, missed count, last winner and indication are those
of the arrival, whatever the supervisor holds when the snapshot is answered; counts, presented offsets, base record and
images come from the snapshot; each word as section 11.7 lays it out (R54, R56, R88, R185 to R187, R197). The snapshot
may be answered while a claim is still on its way to the list, and then shows the entries from before that claim with
the S after it (R70; when a claim reaches the list is the model's choice, log entry 28). A floor end of 2^48 or more
shows a free value (log entry 12). -/
def Obligations.SummaryReadPairsArrivalWithOneSnapshot : Prop :=
  ∀ (m : Master) (s : State), Ready s → ListFree s →
    let shows := fun (off : Nat) (word : Schedule → Word) =>
      let c := Instr.statusRead m (BitVec.ofNat 16 off) (.beat .eight)
      (s.status.part = .transparent → exec c s = .next (s.answered m true (wordBytes (word s.list.sched)))) ∧
      (s.status.part = .active →
        ∃ t, exec c s = .next t ∧ t.path.outstanding = none ∧ t.answers = s.answers ∧
          ∀ (later : Supervisor) (sched : Schedule),
            exec .snapshotClaim ((t.setSup later).setList { t.list with sched := sched }) =
              .next (((s.setSup later).setList { s.list with sched := sched }).answered m true (wordBytes (word sched))))
    let bit : Bool → Byte := fun b => if b then 1#8 else 0#8
    let code : Nat → Byte := BitVec.ofNat 8
    let sup := s.sup
    let error : Nat × Nat := match s.status.configError with
      | .none => (0, 0)
      | .zoneCount => (1, 0)
      | .freezeLead => (2, 0)
      | .horizon => (3, 0)
      | .grid => (4, 0)
      | .confirmCount n => (5, n.val)
      | .smearExponent => (6, 0)
      | .tolerance => (7, 0)
    let timeBase := [TimeBase.unset, .acquiring, .locked, .flywheel].idxOf sup.timeBase
    let difference : Count := match sup.present, sup.previous with
      | some now, some before => now - before
      | _, _ => 0#32
    let count := fun (sched : Schedule) (st : EntryState) => code (sched.entries.filter fun e => e.state == st).length
    let newest := fun (sched : Schedule) (sc : Scale) (base : Int) =>
      (((sched.entries.filter fun e => e.state == .applied && e.scale == sc).getLast?).map (·.new)).getD base
    let zone := fun (sched : Schedule) (k : ZoneNo) => BitVec.ofInt 32 (newest sched (.zone k) sched.base.zones[k])
    shows 0x1000 (fun _ => bit (s.status.part == .active) ++ code error.1 ++ code error.2 ++ s.straps.page ++
      (0#4 ++ s.straps.control) ++ code timeBase ++ (match s.election.lastWinner with
        | none => 255#8
        | some n => code n.val) ++ bit s.election.disagree) ∧
    shows 0x1008 (fun _ => 0#16 ++ sup.s) ∧
    shows 0x1010 (fun _ => sup.present.getD 0#32 ++ sup.previous.getD 0#32) ∧
    shows 0x1018 (fun _ => difference ++ sup.missed ++
      code ((if sup.present.isSome then 1 else 0) + (if sup.previous.isSome then 2 else 0)) ++ 0#8) ∧
    shows 0x1020 (fun sched => BitVec.ofInt 16 (newest sched .civil sched.base.civil) ++ count sched .armed ++
      count sched .frozen ++ count sched .applied ++ 0#24) ∧
    shows 0x1028 (fun sched => zone sched 0 ++ zone sched 1) ∧
    shows 0x1030 (fun sched => zone sched 2 ++ zone sched 3) ∧
    shows 0x1038 (fun _ => 0#64) ∧
    shows 0x1080 (fun sched => 0#16 ++ sched.base.floor) ∧
    shows 0x1088 (fun sched => 0#16 ++ (if sched.base.floorEnd < 2 ^ 48 then BitVec.ofNat 48 sched.base.floorEnd
      else Config.floorEndShown sched.base.floorEnd)) ∧
    shows 0x1090 (fun sched => BitVec.ofInt 16 sched.base.civil ++ 0#48) ∧
    shows 0x1098 (fun sched => BitVec.ofInt 32 sched.base.zones[0] ++ BitVec.ofInt 32 sched.base.zones[1]) ∧
    shows 0x10A0 (fun sched => BitVec.ofInt 32 sched.base.zones[2] ++ BitVec.ofInt 32 sched.base.zones[3]) ∧
    ∀ i : Fin 32,
      let image := fun (k : Nat) (word : Entry → Word) =>
        shows (0x1400 + i.val * 0x20 + k * 8) (fun sched => match sched.entries[i.val]? with
          | none => 0#64
          | some e => word e)
      let scale : Entry → Nat := fun e => match e.scale with
        | .civil => 0
        | .zone k => k.val + 1
      let kind : Entry → Nat := fun e => match e.kind with
        | .leap .insert => 1
        | .leap .delete => 2
        | .zoneShift => 3
      let state : Entry → Nat := fun e => match e.state with
        | .armed => 1
        | .frozen => 2
        | .applied => 3
      image 0 (fun e => 1#8 ++ code (scale e) ++ code (kind e) ++ code (state e) ++
        code ((if e.late then 1 else 0) + (if e.steppedOver then 2 else 0) + (if e.gridDated then 4 else 0)) ++
        code e.origin.val ++ 0#16) ∧
      image 1 (fun e => 0#16 ++ e.boundary) ∧
      image 2 (fun e => BitVec.ofInt 32 e.prior ++ BitVec.ofInt 32 e.new) ∧
      image 3 (fun _ => 0#64)

/-! ## Commands -/

/-- A command write of the control master is carried to the command word and acts when memory answers OK; on ERROR it is
not taken. ACTIVATE, allowed while TRANSPARENT: the first of the seven checks that fails sets the configuration error
code and leaves every block as it was; when all pass, every block is set up from the copy and the part is ACTIVE;
ACTIVATION is set either way (R8, R53, R91, R117, R133, R167, R173, R176, R177, R199). While ACTIVE it is refused with
BAD-COMMAND (R175). -/
def Obligations.ActivateChecksAndSetsUp : Prop :=
  ∀ (m : Master) (sh : Shape) (arg : BitVec 56) (d : List Byte) (s : State), Ready s → isEight sh = true →
    m = s.straps.control →
    let a := commandAccess s m sh 1#8 arg
    let g := s.status.config.glob
    let badK := (List.finRange 8).find? fun n =>
      s.status.config.sources[n].enabled &&
        !decide (1 ≤ s.status.config.sources[n].confirm.toNat ∧ s.status.config.sources[n].confirm.toNat ≤ 8)
    let code : ConfigError :=
      if 4 < g.zoneCount.toNat then .zoneCount
      else if ¬ g.freezeLead.toNat < g.minLead.toNat then .freezeLead
      else if ¬ g.minLead.toNat < g.horizon.toNat then .horizon
      else if g.grid.toNat = 0 then .grid
      else match badK with
        | some n => .confirmCount n
        | none =>
          if 17 < g.smearExponent.toNat then .smearExponent
          else if g.tolerance.toNat = 0 ∨ 25000000 ≤ g.tolerance.toNat then .tolerance
          else .none
    (s.status.part = .active → exec (.activate m sh arg) s = .next (s.refusedWith .badCommand a)) ∧
    (s.status.part = .transparent →
      ∃ t, exec (.activate m sh arg) s = .next t ∧ t.path.outstanding = some a ∧
        exec (.memoryAnswer false d) t = .next (s.answered m false []) ∧
        ∃ u, exec (.memoryAnswer true d) t = .next u ∧
          u.answers = s.answers ++ [{ master := m, ok := true, data := [] }] ∧
          u.status = { s.status with
            part := if code = .none then .active else .transparent
            configError := code
            eventWord := s.status.eventWord ||| 0x8000#16
            lastCommand := commandWord 1#8 arg } ∧
          (code ≠ .none →
            u.sup = s.sup ∧ u.list = s.list ∧ u.intake = s.intake ∧ u.election = s.election ∧
            u.patcher = s.patcher ∧ u.path = s.path) ∧
          (code = .none →
            u.sup = { s := 0#48, timeBase := .unset, present := s.sup.present, previous := s.sup.previous, p := 0#32,
                      missed := 0#16, holdover := false, stray := .none, disagree := 0, resyncPending := false } ∧
            u.list = { sched := { entries := [], base := u.list.sched.base }, listSecond := 0#48, claims := [],
                       coming := [], requests := [], sending := [], queries := [] } ∧
            u.list.sched.base.floor = 0#48 ∧ u.list.sched.base.floorEnd = 0 ∧
            u.list.sched.base.civil = g.civilOffset.toInt ∧
            (∀ k : ZoneNo, u.list.sched.base.zones[k] = max (-64800) (min 64800 g.zoneOffsets[k].toInt)) ∧
            (∀ n : SourceNo, u.intake.sources[n] =
              { state := if s.status.config.sources[n].enabled then .waiting else .disabled,
                staging := { w0 := none, w1 := none, w2 := none }, lastSeq := none, queue := [], lastHeard := none,
                lastCounted := none, candidate := none, confirmed := none,
                disposition := { outcome := .none, seq := none, answer := none },
                flags := s.intake.sources[n].flags }) ∧
            u.intake.qualifier = none ∧ u.intake.civilHorizon = none ∧
            u.election = { lastWinner := none, disagree := false, run := none, runPending := false } ∧
            (∀ p : PortNo, u.patcher.ports[p] = { active := s.status.config.shadows[p], transfer := none }) ∧
            u.patcher.judgement = none ∧ u.patcher.waiting = [] ∧
            u.path = { s.path with latches := u.path.latches } ∧ (∀ k : Fin 16, u.path.latches[k] = none)) ∧
          u.wires = s.wires ∧ u.straps = s.straps ∧ u.counter = s.counter ∧ u.resetAsserted = false)

/-- DEACTIVATE, allowed while ACTIVE, brings every block to its deactivation values when memory answers the command
write OK: the list is empty with its base record kept, the supervisor is UNSET with S 0 and no captures, sources are
DISABLED with dispositions and fault flags kept, the election idle, transfers cancelled with the policies kept, latches
empty, notices gone, and the part TRANSPARENT with configuration, error code, event word and fault record kept (R27,
R72, R91, R131, R151, R178). While TRANSPARENT it is refused with BAD-COMMAND (R175). That events already raised stay on
their way to the event word is the model's inference (log entry 10). -/
def Obligations.DeactivateReturnsEveryBlock : Prop :=
  ∀ (m : Master) (sh : Shape) (arg : BitVec 56) (d : List Byte) (s : State), Ready s → isEight sh = true →
    m = s.straps.control →
    let a := commandAccess s m sh 2#8 arg
    (s.status.part = .transparent → exec (.deactivate m sh arg) s = .next (s.refusedWith .badCommand a)) ∧
    (s.status.part = .active →
      ∃ t, exec (.deactivate m sh arg) s = .next t ∧ t.path.outstanding = some a ∧
        exec (.memoryAnswer false d) t = .next (s.answered m false []) ∧
        ∃ u, exec (.memoryAnswer true d) t = .next u ∧
          u.answers = s.answers ++ [{ master := m, ok := true, data := [] }] ∧
          u.status = { s.status with part := .transparent, lastCommand := commandWord 2#8 arg } ∧
          u.list = { sched := { entries := [], base := s.list.sched.base }, listSecond := 0#48, claims := [],
                     coming := [], requests := [], sending := [], queries := [] } ∧
          u.sup = { s := 0#48, timeBase := .unset, present := none, previous := none, p := 0#32, missed := 0#16,
                    holdover := false, stray := .none, disagree := 0, resyncPending := false } ∧
          (∀ n : SourceNo, u.intake.sources[n] =
            { state := .disabled, staging := { w0 := none, w1 := none, w2 := none }, lastSeq := none, queue := [],
              lastHeard := none, lastCounted := none, candidate := none, confirmed := none,
              disposition := s.intake.sources[n].disposition, flags := s.intake.sources[n].flags }) ∧
          u.intake.qualifier = none ∧ u.intake.civilHorizon = none ∧
          u.election = { lastWinner := none, disagree := false, run := none, runPending := false } ∧
          (∀ p : PortNo, u.patcher.ports[p] = { active := s.patcher.ports[p].active, transfer := none }) ∧
          u.patcher.judgement = none ∧ u.patcher.waiting = [] ∧
          u.path = { s.path with latches := u.path.latches } ∧ (∀ k : Fin 16, u.path.latches[k] = none) ∧
          u.wires = { Wires.empty with events := s.wires.events } ∧
          u.straps = s.straps ∧ u.counter = s.counter ∧ u.resetAsserted = false)

/-- FLUSH, allowed while ACTIVE, is answered once the Change List and the Intake Unit have both taken it, in either order:
the list keeps its APPLIED entries and its base record and raises SCHEDULE-CHANGE when it removed an entry; every queue,
candidate, confirmed proposal, last accepted sequence and last counted second is gone and the qualifier is free; FLUSH
is handed on to the Election Unit; supervisor, ports and fault record stay (R26, R100, R116, R179). A request on its way
stays on its way, and nobody takes the answer to one of the qualifier (the model's choice, log entries 19 and 31). -/
def Obligations.FlushEmptiesListAndIntake : Prop :=
  ∀ (m : Master) (sh : Shape) (arg : BitVec 56) (d : List Byte) (s : State), Ready s → isEight sh = true →
    m = s.straps.control → ListFree s → s.wires.intakeFlushes = 0 →
    let a := commandAccess s m sh 3#8 arg
    (s.status.part = .transparent → exec (.flush m sh arg) s = .next (s.refusedWith .badCommand a)) ∧
    (s.status.part = .active →
      ∃ t taken, exec (.flush m sh arg) s = .next t ∧ t.path.outstanding = some a ∧
        exec (.memoryAnswer false d) t = .next (s.answered m false []) ∧
        exec (.memoryAnswer true d) t = .next taken ∧ taken.answers = s.answers ∧
        ∃ list intake u : State,
          exec .listFlush taken = .next list ∧ list.answers = s.answers ∧ exec .intakeFlush list = .next u ∧
          exec .intakeFlush taken = .next intake ∧ intake.answers = s.answers ∧ exec .listFlush intake = .next u ∧
          u.answers = s.answers ++ [{ master := m, ok := true, data := [] }] ∧
          u.list = { s.list with
            sending := s.list.sending.map fun r =>
              { r with asker := if r.asker = .qualifier then .abandoned else r.asker }
            sched := { s.list.sched with entries := s.list.sched.entries.filter fun e => e.state == .applied } } ∧
          u.intake.qualifier = none ∧ u.intake.civilHorizon = s.intake.civilHorizon ∧
          (∀ n : SourceNo, u.intake.sources[n] = { s.intake.sources[n] with
            queue := [], candidate := none, confirmed := none, lastSeq := none, lastCounted := none }) ∧
          u.wires = { s.wires with
            events := s.wires.events ++
              (if s.list.sched.entries.any (fun e => e.state != .applied) then [.scheduleChange] else [])
            electionFlushes := s.wires.electionFlushes + 1 } ∧
          u.status = { s.status with lastCommand := commandWord 3#8 arg } ∧
          u.sup = s.sup ∧ u.election = s.election ∧ u.patcher = s.patcher ∧ u.path = s.path)

/-- RESYNC-NOW, allowed while ACTIVE, sets resync pending and changes no other block; CLEAR-FAULT, allowed in both part
states, empties the fault record and clears SECOND-FAULT, and leaves the event word; each becomes the last command taken
when memory answers its write OK, and neither is taken on ERROR (R69, R167, R175, R180, R194, R199). -/
def Obligations.ResyncNowAndClearFaultAct : Prop :=
  ∀ (m : Master) (sh : Shape) (arg : BitVec 56) (d : List Byte) (s : State), Ready s → isEight sh = true →
    m = s.straps.control →
    (s.status.part = .transparent →
      exec (.resyncNow m sh arg) s = .next (s.refusedWith .badCommand (commandAccess s m sh 4#8 arg))) ∧
    (s.status.part = .active →
      ∃ t, exec (.resyncNow m sh arg) s = .next t ∧ t.path.outstanding = some (commandAccess s m sh 4#8 arg) ∧
        exec (.memoryAnswer false d) t = .next (s.answered m false []) ∧
        exec (.memoryAnswer true d) t = .next
          (((s.setSup { s.sup with resyncPending := true }).took (commandWord 4#8 arg)).answered m true [])) ∧
    (∃ t, exec (.clearFault m sh arg) s = .next t ∧ t.path.outstanding = some (commandAccess s m sh 5#8 arg) ∧
      exec (.memoryAnswer false d) t = .next (s.answered m false []) ∧
      exec (.memoryAnswer true d) t = .next
        (((s.setPath { s.path with fault := none, secondFault := false }).took (commandWord 5#8 arg)).answered m true []))

/-- PORT-TRANSFER, allowed while ACTIVE for ports 0 to 15 and triggers 1 to 4: IMMEDIATE copies the shadow into the active
policy, drops a pending transfer and raises PORT-TRANSFER; the other triggers set transfer pending with that trigger, in
place of any earlier one. Any other port or trigger, and the command while TRANSPARENT, is refused with BAD-COMMAND
(R145, R146, R175, R199). -/
def Obligations.PortTransferActsOrWaitsForItsTrigger : Prop :=
  ∀ (m : Master) (sh : Shape) (unused : BitVec 40) (port trigger : Byte) (d : List Byte) (s : State), Ready s →
    isEight sh = true → m = s.straps.control →
    let arg := unused ++ port ++ trigger
    let a := commandAccess s m sh 6#8 arg
    let c := Instr.portTransfer m sh unused port trigger
    (s.status.part = .transparent ∨ 16 ≤ port.toNat ∨ trigger = 0#8 ∨ 5 ≤ trigger.toNat →
      exec c s = .next (s.refusedWith .badCommand a)) ∧
    (s.status.part = .active → ∀ p : PortNo, port.toNat = p.val → 1 ≤ trigger.toNat → trigger.toNat ≤ 4 →
      ∃ t, exec c s = .next t ∧ t.path.outstanding = some a ∧
        exec (.memoryAnswer false d) t = .next (s.answered m false []) ∧
        (let waits := fun x : TransferTrigger => exec (.memoryAnswer true d) t = .next
          (((updPort p (fun q => { q with transfer := some x }) s).took (commandWord 6#8 arg)).answered m true [])
        (trigger = 1#8 → exec (.memoryAnswer true d) t = .next
          ((((updPort p (fun _ => { active := s.status.config.shadows[p], transfer := none }) s).raised
            [.portTransfer]).took (commandWord 6#8 arg)).answered m true [])) ∧
        (trigger = 2#8 → waits .nextMark) ∧ (trigger = 3#8 → waits .nextCommit) ∧ (trigger = 4#8 → waits .quiet)))

/-! ## Announcement blocks -/

/-- A read of one word of an announcement block whose word is not patched, the port's active policy being disabled, the
mask clear, or the word 6 or 7, reads the whole block from memory and returns the word as memory holds it; no state
changes; memory's ERROR is answered with zero data (R135, R136). -/
def Obligations.UnpatchedWordComesFromMemory : Prop :=
  ∀ (m : Master) (p : PortNo) (w : Fin 8) (d : List Byte) (s : State), Ready s → s.status.part = .active →
    (let policy := s.patcher.ports[p].active
    policy.enabled = false ∨ 6 ≤ w.val ∨ policy.mask.getLsbD w = false) → d.length = 64 →
    let c := Instr.announcementBlockRead m (BitVec.ofNat 16 (0x2000 + p.val * 0x40 + w.val * 8)) (.beat .eight)
    ∃ t, exec c s = .next t ∧
      t.path.outstanding = some { master := m, addr := systemAddress (regionBase s) (0x2000 + p.val * 0x40), dir := .read,
                                  shape := .burst 7, data := [] } ∧
      exec (.memoryAnswer true d) t = .next (s.answered m true ((d.drop (8 * w.val)).take 8)) ∧
      exec (.memoryAnswer false d) t = .next (s.answered m false (List.replicate 8 0#8))

/-- A read of one patched word among words 0 to 4 samples S, the time-base state and the policies when it arrives, takes
one snapshot, and returns the word formed from that sample and that snapshot, whichever of memory and list answers
first, whatever S, time base, policies and list have become meanwhile; a read of patched word 5 takes no snapshot.
Memory's contents of the word are not used (R135, R136, R142). A burst, within one block or into the next, forms every
word it covers from the one sample and the one snapshot, each by the policy of its own port, and takes an unpatched word
from memory (R135 to R137). Sample and snapshot may stand on different sides of a change of S, also when the claim of a
change already sampled is still on its way to the list (R70, R143; when a claim reaches the list is the model's choice,
log entry 28). -/
def Obligations.PatchedWordIsFormedFromSampleAndSnapshot : Prop :=
  let changed := fun (u : State) (sched : Schedule) (sup : Supervisor) (ports : PortPatcher) =>
    ((u.setList { u.list with sched := sched }).setSup sup).setPatcher ports
  (∀ (m : Master) (p : PortNo) (w : Fin 6) (d : List Byte) (s : State), Ready s → ListFree s →
    s.status.part = .active → s.patcher.ports[p].active.enabled = true →
    s.patcher.ports[p].active.mask.getLsbD w = true →
    let c := Instr.announcementBlockRead m (BitVec.ofNat 16 (0x2000 + p.val * 0x40 + w.val * 8)) (.beat .eight)
    let policy := s.patcher.ports[p].active
    let done := fun (now : State) (sched : Schedule) =>
      now.answered m true (wordBytes (patchedWord (patchSample s) policy sched w))
    ∃ t, exec c s = .next t ∧
      (w.val = 5 → ∀ sched sup ports,
        exec (.memoryAnswer true d) (changed t sched sup ports) = .next (done (changed s sched sup ports) sched)) ∧
      (w.val ≤ 4 →
        (∀ sched sup ports, ∃ u, exec (.memoryAnswer true d) (changed t sched sup ports) = .next u ∧
          u.answers = s.answers ∧
          exec .snapshotClaim u = .next (done (changed s sched sup ports) sched)) ∧
        (∀ sched, ∃ u, exec .snapshotClaim (t.setList { t.list with sched := sched }) = .next u ∧
          u.answers = s.answers ∧
          ∀ after sup ports, exec (.memoryAnswer true d) (changed u after sup ports) =
            .next (done (changed s after sup ports) sched)))) ∧
  ∀ (m : Master) (i : Nat) (k : Fin 8) (d d' : List Byte) (s : State), Ready s → ListFree s →
    s.status.part = .active → i + k.val < 128 → d.length = 64 → d'.length = 64 →
    let c := Instr.announcementBlockRead m (BitVec.ofNat 16 (0x2000 + i * 8)) (.burst k)
    let policy := fun j : Nat => s.patcher.ports[(Fin.ofNat 16 (j / 8) : PortNo)].active
    let patched := fun j : Nat => (policy j).enabled && decide (j % 8 < 6) && (policy j).mask.getLsbD (j % 8)
    let block : Nat → Access := fun b =>
      { master := m, addr := systemAddress (regionBase s) (0x2000 + b * 0x40), dir := .read, shape := .burst 7,
        data := [] }
    let one := (i + k.val) / 8 = i / 8
    let snapshot := ∃ j, i ≤ j ∧ j ≤ i + k.val ∧ j % 8 ≤ 4 ∧ patched j = true
    let word := fun (sched : Schedule) (j : Nat) =>
      if patched j then wordBytes (patchedWord (patchSample s) (policy j) sched (j % 8))
      else ((d ++ d').drop (8 * j - 64 * (i / 8))).take 8
    let bytes := fun sched : Schedule => (List.range (k.val + 1)).flatMap fun e => word sched (i + e)
    ∃ t u, exec c s = .next t ∧ t.path.outstanding = some (block (i / 8)) ∧
      (one → u = t) ∧
      (¬ one → exec (.memoryAnswer true d) t = .next u ∧ u.answers = s.answers ∧
        u.path.outstanding = some (block (i / 8 + 1))) ∧
      (let last := if one then d else d'
      (¬ snapshot → exec (.memoryAnswer true last) u = .next (s.answered m true (bytes s.list.sched))) ∧
      (snapshot → ∃ v, exec (.memoryAnswer true last) u = .next v ∧ v.answers = s.answers ∧
        ∀ sched sup ports, exec .snapshotClaim (changed v sched sup ports) =
          .next ((changed s sched sup ports).answered m true (bytes sched))))

/-- What the patched words carry. Word 0: the new offset of the newest APPLIED civil entry, or the base civil offset;
OFFSET-VALID in LOCKED and FLYWHEEL; INSERT-PENDING, DELETE-PENDING and FROZEN of the announced civil entry, the first
with 0 < B - S and B - S at most the lead; JUST-CHANGED when a civil entry has 0 ≤ S - B < hold; the scale code. Words 1
and 2: its countdown and boundary, or 0. Word 4: the boundary of the zone's next entry above S when it lies within the
lead, or 0. Word 5: S and the time-base state (R138 to R142). -/
def Obligations.PatchedWordsShowTheSchedule : Prop :=
  ∀ (sm : PatchSample) (p : Policy) (sched : Schedule),
    let es := sched.entries
    let civil := es.filter fun e => e.scale == .civil
    let zone := es.filter fun e => e.scale == .zone p.zone.toFin
    let newest := (civil.filter fun e => e.state == .applied).getLast?
    let ahead := fun e : Entry => sm.s.toNat < e.boundary.toNat
    let announced := civil.find? fun e => decide (ahead e ∧ e.boundary.toNat - sm.s.toNat ≤ p.lead.toNat)
    let recent := civil.any fun e =>
      decide (e.boundary.toNat ≤ sm.s.toNat ∧ sm.s.toNat - e.boundary.toNat < p.hold.toNat)
    let nextZone := (zone.find? fun e => decide (ahead e)).filter fun e =>
      decide (e.boundary.toNat - sm.s.toNat ≤ p.lead.toNat)
    let flags : Byte := field (patchedWord sm p sched 0) 2 8
    field (patchedWord sm p sched 0) 1 16 = BitVec.ofInt 16 ((newest.map (·.new)).getD sched.base.civil) ∧
    flags.getLsbD 0 = (sm.timeBase == .locked || sm.timeBase == .flywheel) ∧
    flags.getLsbD 1 = announced.any (fun e => e.kind == .leap .insert) ∧
    flags.getLsbD 2 = announced.any (fun e => e.kind == .leap .delete) ∧
    flags.getLsbD 3 = recent ∧
    flags.getLsbD 4 = announced.any (fun e => e.state == .frozen) ∧
    field (patchedWord sm p sched 0) 3 8 = (if p.scale = 2#4 then 0#2 ++ p.zone ++ p.scale else 0#4 ++ p.scale) ∧
    patchedWord sm p sched 1 = BitVec.ofNat 64 ((announced.map fun e => e.boundary.toNat - sm.s.toNat).getD 0) ∧
    patchedWord sm p sched 2 = ((announced.map (·.boundary)).getD 0#48).setWidth 64 ∧
    field (patchedWord sm p sched 3) 2 24 =
      BitVec.ofInt 24 ((((zone.filter fun e => e.state == .applied).getLast?).map (·.new)).getD
        sched.base.zones[p.zone.toFin]) ∧
    field (patchedWord sm p sched 3) 3 8 = (if nextZone.isSome then 1#8 else 0#8) ∧
    field (patchedWord sm p sched 3) 6 24 = BitVec.ofInt 24 ((nextZone.map (·.new)).getD 0) ∧
    patchedWord sm p sched 4 = ((nextZone.map (·.boundary)).getD 0#48).setWidth 64 ∧
    field (patchedWord sm p sched 5) 7 48 = sm.s ∧
    field (patchedWord sm p sched 5) 1 8 = (match sm.timeBase with
      | .unset => 0#8
      | .acquiring => 1#8
      | .locked => 2#8
      | .flywheel => 3#8)

/-! ## Time views -/

/-- A read through view 0 returns the words memory holds: word 0 and fills the latch with word 1, word 1 of a record the
latch does not hold, or both; the latch is empty after the last two; and memory's ERROR empties it too (R31, R44 to
R46). -/
def Obligations.ViewZeroReadsReturnMemory : Prop :=
  ∀ (m : Master) (r : BitVec 8) (d : List Byte) (s : State), Ready s → s.status.part = .active → d.length = 16 →
    let base := 0x8000 + r.toNat * 0x10
    let empty := setLatch m none s
    let fetch : Access := { master := m, addr := systemAddress (regionBase s) base, dir := .read, shape := .burst 1,
                            data := [] }
    let reads := fun (off : Nat) (sh : Shape) (u : State) (len : Nat) =>
      ∃ t, exec (.timeViewRead m (BitVec.ofNat 16 off) sh) s = .next t ∧ t.path.outstanding = some fetch ∧
        exec (.memoryAnswer true d) t = .next u ∧
        exec (.memoryAnswer false d) t = .next (empty.answered m false (List.replicate len 0#8))
    reads base (.beat .eight)
      ((setLatch m (some { record := r, view := 0, word1 := bytesWord (d.drop 8) }) s).answered m true (d.take 8)) 8 ∧
    reads base (.burst 1) (empty.answered m true d) 16 ∧
    ((∀ l, s.path.latches[m.toFin] = some l → ¬ (l.record = r ∧ l.view = 0)) →
      reads (base + 8) (.beat .eight) (empty.answered m true (d.drop 8)) 8)

/-- A word-1 read whose latch holds the same record and view is answered at once with the latched word 1, with no memory
read and no lookup, and empties the latch; any other state stays (R45). -/
def Obligations.MatchingLatchAnswersTheWordOneRead : Prop :=
  ∀ (m : Master) (v : Fin 7) (r : BitVec 8) (w : Word) (s : State), Ready s → s.status.part = .active →
    (2 ≤ v.val ∧ v.val ≤ 5 → v.val - 2 < s.status.config.glob.zoneCount.toNat) →
    s.path.latches[m.toFin] = some { record := r, view := v, word1 := w } →
    exec (.timeViewRead m (BitVec.ofNat 16 (0x8000 + v.val * 0x1000 + r.toNat * 0x10 + 8)) (.beat .eight)) s =
      .next ((setLatch m none s).answered m true (wordBytes w))

/-- A read through views 1 to 5 of a convertible record, of word 0, of word 1 or of both, makes one lookup. When the
record's second is at or above the floor end, its converted value fits, and no earlier second gives the same result in
that view, the result is the converted seconds with the view's tag and its INSERTED and FOLD, and word 1 as stored; in
every other case the record as stored with UNCONVERTED set. A record that is not convertible makes no lookup and is
returned so at once (R29, R32 to R37). A read of word 0 fills the master's latch with word 1 of the same result; the
latch is empty after a read of both, and after one of word 1 that it did not hold (R44 to R46). Memory's ERROR is
answered with zero data, with no lookup and the latch empty (R32, R44, R155). -/
def Obligations.ConvertedReadShowsEachResultOnce : Prop :=
  ∀ (m : Master) (v : Fin 7) (r : BitVec 8) (w0 w1 : Word) (j : Nat) (sh : Shape) (s : State), Ready s →
    ListFree s → s.status.part = .active → 1 ≤ v.val → v.val ≤ 5 →
    (2 ≤ v.val → v.val - 2 < s.status.config.glob.zoneCount.toNat) →
    (j = 0 ∧ sh = .burst 1) ∨ (j = 0 ∧ sh = .beat .eight) ∨
      (j = 8 ∧ sh = .beat .eight ∧ ∀ l, s.path.latches[m.toFin] = some l → ¬ (l.record = r ∧ l.view = v)) →
    let sched := s.list.sched
    let second := (field w0 5 48 : Second).toNat
    let result := rawResult sched v second
    let empty := setLatch m none s
    let returned := fun v0 v1 : Word =>
      if sh = .burst 1 then empty.answered m true (wordBytes v0 ++ wordBytes v1)
      else if j = 0 then (setLatch m (some { record := r, view := v, word1 := v1 }) s).answered m true (wordBytes v0)
      else empty.answered m true (wordBytes v1)
    let shown := result.seconds ≥ 0 ∧ result.seconds < 2 ^ 48 ∧ sched.base.floorEnd ≤ second ∧
      ∀ earlier, sched.base.floorEnd ≤ earlier → earlier < second → rawResult sched v earlier ≠ result
    ∃ t u,
      exec (.timeViewRead m (BitVec.ofNat 16 (0x8000 + v.val * 0x1000 + r.toNat * 0x10 + j)) sh) s = .next t ∧
      (∀ d, exec (.memoryAnswer false d) t = .next (empty.answered m false (List.replicate sh.bytes 0#8))) ∧
      exec (.memoryAnswer true (wordBytes w0 ++ wordBytes w1)) t = .next u ∧
      (let stored := returned (w0 ||| 4#64) w1
      (field w0 6 8 ≠ 0#8 ∨ 999999999 < (field w1 3 32).toNat → u = stored) ∧
      (field w0 6 8 = 0#8 → (field w1 3 32).toNat ≤ 999999999 →
        u.answers = s.answers ∧
        (shown → exec .lookupClaim u = .next (returned
          (mkWord0 (BitVec.ofInt 48 result.seconds) (BitVec.ofNat 8 v.val) result.inserted result.fold) w1)) ∧
        (¬ shown → exec .lookupClaim u = .next stored)))

/-- A write through view 0 of a record other than the live one reaches memory at its own address as written, empties the
writer's latch, and is taken by no block (R31, R46, R57). -/
def Obligations.ViewZeroWriteIsStoredAsWritten : Prop :=
  ∀ (m : Master) (r : BitVec 8) (off : Offset) (sh : Shape) (d : List Byte) (s : State), Ready s →
    s.status.part = .active → r ≠ 0#8 → d.length = sh.bytes →
    (off.toNat = 0x8000 + r.toNat * 0x10 ∧ (sh = .beat .eight ∨ sh = .burst 1)) ∨
      (off.toNat = 0x8008 + r.toNat * 0x10 ∧ sh = .beat .eight) →
    ∃ t, exec (.view0Write m off sh d) s = .next t ∧
      t.path.outstanding = some (regionAccess s m off .write sh d) ∧
      (∀ x, exec (.memoryAnswer true x) t = .next ((setLatch m none s).answered m true [])) ∧
      (∀ x, exec (.memoryAnswer false x) t = .next ((setLatch m none s).answered m false []))

/-- A burst write of a record other than the live one through views 1 to 5. With UNCONVERTED set it is stored as
written, with no lookup. In a form the view does not produce it is refused with NONEXISTENT-TIME (at once, with no
lookup: the model's choice, log entry 29). Else one lookup finds the least second at or above the floor end that gives
the written triple, and that second, UNIFORM, is stored with word 1 as written; when there is none, the write is refused
with OUT-OF-RANGE-TIME below the view's value at the floor end and with NONEXISTENT-TIME otherwise (R47 to R51). -/
def Obligations.ConvertedWriteStoresTheUniformSecond : Prop :=
  ∀ (m : Master) (v : Fin 7) (r : BitVec 8) (w0 w1 : Word) (s : State), Ready s → ListFree s →
    s.status.part = .active → 1 ≤ v.val → v.val ≤ 5 → r ≠ 0#8 →
    (2 ≤ v.val → v.val - 2 < s.status.config.glob.zoneCount.toNat) →
    let sched := s.list.sched
    let off := BitVec.ofNat 16 (0x8000 + v.val * 0x1000 + r.toNat * 0x10)
    let c := Instr.convertedViewWrite m off (.burst 1) (wordBytes w0 ++ wordBytes w1)
    let a := regionAccess s m off .write (.burst 1) (wordBytes w0 ++ wordBytes w1)
    let empty := setLatch m none s
    let flags : Byte := field w0 7 8
    let triple : Triple :=
      { seconds := (field w0 5 48 : Second).toNat, inserted := flags.getLsbD 0, fold := flags.getLsbD 1 }
    let wellFormed := field w0 6 8 = BitVec.ofNat 8 v.val ∧ (field w1 3 32).toNat ≤ 999999999 ∧
      ¬ (v.val = 1 ∧ flags.getLsbD 1 = true)
    let stores := fun (t : State) (w : Word) =>
      t.path.outstanding = some { master := m, addr := systemAddress (regionBase s) (0x8000 + r.toNat * 0x10),
                                  dir := .write, shape := .burst 1, data := wordBytes w ++ wordBytes w1 } ∧
      (∀ x, exec (.memoryAnswer true x) t = .next (empty.answered m true [])) ∧
      (∀ x, exec (.memoryAnswer false x) t = .next (empty.answered m false []))
    let found := fun x : Nat => sched.base.floorEnd ≤ x ∧ x < 2 ^ 48 ∧ rawResult sched v x = triple
    (flags.getLsbD 2 = true → ∃ t, exec c s = .next t ∧ stores t w0) ∧
    (flags.getLsbD 2 = false → ¬ wellFormed → exec c s = .next (s.refusedWith .nonexistentTime a)) ∧
    (flags.getLsbD 2 = false → wellFormed →
      ∃ t, exec c s = .next t ∧ t.path.outstanding = none ∧ t.answers = s.answers ∧
        (∀ x, found x → (∀ z, found z → x ≤ z) →
          ∃ u, exec .lookupClaim t = .next u ∧ stores u (mkWord0 (BitVec.ofNat 48 x) 0#8 false false)) ∧
        ((∀ x, ¬ found x) →
          exec .lookupClaim t = .next (s.refusedWith
            (if triple.seconds < (rawResult sched v sched.base.floorEnd).seconds then .outOfRangeTime
              else .nonexistentTime) a)))

/-- A writable converted view gives no result for two seconds: two records converted to the same word 0 hold the same
second (R35). And a record stored by inverse conversion reads back through the same view, under the same schedule, as it
was written: seconds, tag, INSERTED and FOLD (R50). -/
def Obligations.WritableViewsAreOneToOne : Prop :=
  (∀ (sched : Schedule) (v : Fin 7) (x y : Second) (w : Word),
    convertPlain sched v x = some w → convertPlain sched v y = some w → x = y) ∧
  ∀ (sched : Schedule) (v : Fin 7) (w0 w1 stored : Word), writtenFormOk v w0 w1 = true →
    convertWrite sched v w0 = .ok stored →
    convertPlain sched v (recSeconds stored) =
      some (mkWord0 (recSeconds w0) (recTag w0) (recInserted w0) (recFold w0))

/-- The smear amount in the window of length 2^k before B runs from 0 up to, but not reaching, one second, and never
decreases as the instant increases (R40). A read through view 6 of a convertible record, of word 0, of word 1 or of
both, with smearing enabled, makes one lookup, and its result is the old civil instant shifted by the amount: less it
before an insertion, plus it before a deletion, unchanged outside the window; with tag SMEARED, no flags and the writer
tag as stored. Where windows overlap the next change alone counts (the model's choice, log entry 30). Below the floor
end, or where the seconds would not fit, and at once with smearing disabled, the result is the record as stored with
UNCONVERTED set (R33, R39 to R41). A read of word 0 fills the master's latch with word 1 of the same result; the latch
is empty after a read of both, and after one of word 1 that it did not hold (R44 to R46). Memory's ERROR is answered
with zero data, with no lookup and the latch empty (R32, R44, R155). -/
def Obligations.SmearedReadShiftsTheInstant : Prop :=
  (∀ (k : Nat) (b x n f x' n' f' : Int),
    0 ≤ n → n < 1000000000 → 0 ≤ f → f < 65536 → 0 ≤ n' → n' < 1000000000 → 0 ≤ f' → f' < 65536 →
    b - 2 ^ k ≤ x → x < b →
    0 ≤ smearAmount k b x n f ∧ smearAmount k b x n f < 65536000000000 ∧
    ((x, n, f) = (x', n', f') ∨ x < x' ∨ (x = x' ∧ (n < n' ∨ (n = n' ∧ f < f'))) →
      smearAmount k b x n f ≤ smearAmount k b x' n' f')) ∧
  ∀ (m : Master) (r : BitVec 8) (w0 w1 : Word) (j : Nat) (sh : Shape) (s : State), Ready s → ListFree s →
    s.status.part = .active → field w0 6 8 = 0#8 → (field w1 3 32).toNat ≤ 999999999 →
    (j = 0 ∧ sh = .burst 1) ∨ (j = 0 ∧ sh = .beat .eight) ∨
      (j = 8 ∧ sh = .beat .eight ∧ ∀ l, s.path.latches[m.toFin] = some l → ¬ (l.record = r ∧ l.view = 6)) →
    let sched := s.list.sched
    let k := s.status.config.glob.smearExponent.toNat
    let second := (field w0 5 48 : Second).toNat
    let nanos := (field w1 3 32).toNat
    let fraction := (field w1 5 16).toNat
    let next := sched.entries.find? fun e => e.scale == .civil && decide (second < e.boundary.toNat)
    let shift : Int := match next with
      | none => 0
      | some e =>
        let amount := smearAmount k e.boundary.toNat second nanos fraction
        if (second : Int) < e.boundary.toNat - 2 ^ k then 0 else if e.kind = .leap .delete then amount else - amount
    let instant : Int :=
      (((second : Int) - offsetAt sched .civil second) * 1000000000 + nanos) * 65536 + fraction + shift
    let shown := sched.base.floorEnd ≤ second ∧ 0 ≤ instant ∧ instant < 2 ^ 48 * 65536000000000
    let empty := setLatch m none s
    let returned := fun v0 v1 : Word =>
      if sh = .burst 1 then empty.answered m true (wordBytes v0 ++ wordBytes v1)
      else if j = 0 then (setLatch m (some { record := r, view := 6, word1 := v1 }) s).answered m true (wordBytes v0)
      else empty.answered m true (wordBytes v1)
    let stored := returned (w0 ||| 4#64) w1
    ∃ t u, exec (.timeViewRead m (BitVec.ofNat 16 (0xE000 + r.toNat * 0x10 + j)) sh) s = .next t ∧
      (∀ d, exec (.memoryAnswer false d) t = .next (empty.answered m false (List.replicate sh.bytes 0#8))) ∧
      exec (.memoryAnswer true (wordBytes w0 ++ wordBytes w1)) t = .next u ∧
      (s.status.config.glob.smearEnable = false → u = stored) ∧
      (s.status.config.glob.smearEnable = true →
        u.answers = s.answers ∧
        (shown → ∃ v0 v1 : Word,
          exec .lookupClaim u = .next (returned v0 v1) ∧
          ((field v0 5 48).toNat : Int) = instant / 65536000000000 ∧
          ((field v1 3 32).toNat : Int) = instant % 65536000000000 / 65536 ∧
          ((field v1 5 16).toNat : Int) = instant % 65536 ∧
          field v0 6 8 = 6#8 ∧ field v0 7 8 = 0#8 ∧ field v1 7 16 = field w1 7 16) ∧
        (¬ shown → exec .lookupClaim u = .next stored))

/-! ## The change list -/

/-- The Change List takes the oldest claim, one still on its way being taken as it reaches the list. The list second
becomes the new S. A forward claim commits every pending entry with B at or below it, LATE when B is below, and freezes
an ARMED entry with B - S at most F; a backward claim marks the APPLIED entries above it STEPPED-OVER; every other
entry, the base record and every other block stay. COMMIT, LATE-COMMIT, FREEZE and STEP-BACK are raised once each where
due, and the notices of commits are sent (R73, R76 to R82). While a claim waits at the list no request, lookup or
snapshot is taken, and while a request waits no lookup or snapshot (R16, R83, R88). That a command of the list that
takes nothing changes nothing, and that a claim is on its way until it has reached the list, are the model's choices
(log entries 3 and 28). -/
def Obligations.ClaimBringsEntriesToTheNewSecond : Prop :=
  (∀ (c : SChange) (rest : List SChange) (s : State), s.list.claims ++ s.list.coming = c :: rest →
    let new := c.after.toNat
    let forward := c.before.toNat < new
    let backward := new < c.before.toNat
    let es := s.list.sched.entries
    let lead := s.status.config.glob.freezeLead.toNat
    let commits := fun e : Entry => forward ∧ e.state ≠ .applied ∧ e.boundary.toNat ≤ new
    let freezes := fun e : Entry =>
      forward ∧ e.state = .armed ∧ new < e.boundary.toNat ∧ e.boundary.toNat - new ≤ lead
    let steps := fun e : Entry => backward ∧ e.state = .applied ∧ new < e.boundary.toNat
    ∃ t, exec .freezeAndCommitClaim s = .next t ∧
      t.list.claims = s.list.claims.tail ∧ t.list.claims ++ t.list.coming = rest ∧
      t.list = { s.list with
        claims := t.list.claims, coming := t.list.coming, listSecond := c.after,
        sched := { s.list.sched with entries := t.list.sched.entries } } ∧
      t.list.sched.entries.length = es.length ∧
      (∀ (i : Nat) (e e' : Entry), es[i]? = some e → t.list.sched.entries[i]? = some e' →
        (commits e → e' = { e with state := .applied, late := decide (e.boundary.toNat < new) }) ∧
        (freezes e → e' = { e with state := .frozen }) ∧
        (steps e → e' = { e with steppedOver := true }) ∧
        (¬ commits e → ¬ freezes e → ¬ steps e → e' = e)) ∧
      t = (s.setList t.list).setWires t.wires ∧
      t.wires = { s.wires with
        events := t.wires.events, civilCommits := t.wires.civilCommits, commits := t.wires.commits } ∧
      (∃ raised, t.wires.events = s.wires.events ++ raised ∧ raised.Nodup ∧
        (.commit ∈ raised ↔ ∃ e ∈ es, commits e) ∧
        (.lateCommit ∈ raised ↔ ∃ e ∈ es, commits e ∧ e.boundary.toNat < new) ∧
        (.freeze ∈ raised ↔ ∃ e ∈ es, freezes e) ∧
        (.stepBack ∈ raised ↔ ∃ e ∈ es, steps e) ∧
        ∀ e ∈ raised, e = .commit ∨ e = .lateCommit ∨ e = .freeze ∨ e = .stepBack) ∧
      (∃ sent, t.wires.commits = s.wires.commits ++ sent ∧ ((∃ e ∈ es, commits e) → sent = [c.after]) ∧
        ((∀ e ∈ es, ¬ commits e) → sent = [])) ∧
      (∃ sent, t.wires.civilCommits = s.wires.civilCommits ++ sent ∧
        ∀ n, n ∈ sent ↔ ∃ e ∈ es, commits e ∧ e.scale = .civil ∧
          n = { s := c.after, boundary := e.boundary, kind := e.kind })) ∧
  ∀ s : State,
    (s.list.claims ≠ [] →
      exec .armRequest s = .next s ∧ exec .replaceRequest s = .next s ∧ exec .withdrawRequest s = .next s ∧
      exec .listFlush s = .next s ∧ exec .lookupClaim s = .next s ∧ exec .snapshotClaim s = .next s) ∧
    (s.list.requests ≠ [] → exec .lookupClaim s = .next s ∧ exec .snapshotClaim s = .next s)

/-- A claim that advances S by exactly one second starts from the list second, finds every pending entry at or above its
new S, commits only entries with B equal to it, none of them with LATE set, and raises no LATE-COMMIT (R85). -/
def Obligations.OneSecondClaimCommitsNothingLate : Prop :=
  ∀ (c : SChange) (rest : List SChange) (s : State), ListLaws s → s.resetAsserted = false →
    s.list.claims ++ s.list.coming = c :: rest → c.after.toNat = c.before.toNat + 1 →
    c.before = s.list.listSecond ∧
    (∀ e ∈ s.list.sched.entries, e.state ≠ .applied → c.after.toNat ≤ e.boundary.toNat) ∧
    ∃ t, exec .freezeAndCommitClaim s = .next t ∧
      t.wires.events.count .lateCommit = s.wires.events.count .lateCommit ∧
      ∀ (i : Nat) (e e' : Entry), s.list.sched.entries[i]? = some e → t.list.sched.entries[i]? = some e' →
        e.state ≠ .applied → e'.late = false ∧ (e'.state = .applied → e.boundary = c.after)

/-- A lookup looks at boundaries, offsets and kinds, never at states or flags: two schedules that differ in nothing else
answer every lookup alike. So every lookup, and every conversion through views 1 to 5, gives the same answer before and
after a claim is taken (R11). -/
def Obligations.ClaimLeavesLookupsAsTheyWere : Prop :=
  (∀ a b : Schedule, a.base = b.base →
    a.entries.map (fun e => (e.boundary, e.scale, e.kind, e.prior, e.new)) =
      b.entries.map (fun e => (e.boundary, e.scale, e.kind, e.prior, e.new)) →
    ∀ x, lookup a x = lookup b x) ∧
  ∀ s : State, ∃ t, exec .freezeAndCommitClaim s = .next t ∧
    (∀ x, lookup t.list.sched x = lookup s.list.sched x) ∧
    ∀ (v : Fin 7) (x : Second), convertPlain t.list.sched v x = convertPlain s.list.sched v x

/-- An accepted arm request inserts one entry: its boundary, scale, kind and origin as asked, LATE and STEPPED-OVER
absent, GRID-DATED as asked and absent for a zone; FROZEN when B - S is at most F, S being the list second, and else
ARMED; its prior offset the new offset of the entry of its scale before it, or the base offset. The other entries stay,
but for the next later entry of the zone, whose prior offset becomes the new offset, and for the oldest entry, discarded
into the base record when the list holds 32; else the base record stays. SCHEDULE-CHANGE is raised, FREEZE for an entry
that enters FROZEN, HISTORY-DISCARD for a discard (R3, R8, R9, R18 to R21, R24, R25, R73). -/
def Obligations.AcceptedArmInsertsTheEntry : Prop :=
  ∀ (who : Asker) (rest : List WaitingRequest) (b : Second) (origin : SourceNo) (s : State), ListLaws s →
    OffsetLaws s.list.sched → s.list.claims = [] →
    s.list.listSecond.toNat < b.toNat →
    (∀ e ∈ s.list.sched.entries, e.state = .applied → e.boundary.toNat < b.toNat) →
    let es := s.list.sched.entries
    let base := s.list.sched.base
    let st : EntryState :=
      if b.toNat - s.list.listSecond.toNat ≤ s.status.config.glob.freezeLead.toNat then .frozen else .armed
    let kept := if es.length < 32 then es else es.drop 1
    let ends : Entry → Nat := fun e => match e.kind with
      | .leap .insert => e.boundary.toNat + 1
      | .leap .delete => e.boundary.toNat
      | .zoneShift => if e.new < e.prior then e.boundary.toNat + (e.prior - e.new).toNat else e.boundary.toNat
    let baseAfter := if es.length < 32 then base else match es.head? with
      | none => base
      | some e =>
        { floor := e.boundary, floorEnd := max base.floorEnd (ends e),
          civil := if e.scale = .civil then e.new else base.civil,
          zones := match e.scale with
            | .civil => base.zones
            | .zone k => base.zones.set k e.new }
    let inserts := fun (new : Entry) (later : Option Entry) =>
      ∃ t, exec .armRequest s = .next t ∧ t.list.claims = [] ∧ t.list.coming = s.list.coming ∧
        t.list.requests = s.list.requests.tail ∧ (∃ new, t.list.requests ++ t.list.sending = rest ++ new) ∧
        t.list.listSecond = s.list.listSecond ∧ t.sup = s.sup ∧ t.path = s.path ∧ t.status = s.status ∧
        t.list.sched.base = baseAfter ∧
        new ∈ t.list.sched.entries ∧ t.list.sched.entries.length = kept.length + 1 ∧
        (∀ e ∈ kept, some e ≠ later → e ∈ t.list.sched.entries) ∧
        (∀ e, later = some e → { e with prior := new.new } ∈ t.list.sched.entries) ∧
        ∃ more, t.wires.events = s.wires.events ++ (if es.length < 32 then [] else [.historyDiscard]) ++
          [.scheduleChange] ++ (if st = .frozen then [.freeze] else []) ++ more
    (∀ (k : LeapKind) (grid : Bool),
      s.list.requests ++ s.list.sending = { request := .armCivil b k origin grid, asker := who } :: rest →
      (∀ e ∈ es, e.scale = .civil → e.state = .applied) →
      let prior := (((es.filter fun e => e.scale == .civil).getLast?).map (·.new)).getD s.list.sched.base.civil
      let new := if k = .insert then prior + 1 else prior - 1
      new ≤ 32767 → -32768 ≤ new →
      inserts { boundary := b, scale := .civil, kind := .leap k, prior := prior, new := new, origin := origin,
                state := st, late := false, steppedOver := false, gridDated := grid } none) ∧
    (∀ (k : ZoneNo) (new : Int),
      s.list.requests ++ s.list.sending = { request := .armZone k b new origin, asker := who } :: rest →
      let zone := es.filter fun e => e.scale == .zone k
      let prior := (((zone.filter fun e => decide (e.boundary.toNat < b.toNat)).getLast?).map (·.new)).getD
        s.list.sched.base.zones[k]
      let later := zone.find? fun e => decide (b.toNat < e.boundary.toNat)
      (es.filter fun e => e.state != .applied && e.scale != .civil).length < 15 →
      new ≤ 64800 → -64800 ≤ new →
      (∀ e ∈ zone, 86400 ≤ |(b.toNat : Int) - e.boundary.toNat|) →
      new ≠ prior → |new - prior| ≤ 43200 →
      (∀ e, later = some e → e.new ≠ new ∧ |e.new - new| ≤ 43200) →
      inserts { boundary := b, scale := .zone k, kind := .zoneShift, prior := prior, new := new, origin := origin,
                state := st, late := false, steppedOver := false, gridDated := false } later)

/-- An accepted replace request moves and rewrites the pending civil entry, and an accepted withdraw request removes the
pending entry it names, the next later entry of its zone taking its prior offset (R22 to R24). An arm request that names
the boundary of an ARMED entry of its scale rewrites that entry in place: kind, origin and GRID-DATED of a civil one,
new offset and origin of a zone one, whose next later entry takes the new offset as its prior offset; the entry stays
ARMED (R19, R20, R24). Every other entry and the base record stay, and SCHEDULE-CHANGE is raised, with FREEZE for a
replacement that enters FROZEN (R17, R21, R22). -/
def Obligations.AcceptedReplaceAndWithdrawRewriteTheList : Prop :=
  ∀ (who : Asker) (rest : List WaitingRequest) (s : State), ListLaws s → OffsetLaws s.list.sched →
    s.list.claims = [] →
    let es := s.list.sched.entries
    let ends := fun (c : Instr) (es' : List Entry) (events : List Event) =>
      ∃ t more, exec c s = .next t ∧ t.list.claims = [] ∧ t.list.coming = s.list.coming ∧
        t.list.requests = s.list.requests.tail ∧ (∃ new, t.list.requests ++ t.list.sending = rest ++ new) ∧
        t.list.listSecond = s.list.listSecond ∧ t.list.sched.base = s.list.sched.base ∧
        (∀ e, e ∈ t.list.sched.entries ↔ e ∈ es') ∧ t.list.sched.entries.length = es'.length ∧
        t.sup = s.sup ∧ t.path = s.path ∧ t.status = s.status ∧ t.wires.events = s.wires.events ++ events ++ more
    (∀ (b : Second) (k : LeapKind) (origin : SourceNo) (grid : Bool) (e : Entry),
      s.list.requests ++ s.list.sending = { request := .replace b k origin grid, asker := who } :: rest →
      e ∈ es → e.scale = .civil → e.state = .armed → ¬ (e.boundary = b ∧ e.kind = .leap k) →
      s.list.listSecond.toNat < b.toNat → (∀ f ∈ es, f.state = .applied → f.boundary.toNat < b.toNat) →
      let new := if k = .insert then e.prior + 1 else e.prior - 1
      let st : EntryState :=
        if b.toNat - s.list.listSecond.toNat ≤ s.status.config.glob.freezeLead.toNat then .frozen else .armed
      new ≤ 32767 → -32768 ≤ new →
      ends .replaceRequest
        ({ e with boundary := b, kind := .leap k, new := new, origin := origin, gridDated := grid, state := st } ::
          es.filter (· != e))
        (.scheduleChange :: (if st = .frozen then [.freeze] else []))) ∧
    (∀ e : Entry, s.list.requests ++ s.list.sending = { request := .withdrawCivil, asker := who } :: rest →
      e ∈ es → e.scale = .civil → e.state = .armed →
      ends .withdrawRequest (es.filter (· != e)) [.scheduleChange]) ∧
    (∀ (k : ZoneNo) (e : Entry),
      s.list.requests ++ s.list.sending = { request := .withdrawZone k e.boundary, asker := who } :: rest →
      e ∈ es → e.scale = .zone k → e.state = .armed →
      let later := es.find? fun f => f.scale == .zone k && decide (e.boundary.toNat < f.boundary.toNat)
      (∀ f, later = some f → f.new ≠ e.prior ∧ |f.new - e.prior| ≤ 43200) →
      ends .withdrawRequest
        ((es.filter (· != e)).map fun f => if some f = later then { f with prior := e.prior } else f)
        [.scheduleChange]) ∧
    (∀ (k : LeapKind) (origin : SourceNo) (grid : Bool) (e : Entry),
      s.list.requests ++ s.list.sending = { request := .armCivil e.boundary k origin grid, asker := who } :: rest →
      e ∈ es → e.scale = .civil → e.state = .armed → e.kind ≠ .leap k →
      (∀ f ∈ es, f.state = .applied → f.boundary.toNat < e.boundary.toNat) →
      let new := if k = .insert then e.prior + 1 else e.prior - 1
      new ≤ 32767 → -32768 ≤ new →
      ends .armRequest
        (es.map fun f => if f = e then { e with kind := .leap k, new := new, origin := origin, gridDated := grid } else f)
        [.scheduleChange]) ∧
    (∀ (k : ZoneNo) (new : Int) (origin : SourceNo) (e : Entry),
      s.list.requests ++ s.list.sending = { request := .armZone k e.boundary new origin, asker := who } :: rest →
      e ∈ es → e.scale = .zone k → e.state = .armed → e.new ≠ new →
      (∀ f ∈ es, f.state = .applied → f.boundary.toNat < e.boundary.toNat) →
      let later := es.find? fun f => f.scale == .zone k && decide (e.boundary.toNat < f.boundary.toNat)
      new ≤ 64800 → -64800 ≤ new → new ≠ e.prior → |new - e.prior| ≤ 43200 →
      (∀ f, later = some f → f.new ≠ new ∧ |f.new - new| ≤ 43200) →
      ends .armRequest
        (es.map fun f => if f = e then { e with new := new, origin := origin }
          else if some f = later then { f with prior := new } else f)
        [.scheduleChange])

/-- A request is answered by the first of its checks that fails. A civil arm: TOO-LATE, then the replacement of a
pending entry at its boundary, then FULL, then OFFSET-LIMIT (R19). A zone arm: TOO-LATE, then the replacement of a
pending entry at its boundary, then FULL, and then OFFSET-LIMIT, TOO-CLOSE, NO-CHANGE, SHIFT-TOO-LARGE, which a
replacement meets too (R20). A replace request: NO-SUCH-ENTRY, FROZEN, UNCHANGED, TOO-LATE, OFFSET-LIMIT (R22). A
withdraw request: NO-SUCH-ENTRY, FROZEN; for a zone TOO-LATE before FROZEN, and then NO-CHANGE, SHIFT-TOO-LARGE (R23). A
request answered by a refusal or UNCHANGED leaves entries and base record exactly as they were and raises nothing at the
list (R17). -/
def Obligations.RequestChecksRefuseWithoutChange : Prop :=
  (∀ (f : Nat) (second b : Second) (sched : Schedule) (origin : SourceNo),
    let es := sched.entries
    let late := b.toNat ≤ second.toNat ∨ (∃ e, (es.filter Entry.isApplied).getLast? = some e ∧
      b.toNat ≤ e.boundary.toNat)
    let frozenAt := (b.toNat : Int) - second.toNat ≤ f
    let bad := fun (k : LeapKind) (prior : Int) => (k = .insert ∧ 32767 < prior + 1) ∨ (k = .delete ∧ prior - 1 < -32768)
    (∀ (k : LeapKind) (grid : Bool), CapacityLaw es →
      let prior := (((es.filter fun e => e.scale == .civil && decide (e.boundary.toNat < b.toNat)).getLast?).map
        (·.new)).getD sched.base.civil
      let answer := (armCivil f second sched b k origin grid).answer
      let pending := fun e : Entry => e ∈ es ∧ e.scale = .civil ∧ e.state ≠ .applied
      (late → answer = .tooLate) ∧
      (¬ late → ∀ e, pending e → e.boundary = b →
        (e.state = .frozen → answer = .frozen) ∧
        (e.state = .armed → e.kind = .leap k → answer = .unchanged) ∧
        (e.state = .armed → e.kind ≠ .leap k →
          (bad k prior → answer = .offsetLimit) ∧ (¬ bad k prior → answer = .replacedArmed))) ∧
      (¬ late → ∀ e, pending e → e.boundary ≠ b → answer = .full) ∧
      (¬ late → (∀ e, ¬ pending e) →
        (bad k prior → answer = .offsetLimit) ∧ (¬ bad k prior → frozenAt → answer = .armedFrozen) ∧
        (¬ bad k prior → ¬ frozenAt → answer = .armed))) ∧
    (∀ (k : ZoneNo) (new : Int),
      let zone := es.filter fun e => e.scale == .zone k
      let here := fun e : Entry => e.state != .applied && e.boundary == b
      let others := zone.filter fun e => !here e
      let prior := (((zone.filter fun e => decide (e.boundary.toNat < b.toNat)).getLast?).map (·.new)).getD
        sched.base.zones[k]
      let later := others.find? fun e => decide (b.toNat < e.boundary.toNat)
      let pending := (es.filter fun e => e.state != .applied && e.scale != .civil).length
      let answer := (armZone f second sched k b new origin).answer
      let outside := new < -64800 ∨ 64800 < new
      let close := ∃ e ∈ others, |(b.toNat : Int) - e.boundary.toNat| < 86400
      let same := new = prior ∨ ∃ e, later = some e ∧ e.new = new
      let large := 43200 < |new - prior| ∨ ∃ e, later = some e ∧ 43200 < |e.new - new|
      let checked := fun ok : ListAnswer =>
        (outside → answer = .offsetLimit) ∧ (¬ outside → close → answer = .tooClose) ∧
        (¬ outside → ¬ close → same → answer = .noChange) ∧
        (¬ outside → ¬ close → ¬ same → large → answer = .shiftTooLarge) ∧
        (¬ outside → ¬ close → ¬ same → ¬ large → answer = ok)
      (late → answer = .tooLate) ∧
      (¬ late → ∀ e, zone.find? here = some e →
        (e.state = .frozen → answer = .frozen) ∧ (e.state = .armed → e.new = new → answer = .unchanged) ∧
        (e.state = .armed → e.new ≠ new → checked .replacedArmed)) ∧
      (¬ late → zone.find? here = none →
        (15 ≤ pending → answer = .full) ∧ (pending < 15 → frozenAt → checked .armedFrozen) ∧
        (pending < 15 → ¬ frozenAt → checked .armed))) ∧
    (∀ (k : LeapKind) (grid : Bool),
      let pending := fun e : Entry => e.state != .applied && e.scale == .civil
      let prior := (((es.filter fun e => !pending e && e.scale == .civil && decide (e.boundary.toNat < b.toNat)).getLast?).map
        (·.new)).getD sched.base.civil
      let answer := (replaceCivil f second sched b k origin grid).answer
      (es.find? pending = none → answer = .noSuchEntry ∧ (withdrawCivil sched).answer = .noSuchEntry) ∧
      (∀ e, es.find? pending = some e →
        (e.state = .frozen → answer = .frozen ∧ (withdrawCivil sched).answer = .frozen) ∧
        (e.state = .armed →
          (withdrawCivil sched).answer = .withdrawn ∧
          (e.boundary = b ∧ e.kind = .leap k → answer = .unchanged) ∧
          (¬ (e.boundary = b ∧ e.kind = .leap k) →
            (late → answer = .tooLate) ∧ (¬ late → bad k prior → answer = .offsetLimit) ∧
            (¬ late → ¬ bad k prior → frozenAt → answer = .replacedFrozen) ∧
            (¬ late → ¬ bad k prior → ¬ frozenAt → answer = .replacedArmed))))) ∧
    (∀ k : ZoneNo,
      let found := es.find? fun e => e.scale == .zone k && e.boundary == b
      let later := es.find? fun e => e.scale == .zone k && decide (b.toNat < e.boundary.toNat)
      let answer := (withdrawZone sched k b).answer
      (found = none → answer = .noSuchEntry) ∧
      (∀ e, found = some e →
        (e.state = .applied → answer = .tooLate) ∧ (e.state = .frozen → answer = .frozen) ∧
        (e.state = .armed →
          ((∃ g, later = some g ∧ g.new = e.prior) → answer = .noChange) ∧
          ((∃ g, later = some g ∧ g.new ≠ e.prior ∧ 43200 < |g.new - e.prior|) → answer = .shiftTooLarge) ∧
          ((∀ g, later = some g → g.new ≠ e.prior ∧ |g.new - e.prior| ≤ 43200) → answer = .withdrawn))))) ∧
  (∀ (r : Request) (s : State) (v : Verdict), judgeRequest s r = some v →
    (v.answer = .armed ∨ v.answer = .armedFrozen ∨ v.answer = .replacedArmed ∨ v.answer = .replacedFrozen ∨
      v.answer = .withdrawn → .scheduleChange ∈ v.events) ∧
    (¬ (v.answer = .armed ∨ v.answer = .armedFrozen ∨ v.answer = .replacedArmed ∨ v.answer = .replacedFrozen ∨
      v.answer = .withdrawn) → v.sched = s.list.sched ∧ v.events = []))

/-- The answer to a handled request goes to its requester, after the events of the request. For a confirmed zone record
the qualifier becomes free, the disposition is CONFIRMED with an acceptance, or REFUSED with SOURCE-FAULT, and
SCHEDULE-FULL for FULL, and the next record is taken at once (R98). For an election run the run ends, with DISPUTE for
FROZEN, OFFSET-LIMIT and FULL; when run pending is set it is cleared and the next run starts at once, as a trigger taken
then would start it (R119). An abandoned requester takes nothing (R17, R110, R126, R130). A request still on its way is
taken as it reaches the list when no other waits there (the model's choice, log entry 31). -/
def Obligations.ListAnswersReachTheirRequesters : Prop :=
  ∀ (r : Request) (who : Asker) (rest : List WaitingRequest) (v : Verdict) (s : State), s.list.claims = [] →
    s.list.requests ++ s.list.sending = { request := r, asker := who } :: rest → judgeRequest s r = some v →
    let c : Instr := match r with
      | .armCivil _ _ _ _ => .armRequest
      | .armZone _ _ _ _ => .armRequest
      | .replace _ _ _ _ => .replaceRequest
      | .withdrawCivil => .withdrawRequest
      | .withdrawZone _ _ => .withdrawRequest
      | .flush => .listFlush
    let handled := (s.setList { s.list with
      sched := v.sched, requests := s.list.requests.tail
      sending := if s.list.requests = [] then rest else s.list.sending }).raised v.events
    let accepted := v.answer = .armed ∨ v.answer = .armedFrozen ∨ v.answer = .replacedArmed ∨
      v.answer = .replacedFrozen ∨ v.answer = .withdrawn ∨ v.answer = .unchanged
    (who = .abandoned → exec c s = .next handled) ∧
    (who = .election → ∀ w, s.election.run = some (.awaitingAnswer w) →
      let ended := (handled.raised
        (if v.answer = .frozen ∨ v.answer = .offsetLimit ∨ v.answer = .full then [.dispute] else [])).setElection
          { s.election with run := none, runPending := false }
      (s.election.runPending = false → exec c s = .next ended) ∧
      (s.election.runPending = true → ∀ y, exec c s = exec .electionTrigger
        (ended.setWires { ended.wires with triggers := y :: ended.wires.triggers }))) ∧
    (who = .qualifier → ∀ n seq arrival,
      s.intake.qualifier = some { source := n, seq := seq, arrival := arrival, work := .zoneAnswer } →
      let told := fun o : DispositionOutcome => updSource n (fun src => { src with
        disposition := { outcome := o, seq := some seq, answer := some v.answer } })
          (handled.setIntake { s.intake with qualifier := none })
      (accepted → exec c s = exec .qualifierTake (told .confirmed)) ∧
      (¬ accepted → exec c s = exec .qualifierTake ((told .refused).raised
        (.sourceFault :: (if v.answer = .full then [.scheduleFull] else [])))))

/-- The discard of the oldest entry sets the floor to its boundary, raises the floor end to the end of its interval, gives
its new offset to the base offset of its scale, and leaves every lookup at or above the new floor end as it was (R8, R9,
R25). -/
def Obligations.DiscardKeepsLookupsAboveTheFloorEnd : Prop :=
  ∀ (sched : Schedule) (e : Entry) (es : List Entry), sched.entries = e :: es → 32 ≤ sched.entries.length →
    e.kindFits →
    let after := (discardIfFull sched).1
    let ends : Nat := match e.kind with
      | .leap .insert => e.boundary.toNat + 1
      | .leap .delete => e.boundary.toNat
      | .zoneShift => if e.new < e.prior then e.boundary.toNat + (e.prior - e.new).toNat else e.boundary.toNat
    (discardIfFull sched).2 = [.historyDiscard] ∧ after.entries = es ∧ after.base.floor = e.boundary ∧
    after.base.floorEnd = max sched.base.floorEnd ends ∧
    (∀ sc, after.base.offset sc = if sc = e.scale then e.new else sched.base.offset sc) ∧
    ∀ x, after.base.floorEnd ≤ x → lookup after x = lookup sched x

/-! ## The Intake Unit -/

/-- When the part is ACTIVE, the time base is not UNSET, the qualifier is free and a record waits, the qualifier takes
the head record of the waiting source of highest priority, the lowest number among equals; otherwise nothing is taken. A
MALFORMED record is dropped unheard; any other is heard: last-heard second, LISTENING, and a trigger when the source was
SILENT. A LEAP-STATE record without OFFSET-VALID is UNUSABLE and drops the candidate; one with it waits for one lookup
(R98, R99, R101 to R103, R112). A zone record less than M seconds after the last counted one is TOO-SOON. Any other is
counted as R108 counts; below K it is COUNTED and the qualifier is free; at K the candidate is dropped, the arm or
withdraw request it asks for is sent, and the record waits in the qualifier for the list's answer (R107, R108, R110,
R111). Where the handling is complete at once, the next record is taken at once (R98). A request sent is on its way to
the list (the model's choice, log entry 31). -/
def Obligations.QualifierTakesTheFirstRecord : Prop :=
  ∀ (n : SourceNo) (r : Record) (rest : List Record) (s : State), s.resetAsserted = false →
    let src := s.intake.sources[n]
    let glob := s.status.config.glob
    let takes := s.status.part = .active ∧ s.sup.timeBase ≠ .unset ∧ s.intake.qualifier = none
    let arrival := if r.preAcquisition then s.sup.s else r.arrival
    let read := readRecord glob.zoneCount.toNat s.status.config.sources[n].kind r.words
    let heard := fun src : Source => { src with
      queue := rest, lastHeard := some arrival,
      state := if src.state = .waiting ∨ src.state = .silent then .listening else src.state }
    let told := fun u : State => if src.state = .silent then
      u.setWires { u.wires with triggers := u.wires.triggers ++ [.leavingSilent n] } else u
    let complete := fun u : State => exec .qualifierTake s = exec .qualifierTake u ∧
      ((∀ m : SourceNo, u.intake.sources[m].queue = []) → exec .qualifierTake s = .next u)
    (¬ takes → exec .qualifierTake s = .next s) ∧
    ((∀ m : SourceNo, s.intake.sources[m].queue = []) → exec .qualifierTake s = .next s) ∧
    (takes → src.queue = r :: rest →
      (∀ m : SourceNo, m ≠ n → s.intake.sources[m].queue ≠ [] →
        s.status.config.sources[m].priority.toNat < s.status.config.sources[n].priority.toNat ∨
          (s.status.config.sources[m].priority = s.status.config.sources[n].priority ∧ n.val < m.val)) →
      (read = none → complete ((updSource n (fun src => { src with
        queue := rest, flags := src.flags ||| 0x01#6,
        disposition := { outcome := .malformed, seq := some r.seq, answer := none } }) s).raised [.sourceFault])) ∧
      (∀ change, read = some (.leap none change) →
        complete (told (updSource n (fun src => { heard src with
          candidate := none, disposition := { outcome := .unusable, seq := some r.seq, answer := none } }) s))) ∧
      (∀ offset change, read = some (.leap (some offset) change) →
        ∃ t, exec .qualifierTake s = .next t ∧
          (∀ m : SourceNo, t.intake.sources[m] = if m = n then heard src else s.intake.sources[m]) ∧
          t.intake.qualifier = some
            { source := n, seq := r.seq, arrival := arrival, work := .leap offset change } ∧
          t.list = { s.list with queries := s.list.queries ++ [.lookup .qualifier] } ∧
          t.wires = (told s).wires ∧ t.sup = s.sup ∧ t.status = s.status ∧ t.path = s.path) ∧
      (∀ content, read = some (.zone content) →
        let kth := s.status.config.sources[n].confirm.toNat
        let soon := ∃ l, src.lastCounted = some l ∧ 0 < glob.spacing.toNat ∧
          (arrival.toNat : Int) - l.toNat < glob.spacing.toNat
        let counted := match src.candidate.filter fun c => c.content == content with
          | some c => min (c.count + 1) kth
          | none => 1
        let last := if s.sup.s.toNat < arrival.toNat then s.sup.s else arrival
        let request : Option Request := match content with
          | .zoneSet k b new => some (.armZone k b new n)
          | .zoneCancel k b => some (.withdrawZone k b)
          | .leap _ => none
        (soon → complete (told (updSource n (fun src => { heard src with
          disposition := { outcome := .tooSoon, seq := some r.seq, answer := none } }) s))) ∧
        (¬ soon → counted < kth → complete (told (updSource n (fun src => { heard src with
          candidate := some { content := content, count := counted, gridDated := false }, lastCounted := some last,
          disposition := { outcome := .counted, seq := some r.seq, answer := none } }) s))) ∧
        (¬ soon → kth ≤ counted → ∀ q, request = some q →
          let u := told (updSource n (fun src => { heard src with candidate := none, lastCounted := some last }) s)
          exec .qualifierTake s = .next ((u.setIntake { u.intake with
            qualifier := some { source := n, seq := r.seq, arrival := arrival, work := .zoneAnswer } }).setList
              { s.list with sending := s.list.sending ++ [{ request := q, asker := .qualifier }] }))))

/-- The lookup answer for a LEAP-STATE record ends its handling, and the next record is taken at once (R98). A reported
offset other than the answered one, or OUT-OF-RANGE, is OFFSET-DISAGREE. An announced change has its given boundary,
which must be on-grid, else OFF-GRID, or is dated to the smallest on-grid boundary above the arrival second. A boundary
too near, or at or below a civil horizon, is TOO-LATE, and else one too far is TOO-FAR. A record less than M seconds
after the last counted one is TOO-SOON. Any other is counted: an equal content raises the candidate's count up to K,
another content starts a new candidate; at K the proposal is confirmed, and handed on when its content changed (R103 to
R109, R111, R112). -/
def Obligations.LookupAnswerQualifiesTheLeapRecord : Prop :=
  (∀ (n : SourceNo) (seq : BitVec 16) (arrival : Second) (d : Int) (change : Option (LeapKind × Option Second))
    (s : State), s.list.claims = [] → s.list.requests = [] → s.list.queries = [.lookup .qualifier] →
    s.card = [] →
    s.intake.qualifier = some { source := n, seq := seq, arrival := arrival, work := .leap d change } →
    let src := s.intake.sources[n]
    let glob := s.status.config.glob
    let a : Int := arrival.toNat
    let answered := (lookup s.list.sched arrival.toNat).map (·.civil)
    let free := (s.setIntake { s.intake with qualifier := none }).setList { s.list with queries := [] }
    let boundary : Option Int := change.map fun c => match c.2 with
      | some b => (b.toNat : Int)
      | none => datedBoundary glob.grid.toNat d a c.1
    let offGridBy : LeapKind → Int → Int := fun k b => match k with
      | .insert => (b - d) % glob.grid.toNat
      | .delete => (b - d + 1) % glob.grid.toNat
    let offGrid := ∃ (k : LeapKind) (b : Second), change = some (k, some b) ∧ offGridBy k b.toNat ≠ 0
    let applied := s.list.sched.entries.filter fun e => e.state == .applied && e.scale == .civil
    let late := ∃ b, boundary = some b ∧ (b - a ≤ glob.minLead.toNat ∨
      (∃ e, applied.getLast? = some e ∧ b ≤ e.boundary.toNat) ∨ ∃ h, s.intake.civilHorizon = some h ∧ b ≤ h.toNat)
    let far := ∃ b, boundary = some b ∧ (glob.horizon.toNat < b - a ∨ 2 ^ 48 - 1 < b)
    let content : LeapContent := match change, boundary with
      | some (k, _), some b => .change k (BitVec.ofInt 48 b)
      | _, _ => .noChange
    let dated := change.any fun c => c.2.isNone
    let kth := s.status.config.sources[n].confirm.toNat
    let soon := ∃ l, src.lastCounted = some l ∧ 0 < glob.spacing.toNat ∧ a - l.toNat < glob.spacing.toNat
    let same := src.candidate.filter fun c => c.content == .leap content
    let candidate : Candidate := match same with
      | some c => { content := .leap content, count := min (c.count + 1) kth, gridDated := c.gridDated && dated }
      | none => { content := .leap content, count := 1, gridDated := dated }
    let outcome : DispositionOutcome :=
      if kth ≤ candidate.count ∧ ¬ (∃ c, same = some c ∧ kth ≤ c.count) then .confirmed else .counted
    let refused := fun (flag : BitVec 6) (o : DispositionOutcome) =>
      exec .lookupClaim s = exec .qualifierTake ((updSource n (fun src => { src with
        flags := src.flags ||| flag, disposition := { outcome := o, seq := some seq, answer := none } }) free).raised
          [.sourceFault])
    let told := fun u : State =>
      if kth ≤ candidate.count ∧ src.confirmed.map (·.content) ≠ some content then
        u.setWires { u.wires with triggers := u.wires.triggers ++ [.proposalChanged n] } else u
    (answered ≠ some d → refused 0x04#6 .offsetDisagree) ∧
    (answered = some d →
      (offGrid → refused 0x08#6 .offGrid) ∧
      (¬ offGrid → late → refused 0x10#6 .tooLate) ∧
      (¬ offGrid → ¬ late → far → refused 0x20#6 .tooFar) ∧
      (¬ offGrid → ¬ late → ¬ far → soon →
        exec .lookupClaim s = exec .qualifierTake (updSource n (fun src => { src with
          disposition := { outcome := .tooSoon, seq := some seq, answer := none } }) free)) ∧
      (¬ offGrid → ¬ late → ¬ far → ¬ soon →
        exec .lookupClaim s = exec .qualifierTake (told (updSource n (fun src => { src with
          candidate := some candidate
          lastCounted := some (if s.sup.s.toNat < arrival.toNat then s.sup.s else arrival)
          confirmed := if kth ≤ candidate.count then some { content := content, gridDated := candidate.gridDated }
            else src.confirmed
          disposition := { outcome := outcome, seq := some seq, answer := none } }) free))))) ∧
  (∀ (g d a : Int) (k : LeapKind), 0 < g →
    let b := datedBoundary g d a k
    let offGridBy := fun b : Int => match k with
      | .insert => (b - d) % g
      | .delete => (b - d + 1) % g
    a < b ∧ offGridBy b = 0 ∧ ∀ b', a < b' → offGridBy b' = 0 → b ≤ b')

/-- A change of S taken by the Intake Unit: on a backward change last-heard and last counted seconds and the arrivals of
queued records above the new S come down to it; then every LISTENING source whose last-heard second is T_s or more below
the new S becomes SILENT, with SOURCE-SILENT raised once and one trigger. A civil-commit notice raises the civil horizon
copy, clears every candidate and confirmed proposal dated at or below its S, and is passed on (R113 to R115). -/
def Obligations.ChangesAndCommitsReachTheSources : Prop :=
  (∀ (c : SChange) (rest : List SChange) (s : State), s.wires.intakeS = c :: rest →
    let down := fun x : Second => if c.after.toNat < c.before.toNat ∧ c.after.toNat < x.toNat then c.after else x
    let lowered := fun n : SourceNo => { s.intake.sources[n] with
      lastHeard := s.intake.sources[n].lastHeard.map down
      lastCounted := s.intake.sources[n].lastCounted.map down
      queue := s.intake.sources[n].queue.map fun r => { r with arrival := down r.arrival } }
    let silent := fun n : SourceNo => (lowered n).state = .listening ∧ ∃ h, (lowered n).lastHeard = some h ∧
      h.toNat ≤ c.after.toNat ∧ s.status.config.glob.silence.toNat ≤ c.after.toNat - h.toNat
    ∃ t, exec .intakeChangeOfS s = .next t ∧
      (∀ n, silent n → t.intake.sources[n] = { lowered n with state := .silent }) ∧
      (∀ n, ¬ silent n → t.intake.sources[n] = lowered n) ∧
      t = (s.setIntake { s.intake with sources := t.intake.sources }).setWires t.wires ∧
      ((∀ n, ¬ silent n) → t.wires = { s.wires with intakeS := rest }) ∧
      ((∃ n, silent n) → ∃ ns : List SourceNo, (∀ n, n ∈ ns ↔ silent n) ∧
        t.wires = { s.wires with
          intakeS := rest, events := s.wires.events ++ [.sourceSilent],
          triggers := s.wires.triggers ++ [.enteringSilent ns] })) ∧
  (∀ (c : CivilCommit) (rest : List CivilCommit) (s : State), s.wires.civilCommits = c :: rest →
    let stale := fun content : Content => match content with
      | .leap .noChange => False
      | .leap (.change _ b) => b.toNat ≤ c.s.toNat
      | .zoneSet _ b _ => b.toNat ≤ c.s.toNat
      | .zoneCancel _ b => b.toNat ≤ c.s.toNat
    ∃ t, exec .civilCommitNotice s = .next t ∧
      t = (s.setIntake t.intake).setWires
        { s.wires with civilCommits := rest, triggers := s.wires.triggers ++ [.civilCommit] } ∧
      t.intake.qualifier = s.intake.qualifier ∧
      (∀ h, s.intake.civilHorizon = some h →
        t.intake.civilHorizon = some (if h.toNat < c.boundary.toNat then c.boundary else h)) ∧
      (s.intake.civilHorizon = none → t.intake.civilHorizon = some c.boundary) ∧
      ∀ n : SourceNo, ∃ candidate confirmed,
        t.intake.sources[n] = { s.intake.sources[n] with candidate := candidate, confirmed := confirmed } ∧
        (∀ x, candidate = some x ↔ s.intake.sources[n].candidate = some x ∧ ¬ stale x.content) ∧
        (∀ x, confirmed = some x ↔ s.intake.sources[n].confirmed = some x ∧ ¬ stale (.leap x.content)))

/-! ## The Election Unit -/

/-- A trigger taken while a run is in progress sets run pending and nothing else. Taken with none, it starts a run, and
so does FLUSH, which first abandons the run in progress: its snapshot and request, waiting at the list or on the way to
it, stay, and their answers are discarded. The run sets the indication exactly when two heard sources hold different
proposals, raising SOURCES-DISAGREE when it becomes set. With no contender the last winner becomes none and the run
ends. Otherwise it sends exactly one snapshot claim and waits for it with the winner's proposal as read. Nothing else
changes (R119 to R121, R128, R130; that a claim sent stays at the list when its requester is abandoned is the model's
inference, log entry 19). -/
def Obligations.TriggersAndFlushStartARun : Prop :=
  ∀ s : State,
    let heard := fun n : SourceNo => s.intake.sources[n].state ≠ .silent
    let disagree := ∃ n m p q, heard n ∧ heard m ∧ s.intake.sources[n].confirmed = some p ∧
      s.intake.sources[m].confirmed = some q ∧ p.content ≠ q.content
    let runs := fun (c : Instr) (start : State) =>
      ∃ d : Bool, (d = true ↔ disagree) ∧
        (let raised := start.raised (if d = true ∧ s.election.disagree = false then [.sourcesDisagree] else [])
        ((∀ n : SourceNo, s.intake.sources[n].confirmed = none) →
          exec c s = .next (raised.setElection
            { lastWinner := none, disagree := d, run := none, runPending := false })) ∧
        (∀ (n : SourceNo) (p : Confirmed), winner s = some n → s.intake.sources[n].confirmed = some p →
          exec c s = .next ((raised.setElection
            { lastWinner := s.election.lastWinner, disagree := d, run := some (.awaitingSnapshot n p),
              runPending := false }).setList
                { start.list with queries := start.list.queries ++ [.snapshot .election] })))
    let gone := fun who : Asker => if who = .election then .abandoned else who
    let goneQuery : Query → Query := fun q => match q with
      | .lookup who => .lookup (gone who)
      | .snapshot who => .snapshot (gone who)
    (∀ x rest r, s.wires.triggers = x :: rest → s.election.run = some r →
      exec .electionTrigger s = .next ((s.setElection { s.election with runPending := true }).setWires
        { s.wires with triggers := rest })) ∧
    (∀ x rest, s.wires.triggers = x :: rest → s.election.run = none → s.election.runPending = false →
      runs .electionTrigger (s.setWires { s.wires with triggers := rest })) ∧
    (∀ k, s.wires.electionFlushes = k + 1 →
      runs .electionFlush ((s.setList { s.list with
        queries := s.list.queries.map goneQuery
        requests := s.list.requests.map fun r => { r with asker := gone r.asker }
        sending := s.list.sending.map fun r => { r with asker := gone r.asker } }).setWires
          { s.wires with electionFlushes := k }))

/-- The winner of a run holds a confirmed proposal, and stands before every other source that holds one: heard before
SILENT, then by higher priority, then by lower number; there is none exactly when no source holds a proposal (R121). -/
def Obligations.WinnerStandsFirstAmongContenders : Prop :=
  ∀ s : State,
    let holds := fun n : SourceNo => s.intake.sources[n].confirmed.isSome = true
    let silent := fun n : SourceNo => s.intake.sources[n].state = .silent
    let priority := fun n : SourceNo => s.status.config.sources[n].priority.toNat
    let before := fun n m : SourceNo =>
      (¬ silent n ∧ silent m) ∨
        ((silent n ↔ silent m) ∧ (priority m < priority n ∨ (priority n = priority m ∧ n.val < m.val)))
    (winner s = none ↔ ∀ n, ¬ holds n) ∧
    (∀ n, winner s = some n ↔ holds n ∧ ∀ m, holds m → m ≠ n → before n m)

/-- The decision of a run on its snapshot, with the winner as the last winner: a dated change arms when no civil entry
is pending, does nothing when the pending entry equals it, replaces an ARMED one and disputes a FROZEN one; "no change"
does nothing with no entry, withdraws an ARMED one and disputes a FROZEN one (R120, R123 to R125, R127). When the run
ends with run pending set, it is cleared and the next run starts at once, as a trigger taken then would start it
(R119). A request sent is on its way to the list (the model's choice, log entry 31). -/
def Obligations.RunDecidesByTheTable : Prop :=
  ∀ (w : SourceNo) (p : Confirmed) (s : State), s.list.claims = [] → s.list.requests = [] →
    s.list.queries = [.snapshot .election] → s.card = [] →
    s.election.run = some (.awaitingSnapshot w p) →
    let pending := s.list.sched.entries.find? fun e => e.state != .applied && e.scale == .civil
    let ended := fun events : List Event =>
      let t := (((s.setList { s.list with queries := [] }).setElection
        { s.election with lastWinner := some w, run := none, runPending := false }).raised events)
      (s.election.runPending = false → exec .snapshotClaim s = .next t) ∧
      (s.election.runPending = true → ∀ y, exec .snapshotClaim s =
        exec .electionTrigger (t.setWires { t.wires with triggers := y :: t.wires.triggers }))
    let sends := fun r : Request =>
      exec .snapshotClaim s = .next ((s.setList { s.list with
        queries := [], sending := s.list.sending ++ [{ request := r, asker := .election }] }).setElection
          { s.election with lastWinner := some w, run := some (.awaitingAnswer w) })
    (∀ k b, p.content = .change k b →
      (pending = none → sends (.armCivil b k w p.gridDated)) ∧
      (∀ e, pending = some e →
        (e.boundary = b → e.kind = .leap k → ended []) ∧
        (¬ (e.boundary = b ∧ e.kind = .leap k) → e.state = .armed → sends (.replace b k w p.gridDated)) ∧
        (¬ (e.boundary = b ∧ e.kind = .leap k) → e.state = .frozen → ended [.dispute]))) ∧
    (p.content = .noChange →
      (pending = none → ended []) ∧
      (∀ e, pending = some e →
        (e.state = .armed → sends .withdrawCivil) ∧ (e.state = .frozen → ended [.dispute])))

/-! ## The Port Patcher -/

/-- A change of S taken while no judgement waits transfers every port pending NEXT-MARK, and begins a judgement with one
snapshot claim when a port is pending QUIET; while a judgement waits, the change joins the queue. A commit notice
transfers every port pending NEXT-COMMIT. A transfer copies the shadow into the active policy, clears the pending
transfer and raises PORT-TRANSFER; other ports stay (R146 to R148, R150). -/
def Obligations.ChangesAndCommitsCarryOutTransfers : Prop :=
  ∀ (s : State),
    let transferred := fun p : PortNo => ({ active := s.status.config.shadows[p], transfer := none } : Port)
    let due := fun (t : State) (x : TransferTrigger) =>
      (∀ p : PortNo, s.patcher.ports[p].transfer = some x → t.patcher.ports[p] = transferred p) ∧
      (∀ p : PortNo, s.patcher.ports[p].transfer ≠ some x → t.patcher.ports[p] = s.patcher.ports[p]) ∧
      t.wires.events = s.wires.events ++
        List.replicate ((List.finRange 16).filter fun p => s.patcher.ports[p].transfer == some x).length .portTransfer ∧
      t.sup = s.sup ∧ t.status = s.status ∧ t.intake = s.intake ∧ t.election = s.election ∧ t.path = s.path ∧
      t.list.sched = s.list.sched
    (∀ c rest, s.wires.portS = c :: rest → s.patcher.judgement ≠ none →
      exec .portChangeOfS s = .next ((s.setPatcher { s.patcher with waiting := s.patcher.waiting ++ [c] }).setWires
        { s.wires with portS := rest })) ∧
    (∀ c rest, s.wires.portS = c :: rest → s.patcher.judgement = none →
      ∃ t, exec .portChangeOfS s = .next t ∧ due t .nextMark ∧ t.wires.portS = rest ∧
        ((∃ p : PortNo, s.patcher.ports[p].transfer = some .quiet) →
          t.patcher.judgement = some c.after ∧
          t.list = { s.list with queries := s.list.queries ++ [.snapshot .quiet] }) ∧
        ((∀ p : PortNo, s.patcher.ports[p].transfer ≠ some .quiet) →
          t.patcher.judgement = none ∧ t.list = s.list)) ∧
    (∀ x rest, s.wires.commits = x :: rest →
      ∃ t, exec .commitNotice s = .next t ∧ due t .nextCommit ∧ t.wires.commits = rest ∧ t.list = s.list)

/-- The answer of a QUIET judgement transfers every port still pending QUIET for which no civil entry and no entry of the
zones of its active and shadow policies has its boundary in [S - hold, S + lead] of either policy; the other ports stay
pending. S is the second recorded with the judgement (R149, R150). That a port which has left QUIET since the judgement
began and returned to it is tested too is the model's choice (log entry 32). The waiting changes of S are then taken one
after another, oldest first, each as a change taken on arrival, until one starts a judgement of its own or none is left;
those behind it stay waiting (R147, R150). -/
def Obligations.QuietPortsAreTransferred : Prop :=
  ∀ (judged : Second) (s : State), s.list.claims = [] → s.list.requests = [] →
    s.list.queries = [.snapshot .quiet] → s.card = [] → s.patcher.judgement = some judged →
    let near := fun (q : Policy) (e : Entry) =>
      (judged.toNat : Int) - q.hold.toNat ≤ e.boundary.toNat ∧ e.boundary.toNat ≤ judged.toNat + q.lead.toNat
    let quiet := fun p : PortNo => ∀ e ∈ s.list.sched.entries,
      e.scale = .civil ∨ e.scale = .zone s.patcher.ports[p].active.zone.toFin ∨
        e.scale = .zone s.status.config.shadows[p].zone.toFin →
      ¬ near s.patcher.ports[p].active e ∧ ¬ near s.status.config.shadows[p] e
    let waiting := s.patcher.waiting
    ∃ t, exec .snapshotClaim (s.setPatcher { s.patcher with waiting := [] }) = .next t ∧
      t.patcher.judgement = none ∧ t.patcher.waiting = [] ∧
      t.list = { s.list with queries := [] } ∧
      (∀ p : PortNo, s.patcher.ports[p].transfer = some .quiet → quiet p →
        t.patcher.ports[p] = { active := s.status.config.shadows[p], transfer := none }) ∧
      (∀ p : PortNo, s.patcher.ports[p].transfer ≠ some .quiet ∨ ¬ quiet p →
        t.patcher.ports[p] = s.patcher.ports[p]) ∧
      (Event.portTransfer ∈ t.wires.events ↔ Event.portTransfer ∈ s.wires.events ∨
        ∃ p : PortNo, s.patcher.ports[p].transfer = some .quiet ∧ quiet p) ∧
      t.sup = s.sup ∧ t.status = s.status ∧ t.path = s.path ∧
      ∃ (k : Nat) (us : Nat → State), k ≤ waiting.length ∧ us 0 = t ∧
        (∀ j, j < k → (us j).patcher.judgement = none ∧ ∃ c, waiting[j]? = some c ∧
          exec .portChangeOfS ((us j).setWires { (us j).wires with portS := c :: (us j).wires.portS }) =
            .next (us (j + 1))) ∧
        (k = waiting.length ∨ (us k).patcher.judgement ≠ none) ∧
        exec .snapshotClaim s =
          .next ((us k).setPatcher { (us k).patcher with waiting := waiting.drop k })

/-! ## Events and the interrupt line -/

/-- A raised event taken by the Status Unit sets its own indication of the event word and no other, one already set
staying set. The interrupt line is asserted exactly when, RESET not being asserted, an event is set both in the event
word and in the enable mask (R182, R190, R193). That EVENT_RAISE changes nothing when its event is not on its way is the
model's choice (log entry 3). -/
def Obligations.RaisedEventsSetIndicationsAndTheLine : Prop :=
  (∀ (e : Event) (s : State),
    (e ∉ s.wires.events → exec (.eventRaise e) s = .next s) ∧
    (e ∈ s.wires.events → ∃ word, exec (.eventRaise e) s = .next
        ((s.setStatus { s.status with eventWord := word }).setWires
          { s.wires with events := s.wires.events.erase e }) ∧
      ∀ f : Event, hasEvent f word = (decide (f = e) || hasEvent f s.status.eventWord))) ∧
  ∀ s : State, interruptAsserted s = true ↔ s.resetAsserted = false ∧
    ∃ e : Event, hasEvent e s.status.eventWord = true ∧ hasEvent e s.status.config.glob.enableMask = true

/-! ## Invariants -/

/-- Every step keeps the laws of the change list (R3, R5, R6, R7, R74, R75). -/
def Obligations.EveryStepKeepsTheListLaws : Prop :=
  ∀ s t : State, ListLaws s → step s = .next t → ListLaws t

/-- Every step keeps the laws of the offsets: derived prior offsets, ranges, shifts and spacing (R1, R8, R13, R24). -/
def Obligations.EveryStepKeepsTheOffsetLaws : Prop :=
  ∀ s t : State, ListLaws s → OffsetLaws s.list.sched → step s = .next t → OffsetLaws t.list.sched

/-- Every step keeps every queue within its configured depth, leaves no record that the qualifier could take, since it
takes one at the first moment it can, and keeps the configuration locked: from a state with the part ACTIVE to one with
it ACTIVE, global and source fields do not change (R96, R98, R174). -/
def Obligations.EveryStepKeepsQueuesAndConfiguration : Prop :=
  ∀ s t : State, IntakeLaws s → step s = .next t →
    IntakeLaws t ∧ (s.status.part = .active → t.status.part = .active →
      t.status.config.glob = s.status.config.glob ∧ t.status.config.sources = s.status.config.sources)

/-- Every step keeps the part idle while it is TRANSPARENT (R27, R43, R72, R91, R117, R133). -/
def Obligations.EveryStepKeepsTheTransparentPartIdle : Prop :=
  ∀ s t : State, TransparentIdle s → step s = .next t → TransparentIdle t

/-- The state after reset has all these laws (R183). -/
def Obligations.ResetStateHasEveryLaw : Prop :=
  ListLaws State.reset ∧ OffsetLaws State.reset.list.sched ∧ IntakeLaws State.reset ∧ TransparentIdle State.reset

end Statements
end

