-- ==== Sys2Proof/Laws/Entries.lean ====
section
/-! SUPPORT. The laws of the entries of the change list (order, limits, APPLIED first, pending above the list second): what
a claim, a request, a discard and FLUSH do to them. -/

namespace Sys2Proof.Machine

/-! ## The order of the list -/

theorem precedes_iff {e f : Entry} : e.precedes f = true ↔ e.boundary.toNat < f.boundary.toNat ∨
    (e.boundary = f.boundary ∧ e.scale.rank < f.scale.rank) := by simp [Entry.precedes]

theorem precedes_trans {e f g : Entry} (h : e.precedes f = true) (k : f.precedes g = true) : e.precedes g = true := by
  rw [precedes_iff] at *
  rcases h with h | ⟨h, h'⟩ <;> rcases k with k | ⟨k, k'⟩
  · left; omega
  · left; rw [← k]; exact h
  · left; rw [h]; exact k
  · right; exact ⟨h.trans k, by omega⟩

theorem precedes_le {e f : Entry} (h : e.precedes f = true) : e.boundary.toNat ≤ f.boundary.toNat := by
  rw [precedes_iff] at h
  rcases h with h | ⟨h, _⟩
  · omega
  · rw [h]

theorem rank_inj {a b : Scale} (h : a.rank = b.rank) : a = b := by
  cases a <;> cases b <;> simp_all [Scale.rank]
  rename_i a b
  exact Fin.ext h

/-- Two entries of different place precede one another one way or the other. -/
theorem precedes_total {e f : Entry} (h : ¬ (e.boundary = f.boundary ∧ e.scale = f.scale)) :
    e.precedes f = true ∨ f.precedes e = true := by
  rw [precedes_iff, precedes_iff]
  by_cases hb : e.boundary = f.boundary
  · have hs : e.scale ≠ f.scale := fun hs => h ⟨hb, hs⟩
    have : e.scale.rank ≠ f.scale.rank := fun hr => hs (rank_inj hr)
    rcases Nat.lt_or_gt_of_ne this with hl | hl
    · exact .inl (.inr ⟨hb, hl⟩)
    · exact .inr (.inr ⟨hb.symm, hl⟩)
  · have : e.boundary.toNat ≠ f.boundary.toNat := fun hn => hb (BitVec.eq_of_toNat_eq hn)
    rcases Nat.lt_or_gt_of_ne this with hl | hl
    · exact .inl (.inl hl)
    · exact .inr (.inl hl)

/-! ## The laws of the entries -/

/-- What the laws of the entries look at: place, state, LATE and STEPPED-OVER. -/
def Entry.core (e : Entry) : Second × Scale × EntryState × Bool × Bool :=
  (e.boundary, e.scale, e.state, e.late, e.steppedOver)

/-- The laws of the entries of the list, at list second `x`. -/
structure EntryLaws (x : Second) (es : List Entry) : Prop where
  order : OrderLaw es
  capacity : CapacityLaw es
  appliedFirst : AppliedFirst es
  pendingAbove : PendingAbove x es
  unflagged : PendingUnflagged es

theorem ListLaws.entryLaws {s : State} (h : ListLaws s) : EntryLaws s.list.listSecond s.list.sched.entries :=
  ⟨h.order, h.capacity, h.appliedFirst, h.pendingAbove, h.unflagged⟩

theorem EntryLaws.listLaws {s : State} (h : EntryLaws s.list.listSecond s.list.sched.entries) (hc : ClaimsLaw s) :
    ListLaws s := ⟨h.order, h.capacity, h.appliedFirst, h.pendingAbove, h.unflagged, hc⟩

theorem core_pending {e f : Entry} (h : e.core = f.core) : e.pending = f.pending := by
  simp [Entry.core] at h; simp [Entry.pending, h]

theorem core_isApplied {e f : Entry} (h : e.core = f.core) : e.isApplied = f.isApplied := by
  simp [Entry.core] at h; simp [Entry.isApplied, h]

theorem core_precedes {e f e' f' : Entry} (h : e.core = e'.core) (k : f.core = f'.core) :
    e.precedes f = e'.precedes f' := by
  simp [Entry.core] at h k; simp [Entry.precedes, h, k]

/-- Lists of equal cores, entry by entry. -/
abbrev SameCores (es es' : List Entry) : Prop := List.Forall₂ (fun e f => e.core = f.core) es es'

theorem SameCores.filter_length {es es' : List Entry} (h : SameCores es es') (p : Entry → Bool)
    (hp : ∀ e f : Entry, e.core = f.core → p e = p f) : (es.filter p).length = (es'.filter p).length := by
  induction h with
  | nil => rfl
  | cons hd _ ih => simp only [List.filter_cons, hp _ _ hd]; split <;> simp [ih]

theorem SameCores.mem {es es' : List Entry} (h : SameCores es es') {f : Entry} (hf : f ∈ es') :
    ∃ e ∈ es, e.core = f.core := by
  induction h with
  | nil => cases hf
  | cons hd _ ih =>
    rcases List.mem_cons.mp hf with rfl | hf
    · exact ⟨_, List.mem_cons_self, hd⟩
    · obtain ⟨e, he, hc⟩ := ih hf
      exact ⟨e, List.mem_cons_of_mem _ he, hc⟩

theorem SameCores.pairwise {es es' : List Entry} (h : SameCores es es') {R : Entry → Entry → Prop}
    (hR : ∀ e f e' f' : Entry, e.core = e'.core → f.core = f'.core → R e f → R e' f') (hp : es.Pairwise R) :
    es'.Pairwise R := by
  induction h with
  | nil => exact .nil
  | cons hd ht ih =>
    rw [List.pairwise_cons] at hp ⊢
    refine ⟨fun f hf => ?_, ih hp.2⟩
    obtain ⟨e, he, hc⟩ := SameCores.mem ht hf
    exact hR _ _ _ _ hd hc (hp.1 e he)

/-- The laws look at the cores alone. -/
theorem EntryLaws.of_cores {x : Second} {es es' : List Entry} (h : EntryLaws x es) (hc : SameCores es es') :
    EntryLaws x es' where
  order := hc.pairwise (fun _ _ _ _ he hf hp => by rw [← core_precedes he hf]; exact hp) h.order
  capacity :=
    { total := by rw [← hc.length_eq]; exact h.capacity.total
      civil := by
        rw [← hc.filter_length _ (fun e f hf => by rw [core_pending hf]; simp [Entry.core] at hf; simp [hf])]
        exact h.capacity.civil
      zones := by
        unfold pendingZones
        rw [← hc.filter_length _ (fun e f hf => by rw [core_pending hf]; simp [Entry.core] at hf; simp [hf])]
        exact h.capacity.zones }
  appliedFirst := hc.pairwise (fun _ _ _ _ he hf hp hx => by
    rw [← core_isApplied he]; exact hp (by rw [core_isApplied hf]; exact hx)) h.appliedFirst
  pendingAbove := fun f hf hp => by
    obtain ⟨e, he, hc⟩ := hc.mem hf
    have := h.pendingAbove e he (by rw [core_pending hc]; exact hp)
    simp [Entry.core] at hc
    rw [← hc.1]; exact this
  unflagged := fun f hf hp => by
    obtain ⟨e, he, hc⟩ := hc.mem hf
    have := h.unflagged e he (by rw [core_pending hc]; exact hp)
    simp [Entry.core] at hc
    rw [← hc.2.2.2.1, ← hc.2.2.2.2]; exact this

/-- A sublist keeps the laws. -/
theorem EntryLaws.sublist {x : Second} {es es' : List Entry} (h : EntryLaws x es) (hs : es'.Sublist es) :
    EntryLaws x es' where
  order := List.Pairwise.sublist hs h.order
  capacity :=
    { total := hs.length_le.trans h.capacity.total
      civil := (hs.filter _).length_le.trans h.capacity.civil
      zones := (hs.filter _).length_le.trans h.capacity.zones }
  appliedFirst := List.Pairwise.sublist hs h.appliedFirst
  pendingAbove := fun e he => h.pendingAbove e (hs.subset he)
  unflagged := fun e he => h.unflagged e (hs.subset he)

theorem EntryLaws.nil (x : Second) : EntryLaws x [] :=
  ⟨.nil, ⟨by decide, by decide, by decide⟩, .nil, by simp [PendingAbove], by simp [PendingUnflagged]⟩

/-! ## Prior offsets -/

/-- Recomputing prior offsets changes prior and new offsets of pending entries only. -/
theorem reprior_cores (sc : Scale) (r : Int) (es : List Entry) : SameCores es (reprior sc r es) := by
  induction es generalizing r with
  | nil => exact .nil
  | cons e es ih =>
    unfold reprior
    split
    · split
      · exact .cons rfl (ih _)
      · exact .cons rfl (ih _)
    · exact .cons rfl (ih _)

theorem withEntries_laws {x : Second} {sched : Schedule} {sc : Scale} {es : List Entry} (h : EntryLaws x es) :
    EntryLaws x (sched.withEntries sc es).entries := h.of_cores (reprior_cores _ _ _)

/-! ## Insertion -/

theorem insertEntry_perm (e : Entry) (es : List Entry) : (insertEntry e es).Perm (e :: es) := by
  induction es with
  | nil => exact .refl _
  | cons f fs ih =>
    unfold insertEntry
    split
    · exact .refl _
    · exact (List.Perm.cons f ih).trans (.swap _ _ _)

theorem mem_insertEntry {e f : Entry} {es : List Entry} : f ∈ insertEntry e es ↔ f = e ∨ f ∈ es := by
  rw [(insertEntry_perm e es).mem_iff, List.mem_cons]

theorem insertEntry_order {e : Entry} {es : List Entry} (h : OrderLaw es)
    (hd : ∀ f ∈ es, ¬ (e.boundary = f.boundary ∧ e.scale = f.scale)) : OrderLaw (insertEntry e es) := by
  induction es with
  | nil => exact List.pairwise_singleton _ _
  | cons f fs ih =>
    unfold OrderLaw at h
    rw [List.pairwise_cons] at h
    unfold insertEntry
    split
    · rename_i hp
      refine List.pairwise_cons.mpr ⟨fun g hg => ?_, List.pairwise_cons.mpr h⟩
      rcases List.mem_cons.mp hg with rfl | hg
      · exact hp
      · exact precedes_trans hp (h.1 g hg)
    · rename_i hp
      refine List.pairwise_cons.mpr ⟨fun g hg => ?_, ih h.2 fun g hg => hd g (List.mem_cons_of_mem _ hg)⟩
      rcases mem_insertEntry.mp hg with rfl | hg
      · exact (precedes_total (hd f List.mem_cons_self)).resolve_left hp
      · exact h.1 g hg

theorem insertEntry_appliedFirst {e : Entry} {es : List Entry} (h : AppliedFirst es) (hp : e.isApplied = false)
    (hd : ∀ f ∈ es, f.isApplied = true → e.precedes f = false) : AppliedFirst (insertEntry e es) := by
  induction es with
  | nil => exact List.pairwise_singleton _ _
  | cons f fs ih =>
    have h' := h
    unfold AppliedFirst at h'
    rw [List.pairwise_cons] at h'
    unfold insertEntry
    split
    · rename_i hpf
      refine List.pairwise_cons.mpr ⟨fun g hg hga => ?_, h⟩
      exfalso
      rcases List.mem_cons.mp hg with rfl | hg
      · rw [hd _ List.mem_cons_self hga] at hpf; cases hpf
      · have := h'.1 g hg hga
        rw [hd _ List.mem_cons_self this] at hpf; cases hpf
    · refine List.pairwise_cons.mpr ⟨fun g hg hga => ?_, ih h'.2 fun g hg => hd g (List.mem_cons_of_mem _ hg)⟩
      rcases mem_insertEntry.mp hg with rfl | hg
      · rw [hp] at hga; cases hga
      · exact h'.1 g hg hga

/-- A pending entry inserted at a free place above the list second and above every APPLIED entry, within the limits. -/
theorem EntryLaws.insert {x : Second} {e : Entry} {es : List Entry} (h : EntryLaws x es) (hp : e.pending = true)
    (hfree : ∀ f ∈ es, f.isApplied = false → ¬ (e.boundary = f.boundary ∧ e.scale = f.scale))
    (hx : x.toNat < e.boundary.toNat) (ha : ∀ f ∈ es, f.isApplied = true → f.boundary.toNat < e.boundary.toNat)
    (hf : e.late = false ∧ e.steppedOver = false) (hlen : es.length < Config.capacity)
    (hciv : e.scale = .civil → ∀ f ∈ es, (f.pending && f.scale == .civil) = false)
    (hz : e.scale ≠ .civil → pendingZones es < Config.pendingZoneLimit) : EntryLaws x (insertEntry e es) := by
  have happ : e.isApplied = false := by
    simp [Entry.pending, Entry.isApplied] at hp ⊢; exact hp
  have hperm := insertEntry_perm e es
  refine ⟨insertEntry_order h.order fun f hf hk => ?_, ⟨?_, ?_, ?_⟩,
    insertEntry_appliedFirst h.appliedFirst happ fun f hf hfa => ?_, fun f hfm hfp => ?_, fun f hfm hfp => ?_⟩
  · cases hfa : f.isApplied
    · exact hfree f hf hfa hk
    · have := ha f hf hfa
      rw [hk.1] at this; omega
  · rw [hperm.length_eq]; simp; omega
  · rw [(hperm.filter _).length_eq, List.filter_cons]
    split
    · rename_i hc
      have hc' : e.scale = .civil := by simp at hc; exact hc.2
      have : es.filter (fun e => e.pending && e.scale == .civil) = [] := by
        rw [List.filter_eq_nil_iff]; intro f hf; simp [hciv hc' f hf]
      simp [this]
    · exact h.capacity.civil
  · unfold pendingZones
    rw [(hperm.filter _).length_eq, List.filter_cons]
    split
    · rename_i hc
      have hc' : e.scale ≠ .civil := by simp at hc; exact hc.2
      have := hz hc'
      unfold pendingZones at this
      simp; omega
    · exact h.capacity.zones
  · cases hpf : e.precedes f
    · rfl
    · have := precedes_le hpf
      have := ha f hf hfa
      omega
  · rcases mem_insertEntry.mp hfm with rfl | hfm
    · exact hx
    · exact h.pendingAbove f hfm hfp
  · rcases mem_insertEntry.mp hfm with rfl | hfm
    · exact hf
    · exact h.unflagged f hfm hfp

/-! ## Claims -/

theorem forwardEntry_place (f : Int) (x : Second) (e : Entry) :
    (forwardEntry f x e).boundary = e.boundary ∧ (forwardEntry f x e).scale = e.scale := by
  unfold forwardEntry; split <;> [skip; split] <;> exact ⟨rfl, rfl⟩

theorem forwardEntry_isApplied (f : Int) (x : Second) (e : Entry) :
    (forwardEntry f x e).isApplied = (e.isApplied || committedBy x e) := by
  unfold forwardEntry
  by_cases hc : committedBy x e = true
  · simp [hc, Entry.isApplied]
  · simp only [hc]
    by_cases hf : frozenBy f x e = true
    · have : e.state = .armed := by simp [frozenBy] at hf; exact hf.1
      simp [hf, Entry.isApplied, this]
    · simp [hf]

theorem pending_eq_not_isApplied (e : Entry) : e.pending = !e.isApplied := by
  simp [Entry.pending, Entry.isApplied, bne]

/-- An entry pending after a forward claim was pending, lies above the new S and kept its flags. -/
theorem forwardEntry_pending {f : Int} {x : Second} {e : Entry} (h : (forwardEntry f x e).pending = true) :
    e.pending = true ∧ x.toNat < e.boundary.toNat ∧ (forwardEntry f x e).late = e.late ∧
      (forwardEntry f x e).steppedOver = e.steppedOver := by
  have hp := h
  rw [pending_eq_not_isApplied, forwardEntry_isApplied] at h
  simp at h
  refine ⟨by rw [pending_eq_not_isApplied]; simp [h.1], ?_, ?_⟩
  · have := h.2
    simp [committedBy, pending_eq_not_isApplied, h.1] at this
    exact this
  · unfold forwardEntry
    simp only [h.2]
    split <;> [simp_all; (split <;> exact ⟨rfl, rfl⟩)]

theorem backwardEntry_place (x : Second) (e : Entry) :
    (backwardEntry x e).boundary = e.boundary ∧ (backwardEntry x e).scale = e.scale ∧
      (backwardEntry x e).state = e.state ∧ (backwardEntry x e).late = e.late := by
  unfold backwardEntry; split <;> exact ⟨rfl, rfl, rfl, rfl⟩

theorem backwardEntry_pending {x : Second} {e : Entry} (h : e.pending = true) : backwardEntry x e = e := by
  rw [pending_eq_not_isApplied] at h
  simp at h
  simp [backwardEntry, steppedBy, h]

theorem precedes_of_place {e f e' f' : Entry} (h : e.boundary = e'.boundary ∧ e.scale = e'.scale)
    (k : f.boundary = f'.boundary ∧ f.scale = f'.scale) : e.precedes f = e'.precedes f' := by
  simp [Entry.precedes, h, k]

theorem length_filter_map_le {es : List Entry} {g : Entry → Entry} {p : Entry → Bool}
    (h : ∀ e, p (g e) = true → p e = true) : ((es.map g).filter p).length ≤ (es.filter p).length := by
  induction es with
  | nil => exact Nat.le_refl _
  | cons e es ih =>
    simp only [List.map_cons, List.filter_cons]
    by_cases hg : p (g e) = true
    · simp [hg, h e hg]; exact ih
    · rw [if_neg hg]
      split
      · simp; omega
      · simpa using ih

/-- A map that keeps places and makes no entry pending keeps the limits. -/
theorem CapacityLaw.map {es : List Entry} (h : CapacityLaw es) {g : Entry → Entry}
    (hg : ∀ e, (g e).scale = e.scale) (hp : ∀ e, (g e).pending = true → e.pending = true) : CapacityLaw (es.map g) where
  total := by rw [List.length_map]; exact h.total
  civil := (length_filter_map_le fun e he => by
    simp only [hg, Bool.and_eq_true] at he ⊢; exact ⟨hp e he.1, he.2⟩).trans h.civil
  zones := (length_filter_map_le fun e he => by
    simp only [hg, Bool.and_eq_true] at he ⊢; exact ⟨hp e he.1, he.2⟩).trans h.zones

theorem OrderLaw.map {es : List Entry} (h : OrderLaw es) {g : Entry → Entry}
    (hg : ∀ e, (g e).boundary = e.boundary ∧ (g e).scale = e.scale) : OrderLaw (es.map g) := by
  unfold OrderLaw
  rw [List.pairwise_map]
  exact h.imp fun {e f} hp => by rw [precedes_of_place (hg e) (hg f)]; exact hp

/-- A forward claim keeps the laws, at its new S. -/
theorem EntryLaws.forward {x y : Second} {es : List Entry} (h : EntryLaws x es) (f : Int) :
    EntryLaws y (es.map (forwardEntry f y)) where
  order := h.order.map (forwardEntry_place f y)
  capacity := h.capacity.map (fun e => (forwardEntry_place f y e).2) fun e he => (forwardEntry_pending he).1
  appliedFirst := by
    have ho := h.order
    have ha := h.appliedFirst
    unfold OrderLaw at ho
    unfold AppliedFirst at ha ⊢
    rw [List.pairwise_map]
    refine (ho.and ha).imp fun {e g} hp hg => ?_
    rw [forwardEntry_isApplied] at hg ⊢
    simp at hg ⊢
    rcases hg with hg | hg
    · exact .inl (hp.2 hg)
    · have hb := precedes_le hp.1
      simp [committedBy, pending_eq_not_isApplied] at hg ⊢
      cases e.isApplied
      · right; simp; omega
      · left; rfl
  pendingAbove := fun e he hp => by
    obtain ⟨a, _, rfl⟩ := List.mem_map.mp he
    rw [(forwardEntry_place f y a).1]
    exact (forwardEntry_pending hp).2.1
  unflagged := fun e he hp => by
    obtain ⟨a, ha, rfl⟩ := List.mem_map.mp he
    have := forwardEntry_pending hp
    rw [this.2.2.1, this.2.2.2]
    exact h.unflagged a ha this.1

/-- A backward claim keeps the laws, at its new S below the list second. -/
theorem EntryLaws.backward {x y : Second} {es : List Entry} (h : EntryLaws x es) (hy : y.toNat ≤ x.toNat) :
    EntryLaws y (es.map (backwardEntry y)) where
  order := h.order.map fun e => ⟨(backwardEntry_place y e).1, (backwardEntry_place y e).2.1⟩
  capacity := h.capacity.map (fun e => (backwardEntry_place y e).2.1) fun e he => by
    simpa [Entry.pending, backwardEntry_place] using he
  appliedFirst := by
    have ha := h.appliedFirst
    unfold AppliedFirst at ha ⊢
    rw [List.pairwise_map]
    refine ha.imp fun {e g} hp hg => ?_
    simp [Entry.isApplied, backwardEntry_place] at hp hg ⊢
    exact hp hg
  pendingAbove := fun e he hp => by
    obtain ⟨a, ha, rfl⟩ := List.mem_map.mp he
    have hap : a.pending = true := by simpa [Entry.pending, backwardEntry_place] using hp
    have := h.pendingAbove a ha hap
    rw [(backwardEntry_place y a).1]
    omega
  unflagged := fun e he hp => by
    obtain ⟨a, ha, rfl⟩ := List.mem_map.mp he
    have hap : a.pending = true := by simpa [Entry.pending, backwardEntry_place] using hp
    rw [backwardEntry_pending hap]
    exact h.unflagged a ha hap

/-- A claim from the list second keeps the laws, at its new S. -/
theorem EntryLaws.claim {c : SChange} {es : List Entry} (h : EntryLaws c.before es) (f : Int) :
    EntryLaws c.after (claimEntries f c es) := by
  unfold claimEntries
  split
  · exact h.forward f
  · split
    · exact h.backward (by omega)
    · have : c.before = c.after := BitVec.eq_of_toNat_eq (by omega)
      rw [← this]; exact h

/-! ## Requests -/

theorem mem_newestApplied {es : List Entry} {e : Entry} (h : newestApplied es = some e) :
    e ∈ es ∧ e.isApplied = true := by
  have := List.mem_of_getLast? h
  simpa using this

/-- Where the entries are ordered, the newest APPLIED entry lies at or above every APPLIED one. -/
theorem le_appliedHorizon {es : List Entry} (h : OrderLaw es) {e : Entry} (he : e ∈ es) (ha : e.isApplied = true) :
    ∃ b, appliedHorizon es = some b ∧ e.boundary.toNat ≤ b.toNat := by
  have hm : e ∈ es.filter Entry.isApplied := by simp [he, ha]
  have ho : (es.filter Entry.isApplied).Pairwise fun e f => e.precedes f = true := h.filter _
  unfold appliedHorizon newestApplied
  generalize es.filter Entry.isApplied = l at hm ho
  rcases List.eq_nil_or_concat l with rfl | ⟨l', z, rfl⟩
  · cases hm
  · simp only [List.concat_eq_append] at *
    simp only [List.getLast?_append, List.getLast?_singleton, Option.some_or, Option.map_some, Option.some.injEq,
      exists_eq_left']
    rcases List.mem_append.mp hm with hm | hm
    · exact precedes_le ((List.pairwise_append.mp ho).2.2 e hm z (by simp))
    · simp at hm; rw [hm]

/-- A boundary that is not TOO-LATE lies above the list second and above every APPLIED entry. -/
theorem not_tooLate {sched : Schedule} {x b : Second} (ho : OrderLaw sched.entries) (h : tooLate sched x b = false) :
    x.toNat < b.toNat ∧ ∀ e ∈ sched.entries, e.isApplied = true → e.boundary.toNat < b.toNat := by
  simp only [tooLate, Bool.or_eq_false_iff, decide_eq_false_iff_not, Nat.not_le] at h
  refine ⟨h.1, fun e he ha => ?_⟩
  obtain ⟨c, hc, hle⟩ := le_appliedHorizon ho he ha
  have := h.2
  rw [hc] at this
  simp only [atOrBelow, decide_eq_false_iff_not, Int.not_le] at this
  omega

theorem pendingAt_none {es : List Entry} {sc : Scale} {b : Second} (h : pendingAt es sc b = none) :
    ∀ e ∈ es, e.pending = true → ¬ (e.boundary = b ∧ e.scale = sc) := by
  unfold pendingAt at h
  rw [List.find?_eq_none] at h
  intro e he hp hk
  exact h e he (by simp [hp, hk])

/-- With the entries in order, a list of 32 begins with an APPLIED entry (R6). -/
theorem head_applied {x : Second} {e : Entry} {es : List Entry} (h : EntryLaws x (e :: es))
    (hl : Config.capacity ≤ (e :: es).length) : e.isApplied = true := by
  by_contra hn
  have hall : ∀ f ∈ e :: es, f.pending = true := by
    intro f hf
    rw [pending_eq_not_isApplied]
    rcases List.mem_cons.mp hf with rfl | hf
    · simpa using hn
    · have := h.appliedFirst
      unfold AppliedFirst at this
      rw [List.pairwise_cons] at this
      cases hfa : f.isApplied
      · rfl
      · exact absurd (this.1 f hf hfa) hn
  have key : ∀ l : List Entry, (∀ f ∈ l, f.pending = true) →
      l.length = (l.filter fun e => e.pending && e.scale == .civil).length + pendingZones l := by
    intro l
    induction l with
    | nil => intro _; rfl
    | cons f l ih =>
      intro hl
      have hf := hl f List.mem_cons_self
      have := ih fun g hg => hl g (List.mem_cons_of_mem _ hg)
      unfold pendingZones at this ⊢
      by_cases hs : f.scale = .civil
      · simp [hf, hs]; omega
      · simp [hf, hs]; omega
  have h1 := key _ hall
  have h2 := h.capacity.civil
  have h3 := h.capacity.zones
  unfold Config.capacity at hl
  unfold Config.pendingZoneLimit at h3
  omega

/-- The discard leaves room and keeps the laws. -/
theorem discard_laws {x : Second} {sched : Schedule} (h : EntryLaws x sched.entries) :
    EntryLaws x (discardIfFull sched).1.entries ∧ (discardIfFull sched).1.entries.length < Config.capacity ∧
      (discardIfFull sched).1.entries.Sublist sched.entries ∧
      pendingZones (discardIfFull sched).1.entries = pendingZones sched.entries := by
  unfold discardIfFull
  rcases hs : sched.entries with _ | ⟨e, es⟩
  · simp only [hs]
    exact ⟨EntryLaws.nil x, by decide, .refl _, trivial⟩
  · rw [hs] at h
    simp only
    split
    · rename_i hl
      refine ⟨h.sublist (List.sublist_cons_self e es), ?_, List.sublist_cons_self e es, ?_⟩
      · have := h.capacity.total
        simp at this ⊢; omega
      · have := head_applied h hl
        simp [pendingZones, pending_eq_not_isApplied, this]
    · rename_i hl
      rw [hs]
      exact ⟨h, by omega, .refl _, rfl⟩

/-- An accepted new entry keeps the laws. -/
theorem acceptArm_laws {f : Int} {x : Second} {sched : Schedule} {e : Entry} (h : EntryLaws x sched.entries)
    (hl : tooLate sched x e.boundary = false) (hfree : pendingAt sched.entries e.scale e.boundary = none)
    (hf : e.late = false ∧ e.steppedOver = false)
    (hciv : e.scale = .civil → pendingCivil sched.entries = none)
    (hz : e.scale ≠ .civil → pendingZones sched.entries < Config.pendingZoneLimit) :
    EntryLaws x (acceptArm f x sched e).sched.entries := by
  obtain ⟨hd, hlen, hsub, hpz⟩ := discard_laws h
  obtain ⟨hx, ha⟩ := not_tooLate h.order hl
  refine withEntries_laws (EntryLaws.insert hd ?_ ?_ hx ?_ hf hlen ?_ ?_)
  · unfold entryStateFor; simp only [Entry.pending]; split <;> rfl
  · intro g hg hga hk
    refine pendingAt_none hfree g (hsub.subset hg) ?_ ⟨hk.1.symm, hk.2.symm⟩
    rw [pending_eq_not_isApplied, hga]; rfl
  · exact fun g hg hga => ha g (hsub.subset hg) hga
  · intro hsc g hg
    have := hciv hsc
    unfold pendingCivil at this
    rw [List.find?_eq_none] at this
    simpa using this g (hsub.subset hg)
  · intro hsc; rw [hpz]; exact hz hsc

theorem rewritePending_laws {x : Second} {sched : Schedule} {sc : Scale} {b : Second} {g : Entry → Entry}
    (h : EntryLaws x sched.entries) (hg : ∀ e, (g e).core = e.core) :
    EntryLaws x (rewritePending sched sc b g).entries := by
  refine withEntries_laws (h.of_cores ?_)
  generalize sched.entries = es
  induction es with
  | nil => exact .nil
  | cons e es ih =>
    refine .cons ?_ ih
    show e.core = (if _ then g e else e).core
    split
    · exact (hg e).symm
    · rfl

theorem armCivil_laws {f : Int} {x : Second} {sched : Schedule} {b : Second} {k : LeapKind} {o : SourceNo} {g : Bool}
    (h : EntryLaws x sched.entries) : EntryLaws x (armCivil f x sched b k o g).sched.entries := by
  unfold armCivil
  split
  · exact h
  · rename_i hl
    split
    · split
      · exact h
      · split
        · exact h
        · split
          · exact h
          · exact rewritePending_laws h fun _ => rfl
    · rename_i hn
      split
      · exact h
      · rename_i hc
        split
        · exact h
        · exact acceptArm_laws h (show tooLate sched x b = false by simpa using hl) hn ⟨rfl, rfl⟩ (fun _ => by simpa using hc)
            fun hne => absurd rfl hne

theorem armZone_laws {f : Int} {x : Second} {sched : Schedule} {k : ZoneNo} {b : Second} {z : Int} {o : SourceNo}
    (h : EntryLaws x sched.entries) : EntryLaws x (armZone f x sched k b z o).sched.entries := by
  unfold armZone
  split
  · exact h
  · rename_i hl
    split
    · split
      · exact h
      · split
        · exact h
        · split
          · exact h
          · exact rewritePending_laws h fun _ => rfl
    · rename_i hn
      split
      · exact h
      · rename_i hc
        split
        · exact h
        · exact acceptArm_laws h (show tooLate sched x b = false by simpa using hl) hn ⟨rfl, rfl⟩ (fun hne => by cases hne)
            fun _ => by omega

theorem withoutPendingCivil_sublist (es : List Entry) : (withoutPendingCivil es).Sublist es := List.filter_sublist

theorem replaceCivil_laws {f : Int} {x : Second} {sched : Schedule} {b : Second} {k : LeapKind} {o : SourceNo}
    {g : Bool} (h : EntryLaws x sched.entries) : EntryLaws x (replaceCivil f x sched b k o g).sched.entries := by
  unfold replaceCivil
  split
  · exact h
  · rename_i e he
    split
    · exact h
    · split
      · exact h
      · split
        · exact h
        · rename_i hl
          dsimp only
          split
          · exact h
          · obtain ⟨hx, ha⟩ := not_tooLate h.order (by simpa using hl)
            have hmem := List.mem_of_find?_eq_some he
            have hpc := List.find?_some he
            simp only [Bool.and_eq_true, beq_iff_eq] at hpc
            have hsub := withoutPendingCivil_sublist sched.entries
            have hnone : ∀ f ∈ withoutPendingCivil sched.entries, (f.pending && f.scale == .civil) = false := by
              intro f hf
              simp only [withoutPendingCivil, List.mem_filter, Bool.not_eq_true'] at hf
              exact hf.2
            refine withEntries_laws (EntryLaws.insert (h.sublist hsub) ?_ ?_ hx ?_ ?_ ?_ (fun _ => hnone) ?_)
            · unfold entryStateFor; simp only [Entry.pending]; split <;> rfl
            · intro f hf hfa hk
              have := hnone f hf
              simp only [pending_eq_not_isApplied, hfa] at this
              simp at this
              exact this (hk.2.symm.trans hpc.2)
            · exact fun f hf hfa => ha f (hsub.subset hf) hfa
            · exact h.unflagged e hmem hpc.1
            · have hlt : (withoutPendingCivil sched.entries).length < sched.entries.length := by
                unfold withoutPendingCivil
                refine List.length_filter_lt_length_iff_exists.mpr ⟨e, hmem, ?_⟩
                simp [hpc]
              have := h.capacity.total
              omega
            · intro hne; exact absurd hpc.2 hne

theorem withdrawCivil_laws {x : Second} {sched : Schedule} (h : EntryLaws x sched.entries) :
    EntryLaws x (withdrawCivil sched).sched.entries := by
  unfold withdrawCivil
  split
  · exact h
  · split
    · exact h
    · exact withEntries_laws (h.sublist (withoutPendingCivil_sublist _))

theorem withdrawZone_laws {x : Second} {sched : Schedule} {k : ZoneNo} {b : Second} (h : EntryLaws x sched.entries) :
    EntryLaws x (withdrawZone sched k b).sched.entries := by
  unfold withdrawZone
  split
  · exact h
  · split
    · exact h
    · split
      · exact h
      · dsimp only
        split
        · exact h
        · split
          · exact h
          · exact withEntries_laws (h.sublist List.filter_sublist)

/-- Every judged request keeps the laws. -/
theorem judgeRequest_laws {s : State} {r : Request} {v : Verdict} (h : EntryLaws s.list.listSecond s.list.sched.entries)
    (hv : judgeRequest s r = some v) : EntryLaws s.list.listSecond v.sched.entries := by
  cases r <;> simp only [judgeRequest, Option.some.injEq, reduceCtorEq] at hv <;> subst hv
  · exact armCivil_laws h
  · exact armZone_laws h
  · exact replaceCivil_laws h
  · exact withdrawCivil_laws h
  · exact withdrawZone_laws h

/-- FLUSH keeps the laws. -/
theorem flush_laws {x : Second} {sched : Schedule} (h : EntryLaws x sched.entries) :
    EntryLaws x (flushSchedule sched).1.entries := h.sublist List.filter_sublist

end Sys2Proof.Machine
end

