-- ==== Sys2Proof/Laws/State.lean ====
section
/-! SUPPORT. One lemma per field per update of the state, each true by definition, so that no proof unfolds a record
update. -/

namespace Sys2Proof.Machine

@[simp] theorem State.setResetAsserted_resetAsserted (s : State) (x : Bool) : (s.setResetAsserted x).resetAsserted = x := rfl
@[simp] theorem State.setResetAsserted_straps (s : State) (x : Bool) : (s.setResetAsserted x).straps = s.straps := rfl
@[simp] theorem State.setResetAsserted_counter (s : State) (x : Bool) : (s.setResetAsserted x).counter = s.counter := rfl
@[simp] theorem State.setResetAsserted_status (s : State) (x : Bool) : (s.setResetAsserted x).status = s.status := rfl
@[simp] theorem State.setResetAsserted_sup (s : State) (x : Bool) : (s.setResetAsserted x).sup = s.sup := rfl
@[simp] theorem State.setResetAsserted_list (s : State) (x : Bool) : (s.setResetAsserted x).list = s.list := rfl
@[simp] theorem State.setResetAsserted_intake (s : State) (x : Bool) : (s.setResetAsserted x).intake = s.intake := rfl
@[simp] theorem State.setResetAsserted_election (s : State) (x : Bool) : (s.setResetAsserted x).election = s.election := rfl
@[simp] theorem State.setResetAsserted_patcher (s : State) (x : Bool) : (s.setResetAsserted x).patcher = s.patcher := rfl
@[simp] theorem State.setResetAsserted_path (s : State) (x : Bool) : (s.setResetAsserted x).path = s.path := rfl
@[simp] theorem State.setResetAsserted_wires (s : State) (x : Bool) : (s.setResetAsserted x).wires = s.wires := rfl
@[simp] theorem State.setResetAsserted_card (s : State) (x : Bool) : (s.setResetAsserted x).card = s.card := rfl
@[simp] theorem State.setResetAsserted_answers (s : State) (x : Bool) : (s.setResetAsserted x).answers = s.answers := rfl
@[simp] theorem State.setResetAsserted_pending (s : State) (x : Bool) : (s.setResetAsserted x).pending = s.pending := rfl

@[simp] theorem State.setStraps_resetAsserted (s : State) (x : Straps) : (s.setStraps x).resetAsserted = s.resetAsserted := rfl
@[simp] theorem State.setStraps_straps (s : State) (x : Straps) : (s.setStraps x).straps = x := rfl
@[simp] theorem State.setStraps_counter (s : State) (x : Straps) : (s.setStraps x).counter = s.counter := rfl
@[simp] theorem State.setStraps_status (s : State) (x : Straps) : (s.setStraps x).status = s.status := rfl
@[simp] theorem State.setStraps_sup (s : State) (x : Straps) : (s.setStraps x).sup = s.sup := rfl
@[simp] theorem State.setStraps_list (s : State) (x : Straps) : (s.setStraps x).list = s.list := rfl
@[simp] theorem State.setStraps_intake (s : State) (x : Straps) : (s.setStraps x).intake = s.intake := rfl
@[simp] theorem State.setStraps_election (s : State) (x : Straps) : (s.setStraps x).election = s.election := rfl
@[simp] theorem State.setStraps_patcher (s : State) (x : Straps) : (s.setStraps x).patcher = s.patcher := rfl
@[simp] theorem State.setStraps_path (s : State) (x : Straps) : (s.setStraps x).path = s.path := rfl
@[simp] theorem State.setStraps_wires (s : State) (x : Straps) : (s.setStraps x).wires = s.wires := rfl
@[simp] theorem State.setStraps_card (s : State) (x : Straps) : (s.setStraps x).card = s.card := rfl
@[simp] theorem State.setStraps_answers (s : State) (x : Straps) : (s.setStraps x).answers = s.answers := rfl
@[simp] theorem State.setStraps_pending (s : State) (x : Straps) : (s.setStraps x).pending = s.pending := rfl

@[simp] theorem State.setCounter_resetAsserted (s : State) (x : Count) : (s.setCounter x).resetAsserted = s.resetAsserted := rfl
@[simp] theorem State.setCounter_straps (s : State) (x : Count) : (s.setCounter x).straps = s.straps := rfl
@[simp] theorem State.setCounter_counter (s : State) (x : Count) : (s.setCounter x).counter = x := rfl
@[simp] theorem State.setCounter_status (s : State) (x : Count) : (s.setCounter x).status = s.status := rfl
@[simp] theorem State.setCounter_sup (s : State) (x : Count) : (s.setCounter x).sup = s.sup := rfl
@[simp] theorem State.setCounter_list (s : State) (x : Count) : (s.setCounter x).list = s.list := rfl
@[simp] theorem State.setCounter_intake (s : State) (x : Count) : (s.setCounter x).intake = s.intake := rfl
@[simp] theorem State.setCounter_election (s : State) (x : Count) : (s.setCounter x).election = s.election := rfl
@[simp] theorem State.setCounter_patcher (s : State) (x : Count) : (s.setCounter x).patcher = s.patcher := rfl
@[simp] theorem State.setCounter_path (s : State) (x : Count) : (s.setCounter x).path = s.path := rfl
@[simp] theorem State.setCounter_wires (s : State) (x : Count) : (s.setCounter x).wires = s.wires := rfl
@[simp] theorem State.setCounter_card (s : State) (x : Count) : (s.setCounter x).card = s.card := rfl
@[simp] theorem State.setCounter_answers (s : State) (x : Count) : (s.setCounter x).answers = s.answers := rfl
@[simp] theorem State.setCounter_pending (s : State) (x : Count) : (s.setCounter x).pending = s.pending := rfl

@[simp] theorem State.setStatus_resetAsserted (s : State) (x : StatusUnit) : (s.setStatus x).resetAsserted = s.resetAsserted := rfl
@[simp] theorem State.setStatus_straps (s : State) (x : StatusUnit) : (s.setStatus x).straps = s.straps := rfl
@[simp] theorem State.setStatus_counter (s : State) (x : StatusUnit) : (s.setStatus x).counter = s.counter := rfl
@[simp] theorem State.setStatus_status (s : State) (x : StatusUnit) : (s.setStatus x).status = x := rfl
@[simp] theorem State.setStatus_sup (s : State) (x : StatusUnit) : (s.setStatus x).sup = s.sup := rfl
@[simp] theorem State.setStatus_list (s : State) (x : StatusUnit) : (s.setStatus x).list = s.list := rfl
@[simp] theorem State.setStatus_intake (s : State) (x : StatusUnit) : (s.setStatus x).intake = s.intake := rfl
@[simp] theorem State.setStatus_election (s : State) (x : StatusUnit) : (s.setStatus x).election = s.election := rfl
@[simp] theorem State.setStatus_patcher (s : State) (x : StatusUnit) : (s.setStatus x).patcher = s.patcher := rfl
@[simp] theorem State.setStatus_path (s : State) (x : StatusUnit) : (s.setStatus x).path = s.path := rfl
@[simp] theorem State.setStatus_wires (s : State) (x : StatusUnit) : (s.setStatus x).wires = s.wires := rfl
@[simp] theorem State.setStatus_card (s : State) (x : StatusUnit) : (s.setStatus x).card = s.card := rfl
@[simp] theorem State.setStatus_answers (s : State) (x : StatusUnit) : (s.setStatus x).answers = s.answers := rfl
@[simp] theorem State.setStatus_pending (s : State) (x : StatusUnit) : (s.setStatus x).pending = s.pending := rfl

@[simp] theorem State.setSup_resetAsserted (s : State) (x : Supervisor) : (s.setSup x).resetAsserted = s.resetAsserted := rfl
@[simp] theorem State.setSup_straps (s : State) (x : Supervisor) : (s.setSup x).straps = s.straps := rfl
@[simp] theorem State.setSup_counter (s : State) (x : Supervisor) : (s.setSup x).counter = s.counter := rfl
@[simp] theorem State.setSup_status (s : State) (x : Supervisor) : (s.setSup x).status = s.status := rfl
@[simp] theorem State.setSup_sup (s : State) (x : Supervisor) : (s.setSup x).sup = x := rfl
@[simp] theorem State.setSup_list (s : State) (x : Supervisor) : (s.setSup x).list = s.list := rfl
@[simp] theorem State.setSup_intake (s : State) (x : Supervisor) : (s.setSup x).intake = s.intake := rfl
@[simp] theorem State.setSup_election (s : State) (x : Supervisor) : (s.setSup x).election = s.election := rfl
@[simp] theorem State.setSup_patcher (s : State) (x : Supervisor) : (s.setSup x).patcher = s.patcher := rfl
@[simp] theorem State.setSup_path (s : State) (x : Supervisor) : (s.setSup x).path = s.path := rfl
@[simp] theorem State.setSup_wires (s : State) (x : Supervisor) : (s.setSup x).wires = s.wires := rfl
@[simp] theorem State.setSup_card (s : State) (x : Supervisor) : (s.setSup x).card = s.card := rfl
@[simp] theorem State.setSup_answers (s : State) (x : Supervisor) : (s.setSup x).answers = s.answers := rfl
@[simp] theorem State.setSup_pending (s : State) (x : Supervisor) : (s.setSup x).pending = s.pending := rfl

@[simp] theorem State.setList_resetAsserted (s : State) (x : ChangeList) : (s.setList x).resetAsserted = s.resetAsserted := rfl
@[simp] theorem State.setList_straps (s : State) (x : ChangeList) : (s.setList x).straps = s.straps := rfl
@[simp] theorem State.setList_counter (s : State) (x : ChangeList) : (s.setList x).counter = s.counter := rfl
@[simp] theorem State.setList_status (s : State) (x : ChangeList) : (s.setList x).status = s.status := rfl
@[simp] theorem State.setList_sup (s : State) (x : ChangeList) : (s.setList x).sup = s.sup := rfl
@[simp] theorem State.setList_list (s : State) (x : ChangeList) : (s.setList x).list = x := rfl
@[simp] theorem State.setList_intake (s : State) (x : ChangeList) : (s.setList x).intake = s.intake := rfl
@[simp] theorem State.setList_election (s : State) (x : ChangeList) : (s.setList x).election = s.election := rfl
@[simp] theorem State.setList_patcher (s : State) (x : ChangeList) : (s.setList x).patcher = s.patcher := rfl
@[simp] theorem State.setList_path (s : State) (x : ChangeList) : (s.setList x).path = s.path := rfl
@[simp] theorem State.setList_wires (s : State) (x : ChangeList) : (s.setList x).wires = s.wires := rfl
@[simp] theorem State.setList_card (s : State) (x : ChangeList) : (s.setList x).card = s.card := rfl
@[simp] theorem State.setList_answers (s : State) (x : ChangeList) : (s.setList x).answers = s.answers := rfl
@[simp] theorem State.setList_pending (s : State) (x : ChangeList) : (s.setList x).pending = s.pending := rfl

@[simp] theorem State.setIntake_resetAsserted (s : State) (x : Intake) : (s.setIntake x).resetAsserted = s.resetAsserted := rfl
@[simp] theorem State.setIntake_straps (s : State) (x : Intake) : (s.setIntake x).straps = s.straps := rfl
@[simp] theorem State.setIntake_counter (s : State) (x : Intake) : (s.setIntake x).counter = s.counter := rfl
@[simp] theorem State.setIntake_status (s : State) (x : Intake) : (s.setIntake x).status = s.status := rfl
@[simp] theorem State.setIntake_sup (s : State) (x : Intake) : (s.setIntake x).sup = s.sup := rfl
@[simp] theorem State.setIntake_list (s : State) (x : Intake) : (s.setIntake x).list = s.list := rfl
@[simp] theorem State.setIntake_intake (s : State) (x : Intake) : (s.setIntake x).intake = x := rfl
@[simp] theorem State.setIntake_election (s : State) (x : Intake) : (s.setIntake x).election = s.election := rfl
@[simp] theorem State.setIntake_patcher (s : State) (x : Intake) : (s.setIntake x).patcher = s.patcher := rfl
@[simp] theorem State.setIntake_path (s : State) (x : Intake) : (s.setIntake x).path = s.path := rfl
@[simp] theorem State.setIntake_wires (s : State) (x : Intake) : (s.setIntake x).wires = s.wires := rfl
@[simp] theorem State.setIntake_card (s : State) (x : Intake) : (s.setIntake x).card = s.card := rfl
@[simp] theorem State.setIntake_answers (s : State) (x : Intake) : (s.setIntake x).answers = s.answers := rfl
@[simp] theorem State.setIntake_pending (s : State) (x : Intake) : (s.setIntake x).pending = s.pending := rfl

@[simp] theorem State.setElection_resetAsserted (s : State) (x : Election) : (s.setElection x).resetAsserted = s.resetAsserted := rfl
@[simp] theorem State.setElection_straps (s : State) (x : Election) : (s.setElection x).straps = s.straps := rfl
@[simp] theorem State.setElection_counter (s : State) (x : Election) : (s.setElection x).counter = s.counter := rfl
@[simp] theorem State.setElection_status (s : State) (x : Election) : (s.setElection x).status = s.status := rfl
@[simp] theorem State.setElection_sup (s : State) (x : Election) : (s.setElection x).sup = s.sup := rfl
@[simp] theorem State.setElection_list (s : State) (x : Election) : (s.setElection x).list = s.list := rfl
@[simp] theorem State.setElection_intake (s : State) (x : Election) : (s.setElection x).intake = s.intake := rfl
@[simp] theorem State.setElection_election (s : State) (x : Election) : (s.setElection x).election = x := rfl
@[simp] theorem State.setElection_patcher (s : State) (x : Election) : (s.setElection x).patcher = s.patcher := rfl
@[simp] theorem State.setElection_path (s : State) (x : Election) : (s.setElection x).path = s.path := rfl
@[simp] theorem State.setElection_wires (s : State) (x : Election) : (s.setElection x).wires = s.wires := rfl
@[simp] theorem State.setElection_card (s : State) (x : Election) : (s.setElection x).card = s.card := rfl
@[simp] theorem State.setElection_answers (s : State) (x : Election) : (s.setElection x).answers = s.answers := rfl
@[simp] theorem State.setElection_pending (s : State) (x : Election) : (s.setElection x).pending = s.pending := rfl

@[simp] theorem State.setPatcher_resetAsserted (s : State) (x : PortPatcher) : (s.setPatcher x).resetAsserted = s.resetAsserted := rfl
@[simp] theorem State.setPatcher_straps (s : State) (x : PortPatcher) : (s.setPatcher x).straps = s.straps := rfl
@[simp] theorem State.setPatcher_counter (s : State) (x : PortPatcher) : (s.setPatcher x).counter = s.counter := rfl
@[simp] theorem State.setPatcher_status (s : State) (x : PortPatcher) : (s.setPatcher x).status = s.status := rfl
@[simp] theorem State.setPatcher_sup (s : State) (x : PortPatcher) : (s.setPatcher x).sup = s.sup := rfl
@[simp] theorem State.setPatcher_list (s : State) (x : PortPatcher) : (s.setPatcher x).list = s.list := rfl
@[simp] theorem State.setPatcher_intake (s : State) (x : PortPatcher) : (s.setPatcher x).intake = s.intake := rfl
@[simp] theorem State.setPatcher_election (s : State) (x : PortPatcher) : (s.setPatcher x).election = s.election := rfl
@[simp] theorem State.setPatcher_patcher (s : State) (x : PortPatcher) : (s.setPatcher x).patcher = x := rfl
@[simp] theorem State.setPatcher_path (s : State) (x : PortPatcher) : (s.setPatcher x).path = s.path := rfl
@[simp] theorem State.setPatcher_wires (s : State) (x : PortPatcher) : (s.setPatcher x).wires = s.wires := rfl
@[simp] theorem State.setPatcher_card (s : State) (x : PortPatcher) : (s.setPatcher x).card = s.card := rfl
@[simp] theorem State.setPatcher_answers (s : State) (x : PortPatcher) : (s.setPatcher x).answers = s.answers := rfl
@[simp] theorem State.setPatcher_pending (s : State) (x : PortPatcher) : (s.setPatcher x).pending = s.pending := rfl

@[simp] theorem State.setPath_resetAsserted (s : State) (x : PathUnit) : (s.setPath x).resetAsserted = s.resetAsserted := rfl
@[simp] theorem State.setPath_straps (s : State) (x : PathUnit) : (s.setPath x).straps = s.straps := rfl
@[simp] theorem State.setPath_counter (s : State) (x : PathUnit) : (s.setPath x).counter = s.counter := rfl
@[simp] theorem State.setPath_status (s : State) (x : PathUnit) : (s.setPath x).status = s.status := rfl
@[simp] theorem State.setPath_sup (s : State) (x : PathUnit) : (s.setPath x).sup = s.sup := rfl
@[simp] theorem State.setPath_list (s : State) (x : PathUnit) : (s.setPath x).list = s.list := rfl
@[simp] theorem State.setPath_intake (s : State) (x : PathUnit) : (s.setPath x).intake = s.intake := rfl
@[simp] theorem State.setPath_election (s : State) (x : PathUnit) : (s.setPath x).election = s.election := rfl
@[simp] theorem State.setPath_patcher (s : State) (x : PathUnit) : (s.setPath x).patcher = s.patcher := rfl
@[simp] theorem State.setPath_path (s : State) (x : PathUnit) : (s.setPath x).path = x := rfl
@[simp] theorem State.setPath_wires (s : State) (x : PathUnit) : (s.setPath x).wires = s.wires := rfl
@[simp] theorem State.setPath_card (s : State) (x : PathUnit) : (s.setPath x).card = s.card := rfl
@[simp] theorem State.setPath_answers (s : State) (x : PathUnit) : (s.setPath x).answers = s.answers := rfl
@[simp] theorem State.setPath_pending (s : State) (x : PathUnit) : (s.setPath x).pending = s.pending := rfl

@[simp] theorem State.setWires_resetAsserted (s : State) (x : Wires) : (s.setWires x).resetAsserted = s.resetAsserted := rfl
@[simp] theorem State.setWires_straps (s : State) (x : Wires) : (s.setWires x).straps = s.straps := rfl
@[simp] theorem State.setWires_counter (s : State) (x : Wires) : (s.setWires x).counter = s.counter := rfl
@[simp] theorem State.setWires_status (s : State) (x : Wires) : (s.setWires x).status = s.status := rfl
@[simp] theorem State.setWires_sup (s : State) (x : Wires) : (s.setWires x).sup = s.sup := rfl
@[simp] theorem State.setWires_list (s : State) (x : Wires) : (s.setWires x).list = s.list := rfl
@[simp] theorem State.setWires_intake (s : State) (x : Wires) : (s.setWires x).intake = s.intake := rfl
@[simp] theorem State.setWires_election (s : State) (x : Wires) : (s.setWires x).election = s.election := rfl
@[simp] theorem State.setWires_patcher (s : State) (x : Wires) : (s.setWires x).patcher = s.patcher := rfl
@[simp] theorem State.setWires_path (s : State) (x : Wires) : (s.setWires x).path = s.path := rfl
@[simp] theorem State.setWires_wires (s : State) (x : Wires) : (s.setWires x).wires = x := rfl
@[simp] theorem State.setWires_card (s : State) (x : Wires) : (s.setWires x).card = s.card := rfl
@[simp] theorem State.setWires_answers (s : State) (x : Wires) : (s.setWires x).answers = s.answers := rfl
@[simp] theorem State.setWires_pending (s : State) (x : Wires) : (s.setWires x).pending = s.pending := rfl

@[simp] theorem State.setCard_resetAsserted (s : State) (x : List Access) : (s.setCard x).resetAsserted = s.resetAsserted := rfl
@[simp] theorem State.setCard_straps (s : State) (x : List Access) : (s.setCard x).straps = s.straps := rfl
@[simp] theorem State.setCard_counter (s : State) (x : List Access) : (s.setCard x).counter = s.counter := rfl
@[simp] theorem State.setCard_status (s : State) (x : List Access) : (s.setCard x).status = s.status := rfl
@[simp] theorem State.setCard_sup (s : State) (x : List Access) : (s.setCard x).sup = s.sup := rfl
@[simp] theorem State.setCard_list (s : State) (x : List Access) : (s.setCard x).list = s.list := rfl
@[simp] theorem State.setCard_intake (s : State) (x : List Access) : (s.setCard x).intake = s.intake := rfl
@[simp] theorem State.setCard_election (s : State) (x : List Access) : (s.setCard x).election = s.election := rfl
@[simp] theorem State.setCard_patcher (s : State) (x : List Access) : (s.setCard x).patcher = s.patcher := rfl
@[simp] theorem State.setCard_path (s : State) (x : List Access) : (s.setCard x).path = s.path := rfl
@[simp] theorem State.setCard_wires (s : State) (x : List Access) : (s.setCard x).wires = s.wires := rfl
@[simp] theorem State.setCard_card (s : State) (x : List Access) : (s.setCard x).card = x := rfl
@[simp] theorem State.setCard_answers (s : State) (x : List Access) : (s.setCard x).answers = s.answers := rfl
@[simp] theorem State.setCard_pending (s : State) (x : List Access) : (s.setCard x).pending = s.pending := rfl

@[simp] theorem State.setAnswers_resetAsserted (s : State) (x : List SysAnswer) : (s.setAnswers x).resetAsserted = s.resetAsserted := rfl
@[simp] theorem State.setAnswers_straps (s : State) (x : List SysAnswer) : (s.setAnswers x).straps = s.straps := rfl
@[simp] theorem State.setAnswers_counter (s : State) (x : List SysAnswer) : (s.setAnswers x).counter = s.counter := rfl
@[simp] theorem State.setAnswers_status (s : State) (x : List SysAnswer) : (s.setAnswers x).status = s.status := rfl
@[simp] theorem State.setAnswers_sup (s : State) (x : List SysAnswer) : (s.setAnswers x).sup = s.sup := rfl
@[simp] theorem State.setAnswers_list (s : State) (x : List SysAnswer) : (s.setAnswers x).list = s.list := rfl
@[simp] theorem State.setAnswers_intake (s : State) (x : List SysAnswer) : (s.setAnswers x).intake = s.intake := rfl
@[simp] theorem State.setAnswers_election (s : State) (x : List SysAnswer) : (s.setAnswers x).election = s.election := rfl
@[simp] theorem State.setAnswers_patcher (s : State) (x : List SysAnswer) : (s.setAnswers x).patcher = s.patcher := rfl
@[simp] theorem State.setAnswers_path (s : State) (x : List SysAnswer) : (s.setAnswers x).path = s.path := rfl
@[simp] theorem State.setAnswers_wires (s : State) (x : List SysAnswer) : (s.setAnswers x).wires = s.wires := rfl
@[simp] theorem State.setAnswers_card (s : State) (x : List SysAnswer) : (s.setAnswers x).card = s.card := rfl
@[simp] theorem State.setAnswers_answers (s : State) (x : List SysAnswer) : (s.setAnswers x).answers = x := rfl
@[simp] theorem State.setAnswers_pending (s : State) (x : List SysAnswer) : (s.setAnswers x).pending = s.pending := rfl

@[simp] theorem State.setPending_resetAsserted (s : State) (x : List Instr) : (s.setPending x).resetAsserted = s.resetAsserted := rfl
@[simp] theorem State.setPending_straps (s : State) (x : List Instr) : (s.setPending x).straps = s.straps := rfl
@[simp] theorem State.setPending_counter (s : State) (x : List Instr) : (s.setPending x).counter = s.counter := rfl
@[simp] theorem State.setPending_status (s : State) (x : List Instr) : (s.setPending x).status = s.status := rfl
@[simp] theorem State.setPending_sup (s : State) (x : List Instr) : (s.setPending x).sup = s.sup := rfl
@[simp] theorem State.setPending_list (s : State) (x : List Instr) : (s.setPending x).list = s.list := rfl
@[simp] theorem State.setPending_intake (s : State) (x : List Instr) : (s.setPending x).intake = s.intake := rfl
@[simp] theorem State.setPending_election (s : State) (x : List Instr) : (s.setPending x).election = s.election := rfl
@[simp] theorem State.setPending_patcher (s : State) (x : List Instr) : (s.setPending x).patcher = s.patcher := rfl
@[simp] theorem State.setPending_path (s : State) (x : List Instr) : (s.setPending x).path = s.path := rfl
@[simp] theorem State.setPending_wires (s : State) (x : List Instr) : (s.setPending x).wires = s.wires := rfl
@[simp] theorem State.setPending_card (s : State) (x : List Instr) : (s.setPending x).card = s.card := rfl
@[simp] theorem State.setPending_answers (s : State) (x : List Instr) : (s.setPending x).answers = s.answers := rfl
@[simp] theorem State.setPending_pending (s : State) (x : List Instr) : (s.setPending x).pending = x := rfl

/-! Of two updates of one field the later stands, and setting a field to what it is changes nothing. -/

@[simp] theorem State.setResetAsserted_setResetAsserted (s : State) (x y : Bool) : (s.setResetAsserted x).setResetAsserted y = s.setResetAsserted y := rfl
@[simp] theorem State.setResetAsserted_self (s : State) : s.setResetAsserted s.resetAsserted = s := rfl
@[simp] theorem State.setStraps_setStraps (s : State) (x y : Straps) : (s.setStraps x).setStraps y = s.setStraps y := rfl
@[simp] theorem State.setStraps_self (s : State) : s.setStraps s.straps = s := rfl
@[simp] theorem State.setCounter_setCounter (s : State) (x y : Count) : (s.setCounter x).setCounter y = s.setCounter y := rfl
@[simp] theorem State.setCounter_self (s : State) : s.setCounter s.counter = s := rfl
@[simp] theorem State.setStatus_setStatus (s : State) (x y : StatusUnit) : (s.setStatus x).setStatus y = s.setStatus y := rfl
@[simp] theorem State.setStatus_self (s : State) : s.setStatus s.status = s := rfl
@[simp] theorem State.setSup_setSup (s : State) (x y : Supervisor) : (s.setSup x).setSup y = s.setSup y := rfl
@[simp] theorem State.setSup_self (s : State) : s.setSup s.sup = s := rfl
@[simp] theorem State.setList_setList (s : State) (x y : ChangeList) : (s.setList x).setList y = s.setList y := rfl
@[simp] theorem State.setList_self (s : State) : s.setList s.list = s := rfl
@[simp] theorem State.setIntake_setIntake (s : State) (x y : Intake) : (s.setIntake x).setIntake y = s.setIntake y := rfl
@[simp] theorem State.setIntake_self (s : State) : s.setIntake s.intake = s := rfl
@[simp] theorem State.setElection_setElection (s : State) (x y : Election) : (s.setElection x).setElection y = s.setElection y := rfl
@[simp] theorem State.setElection_self (s : State) : s.setElection s.election = s := rfl
@[simp] theorem State.setPatcher_setPatcher (s : State) (x y : PortPatcher) : (s.setPatcher x).setPatcher y = s.setPatcher y := rfl
@[simp] theorem State.setPatcher_self (s : State) : s.setPatcher s.patcher = s := rfl
@[simp] theorem State.setPath_setPath (s : State) (x y : PathUnit) : (s.setPath x).setPath y = s.setPath y := rfl
@[simp] theorem State.setPath_self (s : State) : s.setPath s.path = s := rfl
@[simp] theorem State.setWires_setWires (s : State) (x y : Wires) : (s.setWires x).setWires y = s.setWires y := rfl
@[simp] theorem State.setWires_self (s : State) : s.setWires s.wires = s := rfl
@[simp] theorem State.setCard_setCard (s : State) (x y : List Access) : (s.setCard x).setCard y = s.setCard y := rfl
@[simp] theorem State.setCard_self (s : State) : s.setCard s.card = s := rfl
@[simp] theorem State.setAnswers_setAnswers (s : State) (x y : List SysAnswer) : (s.setAnswers x).setAnswers y = s.setAnswers y := rfl
@[simp] theorem State.setAnswers_self (s : State) : s.setAnswers s.answers = s := rfl
@[simp] theorem State.setPending_setPending (s : State) (x y : List Instr) : (s.setPending x).setPending y = s.setPending y := rfl
@[simp] theorem State.setPending_self (s : State) : s.setPending s.pending = s := rfl

end Sys2Proof.Machine
end

