-- ==== Sys2Proof/Laws/Ops.lean ====
section
/-! SUPPORT. What each shared operation can do, said once: raising, changes of S, sources and ports, memory accesses, the
card and the accesses that commands offer. -/

namespace Sys2Proof.Machine

/-! ## Raising and changes of S -/

theorem raise_eq (es : List Event) (s : State) : raise es s = s.raised es := rfl

@[simp] theorem raise_nil (s : State) : raise [] s = s := by simp [raise, State.setWires]

theorem raise_append (es fs : List Event) (s : State) : raise fs (raise es s) = raise (es ++ fs) s := by
  simp [raise, State.setWires]

/-- Setting S to what it is does nothing. -/
theorem changeS_same (s : State) : changeS s.sup.s s = s := by simp [changeS]

/-- A change of S: the new second, one claim on its way, and one notice to each of the two other blocks. -/
theorem changeS_ne {new : Second} {s : State} (h : new ≠ s.sup.s) :
    changeS new s =
      ((s.setSup { s.sup with s := new }).setList
        { s.list with coming := s.list.coming ++ [{ before := s.sup.s, after := new }] }).setWires
        { s.wires with
          intakeS := s.wires.intakeS ++ [{ before := s.sup.s, after := new }]
          portS := s.wires.portS ++ [{ before := s.sup.s, after := new }] } := by
  simp [changeS, h]

theorem changeS_s (new : Second) (s : State) : (changeS new s).sup.s = new := by
  by_cases h : new = s.sup.s <;> simp [changeS, h]

theorem changeS_sched (new : Second) (s : State) : (changeS new s).list.sched = s.list.sched := by
  by_cases h : new = s.sup.s <;> simp [changeS, h]

theorem changeS_listSecond (new : Second) (s : State) : (changeS new s).list.listSecond = s.list.listSecond := by
  by_cases h : new = s.sup.s <;> simp [changeS, h]

theorem changeS_path (new : Second) (s : State) : (changeS new s).path = s.path := by
  by_cases h : new = s.sup.s <;> simp [changeS, h]

theorem changeS_status (new : Second) (s : State) : (changeS new s).status = s.status := by
  by_cases h : new = s.sup.s <;> simp [changeS, h]

theorem changeS_intake (new : Second) (s : State) : (changeS new s).intake = s.intake := by
  by_cases h : new = s.sup.s <;> simp [changeS, h]

theorem changeS_resetAsserted (new : Second) (s : State) : (changeS new s).resetAsserted = s.resetAsserted := by
  by_cases h : new = s.sup.s <;> simp [changeS, h]

/-- A change of S extends the chain of waiting claims. -/
theorem claimChain_append {x y z : Second} {cs : List SChange} (h : ClaimChain x cs y) (hne : z ≠ y) :
    ClaimChain x (cs ++ [{ before := y, after := z }]) z := by
  induction cs generalizing x with
  | nil => cases h; exact ⟨rfl, hne, rfl⟩
  | cons c cs ih => exact ⟨h.1, h.2.1, ih h.2.2⟩

theorem changeS_claimChain {s : State} (new : Second)
    (h : ClaimChain s.list.listSecond (s.list.claims ++ s.list.coming) s.sup.s) :
    ClaimChain (changeS new s).list.listSecond ((changeS new s).list.claims ++ (changeS new s).list.coming)
      (changeS new s).sup.s := by
  by_cases hne : new = s.sup.s
  · simpa [changeS, hne] using h
  · simpa [changeS, hne, List.append_assoc] using claimChain_append h hne

/-! ## Claims on their way to the list -/

/-- The claims, waiting and on their way, stay the same claims in the same order. -/
theorem claimsArrive_claims (s : State) :
    (claimsArrive s).list.claims ++ (claimsArrive s).list.coming = s.list.claims ++ s.list.coming := by
  simp [claimsArrive]

/-- The requests, waiting and on their way, stay the same requests in the same order. -/
theorem claimsArrive_requests (s : State) :
    (claimsArrive s).list.requests ++ (claimsArrive s).list.sending = s.list.requests ++ s.list.sending := by
  simp [claimsArrive]

/-- With nothing on its way nothing arrives. -/
theorem claimsArrive_of_none {s : State} (h : s.list.coming = []) (k : s.list.sending = []) : claimsArrive s = s := by
  have hl : (claimsArrive s).list = s.list := by
    cases hs : s.list
    simp_all [claimsArrive]
  have : claimsArrive s = s.setList (claimsArrive s).list := rfl
  rw [this, hl, State.setList_self]

/-- The passing of cycles, as the statements write it. -/
theorem advanceCounter_eq (e : Count) (s : State) : advanceCounter e s = s.elapsed e := rfl

@[simp] theorem State.elapsed_resetAsserted (s : State) (e : Count) : (s.elapsed e).resetAsserted = s.resetAsserted := by
  unfold State.elapsed; split <;> rfl
@[simp] theorem State.elapsed_straps (s : State) (e : Count) : (s.elapsed e).straps = s.straps := by
  unfold State.elapsed; split <;> rfl
@[simp] theorem State.elapsed_status (s : State) (e : Count) : (s.elapsed e).status = s.status := by
  unfold State.elapsed; split <;> rfl
@[simp] theorem State.elapsed_sup (s : State) (e : Count) : (s.elapsed e).sup = s.sup := by
  unfold State.elapsed; split <;> rfl
@[simp] theorem State.elapsed_intake (s : State) (e : Count) : (s.elapsed e).intake = s.intake := by
  unfold State.elapsed; split <;> rfl
@[simp] theorem State.elapsed_election (s : State) (e : Count) : (s.elapsed e).election = s.election := by
  unfold State.elapsed; split <;> rfl
@[simp] theorem State.elapsed_patcher (s : State) (e : Count) : (s.elapsed e).patcher = s.patcher := by
  unfold State.elapsed; split <;> rfl
@[simp] theorem State.elapsed_path (s : State) (e : Count) : (s.elapsed e).path = s.path := by
  unfold State.elapsed; split <;> rfl
@[simp] theorem State.elapsed_wires (s : State) (e : Count) : (s.elapsed e).wires = s.wires := by
  unfold State.elapsed; split <;> rfl
@[simp] theorem State.elapsed_card (s : State) (e : Count) : (s.elapsed e).card = s.card := by
  unfold State.elapsed; split <;> rfl
@[simp] theorem State.elapsed_answers (s : State) (e : Count) : (s.elapsed e).answers = s.answers := by
  unfold State.elapsed; split <;> rfl
@[simp] theorem State.elapsed_pending (s : State) (e : Count) : (s.elapsed e).pending = s.pending := by
  unfold State.elapsed; split <;> rfl
@[simp] theorem State.elapsed_counter (s : State) (e : Count) : (s.elapsed e).counter = s.counter + e := rfl
@[simp] theorem State.elapsed_sched (s : State) (e : Count) : (s.elapsed e).list.sched = s.list.sched := by
  unfold State.elapsed; split <;> rfl
@[simp] theorem State.elapsed_listSecond (s : State) (e : Count) :
    (s.elapsed e).list.listSecond = s.list.listSecond := by
  unfold State.elapsed; split <;> rfl

/-- What the passing of cycles does: the counter counts them, and claims and requests may move from their way to the list. -/
theorem State.elapsed_spec (s : State) (e : Count) :
    (s.elapsed e).counter = s.counter + e ∧
      (s.elapsed e).list.claims ++ (s.elapsed e).list.coming = s.list.claims ++ s.list.coming ∧
      (s.elapsed e).list.requests ++ (s.elapsed e).list.sending = s.list.requests ++ s.list.sending ∧
      s.elapsed e = (s.setList { s.list with
        claims := (s.elapsed e).list.claims, coming := (s.elapsed e).list.coming
        requests := (s.elapsed e).list.requests, sending := (s.elapsed e).list.sending }).setCounter (s.counter + e) := by
  unfold State.elapsed
  split
  · exact ⟨rfl, rfl, rfl, rfl⟩
  · exact ⟨rfl, by simp, by simp, rfl⟩

/-- The oldest claim is taken, from the list or from the way to it, and the others stay in order. -/
theorem popClaim_some {l l' : ChangeList} {c : SChange} (h : popClaim l = some (c, l')) :
    l.claims ++ l.coming = c :: (l'.claims ++ l'.coming) ∧ l'.claims = l.claims.tail ∧
      l' = { l with claims := l'.claims, coming := l'.coming } := by
  unfold popClaim at h
  split at h
  · rename_i hc
    cases h
    exact ⟨by rw [hc]; rfl, by rw [hc]; rfl, rfl⟩
  · rename_i hc hw
    cases h
    exact ⟨by rw [hc, hw]; rfl, by rw [hc]; rfl, rfl⟩
  · cases h

/-- There is no claim to take exactly when none waits and none is on its way. -/
theorem popClaim_none {l : ChangeList} : popClaim l = none ↔ l.claims = [] ∧ l.coming = [] := by
  unfold popClaim; split <;> simp_all

/-! ## Sources and ports -/

@[simp] theorem mapSources_get (f : SourceNo → Source → Source) (v : Vector Source 8) (n : SourceNo) :
    (mapSources f v)[n] = f n v[n] := by simp [mapSources]

theorem updSource_get (n m : SourceNo) (f : Source → Source) (s : State) :
    (updSource n f s).intake.sources[m] = if n = m then f s.intake.sources[n] else s.intake.sources[m] := by
  by_cases h : n = m
  · subst h; simp [updSource]
  · have : (n : Nat) ≠ m := fun e => h (Fin.ext e)
    simp [updSource, h, this]

theorem updPort_get (p q : PortNo) (f : Port → Port) (s : State) :
    (updPort p f s).patcher.ports[q] = if p = q then f s.patcher.ports[p] else s.patcher.ports[q] := by
  by_cases h : p = q
  · subst h; simp [updPort]
  · have : (p : Nat) ≠ q := fun e => h (Fin.ext e)
    simp [updPort, h, this]

/-! ## Memory accesses -/

/-- The unit that has nothing outstanding issues the memory access at once. -/
theorem holdAndIssue_one {a m : Access} {j : Job} {s : State} (hq : s.path.outstanding = none)
    (ht : s.path.toIssue = []) : holdAndIssue a j [m] s = s.waitingFor a j m := by
  simp [holdAndIssue, issue, issueNext, hold, State.waitingFor, State.setPath, hq, ht]

/-- Memory answers the one access of a held access, OK. -/
theorem memoryAnswer_ok {a m : Access} {j : Job} {d : List Byte} {s : State} (hf : s.path.stale = false) :
    memoryAnswer true d (s.waitingFor a j m) =
      memoryOk { access := a, job := j } (fit m.shape.bytes d)
        (s.setPath { s.path with held := some { access := a, job := j }, outstanding := none }) := by
  simp [memoryAnswer, State.waitingFor, State.setPath, hf]

/-- Memory answers the one access of a held access, ERROR. -/
theorem memoryAnswer_error {a m : Access} {j : Job} {d : List Byte} {s : State} (hf : s.path.stale = false) :
    memoryAnswer false d (s.waitingFor a j m) =
      memoryError { access := a, job := j }
        (s.setPath { s.path with held := some { access := a, job := j }, outstanding := none }) := by
  simp [memoryAnswer, State.waitingFor, State.setPath, hf]

/-! ## The card -/

@[simp] theorem serve_nil {s : State} (h : s.card = []) : serve s = s := by simp [serve, h, serveUpTo]

theorem serveUpTo_busy {s : State} (h : pathFree s = false) (n : Nat) : serveUpTo n s = s := by
  cases n <;> simp [serveUpTo, h]

theorem serve_busy {s : State} (h : pathFree s = false) : serve s = s := serveUpTo_busy h _

/-- What holds of a state, and is kept by taking an access from the card while the unit is free, holds once the card has
been served. -/
theorem serveUpTo_keeps {P : State → Prop}
    (hk : ∀ s a rest, P s → pathFree s = true → s.card = a :: rest → P (takeAccess a (s.setCard rest)))
    (n : Nat) {s : State} (h : P s) : P (serveUpTo n s) := by
  induction n generalizing s with
  | zero => exact h
  | succ n ih =>
    unfold serveUpTo
    split
    · rename_i hf
      split
      · exact h
      · rename_i a rest hc
        exact ih (hk s a rest h hf hc)
    · exact h

theorem serve_keeps {P : State → Prop}
    (hk : ∀ s a rest, P s → pathFree s = true → s.card = a :: rest → P (takeAccess a (s.setCard rest)))
    {s : State} (h : P s) : P (serve s) := serveUpTo_keeps hk _ h

/-- An access offered to a ready part is taken at once. -/
theorem offer_ready {s : State} (a : Access) (h : Ready s) : offer a s = takeAccess a s := by
  have hs : s.setCard [] = s := by simp [State.setCard, ← h.alone]
  have hf : pathFree (s.setCard [a]) = true := by simp [pathFree, h.free, h.running]
  simp [offer, serve, h.alone, serveUpTo, hf]
  simp [State.setCard, ← h.alone]

/-- Every row that is an access offers it. -/
theorem exec_access {s : State} {c : Instr} {a : Access} (h : accessOf s c = some a) : exec c s = .next (offer a s) := by
  cases c <;> simp [accessOf] at h <;> subst h <;> rfl

/-- Every command answers a next state. -/
theorem exec_next (c : Instr) (s : State) : ∃ t, exec c s = .next t := by
  cases c <;> simp only [exec]
  all_goals first
    | exact ⟨_, rfl⟩
    | (unfold execResetRelease; split <;> exact ⟨_, rfl⟩)
    | (unfold execFreezeAndCommitClaim; split <;> exact ⟨_, rfl⟩)
    | (unfold execIntakeChangeOfS; split <;> exact ⟨_, rfl⟩)
    | (unfold execCivilCommitNotice; split <;> exact ⟨_, rfl⟩)
    | (unfold execIntakeFlush; split <;> exact ⟨_, rfl⟩)
    | (unfold execElectionTrigger; split <;> exact ⟨_, rfl⟩)
    | (unfold execElectionFlush; split <;> exact ⟨_, rfl⟩)
    | (unfold execPortChangeOfS; split <;> exact ⟨_, rfl⟩)
    | (unfold execCommitNotice; split <;> exact ⟨_, rfl⟩)
    | (unfold execEventRaise; split <;> exact ⟨_, rfl⟩)

end Sys2Proof.Machine
end

