-- ==== Sys2Proof/Laws/Frames.lean ====
section
/-! SUPPORT. What taking an access, serving the card and a memory answer leave as they were: everything but the Path Unit,
the card, the answers, queries sent to the list, events raised, and the event word and fault flags that a status read
clears. -/

namespace Sys2Proof.Machine

/-- What an access leaves as it was. -/
structure AccessFrame (s t : State) : Prop where
  resetAsserted : t.resetAsserted = s.resetAsserted
  straps : t.straps = s.straps
  counter : t.counter = s.counter
  sup : t.sup = s.sup
  election : t.election = s.election
  patcher : t.patcher = s.patcher
  pending : t.pending = s.pending
  status : ∃ w, t.status = { s.status with eventWord := w }
  list : ∃ qs, t.list = { s.list with queries := qs }
  qualifier : t.intake.qualifier = s.intake.qualifier
  civilHorizon : t.intake.civilHorizon = s.intake.civilHorizon
  sources : ∀ n : SourceNo, ∃ w, t.intake.sources[n] = { s.intake.sources[n] with flags := w }
  wires : ∃ es, t.wires = { s.wires with events := es }

theorem AccessFrame.refl (s : State) : AccessFrame s s :=
  ⟨rfl, rfl, rfl, rfl, rfl, rfl, rfl, ⟨_, rfl⟩, ⟨_, rfl⟩, rfl, rfl, fun _ => ⟨_, rfl⟩, ⟨_, rfl⟩⟩

theorem AccessFrame.trans {s t u : State} (h : AccessFrame s t) (k : AccessFrame t u) : AccessFrame s u where
  resetAsserted := k.resetAsserted.trans h.resetAsserted
  straps := k.straps.trans h.straps
  counter := k.counter.trans h.counter
  sup := k.sup.trans h.sup
  election := k.election.trans h.election
  patcher := k.patcher.trans h.patcher
  pending := k.pending.trans h.pending
  status := by
    obtain ⟨w, hw⟩ := h.status
    obtain ⟨w', hw'⟩ := k.status
    exact ⟨w', by rw [hw', hw]⟩
  list := by
    obtain ⟨w, hw⟩ := h.list
    obtain ⟨w', hw'⟩ := k.list
    exact ⟨w', by rw [hw', hw]⟩
  qualifier := k.qualifier.trans h.qualifier
  civilHorizon := k.civilHorizon.trans h.civilHorizon
  sources := fun n => by
    obtain ⟨w, hw⟩ := h.sources n
    obtain ⟨w', hw'⟩ := k.sources n
    exact ⟨w', by rw [hw', hw]⟩
  wires := by
    obtain ⟨w, hw⟩ := h.wires
    obtain ⟨w', hw'⟩ := k.wires
    exact ⟨w', by rw [hw', hw]⟩

theorem AccessFrame.part {s t : State} (h : AccessFrame s t) : t.status.part = s.status.part := by
  obtain ⟨w, hw⟩ := h.status; rw [hw]

theorem AccessFrame.config {s t : State} (h : AccessFrame s t) : t.status.config = s.status.config := by
  obtain ⟨w, hw⟩ := h.status; rw [hw]

theorem AccessFrame.sched {s t : State} (h : AccessFrame s t) : t.list.sched = s.list.sched := by
  obtain ⟨w, hw⟩ := h.list; rw [hw]

theorem AccessFrame.listSecond {s t : State} (h : AccessFrame s t) : t.list.listSecond = s.list.listSecond := by
  obtain ⟨w, hw⟩ := h.list; rw [hw]

theorem AccessFrame.claims {s t : State} (h : AccessFrame s t) : t.list.claims = s.list.claims := by
  obtain ⟨w, hw⟩ := h.list; rw [hw]

theorem AccessFrame.coming {s t : State} (h : AccessFrame s t) : t.list.coming = s.list.coming := by
  obtain ⟨w, hw⟩ := h.list; rw [hw]

theorem AccessFrame.requests {s t : State} (h : AccessFrame s t) : t.list.requests = s.list.requests := by
  obtain ⟨w, hw⟩ := h.list; rw [hw]

theorem AccessFrame.queue {s t : State} (h : AccessFrame s t) (n : SourceNo) :
    t.intake.sources[n].queue = s.intake.sources[n].queue := by
  obtain ⟨w, hw⟩ := h.sources n; rw [hw]

theorem AccessFrame.sourceState {s t : State} (h : AccessFrame s t) (n : SourceNo) :
    t.intake.sources[n].state = s.intake.sources[n].state := by
  obtain ⟨w, hw⟩ := h.sources n; rw [hw]

/-! ## The operations of the Path Unit -/

theorem setPath_frame (s : State) (x : PathUnit) : AccessFrame s (s.setPath x) :=
  ⟨rfl, rfl, rfl, rfl, rfl, rfl, rfl, ⟨_, rfl⟩, ⟨_, rfl⟩, rfl, rfl, fun _ => ⟨_, rfl⟩, ⟨_, rfl⟩⟩

theorem setAnswers_frame (s : State) (x : List SysAnswer) : AccessFrame s (s.setAnswers x) :=
  ⟨rfl, rfl, rfl, rfl, rfl, rfl, rfl, ⟨_, rfl⟩, ⟨_, rfl⟩, rfl, rfl, fun _ => ⟨_, rfl⟩, ⟨_, rfl⟩⟩

theorem setCard_frame (s : State) (x : List Access) : AccessFrame s (s.setCard x) :=
  ⟨rfl, rfl, rfl, rfl, rfl, rfl, rfl, ⟨_, rfl⟩, ⟨_, rfl⟩, rfl, rfl, fun _ => ⟨_, rfl⟩, ⟨_, rfl⟩⟩

theorem ask_frame (q : Query) (s : State) : AccessFrame s (ask q s) :=
  ⟨rfl, rfl, rfl, rfl, rfl, rfl, rfl, ⟨_, rfl⟩, ⟨_, rfl⟩, rfl, rfl, fun _ => ⟨_, rfl⟩, ⟨_, rfl⟩⟩

theorem raise_frame (es : List Event) (s : State) : AccessFrame s (raise es s) :=
  ⟨rfl, rfl, rfl, rfl, rfl, rfl, rfl, ⟨_, rfl⟩, ⟨_, rfl⟩, rfl, rfl, fun _ => ⟨_, rfl⟩, ⟨_, rfl⟩⟩

theorem hold_frame (a : Access) (j : Job) (s : State) : AccessFrame s (hold a j s) := setPath_frame s _

theorem setLatch_frame (m : Master) (l : Option Latch) (s : State) : AccessFrame s (setLatch m l s) := setPath_frame s _

theorem answer_frame (a : Access) (ok : Bool) (d : List Byte) (s : State) : AccessFrame s (answer a ok d s) :=
  (setPath_frame s _).trans (setAnswers_frame _ _)

theorem answerError_frame (a : Access) (s : State) : AccessFrame s (answerError a s) := answer_frame a false [] s

theorem issueNext_frame (s : State) : AccessFrame s (issueNext s) := by
  unfold issueNext
  split
  · exact setPath_frame s _
  · exact .refl s

theorem issue_frame (ms : List Access) (s : State) : AccessFrame s (issue ms s) :=
  (setPath_frame s _).trans (issueNext_frame _)

theorem holdAndIssue_frame (a : Access) (j : Job) (ms : List Access) (s : State) :
    AccessFrame s (holdAndIssue a j ms s) := (hold_frame a j s).trans (issue_frame ms _)

theorem refuse_frame (kind : FaultKind) (a : Access) (s : State) : AccessFrame s (refuse kind a s) := by
  unfold refuse
  dsimp only
  refine AccessFrame.trans ?_ (answerError_frame a _)
  split
  · exact ((setPath_frame s _).trans (raise_frame _ _)).trans (setLatch_frame _ _ _)
  · exact (setPath_frame s _).trans (raise_frame _ _)

theorem clearRead_frame (rel len : Nat) (s : State) : AccessFrame s (clearRead rel len s) := by
  have hs : ∀ n : SourceNo, ∃ w, (clearRead rel len s).intake.sources[n] = { s.intake.sources[n] with flags := w } := by
    intro n
    unfold clearRead
    dsimp only
    split <;> simp only [State.setIntake_intake, State.setStatus_intake, mapSources_get] <;> split <;> exact ⟨_, rfl⟩
  unfold clearRead at hs ⊢
  dsimp only at hs ⊢
  split
  · rename_i h
    rw [if_pos h] at hs
    exact ⟨rfl, rfl, rfl, rfl, rfl, rfl, rfl, ⟨_, rfl⟩, ⟨_, rfl⟩, rfl, rfl, hs, ⟨_, rfl⟩⟩
  · rename_i h
    rw [if_neg h] at hs
    exact ⟨rfl, rfl, rfl, rfl, rfl, rfl, rfl, ⟨_, rfl⟩, ⟨_, rfl⟩, rfl, rfl, hs, ⟨_, rfl⟩⟩

theorem answerStatus_frame (a : Access) (sm : StatusSample) (sched : Schedule) (s : State) :
    AccessFrame s (answerStatus a sm sched s) := (clearRead_frame _ _ s).trans (answer_frame _ _ _ _)

theorem finishTimeRead_frame (a : Access) (v : Fin 7) (r : BitVec 8) (p : RecordPart) (w : Word × Word) (s : State) :
    AccessFrame s (finishTimeRead a v r p w s) := by
  unfold finishTimeRead
  dsimp only
  refine AccessFrame.trans ?_ (answer_frame _ _ _ _)
  split
  · exact setLatch_frame _ _ _
  · exact .refl s

theorem timeViewRead_frame (a : Access) (off : Nat) (s : State) : AccessFrame s (timeViewRead a off s) := by
  unfold timeViewRead
  dsimp only
  split
  · exact (setLatch_frame _ _ _).trans (answer_frame _ _ _ _)
  · exact (setLatch_frame _ _ _).trans (holdAndIssue_frame _ _ _ _)

theorem timeViewWrite_frame (a : Access) (off : Nat) (s : State) : AccessFrame s (timeViewWrite a off s) := by
  unfold timeViewWrite
  dsimp only
  refine AccessFrame.trans (setLatch_frame a.master none s) ?_
  split
  · exact holdAndIssue_frame _ _ _ _
  · split
    · exact holdAndIssue_frame _ _ _ _
    · split
      · exact (hold_frame _ _ _).trans (ask_frame _ _)
      · exact refuse_frame _ _ _

theorem statusRead_frame (a : Access) (off : Nat) (s : State) : AccessFrame s (statusRead a off s) := by
  unfold statusRead
  split
  · exact (hold_frame _ _ _).trans (ask_frame _ _)
  · exact answerStatus_frame _ _ _ _

theorem commandWrite_frame (a : Access) (s : State) : AccessFrame s (commandWrite a s) := by
  unfold commandWrite
  dsimp only
  split
  · exact holdAndIssue_frame _ _ _ _
  · exact refuse_frame _ _ _

theorem announceRead_frame (a : Access) (off : Nat) (s : State) : AccessFrame s (announceRead a off s) := by
  unfold announceRead
  dsimp only
  split
  · exact (holdAndIssue_frame _ _ _ _).trans (ask_frame _ _)
  · exact holdAndIssue_frame _ _ _ _

theorem carryOut_frame (a : Access) (s : State) : AccessFrame s (carryOut a s) := by
  unfold carryOut
  dsimp only
  split
  · exact holdAndIssue_frame _ _ _ _
  · exact holdAndIssue_frame _ _ _ _
  · exact holdAndIssue_frame _ _ _ _
  · exact holdAndIssue_frame _ _ _ _
  · exact statusRead_frame _ _ _
  · exact commandWrite_frame _ _
  · exact announceRead_frame _ _ _
  · exact holdAndIssue_frame _ _ _ _
  · exact timeViewRead_frame _ _ _
  · exact timeViewWrite_frame _ _ _
  · exact refuse_frame _ _ _

/-- Taking an access changes the Path Unit, queries, events, and what a status read clears. -/
theorem takeAccess_frame (a : Access) (s : State) : AccessFrame s (takeAccess a s) := by
  unfold takeAccess
  split
  · split
    · exact refuse_frame _ _ _
    · exact carryOut_frame _ _
  · exact holdAndIssue_frame _ _ _ _

/-- So does serving the card. -/
theorem serve_frame (s : State) : AccessFrame s (serve s) :=
  serve_keeps (P := AccessFrame s) (fun _ _ _ hu _ _ => (hu.trans (setCard_frame _ _)).trans (takeAccess_frame _ _))
    (.refl s)

/-- So does an access offered. -/
theorem offer_frame (a : Access) (s : State) : AccessFrame s (offer a s) := (setCard_frame s _).trans (serve_frame _)

theorem announceProgress_frame (s : State) : AccessFrame s (announceProgress s) := by
  unfold announceProgress
  split
  · split
    · exact .refl s
    · exact answer_frame _ _ _ _
  · exact .refl s

theorem timeReadAnswered_frame (a : Access) (v : Fin 7) (r : BitVec 8) (p : RecordPart) (d : List Byte) (s : State) :
    AccessFrame s (timeReadAnswered a v r p d s) := by
  unfold timeReadAnswered
  dsimp only
  split
  · exact finishTimeRead_frame _ _ _ _ _ _
  · split
    · exact (hold_frame _ _ _).trans (ask_frame _ _)
    · exact finishTimeRead_frame _ _ _ _ _ _

theorem flushProgress_frame (l i : Bool) (s : State) : AccessFrame s (flushProgress l i s) := by
  unfold flushProgress
  split
  · split
    · exact answer_frame _ _ _ _
    · exact hold_frame _ _ _
  · exact .refl s

theorem converterLookup_frame (sched : Schedule) (s : State) : AccessFrame s (converterLookup sched s) := by
  unfold converterLookup
  split
  · exact finishTimeRead_frame _ _ _ _ _ _
  · split
    · exact holdAndIssue_frame _ _ _ _
    · exact refuse_frame _ _ _
  · exact .refl s

theorem statusSnapshot_frame (sched : Schedule) (s : State) : AccessFrame s (statusSnapshot sched s) := by
  unfold statusSnapshot
  split
  · exact answerStatus_frame _ _ _ _
  · exact .refl s

theorem patcherSnapshot_frame (sched : Schedule) (s : State) : AccessFrame s (patcherSnapshot sched s) := by
  unfold patcherSnapshot
  split
  · exact (hold_frame _ _ _).trans (announceProgress_frame _)
  · exact .refl s

/-! ## Memory's answer -/

/-- Memory's OK that makes no hand-off and takes no command. -/
theorem memoryOk_frame {h : Held} (d : List Byte) (s : State) (ho : ∀ o, h.job ≠ .store o) (hc : ∀ w, h.job ≠ .command w) :
    AccessFrame s (memoryOk h d s) := by
  unfold memoryOk
  split
  · exact answer_frame _ _ _ _
  · rename_i o hj; exact absurd hj (ho o)
  · exact timeReadAnswered_frame _ _ _ _ _ _
  · exact ((hold_frame _ _ _).trans (issueNext_frame _)).trans (announceProgress_frame _)
  · rename_i w hj; exact absurd hj (hc w)
  all_goals exact .refl s

end Sys2Proof.Machine
end

