-- ==== Sys2Proof/Laws/Inner.lean ====
section
/-! SUPPORT. What the Intake Unit, the Election Unit and the Port Patcher leave as it was: everything but their own state,
requests and queries sent to the list, and what is on its way between blocks. -/

namespace Sys2Proof.Machine

/-- What the Intake Unit, the Election Unit and the Port Patcher leave as it was. -/
structure InnerFrame (s t : State) : Prop where
  resetAsserted : t.resetAsserted = s.resetAsserted
  straps : t.straps = s.straps
  counter : t.counter = s.counter
  status : t.status = s.status
  sup : t.sup = s.sup
  path : t.path = s.path
  card : t.card = s.card
  answers : t.answers = s.answers
  pending : t.pending = s.pending
  sched : t.list.sched = s.list.sched
  listSecond : t.list.listSecond = s.list.listSecond
  claims : t.list.claims = s.list.claims
  coming : t.list.coming = s.list.coming

theorem InnerFrame.refl (s : State) : InnerFrame s s := ⟨rfl, rfl, rfl, rfl, rfl, rfl, rfl, rfl, rfl, rfl, rfl, rfl, rfl⟩

theorem InnerFrame.trans {s t u : State} (h : InnerFrame s t) (k : InnerFrame t u) : InnerFrame s u :=
  ⟨k.resetAsserted.trans h.resetAsserted, k.straps.trans h.straps, k.counter.trans h.counter, k.status.trans h.status,
    k.sup.trans h.sup, k.path.trans h.path, k.card.trans h.card, k.answers.trans h.answers, k.pending.trans h.pending,
    k.sched.trans h.sched, k.listSecond.trans h.listSecond, k.claims.trans h.claims,
    k.coming.trans h.coming⟩

/-! ## Shared operations -/

theorem raise_inner (es : List Event) (s : State) : InnerFrame s (raise es s) :=
  ⟨rfl, rfl, rfl, rfl, rfl, rfl, rfl, rfl, rfl, rfl, rfl, rfl, rfl⟩
theorem ask_inner (q : Query) (s : State) : InnerFrame s (ask q s) :=
  ⟨rfl, rfl, rfl, rfl, rfl, rfl, rfl, rfl, rfl, rfl, rfl, rfl, rfl⟩
theorem request_inner (r : Request) (who : Asker) (s : State) : InnerFrame s (request r who s) :=
  ⟨rfl, rfl, rfl, rfl, rfl, rfl, rfl, rfl, rfl, rfl, rfl, rfl, rfl⟩
theorem abandonClaims_inner (who : Asker) (s : State) : InnerFrame s (abandonClaims who s) :=
  ⟨rfl, rfl, rfl, rfl, rfl, rfl, rfl, rfl, rfl, rfl, rfl, rfl, rfl⟩
theorem setIntake_inner (s : State) (x : Intake) : InnerFrame s (s.setIntake x) :=
  ⟨rfl, rfl, rfl, rfl, rfl, rfl, rfl, rfl, rfl, rfl, rfl, rfl, rfl⟩
theorem setElection_inner (s : State) (x : Election) : InnerFrame s (s.setElection x) :=
  ⟨rfl, rfl, rfl, rfl, rfl, rfl, rfl, rfl, rfl, rfl, rfl, rfl, rfl⟩
theorem setPatcher_inner (s : State) (x : PortPatcher) : InnerFrame s (s.setPatcher x) :=
  ⟨rfl, rfl, rfl, rfl, rfl, rfl, rfl, rfl, rfl, rfl, rfl, rfl, rfl⟩
theorem setWires_inner (s : State) (x : Wires) : InnerFrame s (s.setWires x) :=
  ⟨rfl, rfl, rfl, rfl, rfl, rfl, rfl, rfl, rfl, rfl, rfl, rfl, rfl⟩
theorem popQuery_inner (s : State) : InnerFrame s (popQuery s) :=
  ⟨rfl, rfl, rfl, rfl, rfl, rfl, rfl, rfl, rfl, rfl, rfl, rfl, rfl⟩
theorem claimFlush_inner (s : State) : InnerFrame s (claimFlush s) :=
  ⟨rfl, rfl, rfl, rfl, rfl, rfl, rfl, rfl, rfl, rfl, rfl, rfl, rfl⟩
theorem popRequest_inner (s : State) : InnerFrame s (popRequest s) := by
  unfold popRequest
  split <;> exact ⟨rfl, rfl, rfl, rfl, rfl, rfl, rfl, rfl, rfl, rfl, rfl, rfl, rfl⟩
theorem updSource_inner (n : SourceNo) (f : Source → Source) (s : State) : InnerFrame s (updSource n f s) :=
  setIntake_inner s _
theorem updPort_inner (p : PortNo) (f : Port → Port) (s : State) : InnerFrame s (updPort p f s) := setPatcher_inner s _
theorem dispose_inner (n : SourceNo) (o : DispositionOutcome) (q : BitVec 16) (a : Option ListAnswer) (s : State) :
    InnerFrame s (dispose n o q a s) := updSource_inner n _ s
theorem sourceFault_inner (n : SourceNo) (f : SourceFlag) (s : State) : InnerFrame s (sourceFault n f s) :=
  (updSource_inner n _ s).trans (raise_inner _ _)
theorem freeQualifier_inner (s : State) : InnerFrame s (freeQualifier s) := setIntake_inner s _

/-! ## The Intake Unit -/

theorem stageWrite_inner (n : SourceNo) (j : Nat) (b : Byte) (s : State) : InnerFrame s (stageWrite n j b s) := by
  unfold stageWrite; split
  · exact .refl s
  · exact updSource_inner _ _ _

theorem joinQueue_inner (n : SourceNo) (r : Record) (s : State) : InnerFrame s (joinQueue n r s) := by
  unfold joinQueue; split
  · exact updSource_inner _ _ _
  · exact (updSource_inner _ _ _).trans (sourceFault_inner _ _ _)

theorem foldl_inner {α : Type} {f : State → α → State} (hf : ∀ s a, InnerFrame s (f s a)) (l : List α) (s : State) :
    InnerFrame s (l.foldl f s) := by
  induction l generalizing s with
  | nil => exact .refl s
  | cons a l ih => exact (hf s a).trans (ih _)

theorem hear_inner (n : SourceNo) (a : Second) (s : State) : InnerFrame s (hear n a s) := by
  unfold hear
  dsimp only
  split
  · exact (updSource_inner _ _ _).trans (setWires_inner _ _)
  · exact updSource_inner _ _ _

theorem count_inner (n : SourceNo) (c : Content) (d : Bool) (a : Second) (s : State) : InnerFrame s (count n c d a s) :=
  updSource_inner _ _ _

theorem countLeap_inner (n : SourceNo) (q : BitVec 16) (a : Second) (c : LeapContent) (d : Bool) (s : State) :
    InnerFrame s (countLeap n q a c d s) := by
  unfold countLeap
  dsimp only
  split
  · split
    · exact ((count_inner _ _ _ _ _).trans (updSource_inner _ _ _)).trans (dispose_inner _ _ _ _ _)
    · exact (((count_inner _ _ _ _ _).trans (updSource_inner _ _ _)).trans (dispose_inner _ _ _ _ _)).trans
        (setWires_inner _ _)
  · exact (count_inner _ _ _ _ _).trans (dispose_inner _ _ _ _ _)

theorem zoneSteps_inner (n : SourceNo) (q : BitVec 16) (a : Second) (c : Content) (s : State) :
    InnerFrame s (zoneSteps n q a c s) := by
  unfold zoneSteps
  dsimp only
  split
  · exact (dispose_inner _ _ _ _ _).trans (freeQualifier_inner _)
  · refine (count_inner n c false a s).trans ?_
    split
    · split
      · exact ((updSource_inner _ _ _).trans (setIntake_inner _ _)).trans (request_inner _ _ _)
      · exact (updSource_inner _ _ _).trans (freeQualifier_inner _)
    · exact (dispose_inner _ _ _ _ _).trans (freeQualifier_inner _)

theorem handleRecord_inner (n : SourceNo) (r : Record) (s : State) : InnerFrame s (handleRecord n r s) := by
  unfold handleRecord
  dsimp only
  split
  · exact (sourceFault_inner _ _ _).trans (dispose_inner _ _ _ _ _)
  · exact ((hear_inner _ _ _).trans (updSource_inner _ _ _)).trans (dispose_inner _ _ _ _ _)
  · exact ((hear_inner _ _ _).trans (setIntake_inner _ _)).trans (ask_inner _ _)
  · exact (hear_inner _ _ _).trans (zoneSteps_inner _ _ _ _ _)

theorem takeRecord_inner (s : State) : InnerFrame s (takeRecord s) := by
  unfold takeRecord
  split
  · split
    · exact .refl s
    · split
      · exact .refl s
      · exact (updSource_inner _ _ _).trans (handleRecord_inner _ _ _)
  · exact .refl s

theorem takeRecords_inner (k : Nat) (s : State) : InnerFrame s (takeRecords k s) := by
  induction k generalizing s with
  | zero => exact .refl s
  | succ k ih => exact (takeRecord_inner s).trans (ih _)

theorem qualifierTake_inner (s : State) : InnerFrame s (qualifierTake s) := takeRecords_inner _ s

theorem closeRecord_inner (n : SourceNo) (e : BitVec 16) (s : State) : InnerFrame s (closeRecord n e s) := by
  unfold closeRecord
  dsimp only
  split
  · exact .refl s
  · split
    · exact (sourceFault_inner _ _ _).trans (dispose_inner _ _ _ _ _)
    · split
      · exact (sourceFault_inner _ _ _).trans (dispose_inner _ _ _ _ _)
      · split
        · exact .refl s
        · exact ((updSource_inner _ _ _).trans (joinQueue_inner _ _ _)).trans (qualifierTake_inner _)

theorem intakeWord_inner (n : SourceNo) (w j : Nat) (d : List Byte) (s : State) : InnerFrame s (intakeWord n w j d s) := by
  unfold intakeWord; split
  · split
    · exact closeRecord_inner _ _ _
    · exact .refl s
  · exact foldl_inner (fun _ _ => stageWrite_inner _ _ _ _) _ s

/-- A handed-over intake write touches the Intake Unit and events alone. -/
theorem intakeWords_inner (k off : Nat) (d : List Byte) (s : State) : InnerFrame s (intakeWords k off d s) := by
  induction k generalizing off d s with
  | zero => exact .refl s
  | succ k ih => exact (intakeWord_inner _ _ _ _ _).trans (ih _ _ _)

theorem refuseRecord_inner (n : SourceNo) (q : BitVec 16) (f : SourceFlag) (s : State) :
    InnerFrame s (refuseRecord n q f s) := (sourceFault_inner _ _ _).trans (dispose_inner _ _ _ _ _)

theorem leapCountSteps_inner (n : SourceNo) (q : BitVec 16) (a : Second) (c : LeapContent) (d : Bool) (s : State) :
    InnerFrame s (leapCountSteps n q a c d s) := by
  unfold leapCountSteps; split
  · exact dispose_inner _ _ _ _ _
  · exact countLeap_inner _ _ _ _ _ _

theorem changeSteps_inner (n : SourceNo) (q : BitVec 16) (a : Second) (d : Int) (k : LeapKind) (g h : Option Second)
    (s : State) : InnerFrame s (changeSteps n q a d k g h s) := by
  unfold changeSteps
  dsimp only
  repeat' split
  all_goals first
    | exact refuseRecord_inner _ _ _ _
    | exact leapCountSteps_inner _ _ _ _ _ _

theorem leapSteps_inner (sched : Schedule) (n : SourceNo) (q : BitVec 16) (a : Second) (d : Int)
    (c : Option (LeapKind × Option Second)) (s : State) : InnerFrame s (leapSteps sched n q a d c s) := by
  unfold leapSteps
  split
  · exact refuseRecord_inner _ _ _ _
  · split
    · exact leapCountSteps_inner _ _ _ _ _ _
    · exact changeSteps_inner _ _ _ _ _ _ _ _

theorem qualifierLookup_inner (sched : Schedule) (s : State) : InnerFrame s (qualifierLookup sched s) := by
  unfold qualifierLookup
  split
  · exact ((freeQualifier_inner s).trans (leapSteps_inner _ _ _ _ _ _ _)).trans (qualifierTake_inner _)
  · exact .refl s

theorem recordAnswer_inner (n : SourceNo) (q : BitVec 16) (a : ListAnswer) (s : State) :
    InnerFrame s (recordAnswer n q a s) := by
  unfold recordAnswer
  split
  · exact dispose_inner _ _ _ _ _
  · exact (dispose_inner _ _ _ _ _).trans (raise_inner _ _)

theorem qualifierAnswer_inner (a : ListAnswer) (s : State) : InnerFrame s (qualifierAnswer a s) := by
  unfold qualifierAnswer
  split
  · exact ((freeQualifier_inner s).trans (recordAnswer_inner _ _ _ _)).trans (qualifierTake_inner _)
  · exact .refl s

theorem intakeChange_inner (c : SChange) (s : State) : InnerFrame s (intakeChange c s) := by
  unfold intakeChange
  dsimp only
  repeat' split
  all_goals first
    | exact setIntake_inner _ _
    | exact ((setIntake_inner _ _).trans (setWires_inner _ _)).trans (raise_inner _ _)

theorem civilCommit_inner (c : CivilCommit) (s : State) : InnerFrame s (civilCommit c s) :=
  (setIntake_inner s _).trans (setWires_inner _ _)

theorem flushIntake_inner (s : State) : InnerFrame s (flushIntake s) :=
  ((abandonClaims_inner _ s).trans (setIntake_inner _ _)).trans (setWires_inner _ _)

/-! ## The Election Unit -/

theorem updateIndication_inner (s : State) : InnerFrame s (updateIndication s) := by
  unfold updateIndication
  dsimp only
  split
  · exact (setElection_inner _ _).trans (raise_inner _ _)
  · exact setElection_inner _ _

theorem startRun_inner (s : State) : InnerFrame s (startRun s) := by
  unfold startRun
  dsimp only
  refine (updateIndication_inner s).trans ?_
  split
  · exact setElection_inner _ _
  · split
    · exact .refl _
    · exact (setElection_inner _ _).trans (ask_inner _ _)

theorem endRun_inner (s : State) : InnerFrame s (endRun s) := by
  unfold endRun
  dsimp only
  split
  · exact (setElection_inner _ _).trans (startRun_inner _)
  · exact setElection_inner _ _

theorem takeTrigger_inner (s : State) : InnerFrame s (takeTrigger s) := by
  unfold takeTrigger; split
  · exact startRun_inner s
  · exact setElection_inner _ _

theorem flushElection_inner (s : State) : InnerFrame s (flushElection s) :=
  ((abandonClaims_inner _ s).trans (setElection_inner _ _)).trans (startRun_inner _)

theorem electionSnapshot_inner (sched : Schedule) (s : State) : InnerFrame s (electionSnapshot sched s) := by
  unfold electionSnapshot
  split
  · dsimp only
    split
    · exact (setElection_inner _ _).trans (endRun_inner _)
    · exact ((setElection_inner _ _).trans (raise_inner _ _)).trans (endRun_inner _)
    · exact ((setElection_inner _ _).trans (setElection_inner _ _)).trans (request_inner _ _ _)
  · exact .refl s

theorem electionAnswer_inner (a : ListAnswer) (s : State) : InnerFrame s (electionAnswer a s) := by
  unfold electionAnswer
  split
  · split
    · exact (raise_inner _ _).trans (endRun_inner _)
    · exact endRun_inner _
  · exact .refl s

/-- The answer to a request, at its requester. -/
theorem deliverAnswer_inner (who : Asker) (a : ListAnswer) (s : State) : InnerFrame s (deliverAnswer who a s) := by
  unfold deliverAnswer
  split
  · exact qualifierAnswer_inner _ _
  · exact electionAnswer_inner _ _
  · exact .refl s

/-! ## The Port Patcher -/

theorem transferPort_inner (p : PortNo) (s : State) : InnerFrame s (transferPort p s) :=
  (updPort_inner _ _ _).trans (raise_inner _ _)

theorem transferPorts_inner (ps : List PortNo) (s : State) : InnerFrame s (transferPorts ps s) :=
  foldl_inner (fun _ _ => transferPort_inner _ _) ps s

theorem takePortTransfer_inner (p : PortNo) (t : Option TransferTrigger) (s : State) :
    InnerFrame s (takePortTransfer p t s) := by
  unfold takePortTransfer; split
  · exact transferPort_inner _ _
  · exact updPort_inner _ _ _

theorem takeChangeOfS_inner (c : SChange) (s : State) : InnerFrame s (takeChangeOfS c s) := by
  unfold takeChangeOfS
  dsimp only
  split
  · exact transferPorts_inner _ _
  · exact ((transferPorts_inner _ _).trans (setPatcher_inner _ _)).trans (ask_inner _ _)

theorem arriveChangeOfS_inner (c : SChange) (s : State) : InnerFrame s (arriveChangeOfS c s) := by
  unfold arriveChangeOfS; split
  · exact setPatcher_inner _ _
  · exact takeChangeOfS_inner _ _

theorem drainChanges_inner (cs : List SChange) (s : State) : InnerFrame s (drainChanges cs s) := by
  induction cs generalizing s with
  | nil => exact setPatcher_inner s _
  | cons c cs ih =>
    unfold drainChanges
    dsimp only
    split
    · exact (setPatcher_inner _ _).trans (takeChangeOfS_inner _ _)
    · exact ((setPatcher_inner _ _).trans (takeChangeOfS_inner _ _)).trans (ih _)

theorem quietSnapshot_inner (sched : Schedule) (s : State) : InnerFrame s (quietSnapshot sched s) := by
  unfold quietSnapshot
  split
  · exact .refl s
  · dsimp only
    exact ((setPatcher_inner s _).trans (transferPorts_inner _ _)).trans (drainChanges_inner _ _)

end Sys2Proof.Machine
end

