-- ==== Sys2Proof/Laws/Offsets.lean ====
section
/-! SUPPORT. The laws of the offsets: chains of one scale, recomputing prior offsets, and what a claim, a request, a discard,
FLUSH and ACTIVATE do to them. -/

namespace Sys2Proof.Machine

/-! ## Chains -/

/-- The offset after a run of entries that starts from `r`. -/
def endOffset (r : Int) (l : List Entry) : Int := ((l.getLast?).map (·.new)).getD r

@[simp] theorem endOffset_nil (r : Int) : endOffset r [] = r := rfl

@[simp] theorem endOffset_cons (r : Int) (e : Entry) (l : List Entry) : endOffset r (e :: l) = endOffset e.new l := by
  rcases List.eq_nil_or_concat l with rfl | ⟨l', z, rfl⟩
  · rfl
  · simp [endOffset, List.getLast?_cons]

theorem offsetChain_append {r : Int} {P Q : List Entry} :
    OffsetChain r (P ++ Q) ↔ OffsetChain r P ∧ OffsetChain (endOffset r P) Q := by
  induction P generalizing r with
  | nil => simp [OffsetChain]
  | cons e P ih => simp [OffsetChain, ih, and_assoc]

/-- The entries of one scale, in list order. -/
def ofScale (sc : Scale) (es : List Entry) : List Entry := es.filter fun e => e.scale == sc

theorem mem_ofScale {sc : Scale} {es : List Entry} {e : Entry} : e ∈ ofScale sc es ↔ e ∈ es ∧ e.scale = sc := by
  simp [ofScale]

@[simp] theorem ofScale_append (sc : Scale) (es fs : List Entry) :
    ofScale sc (es ++ fs) = ofScale sc es ++ ofScale sc fs := by simp [ofScale]

theorem ofScale_cons_same {sc : Scale} {e : Entry} (h : e.scale = sc) (es : List Entry) :
    ofScale sc (e :: es) = e :: ofScale sc es := by simp [ofScale, h]

theorem ofScale_cons_other {sc : Scale} {e : Entry} (h : e.scale ≠ sc) (es : List Entry) :
    ofScale sc (e :: es) = ofScale sc es := by simp [ofScale, h]

/-! ## Recomputing prior offsets -/

theorem kind_apply_idem (k : Kind) (r x : Int) : k.apply r (k.apply r x) = k.apply r x := by
  rcases k with ⟨_ | _⟩ | _ <;> rfl

theorem reprior_other {sc : Scale} {r : Int} {e : Entry} (h : e.scale ≠ sc) (es : List Entry) :
    reprior sc r (e :: es) = e :: reprior sc r es := by simp [reprior, h]

theorem reprior_applied {sc : Scale} {r : Int} {e : Entry} (h : e.scale = sc) (ha : e.isApplied = true)
    (es : List Entry) : reprior sc r (e :: es) = e :: reprior sc e.new es := by simp [reprior, h, ha]

theorem reprior_pending {sc : Scale} {r : Int} {e : Entry} (h : e.scale = sc) (ha : e.isApplied = false)
    (es : List Entry) : reprior sc r (e :: es) =
      { e with prior := r, new := e.kind.apply r e.new } :: reprior sc (e.kind.apply r e.new) es := by
  simp [reprior, h, ha]

theorem ofScale_reprior_same (sc : Scale) (r : Int) (es : List Entry) :
    ofScale sc (reprior sc r es) = reprior sc r (ofScale sc es) := by
  induction es generalizing r with
  | nil => rfl
  | cons e es ih =>
    by_cases hs : e.scale = sc
    · rw [ofScale_cons_same hs]
      cases ha : e.isApplied
      · rw [reprior_pending hs ha, reprior_pending hs ha, ofScale_cons_same (by exact hs), ih]
      · rw [reprior_applied hs ha, reprior_applied hs ha, ofScale_cons_same hs, ih]
    · rw [ofScale_cons_other hs, reprior_other hs, ofScale_cons_other hs, ih]

theorem ofScale_reprior_other {sc sc' : Scale} (h : sc ≠ sc') (r : Int) (es : List Entry) :
    ofScale sc' (reprior sc r es) = ofScale sc' es := by
  induction es generalizing r with
  | nil => rfl
  | cons e es ih =>
    by_cases hs : e.scale = sc
    · have hn : e.scale ≠ sc' := hs ▸ h
      cases ha : e.isApplied
      · rw [reprior_pending hs ha, ofScale_cons_other (by exact hn), ih, ofScale_cons_other hn]
      · rw [reprior_applied hs ha, ofScale_cons_other hn, ih, ofScale_cons_other hn]
    · rw [reprior_other hs]
      by_cases hs' : e.scale = sc'
      · rw [ofScale_cons_same hs', ofScale_cons_same hs', ih]
      · rw [ofScale_cons_other hs', ofScale_cons_other hs', ih]

/-- A chained run of one scale keeps its offsets. -/
theorem reprior_chained {sc : Scale} {r : Int} {P : List Entry} (Q : List Entry) (hc : OffsetChain r P)
    (hs : ∀ e ∈ P, e.scale = sc) : reprior sc r (P ++ Q) = P ++ reprior sc (endOffset r P) Q := by
  induction P generalizing r with
  | nil => rfl
  | cons e P ih =>
    obtain ⟨h1, h2, h3⟩ := hc
    have he := hs e List.mem_cons_self
    have ih' := ih h3 fun f hf => hs f (List.mem_cons_of_mem _ hf)
    rw [List.cons_append, endOffset_cons, List.cons_append]
    cases ha : e.isApplied
    · rw [reprior_pending he ha, ← h2, ih', ← h1]
    · rw [reprior_applied he ha, ih']

/-- A chained run keeps its offsets. -/
theorem reprior_self {sc : Scale} {r : Int} {P : List Entry} (hc : OffsetChain r P) (hs : ∀ e ∈ P, e.scale = sc) :
    reprior sc r P = P := by
  have := reprior_chained [] hc hs
  simpa [reprior] using this

/-- Pending zone entries behind a new offset: the first takes it as its prior offset, the others stay. -/
theorem reprior_zone_tail {sc : Scale} {r r' : Int} {U : List Entry} (hc : OffsetChain r' U)
    (hs : ∀ e ∈ U, e.scale = sc ∧ e.pending = true ∧ e.kind = .zoneShift) :
    reprior sc r U = match U with
      | [] => []
      | e :: es => { e with prior := r } :: es := by
  cases U with
  | nil => rfl
  | cons e es =>
    obtain ⟨h1, h2, h3⟩ := hs e List.mem_cons_self
    rw [pending_eq_not_isApplied] at h2
    simp at h2
    rw [reprior_pending h1 h2, h3]
    simp only [Kind.apply]
    rw [reprior_self hc.2.2 fun f hf => (hs f (List.mem_cons_of_mem _ hf)).1]
    simp only [h3]

/-! ## The laws of one scale -/

/-- The laws of the entries of one scale that start from base offset `r`. -/
structure ScaleLaws (r : Int) (sc : Scale) (l : List Entry) : Prop where
  scale : ∀ e ∈ l, e.scale = sc
  chain : OffsetChain r l
  fits : ∀ e ∈ l, e.kindFits
  range : ∀ e ∈ l, OffsetInRange sc e.new
  shift : ∀ e ∈ l, ShiftLaw e
  spaced : sc ≠ .civil → l.Pairwise fun e f => (e.boundary.toNat : Int) + Config.zoneSpacing ≤ f.boundary.toNat

theorem zoneSpacing_iff {es : List Entry} : ZoneSpacing es ↔ ∀ sc, sc ≠ .civil →
    (ofScale sc es).Pairwise fun e f => (e.boundary.toNat : Int) + Config.zoneSpacing ≤ f.boundary.toNat := by
  constructor
  · intro h sc hsc
    have h' : (ofScale sc es).Pairwise _ := List.Pairwise.filter _ h
    refine List.Pairwise.imp_of_mem (fun {e f} he hf hp => ?_) h'
    rw [mem_ofScale] at he hf
    exact hp (he.2.trans hf.2.symm) (he.2 ▸ hsc)
  · intro h
    induction es with
    | nil => exact .nil
    | cons e es ih =>
      refine List.pairwise_cons.mpr ⟨fun f hf hs hn => ?_, ih fun sc hsc => ?_⟩
      · have := h e.scale hn
        rw [ofScale_cons_same rfl, List.pairwise_cons] at this
        exact this.1 f (mem_ofScale.mpr ⟨hf, hs.symm⟩)
      · have := h sc hsc
        by_cases hs : e.scale = sc
        · rw [ofScale_cons_same hs, List.pairwise_cons] at this
          exact this.2
        · rwa [ofScale_cons_other hs] at this

/-- The laws of the offsets are the laws of each scale. -/
theorem offsetLaws_iff {sched : Schedule} : OffsetLaws sched ↔ ∀ sc,
    OffsetInRange sc (sched.base.offset sc) ∧ ScaleLaws (sched.base.offset sc) sc (ofScale sc sched.entries) := by
  constructor
  · intro h sc
    have hm : ∀ e ∈ ofScale sc sched.entries, e ∈ sched.entries ∧ e.scale = sc := fun e he => mem_ofScale.mp he
    exact ⟨h.baseRange sc, fun e he => (hm e he).2, h.chains sc, fun e he => h.kinds e (hm e he).1,
      fun e he => by have := h.ranges e (hm e he).1; rwa [(hm e he).2] at this,
      fun e he => h.shifts e (hm e he).1, zoneSpacing_iff.mp h.spacing sc⟩
  · intro h
    have hm : ∀ e ∈ sched.entries, e ∈ ofScale e.scale sched.entries := fun e he => mem_ofScale.mpr ⟨he, rfl⟩
    exact ⟨fun e he => (h e.scale).2.fits e (hm e he), fun sc => (h sc).2.chain, fun sc => (h sc).1,
      fun e he => (h e.scale).2.range e (hm e he), fun e he => (h e.scale).2.shift e (hm e he),
      zoneSpacing_iff.mpr fun sc => (h sc).2.spaced⟩

/-- A first part keeps the laws. -/
theorem ScaleLaws.left {r : Int} {sc : Scale} {P Q : List Entry} (h : ScaleLaws r sc (P ++ Q)) : ScaleLaws r sc P where
  scale := fun e he => h.scale e (List.mem_append_left _ he)
  chain := (offsetChain_append.mp h.chain).1
  fits := fun e he => h.fits e (List.mem_append_left _ he)
  range := fun e he => h.range e (List.mem_append_left _ he)
  shift := fun e he => h.shift e (List.mem_append_left _ he)
  spaced := fun hsc => (List.pairwise_append.mp (h.spaced hsc)).1

/-- Without its first entry, from that entry's new offset on (R25). -/
theorem ScaleLaws.tail {r : Int} {sc : Scale} {e : Entry} {l : List Entry} (h : ScaleLaws r sc (e :: l)) :
    ScaleLaws e.new sc l where
  scale := fun f hf => h.scale f (List.mem_cons_of_mem _ hf)
  chain := h.chain.2.2
  fits := fun f hf => h.fits f (List.mem_cons_of_mem _ hf)
  range := fun f hf => h.range f (List.mem_cons_of_mem _ hf)
  shift := fun f hf => h.shift f (List.mem_cons_of_mem _ hf)
  spaced := fun hsc => (List.pairwise_cons.mp (h.spaced hsc)).2

theorem OffsetInRange.endOffset {r : Int} {sc : Scale} {l : List Entry} (h : OffsetInRange sc r)
    (hl : ScaleLaws r sc l) : OffsetInRange sc (endOffset r l) := by
  rcases List.eq_nil_or_concat l with rfl | ⟨l', z, rfl⟩
  · exact h
  · have := hl.range z (by simp)
    simpa [Machine.endOffset] using this

theorem kindFits_zone {e : Entry} {k : ZoneNo} (hs : e.scale = .zone k) (h : e.kindFits) : e.kind = .zoneShift := by
  unfold Entry.kindFits at h
  rw [hs] at h
  simp at h
  exact h

theorem kindFits_civil {e : Entry} (hs : e.scale = .civil) (h : e.kindFits) : ∃ k, e.kind = .leap k := by
  unfold Entry.kindFits at h
  rw [hs] at h
  simp at h
  cases hk : e.kind with
  | leap k => exact ⟨k, rfl⟩
  | zoneShift => exact absurd hk h

/-- A leap put behind the entries of the civil scale (R19, R22, R24). -/
theorem ScaleLaws.putLeap {r : Int} {L : List Entry} (h : ScaleLaws r .civil L) {e : Entry} {k : LeapKind}
    (hs : e.scale = .civil) (hk : e.kind = .leap k) (hp : e.pending = true)
    (hr : civilOffsetBad k (endOffset r L) = false) (hb : OffsetInRange .civil (endOffset r L)) :
    ScaleLaws r .civil (reprior .civil r (L ++ [e])) := by
  rw [reprior_chained [e] h.chain h.scale]
  rw [pending_eq_not_isApplied] at hp
  simp at hp
  have hrep : reprior .civil (endOffset r L) [e] =
      [{ e with prior := endOffset r L, new := e.kind.apply (endOffset r L) e.new }] := by
    simp [reprior, hs, hp]
  rw [hrep]
  generalize hz : ({ e with prior := endOffset r L, new := e.kind.apply (endOffset r L) e.new } : Entry) = z
  have hzs : z.scale = .civil := by rw [← hz]; exact hs
  have hzk : z.kind = .leap k := by rw [← hz]; exact hk
  have hzp : z.prior = endOffset r L := by rw [← hz]
  have hzn : z.new = z.kind.apply (endOffset r L) z.new := by rw [← hz]; exact (kind_apply_idem _ _ _).symm
  have mem : ∀ f ∈ L ++ [z], f ∈ L ∨ f = z := fun f hf => by simpa using hf
  refine ⟨fun f hf => ?_, offsetChain_append.mpr ⟨h.chain, hzp, hzn, trivial⟩, fun f hf => ?_, fun f hf => ?_,
    fun f hf => ?_, fun hn => absurd rfl hn⟩
  · rcases mem f hf with hf | rfl
    · exact h.scale f hf
    · exact hzs
  · rcases mem f hf with hf | rfl
    · exact h.fits f hf
    · unfold Entry.kindFits; rw [hzs, hzk]; simp
  · rcases mem f hf with hf | rfl
    · exact h.range f hf
    · rw [hzn, hzk]
      unfold OffsetInRange at hb ⊢
      cases k <;> simp [Kind.apply, civilOffsetBad] at hr ⊢ <;> omega
  · rcases mem f hf with hf | rfl
    · exact h.shift f hf
    · exact fun hn => absurd hzs hn

/-- The first of the entries behind a place, which takes a new prior offset, still moves, and by no more than the limit. -/
def NextFits (z : Int) (U : List Entry) : Prop :=
  ∀ e, U.head? = some e → e.new ≠ z ∧ |e.new - z| ≤ Config.shiftLimit

/-- The entries of a zone with those behind a place recomputed from offset `z` on (R24). -/
theorem ScaleLaws.zoneTail {k : ZoneNo} {r r' : Int} {U : List Entry} (h : ScaleLaws r' (.zone k) U)
    (hp : ∀ e ∈ U, e.pending = true) (hn : NextFits r U) : ScaleLaws r (.zone k) (reprior (.zone k) r U) := by
  rw [reprior_zone_tail h.chain fun e he => ⟨h.scale e he, hp e he, kindFits_zone (h.scale e he) (h.fits e he)⟩]
  cases U with
  | nil => exact ⟨by simp, trivial, by simp, by simp, by simp, fun _ => .nil⟩
  | cons e es =>
    have he := kindFits_zone (h.scale e List.mem_cons_self) (h.fits e List.mem_cons_self)
    have ht := h.tail
    refine ⟨?_, ⟨rfl, ?_, ht.chain⟩, ?_, ?_, ?_, fun hsc => ?_⟩
    · rintro f hf
      rcases List.mem_cons.mp hf with rfl | hf
      · exact h.scale e List.mem_cons_self
      · exact ht.scale f hf
    · show e.new = e.kind.apply r e.new
      rw [he]; rfl
    · rintro f hf
      rcases List.mem_cons.mp hf with rfl | hf
      · exact h.fits e List.mem_cons_self
      · exact ht.fits f hf
    · rintro f hf
      rcases List.mem_cons.mp hf with rfl | hf
      · exact h.range e List.mem_cons_self
      · exact ht.range f hf
    · rintro f hf
      rcases List.mem_cons.mp hf with rfl | hf
      · exact fun _ => hn e rfl
      · exact ht.shift f hf
    · have := h.spaced hsc
      rw [List.pairwise_cons] at this ⊢
      exact this

/-- Two runs of a scale, the second following the first. -/
theorem ScaleLaws.append {r : Int} {sc : Scale} {P Q : List Entry} (h : ScaleLaws r sc P)
    (k : ScaleLaws (endOffset r P) sc Q)
    (hs : sc ≠ .civil → ∀ e ∈ P, ∀ f ∈ Q, (e.boundary.toNat : Int) + Config.zoneSpacing ≤ f.boundary.toNat) :
    ScaleLaws r sc (P ++ Q) where
  scale := fun e he => (List.mem_append.mp he).elim (h.scale e) (k.scale e)
  chain := offsetChain_append.mpr ⟨h.chain, k.chain⟩
  fits := fun e he => (List.mem_append.mp he).elim (h.fits e) (k.fits e)
  range := fun e he => (List.mem_append.mp he).elim (h.range e) (k.range e)
  shift := fun e he => (List.mem_append.mp he).elim (h.shift e) (k.shift e)
  spaced := fun hsc => List.pairwise_append.mpr ⟨h.spaced hsc, k.spaced hsc, hs hsc⟩

/-- The second of two runs, from the offset after the first. -/
theorem ScaleLaws.right {r : Int} {sc : Scale} {P Q : List Entry} (h : ScaleLaws r sc (P ++ Q)) :
    ScaleLaws (endOffset r P) sc Q where
  scale := fun e he => h.scale e (List.mem_append_right _ he)
  chain := (offsetChain_append.mp h.chain).2
  fits := fun e he => h.fits e (List.mem_append_right _ he)
  range := fun e he => h.range e (List.mem_append_right _ he)
  shift := fun e he => h.shift e (List.mem_append_right _ he)
  spaced := fun hsc => (List.pairwise_append.mp (h.spaced hsc)).2.1

theorem reprior_boundary {sc : Scale} {r : Int} {es : List Entry} {f : Entry} (h : f ∈ reprior sc r es) :
    ∃ e ∈ es, e.boundary = f.boundary := by
  obtain ⟨e, he, hc⟩ := SameCores.mem (reprior_cores sc r es) h
  simp [Entry.core] at hc
  exact ⟨e, he, hc.1⟩

/-- A zone entry put between the entries before it and those behind it (R20, R24). -/
theorem ScaleLaws.putZone {k : ZoneNo} {r r' : Int} {L U : List Entry} (h : ScaleLaws r (.zone k) L)
    (hU : ScaleLaws r' (.zone k) U) {e : Entry} (hs : e.scale = .zone k) (hk : e.kind = .zoneShift)
    (hp : e.pending = true) (hpU : ∀ f ∈ U, f.pending = true) (hr : OffsetInRange (.zone k) e.new)
    (hm : e.new ≠ endOffset r L ∧ |e.new - endOffset r L| ≤ Config.shiftLimit) (hn : NextFits e.new U)
    (hL : ∀ f ∈ L, (f.boundary.toNat : Int) + Config.zoneSpacing ≤ e.boundary.toNat)
    (hU' : ∀ f ∈ U, (e.boundary.toNat : Int) + Config.zoneSpacing ≤ f.boundary.toNat) :
    ScaleLaws r (.zone k) (reprior (.zone k) r (L ++ e :: U)) := by
  rw [reprior_chained (e :: U) h.chain h.scale]
  have hp' := hp
  rw [pending_eq_not_isApplied] at hp'
  simp at hp'
  have hrep : reprior (.zone k) (endOffset r L) (e :: U) =
      { e with prior := endOffset r L } :: reprior (.zone k) e.new U := by
    rw [reprior_pending hs hp', hk]
    rfl
  rw [hrep]
  have ht := hU.zoneTail hpU hn
  have hsp : ∀ f ∈ reprior (.zone k) e.new U, (e.boundary.toNat : Int) + Config.zoneSpacing ≤ f.boundary.toNat := by
    intro f hf
    obtain ⟨g, hg, hb⟩ := reprior_boundary hf
    rw [← hb]; exact hU' g hg
  refine h.append (Q := _ :: _) ?_ fun _ f hf g hg => ?_
  · have h1 : ScaleLaws (endOffset r L) (.zone k) [{ e with prior := endOffset r L }] := by
      refine ⟨by simpa using hs, ⟨rfl, ?_, trivial⟩, by simp [Entry.kindFits, hs, hk], by simpa using hr, ?_,
        fun _ => List.pairwise_singleton _ _⟩
      · show e.new = e.kind.apply _ e.new
        rw [hk]; rfl
      · intro f hf
        simp only [List.mem_singleton] at hf
        subst hf
        exact fun _ => hm
    refine h1.append (Q := reprior (.zone k) e.new U) ?_ fun _ f hf g hg => ?_
    · simpa using ht
    · simp only [List.mem_singleton] at hf
      subst hf
      exact hsp g hg
  · have h1 := hL f hf
    rcases List.mem_cons.mp hg with rfl | hg
    · exact h1
    · have h2 := hsp g hg
      have : (0 : Int) ≤ Config.zoneSpacing := by decide
      omega

/-! ## One scale cut at a boundary -/

/-- The entries of a scale below a boundary. -/
def lowerPart (sc : Scale) (b : Second) (es : List Entry) : List Entry :=
  es.filter fun e => e.scale == sc && decide (e.boundary.toNat < b.toNat)

/-- The entries of a scale above a boundary. -/
def upperPart (sc : Scale) (b : Second) (es : List Entry) : List Entry :=
  es.filter fun e => e.scale == sc && decide (b.toNat < e.boundary.toNat)

/-- The entries of a scale at a boundary. -/
def atPart (sc : Scale) (b : Second) (es : List Entry) : List Entry :=
  es.filter fun e => e.scale == sc && e.boundary == b

theorem mem_lowerPart {sc : Scale} {b : Second} {es : List Entry} {e : Entry} :
    e ∈ lowerPart sc b es ↔ e ∈ es ∧ e.scale = sc ∧ e.boundary.toNat < b.toNat := by simp [lowerPart]

theorem mem_upperPart {sc : Scale} {b : Second} {es : List Entry} {e : Entry} :
    e ∈ upperPart sc b es ↔ e ∈ es ∧ e.scale = sc ∧ b.toNat < e.boundary.toNat := by simp [upperPart]

theorem mem_atPart {sc : Scale} {b : Second} {es : List Entry} {e : Entry} :
    e ∈ atPart sc b es ↔ e ∈ es ∧ e.scale = sc ∧ e.boundary = b := by simp [atPart]

/-- Ordered entries of one scale stand below, at and above a boundary, in this order. -/
theorem ofScale_cut {es : List Entry} (h : OrderLaw es) (sc : Scale) (b : Second) :
    ofScale sc es = lowerPart sc b es ++ (atPart sc b es ++ upperPart sc b es) := by
  induction es with
  | nil => rfl
  | cons e es ih =>
    unfold OrderLaw at h
    rw [List.pairwise_cons] at h
    have ih := ih h.2
    by_cases hs : e.scale = sc
    · have hle : ∀ f ∈ es, e.boundary.toNat ≤ f.boundary.toNat := fun f hf => precedes_le (h.1 f hf)
      have hst : ∀ f ∈ es, f.scale = sc → e.boundary.toNat < f.boundary.toNat := by
        intro f hf hfs
        rcases precedes_iff.mp (h.1 f hf) with hp | ⟨_, hp⟩
        · exact hp
        · rw [hs, hfs] at hp; exact absurd hp (Nat.lt_irrefl _)
      rw [ofScale_cons_same hs]
      rcases Nat.lt_trichotomy e.boundary.toNat b.toNat with hb | hb | hb
      · have hne : e.boundary ≠ b := fun hc => by rw [hc] at hb; exact Nat.lt_irrefl _ hb
        have h1 : lowerPart sc b (e :: es) = e :: lowerPart sc b es := by simp [lowerPart, hs, hb]
        have h2 : atPart sc b (e :: es) = atPart sc b es := by simp [atPart, hne]
        have h3 : upperPart sc b (e :: es) = upperPart sc b es := by
          simp [upperPart, Nat.not_lt.mpr (Nat.le_of_lt hb)]
        rw [h1, h2, h3, ih]; rfl
      · have hbe : e.boundary = b := BitVec.eq_of_toNat_eq hb
        have h1 : lowerPart sc b (e :: es) = [] := by
          rw [List.eq_nil_iff_forall_not_mem]
          intro f hf
          rw [mem_lowerPart, List.mem_cons] at hf
          rcases hf with ⟨rfl | hf, _, hlt⟩
          · omega
          · have := hle f hf; omega
        have h2 : atPart sc b (e :: es) = [e] := by
          have : atPart sc b es = [] := by
            rw [List.eq_nil_iff_forall_not_mem]
            intro f hf
            rw [mem_atPart] at hf
            have := hst f hf.1 hf.2.1
            rw [hf.2.2] at this; omega
          unfold atPart at this ⊢
          simp [hs, hbe, this]
        have h3 : upperPart sc b (e :: es) = ofScale sc es := by
          have hn : ¬ b.toNat < e.boundary.toNat := by omega
          simp only [upperPart, ofScale, List.filter_cons, hn, decide_false, Bool.and_false, Bool.false_eq_true,
            if_false]
          refine List.filter_congr fun f hf => ?_
          by_cases hfs : f.scale = sc
          · have := hst f hf hfs
            rw [hb] at this
            simp [hfs, this]
          · simp [hfs]
        rw [h1, h2, h3]; rfl
      · have hne : e.boundary ≠ b := fun hc => by rw [hc] at hb; exact Nat.lt_irrefl _ hb
        have h1 : lowerPart sc b (e :: es) = [] := by
          rw [List.eq_nil_iff_forall_not_mem]
          intro f hf
          rw [mem_lowerPart, List.mem_cons] at hf
          rcases hf with ⟨rfl | hf, _, hlt⟩
          · omega
          · have := hle f hf; omega
        have h2 : atPart sc b (e :: es) = [] := by
          rw [List.eq_nil_iff_forall_not_mem]
          intro f hf
          rw [mem_atPart, List.mem_cons] at hf
          rcases hf with ⟨rfl | hf, _, heq⟩
          · exact hne heq
          · have := hle f hf; rw [heq] at this; omega
        have h3 : upperPart sc b (e :: es) = e :: ofScale sc es := by
          simp only [upperPart, ofScale, List.filter_cons, hs, beq_self_eq_true, hb, decide_true, Bool.and_true, if_true,
            List.cons.injEq, true_and]
          refine List.filter_congr fun f hf => ?_
          have := hle f hf
          have hlt : b.toNat < f.boundary.toNat := by omega
          simp [hlt]
        rw [h1, h2, h3]; rfl
    · rw [ofScale_cons_other hs]
      have h1 : lowerPart sc b (e :: es) = lowerPart sc b es := by simp [lowerPart, hs]
      have h2 : atPart sc b (e :: es) = atPart sc b es := by simp [atPart, hs]
      have h3 : upperPart sc b (e :: es) = upperPart sc b es := by simp [upperPart, hs]
      rw [h1, h2, h3, ih]

/-- An ordered list holds one entry of a scale at a boundary. -/
theorem atPart_of_mem {es : List Entry} (h : OrderLaw es) {e : Entry} (he : e ∈ es) :
    atPart e.scale e.boundary es = [e] := by
  have hm : e ∈ atPart e.scale e.boundary es := mem_atPart.mpr ⟨he, rfl, rfl⟩
  have ho : (atPart e.scale e.boundary es).Pairwise fun e f => e.precedes f = true := List.Pairwise.filter _ h
  have hk : ∀ f ∈ atPart e.scale e.boundary es, f.scale = e.scale ∧ f.boundary = e.boundary :=
    fun f hf => (mem_atPart.mp hf).2
  generalize atPart e.scale e.boundary es = l at hm ho hk
  match l, hm, ho, hk with
  | [f], hm, _, _ => simp only [List.mem_singleton] at hm; rw [hm]
  | f :: g :: l, _, ho, hk =>
    rw [List.pairwise_cons] at ho
    have := ho.1 g (by simp)
    have hf := hk f (by simp)
    have hg := hk g (by simp)
    rw [precedes_iff, hf.1, hf.2, hg.1, hg.2] at this
    omega

theorem filter_insertEntry {p : Entry → Bool} {e : Entry} (h : p e = false) (es : List Entry) :
    (insertEntry e es).filter p = es.filter p := by
  induction es with
  | nil => simp [insertEntry, h]
  | cons f fs ih =>
    unfold insertEntry
    split
    · rw [List.filter_cons, h]; rfl
    · rw [List.filter_cons, List.filter_cons, ih]

/-- An entry inserted at a free place stands between the lower and the upper part of its scale. -/
theorem ofScale_insertEntry {e : Entry} {es : List Entry} (h : OrderLaw es)
    (hfree : ∀ f ∈ es, ¬ (e.boundary = f.boundary ∧ e.scale = f.scale)) :
    ofScale e.scale (insertEntry e es) =
      lowerPart e.scale e.boundary es ++ e :: upperPart e.scale e.boundary es := by
  have ho := insertEntry_order h hfree
  have hm : e ∈ insertEntry e es := mem_insertEntry.mpr (.inl rfl)
  rw [ofScale_cut ho e.scale e.boundary, atPart_of_mem ho hm]
  unfold lowerPart upperPart
  rw [filter_insertEntry (by simp), filter_insertEntry (by simp)]
  rfl

theorem ofScale_insertEntry_other {e : Entry} {sc : Scale} (h : e.scale ≠ sc) (es : List Entry) :
    ofScale sc (insertEntry e es) = ofScale sc es := filter_insertEntry (by simp [h]) es

theorem priorAt_eq (sched : Schedule) (sc : Scale) (b : Second) :
    priorAt sched sc b = endOffset (sched.base.offset sc) (lowerPart sc b sched.entries) := by
  unfold priorAt lowerPart endOffset
  rcases (List.filter _ sched.entries).getLast? with _ | e <;> rfl

theorem upperPart_head (sc : Scale) (b : Second) (es : List Entry) :
    (upperPart sc b es).head? = es.find? fun e => e.scale == sc && decide (b.toNat < e.boundary.toNat) := by
  simp [upperPart]

theorem nextLater_eq (sched : Schedule) (k : ZoneNo) (b : Second) :
    nextLater (otherZone sched k b) b = (upperPart (.zone k) b sched.entries).head? := by
  rw [upperPart_head]
  unfold nextLater otherZone
  rw [List.find?_filter]
  congr 1
  funext e
  by_cases hb : b.toNat < e.boundary.toNat
  · have : e.boundary ≠ b := fun hc => by rw [hc] at hb; exact Nat.lt_irrefl _ hb
    simp [hb, this]
    rfl
  · simp [hb]

/-! ## Schedules -/

theorem offsetLaws_withEntries {sched : Schedule} (h : OffsetLaws sched) {sc : Scale} {es : List Entry}
    (ho : ∀ sc', sc ≠ sc' → ofScale sc' es = ofScale sc' sched.entries)
    (hs : ScaleLaws (sched.base.offset sc) sc (reprior sc (sched.base.offset sc) (ofScale sc es))) :
    OffsetLaws (sched.withEntries sc es) := by
  rw [offsetLaws_iff] at h ⊢
  intro sc'
  refine ⟨(h sc').1, ?_⟩
  show ScaleLaws (sched.base.offset sc') sc' (ofScale sc' (reprior sc (sched.base.offset sc) es))
  by_cases hsc : sc = sc'
  · subst hsc
    rw [ofScale_reprior_same]; exact hs
  · rw [ofScale_reprior_other hsc, ho sc' hsc]; exact (h sc').2

theorem offset_afterDiscard (b : BaseRecord) (e : Entry) (sc : Scale) :
    (b.afterDiscard e).offset sc = if sc = e.scale then e.new else b.offset sc := by
  unfold BaseRecord.afterDiscard
  cases hs : e.scale with
  | civil => cases sc <;> simp [BaseRecord.offset]
  | zone k =>
    cases sc with
    | civil => simp [BaseRecord.offset]
    | zone j =>
      by_cases hjk : j = k
      · subst hjk; simp [BaseRecord.offset]
      · have : (k : Nat) ≠ j := fun hn => hjk (Fin.ext hn.symm)
        simp [BaseRecord.offset, hjk, this]

/-- The discard keeps the laws of the offsets (R25). -/
theorem discard_offsetLaws {sched : Schedule} (h : OffsetLaws sched) : OffsetLaws (discardIfFull sched).1 := by
  unfold discardIfFull
  rcases hs : sched.entries with _ | ⟨e, es⟩
  · exact h
  · simp only
    split
    · rw [offsetLaws_iff] at h ⊢
      intro sc
      have := h sc
      rw [hs] at this
      show OffsetInRange sc ((sched.base.afterDiscard e).offset sc) ∧
        ScaleLaws ((sched.base.afterDiscard e).offset sc) sc (ofScale sc es)
      rw [offset_afterDiscard]
      by_cases hsc : sc = e.scale
      · rw [ofScale_cons_same hsc.symm] at this
        rw [if_pos hsc]
        exact ⟨this.2.range e List.mem_cons_self, this.2.tail⟩
      · rw [ofScale_cons_other (fun hc => hsc hc.symm)] at this
        rw [if_neg hsc]; exact this
    · exact h

/-- The discard of an APPLIED entry below a boundary changes neither the prior offset there nor what stands above. -/
theorem discard_at {x : Second} {sched : Schedule} (h : EntryLaws x sched.entries) {b : Second}
    (hb : ∀ e ∈ sched.entries, e.isApplied = true → e.boundary.toNat < b.toNat) (sc : Scale) :
    priorAt (discardIfFull sched).1 sc b = priorAt sched sc b ∧
      upperPart sc b (discardIfFull sched).1.entries = upperPart sc b sched.entries := by
  unfold discardIfFull
  rcases hs : sched.entries with _ | ⟨e, es⟩
  · simp [hs]
  · simp only
    split
    · rename_i hl
      have hlt := hb e (by simp [hs]) (head_applied (hs ▸ h) hl)
      rw [priorAt_eq, priorAt_eq, hs]
      simp only [offset_afterDiscard]
      have hu : upperPart sc b (e :: es) = upperPart sc b es := by
        simp [upperPart, Nat.not_lt.mpr (Nat.le_of_lt hlt)]
      refine ⟨?_, hu.symm⟩
      by_cases hsc : sc = e.scale
      · have : lowerPart sc b (e :: es) = e :: lowerPart sc b es := by simp [lowerPart, hsc, hlt]
        rw [this, endOffset_cons, if_pos hsc]
      · have : lowerPart sc b (e :: es) = lowerPart sc b es := by
          simp [lowerPart, Ne.symm hsc]
        rw [this, if_neg hsc]
    · rw [hs]; exact ⟨rfl, rfl⟩

/-- The APPLIED entries of a scale come first and keep its laws. -/
theorem applied_split {l : List Entry} (h : AppliedFirst l) :
    l = l.filter Entry.isApplied ++ l.filter Entry.pending := by
  induction l with
  | nil => rfl
  | cons e l ih =>
    unfold AppliedFirst at h
    rw [List.pairwise_cons] at h
    have ih := ih h.2
    cases he : e.isApplied
    · have hp : e.pending = true := by rw [pending_eq_not_isApplied, he]; rfl
      have hn : l.filter Entry.isApplied = [] := by
        rw [List.filter_eq_nil_iff]
        intro f hf hfa
        have := h.1 f hf hfa
        rw [he] at this; cases this
      rw [hn, List.nil_append] at ih
      rw [List.filter_cons, List.filter_cons, he, hp, hn, ← ih]; rfl
    · have hp : e.pending = false := by rw [pending_eq_not_isApplied, he]; rfl
      rw [List.filter_cons, List.filter_cons, he, hp]
      simp only [if_true, Bool.false_eq_true, if_false, List.cons_append]
      rw [← ih]

theorem ScaleLaws.applied {r : Int} {sc : Scale} {l : List Entry} (h : ScaleLaws r sc l) (ha : AppliedFirst l) :
    ScaleLaws r sc (l.filter Entry.isApplied) := by
  rw [applied_split ha] at h
  exact h.left

theorem ofScale_filter (sc : Scale) (p : Entry → Bool) (es : List Entry) :
    ofScale sc (es.filter p) = (ofScale sc es).filter p := by
  unfold ofScale
  rw [List.filter_filter, List.filter_filter]
  exact List.filter_congr fun e _ => Bool.and_comm _ _

theorem appliedFirst_ofScale {es : List Entry} (h : AppliedFirst es) (sc : Scale) : AppliedFirst (ofScale sc es) :=
  List.Pairwise.filter _ h

/-- FLUSH keeps the laws of the offsets (R26). -/
theorem flush_offsetLaws {x : Second} {sched : Schedule} (h : OffsetLaws sched) (he : EntryLaws x sched.entries) :
    OffsetLaws (flushSchedule sched).1 := by
  rw [offsetLaws_iff] at h ⊢
  intro sc
  refine ⟨(h sc).1, ?_⟩
  show ScaleLaws (sched.base.offset sc) sc (ofScale sc (sched.entries.filter Entry.isApplied))
  rw [ofScale_filter]
  exact (h sc).2.applied (appliedFirst_ofScale he.appliedFirst sc)

/-- What the laws of the offsets look at. -/
def Entry.course (e : Entry) : Second × Scale × Kind × Int × Int := (e.boundary, e.scale, e.kind, e.prior, e.new)

theorem offsetChain_map {g : Entry → Entry} (hg : ∀ e, (g e).course = e.course) {r : Int} {l : List Entry}
    (h : OffsetChain r l) : OffsetChain r (l.map g) := by
  induction l generalizing r with
  | nil => trivial
  | cons e l ih =>
    have he := hg e
    simp [Entry.course] at he
    obtain ⟨h1, h2, h3⟩ := h
    refine ⟨he.2.2.2.1.trans h1, ?_, ?_⟩
    · show (g e).new = (g e).kind.apply r (g e).new
      rw [he.2.2.1, he.2.2.2.2]; exact h2
    · show OffsetChain (g e).new (l.map g)
      rw [he.2.2.2.2]; exact ih h3

theorem ofScale_map {g : Entry → Entry} (hg : ∀ e, (g e).scale = e.scale) (sc : Scale) (es : List Entry) :
    ofScale sc (es.map g) = (ofScale sc es).map g := by
  unfold ofScale
  rw [List.filter_map]
  congr 1
  exact List.filter_congr fun e _ => by simp [hg]

/-- A change of states and flags keeps the laws of the offsets. -/
theorem OffsetLaws.map {sched : Schedule} (h : OffsetLaws sched) {g : Entry → Entry}
    (hg : ∀ e, (g e).course = e.course) : OffsetLaws { sched with entries := sched.entries.map g } := by
  have hs : ∀ e, (g e).scale = e.scale := fun e => by have := hg e; simp [Entry.course] at this; exact this.2.1
  rw [offsetLaws_iff] at h ⊢
  intro sc
  refine ⟨(h sc).1, ?_⟩
  show ScaleLaws (sched.base.offset sc) sc (ofScale sc (sched.entries.map g))
  rw [ofScale_map hs]
  have hl := (h sc).2
  have hm : ∀ f ∈ (ofScale sc sched.entries).map g, ∃ e ∈ ofScale sc sched.entries,
      f.boundary = e.boundary ∧ f.scale = e.scale ∧ f.kind = e.kind ∧ f.prior = e.prior ∧ f.new = e.new := by
    intro f hf
    obtain ⟨e, he, rfl⟩ := List.mem_map.mp hf
    have := hg e
    simp [Entry.course] at this
    exact ⟨e, he, this⟩
  refine ⟨fun f hf => ?_, offsetChain_map hg hl.chain, fun f hf => ?_, fun f hf => ?_, fun f hf => ?_, fun hsc => ?_⟩
  · obtain ⟨e, he, hc⟩ := hm f hf
    rw [hc.2.1]; exact hl.scale e he
  · obtain ⟨e, he, hc⟩ := hm f hf
    have := hl.fits e he
    unfold Entry.kindFits at this ⊢
    rw [hc.2.1, hc.2.2.1]; exact this
  · obtain ⟨e, he, hc⟩ := hm f hf
    rw [hc.2.2.2.2]; exact hl.range e he
  · obtain ⟨e, he, hc⟩ := hm f hf
    have := hl.shift e he
    unfold ShiftLaw at this ⊢
    rw [hc.2.1, hc.2.2.2.1, hc.2.2.2.2]; exact this
  · rw [List.pairwise_map]
    refine (hl.spaced hsc).imp fun {e f} hp => ?_
    have he := hg e
    have hf := hg f
    simp [Entry.course] at he hf
    rw [he.1, hf.1]; exact hp

/-- A claim keeps the laws of the offsets (R77). -/
theorem claim_offsetLaws {sched : Schedule} (h : OffsetLaws sched) (f : Int) (c : SChange) :
    OffsetLaws { sched with entries := claimEntries f c sched.entries } := by
  unfold claimEntries
  split
  · refine h.map fun e => ?_
    unfold forwardEntry
    split <;> [skip; split] <;> rfl
  · split
    · refine h.map fun e => ?_
      unfold backwardEntry
      split <;> rfl
    · exact h

/-! ## Requests -/

theorem pendingCivil_none {es : List Entry} (h : pendingCivil es = none) :
    ∀ e ∈ es, e.scale = .civil → e.isApplied = true := by
  unfold pendingCivil at h
  rw [List.find?_eq_none] at h
  intro e he hs
  have := h e he
  rw [pending_eq_not_isApplied] at this
  simpa [hs] using this

/-- An accepted new civil entry keeps the laws of the offsets (R19, R21). -/
theorem acceptArm_civil_offsetLaws {f : Int} {x : Second} {sched : Schedule} (h : OffsetLaws sched)
    (he : EntryLaws x sched.entries) {b : Second} {k : LeapKind} {o : SourceNo} {g : Bool}
    (hl : tooLate sched x b = false) (hc : pendingCivil sched.entries = none)
    (hr : civilOffsetBad k (priorAt sched .civil b) = false) :
    OffsetLaws (acceptArm f x sched (newEntry b .civil (.leap k) 0 o g)).sched := by
  obtain ⟨_, ha⟩ := not_tooLate he.order hl
  obtain ⟨hde, _, hsub, _⟩ := discard_laws he
  have hdo := discard_offsetLaws h
  obtain ⟨hprior, _⟩ := discard_at he ha .civil
  have hcD : ∀ e ∈ (discardIfFull sched).1.entries, e.scale = .civil → e.boundary.toNat < b.toNat :=
    fun e hm hs => ha e (hsub.subset hm) (pendingCivil_none hc e (hsub.subset hm) hs)
  show OffsetLaws ((discardIfFull sched).1.withEntries .civil (insertEntry
    { newEntry b .civil (.leap k) 0 o g with state := entryStateFor f x b } (discardIfFull sched).1.entries))
  generalize hz : ({ newEntry b .civil (.leap k) 0 o g with state := entryStateFor f x b } : Entry) = z
  have hzs : z.scale = .civil := by rw [← hz]; rfl
  have hzb : z.boundary = b := by rw [← hz]; rfl
  have hzk : z.kind = .leap k := by rw [← hz]; rfl
  have hzp : z.pending = true := by
    rw [← hz]; unfold entryStateFor Entry.pending; split <;> rfl
  have hfree : ∀ e ∈ (discardIfFull sched).1.entries, ¬ (z.boundary = e.boundary ∧ z.scale = e.scale) := by
    intro e hm hk
    have := hcD e hm (hk.2.symm.trans hzs)
    rw [← hk.1, hzb] at this; omega
  have hins := ofScale_insertEntry hde.order hfree
  have hup : upperPart .civil b (discardIfFull sched).1.entries = [] := by
    rw [List.eq_nil_iff_forall_not_mem]
    intro e hm
    rw [mem_upperPart] at hm
    have := hcD e hm.1 hm.2.1
    omega
  rw [hzs, hzb, hup] at hins
  have hcut := ofScale_cut hde.order .civil b
  have hat : atPart .civil b (discardIfFull sched).1.entries = [] := by
    rw [List.eq_nil_iff_forall_not_mem]
    intro e hm
    rw [mem_atPart] at hm
    have := hcD e hm.1 hm.2.1
    rw [hm.2.2] at this; omega
  rw [hat, hup, List.append_nil, List.append_nil] at hcut
  have hsc := (offsetLaws_iff.mp hdo) .civil
  rw [hcut] at hsc
  rw [priorAt_eq] at hprior
  refine offsetLaws_withEntries hdo (fun sc' hne => ofScale_insertEntry_other (by rw [hzs]; exact hne) _) ?_
  rw [hins]
  exact hsc.2.putLeap hzs hzk hzp (by rw [hprior]; exact hr) (hsc.1.endOffset hsc.2)

/-- The single pending civil entry stands behind the APPLIED ones (R6, R7). -/
theorem civil_split {x : Second} {es : List Entry} (h : EntryLaws x es) {e : Entry} (he : e ∈ es)
    (hs : e.scale = .civil) (hp : e.pending = true) :
    ofScale .civil es = (ofScale .civil es).filter Entry.isApplied ++ [e] := by
  have h1 := applied_split (appliedFirst_ofScale h.appliedFirst .civil)
  have hl : ((ofScale .civil es).filter Entry.pending).length ≤ 1 := by
    have := h.capacity.civil
    unfold ofScale
    rw [List.filter_filter]
    exact this
  have hm : e ∈ (ofScale .civil es).filter Entry.pending := by
    rw [List.mem_filter, mem_ofScale]; exact ⟨⟨he, hs⟩, hp⟩
  have h2 : (ofScale .civil es).filter Entry.pending = [e] := by
    generalize (ofScale .civil es).filter Entry.pending = l at hl hm
    match l, hl, hm with
    | [f], _, hm => simp only [List.mem_singleton] at hm; rw [hm]
    | _ :: _ :: _, hl, _ => simp at hl
  rw [h2] at h1
  exact h1

/-- Where every APPLIED entry lies below a boundary, the APPLIED civil entries are the civil entries below it, the pending
one lying at or above it. -/
theorem lowerPart_applied {es : List Entry} {b : Second}
    (ha : ∀ e ∈ es, e.isApplied = true → e.boundary.toNat < b.toNat)
    (hp : ∀ e ∈ es, e.scale = .civil → e.isApplied = false → ¬ e.boundary.toNat < b.toNat) :
    lowerPart .civil b es = (ofScale .civil es).filter Entry.isApplied := by
  unfold lowerPart ofScale
  rw [List.filter_filter]
  refine List.filter_congr fun e he => ?_
  by_cases hs : e.scale = .civil
  · cases hae : e.isApplied
    · simp [hs, hp e he hs hae]
    · simp [hs, ha e he hae]
  · have hf : (e.scale == Scale.civil) = false := by simpa using hs
    simp only [hf, Bool.false_and, Bool.and_false]

/-- A pending civil entry given another kind in place keeps the laws of the offsets (R19). -/
theorem rewriteCivil_offsetLaws {x : Second} {sched : Schedule} (h : OffsetLaws sched)
    (he : EntryLaws x sched.entries) {b : Second} {k : LeapKind} {o : SourceNo} {g : Bool} {e : Entry}
    (hl : tooLate sched x b = false) (hf : pendingAt sched.entries .civil b = some e)
    (hr : civilOffsetBad k (priorAt sched .civil b) = false) :
    OffsetLaws (rewritePending sched .civil b fun e => { e with kind := .leap k, origin := o, gridDated := g }) := by
  obtain ⟨_, ha⟩ := not_tooLate he.order hl
  have hmem := List.mem_of_find?_eq_some hf
  have hpc := List.find?_some hf
  simp only [Bool.and_eq_true, beq_iff_eq] at hpc
  obtain ⟨⟨hp, hs⟩, hb⟩ := hpc
  have hsplit := civil_split he hmem hs hp
  have hlow : lowerPart .civil b sched.entries = (ofScale .civil sched.entries).filter Entry.isApplied := by
    refine lowerPart_applied ha fun f hm hfs hfa => ?_
    have : f ∈ ofScale .civil sched.entries := mem_ofScale.mpr ⟨hm, hfs⟩
    rw [hsplit, List.mem_append, List.mem_filter, List.mem_singleton] at this
    rcases this with this | rfl
    · rw [hfa] at this; exact absurd this.2 (by decide)
    · rw [hb]; exact Nat.lt_irrefl _
  have hsc := (offsetLaws_iff.mp h) .civil
  have hA := hsc.2.applied (appliedFirst_ofScale he.appliedFirst .civil)
  unfold rewritePending
  refine offsetLaws_withEntries h (fun sc' hne => ?_) ?_
  · rw [ofScale_map (fun e => by split <;> rfl)]
    have : ∀ f ∈ ofScale sc' sched.entries, (if (f.pending && f.scale == .civil && f.boundary == b) = true then
        { f with kind := .leap k, origin := o, gridDated := g } else f) = f := by
      intro f hm
      have : f.scale ≠ .civil := by rw [(mem_ofScale.mp hm).2]; exact hne.symm
      simp [this]
    exact (List.map_congr_left this).trans (List.map_id _)
  · rw [ofScale_map (fun e => by split <;> rfl), hsplit, List.map_append]
    have : ∀ f ∈ (ofScale .civil sched.entries).filter Entry.isApplied,
        (if (f.pending && f.scale == .civil && f.boundary == b) = true then
        { f with kind := .leap k, origin := o, gridDated := g } else f) = f := by
      intro f hm
      have : f.isApplied = true := (List.mem_filter.mp hm).2
      simp [pending_eq_not_isApplied, this]
    rw [List.map_congr_left this, List.map_id']
    simp only [List.map_cons, List.map_nil, hp, hs, hb, beq_self_eq_true, Bool.and_self, if_true]
    refine hA.putLeap rfl rfl hp ?_ (hsc.1.endOffset hA)
    rw [← hlow, ← priorAt_eq]; exact hr

theorem ofScale_withoutPendingCivil (sc : Scale) (es : List Entry) :
    ofScale sc (withoutPendingCivil es) =
      if sc = .civil then (ofScale .civil es).filter Entry.isApplied else ofScale sc es := by
  unfold withoutPendingCivil
  rw [ofScale_filter]
  split
  · rename_i hs
    subst hs
    refine List.filter_congr fun e he => ?_
    simp [(mem_ofScale.mp he).2, pending_eq_not_isApplied]
  · rename_i hs
    rw [List.filter_eq_self]
    intro e he
    have : e.scale ≠ .civil := by rw [(mem_ofScale.mp he).2]; exact hs
    simp [this]

/-- A civil withdrawal keeps the laws of the offsets (R23). -/
theorem withdrawCivil_offsetLaws {x : Second} {sched : Schedule} (h : OffsetLaws sched)
    (he : EntryLaws x sched.entries) : OffsetLaws (withdrawCivil sched).sched := by
  unfold withdrawCivil
  split
  · exact h
  · split
    · exact h
    · refine offsetLaws_withEntries h (fun sc' hne => ?_) ?_
      · rw [ofScale_withoutPendingCivil, if_neg hne.symm]
      · rw [ofScale_withoutPendingCivil, if_pos rfl]
        have hA := ((offsetLaws_iff.mp h) .civil).2.applied (appliedFirst_ofScale he.appliedFirst .civil)
        rw [reprior_self hA.chain hA.scale]
        exact hA

/-- A replacement keeps the laws of the offsets (R22). -/
theorem replaceCivil_offsetLaws {f : Int} {x : Second} {sched : Schedule} {b : Second} {k : LeapKind} {o : SourceNo}
    {g : Bool} (h : OffsetLaws sched) (he : EntryLaws x sched.entries) :
    OffsetLaws (replaceCivil f x sched b k o g).sched := by
  unfold replaceCivil
  split
  · exact h
  · rename_i e hf
    split
    · exact h
    · split
      · exact h
      · split
        · exact h
        · rename_i hl
          dsimp only
          split
          · exact h
          · rename_i hr
            obtain ⟨_, ha⟩ := not_tooLate he.order (by simpa using hl)
            have hpc := List.find?_some hf
            simp only [Bool.and_eq_true, beq_iff_eq] at hpc
            have hsub := withoutPendingCivil_sublist sched.entries
            have hR := he.sublist hsub
            have hcR : ∀ e ∈ withoutPendingCivil sched.entries, e.scale = .civil → e.isApplied = true := by
              intro g hm hs
              simp only [withoutPendingCivil, List.mem_filter, Bool.not_eq_true'] at hm
              simpa [hs, pending_eq_not_isApplied] using hm.2
            have hlow := lowerPart_applied (es := withoutPendingCivil sched.entries) (b := b)
              (fun g hm hga => ha g (hsub.subset hm) hga)
              (fun g hm hs hga => by rw [hcR g hm hs] at hga; cases hga)
            rw [ofScale_withoutPendingCivil, if_pos rfl, List.filter_filter] at hlow
            simp only [Bool.and_self] at hlow
            generalize hz : ({ e with boundary := b, kind := .leap k, origin := o, gridDated := g
                                      state := entryStateFor f x b } : Entry) = z
            have hzs : z.scale = .civil := by rw [← hz]; exact hpc.2
            have hzb : z.boundary = b := by rw [← hz]
            have hzk : z.kind = .leap k := by rw [← hz]
            have hzp : z.pending = true := by
              rw [← hz]; unfold entryStateFor Entry.pending; split <;> rfl
            have hlt : ∀ e ∈ withoutPendingCivil sched.entries, e.scale = .civil → e.boundary.toNat < b.toNat :=
              fun g hm hs => ha g (hsub.subset hm) (hcR g hm hs)
            have hfree : ∀ e ∈ withoutPendingCivil sched.entries, ¬ (z.boundary = e.boundary ∧ z.scale = e.scale) := by
              intro g hm hk
              have := hlt g hm (hk.2.symm.trans hzs)
              rw [← hk.1, hzb] at this; omega
            have hins := ofScale_insertEntry hR.order hfree
            have hup : upperPart .civil b (withoutPendingCivil sched.entries) = [] := by
              rw [List.eq_nil_iff_forall_not_mem]
              intro g hm
              rw [mem_upperPart] at hm
              have := hlt g hm.1 hm.2.1
              omega
            rw [hzs, hzb, hup, hlow] at hins
            have hsc := (offsetLaws_iff.mp h) .civil
            have hA := hsc.2.applied (appliedFirst_ofScale he.appliedFirst .civil)
            refine offsetLaws_withEntries h (fun sc' hne => ?_) ?_
            · rw [ofScale_insertEntry_other (by rw [hzs]; exact hne), ofScale_withoutPendingCivil, if_neg hne.symm]
            · rw [hins]
              refine hA.putLeap hzs hzk hzp ?_ (hsc.1.endOffset hA)
              rw [priorAt_eq] at hr
              simp only at hr
              rw [hlow] at hr
              simpa using hr

/-- A civil arm request keeps the laws of the offsets (R19). -/
theorem armCivil_offsetLaws {f : Int} {x : Second} {sched : Schedule} {b : Second} {k : LeapKind} {o : SourceNo}
    {g : Bool} (h : OffsetLaws sched) (he : EntryLaws x sched.entries) :
    OffsetLaws (armCivil f x sched b k o g).sched := by
  unfold armCivil
  split
  · exact h
  · rename_i hl
    split
    · rename_i e hp
      split
      · exact h
      · split
        · exact h
        · split
          · exact h
          · rename_i hr
            exact rewriteCivil_offsetLaws h he (by simpa using hl) hp (by simpa using hr)
    · split
      · exact h
      · rename_i hc
        split
        · exact h
        · rename_i hr
          exact acceptArm_civil_offsetLaws h he (by simpa using hl) (by simpa using hc) (by simpa using hr)

/-- What a zone request that passes checks 4 to 7 has: range, distance, and the shifts (R20). -/
theorem zoneChecks_none {sched : Schedule} {k : ZoneNo} {b : Second} {z : Int} (h : zoneChecks sched k b z = none) :
    OffsetInRange (.zone k) z ∧
      (∀ e ∈ otherZone sched k b, Config.zoneSpacing ≤ |(b.toNat : Int) - e.boundary.toNat|) ∧
      (z ≠ priorAt sched (.zone k) b ∧ |z - priorAt sched (.zone k) b| ≤ Config.shiftLimit) ∧
      NextFits z (upperPart (.zone k) b sched.entries) := by
  unfold zoneChecks at h
  dsimp only at h
  rw [nextLater_eq] at h
  split at h
  · cases h
  · rename_i h1
    split at h
    · cases h
    · rename_i h2
      split at h
      · cases h
      · rename_i h3
        split at h
        · cases h
        · rename_i h4
          rw [not_or] at h1 h3 h4
          refine ⟨⟨by omega, by omega⟩, fun e he => ?_, ⟨h3.1, by omega⟩, fun e hh => ?_⟩
          · rw [List.any_eq_true] at h2
            by_contra hc
            exact h2 ⟨e, he, by simpa using hc⟩
          · have h3' := h3.2
            have h4' := h4.2
            rw [hh] at h3' h4'
            simp at h3' h4'
            exact ⟨h3', h4'⟩

theorem abs_below {b c d : Int} (h : d ≤ |b - c|) (hc : c < b) : c + d ≤ b := by
  rw [abs_of_pos (by omega)] at h; omega

theorem abs_above {b c d : Int} (h : d ≤ |b - c|) (hc : b < c) : b + d ≤ c := by
  rw [abs_of_neg (by omega)] at h; omega

theorem upper_pending {es : List Entry} {sc : Scale} {b : Second}
    (ha : ∀ e ∈ es, e.isApplied = true → e.boundary.toNat < b.toNat) :
    ∀ e ∈ upperPart sc b es, e.pending = true := by
  intro e he
  rw [mem_upperPart] at he
  rw [pending_eq_not_isApplied]
  cases hae : e.isApplied
  · rfl
  · have := ha e he.1 hae; omega

/-- A zone arm request keeps the laws of the offsets (R20). -/
theorem armZone_offsetLaws {f : Int} {x : Second} {sched : Schedule} {k : ZoneNo} {b : Second} {z : Int} {o : SourceNo}
    (h : OffsetLaws sched) (he : EntryLaws x sched.entries) : OffsetLaws (armZone f x sched k b z o).sched := by
  unfold armZone
  split
  · exact h
  · rename_i hl
    obtain ⟨_, ha⟩ := not_tooLate he.order (by simpa using hl)
    split
    · rename_i e hf
      split
      · exact h
      · split
        · exact h
        · split
          · exact h
          · rename_i hz
            obtain ⟨hr, hd, hm, hn⟩ := zoneChecks_none hz
            have hmem := List.mem_of_find?_eq_some hf
            have hpc := List.find?_some hf
            simp only [Bool.and_eq_true, beq_iff_eq] at hpc
            obtain ⟨⟨hp, hs⟩, hb⟩ := hpc
            have hcut := ofScale_cut he.order (.zone k) b
            have hat := atPart_of_mem he.order hmem
            rw [hs, hb] at hat
            rw [hat] at hcut
            have hsc := (offsetLaws_iff.mp h) (.zone k)
            rw [hcut] at hsc
            have hU : ScaleLaws _ (.zone k) (upperPart (.zone k) b sched.entries) := hsc.2.right.tail
            rw [priorAt_eq] at hm
            unfold rewritePending
            refine offsetLaws_withEntries h (fun sc' hne => ?_) ?_
            · rw [ofScale_map (fun e => by split <;> rfl)]
              have : ∀ g ∈ ofScale sc' sched.entries, (if (g.pending && g.scale == .zone k && g.boundary == b) = true
                  then { g with new := z, origin := o } else g) = g := by
                intro g hm
                have : g.scale ≠ .zone k := by rw [(mem_ofScale.mp hm).2]; exact hne.symm
                simp [this]
              exact (List.map_congr_left this).trans (List.map_id _)
            · rw [ofScale_map (fun e => by split <;> rfl), hcut, List.map_append, List.map_append]
              have h1 : ∀ g ∈ lowerPart (.zone k) b sched.entries,
                  (if (g.pending && g.scale == .zone k && g.boundary == b) = true
                  then { g with new := z, origin := o } else g) = g := by
                intro g hm
                have : g.boundary ≠ b := fun hc => by
                  have := (mem_lowerPart.mp hm).2.2; rw [hc] at this; omega
                simp [this]
              have h2 : ∀ g ∈ upperPart (.zone k) b sched.entries,
                  (if (g.pending && g.scale == .zone k && g.boundary == b) = true
                  then { g with new := z, origin := o } else g) = g := by
                intro g hm
                have : g.boundary ≠ b := fun hc => by
                  have := (mem_upperPart.mp hm).2.2; rw [hc] at this; omega
                simp [this]
              rw [List.map_congr_left h1, List.map_id', List.map_congr_left h2, List.map_id']
              simp only [List.map_cons, List.map_nil, hp, hs, hb, beq_self_eq_true, Bool.and_self, if_true,
                List.cons_append, List.nil_append]
              refine hsc.2.left.putZone hU rfl (kindFits_zone (e := e) hs (hsc.2.fits e (by simp))) hp (upper_pending ha) hr hm hn
                (fun g hg => ?_) fun g hg => ?_
              · rw [mem_lowerPart] at hg
                show _ ≤ (b.toNat : Int)
                refine abs_below (hd g ?_) (by omega)
                have : g.boundary ≠ b := fun hc => by rw [hc] at hg; omega
                simp [otherZone, hg, this]
              · rw [mem_upperPart] at hg
                show (b.toNat : Int) + _ ≤ _
                refine abs_above (hd g ?_) (by omega)
                have : g.boundary ≠ b := fun hc => by rw [hc] at hg; omega
                simp [otherZone, hg, this]
    · rename_i hpn
      split
      · exact h
      · split
        · exact h
        · rename_i hz
          obtain ⟨hr, hd, hm, hn⟩ := zoneChecks_none hz
          obtain ⟨hde, _, hsub, _⟩ := discard_laws he
          have hdo := discard_offsetLaws h
          obtain ⟨hprior, hupper⟩ := discard_at he ha (.zone k)
          rw [← hprior, priorAt_eq] at hm
          rw [← hupper] at hn
          show OffsetLaws ((discardIfFull sched).1.withEntries (.zone k) (insertEntry
            { newEntry b (.zone k) .zoneShift z o false with state := entryStateFor f x b }
              (discardIfFull sched).1.entries))
          generalize hw : ({ newEntry b (.zone k) .zoneShift z o false with state := entryStateFor f x b } : Entry) = w
          have hws : w.scale = .zone k := by rw [← hw]; rfl
          have hwb : w.boundary = b := by rw [← hw]; rfl
          have hwk : w.kind = .zoneShift := by rw [← hw]; rfl
          have hwn : w.new = z := by rw [← hw]; rfl
          have hwp : w.pending = true := by
            rw [← hw]; unfold entryStateFor Entry.pending; split <;> rfl
          have haD : ∀ e ∈ (discardIfFull sched).1.entries, e.isApplied = true → e.boundary.toNat < b.toNat :=
            fun e hm => ha e (hsub.subset hm)
          have hne : ∀ e ∈ (discardIfFull sched).1.entries, e.scale = .zone k → e.boundary ≠ b := by
            intro e hm hs hb
            cases hae : e.isApplied
            · exact pendingAt_none hpn e (hsub.subset hm) (by rw [pending_eq_not_isApplied, hae]; rfl) ⟨hb, hs⟩
            · have := haD e hm hae; rw [hb] at this; omega
          have hfree : ∀ e ∈ (discardIfFull sched).1.entries, ¬ (w.boundary = e.boundary ∧ w.scale = e.scale) := by
            intro e hm hk
            exact hne e hm (hk.2.symm.trans hws) (hk.1.symm.trans hwb)
          have hins := ofScale_insertEntry hde.order hfree
          rw [hws, hwb] at hins
          have hcut := ofScale_cut hde.order (.zone k) b
          have hat : atPart (.zone k) b (discardIfFull sched).1.entries = [] := by
            rw [List.eq_nil_iff_forall_not_mem]
            intro e hm
            rw [mem_atPart] at hm
            exact hne e hm.1 hm.2.1 hm.2.2
          rw [hat, List.nil_append] at hcut
          have hsc := (offsetLaws_iff.mp hdo) (.zone k)
          rw [hcut] at hsc
          have hother : ∀ e ∈ (discardIfFull sched).1.entries, e.scale = .zone k → e ∈ otherZone sched k b := by
            intro e hm hs
            have := hne e hm hs
            simp [otherZone, hsub.subset hm, hs, this]
          refine offsetLaws_withEntries hdo (fun sc' hsc' => ofScale_insertEntry_other (by rw [hws]; exact hsc') _) ?_
          rw [hins]
          refine hsc.2.left.putZone hsc.2.right hws hwk hwp (upper_pending haD) (by rw [hwn]; exact hr)
            (by rw [hwn]; exact hm) (by rw [hwn]; exact hn) (fun g hg => ?_) fun g hg => ?_
          · rw [mem_lowerPart] at hg
            rw [hwb]
            exact abs_below (hd g (hother g hg.1 hg.2.1)) (by omega)
          · rw [mem_upperPart] at hg
            rw [hwb]
            exact abs_above (hd g (hother g hg.1 hg.2.1)) (by omega)

/-- A zone withdrawal keeps the laws of the offsets (R23). -/
theorem withdrawZone_offsetLaws {x : Second} {sched : Schedule} {k : ZoneNo} {b : Second} (h : OffsetLaws sched)
    (he : EntryLaws x sched.entries) : OffsetLaws (withdrawZone sched k b).sched := by
  unfold withdrawZone
  split
  · exact h
  · rename_i e hf
    split
    · exact h
    · rename_i happ
      split
      · exact h
      · dsimp only
        split
        · exact h
        · rename_i h1
          split
          · exact h
          · rename_i h2
            rw [← upperPart_head] at h1 h2
            have hmem := List.mem_of_find?_eq_some hf
            have hpc := List.find?_some hf
            simp only [Bool.and_eq_true, beq_iff_eq] at hpc
            obtain ⟨hs, hb⟩ := hpc
            have hcut := ofScale_cut he.order (.zone k) b
            have hat := atPart_of_mem he.order hmem
            rw [hs, hb] at hat
            rw [hat] at hcut
            have hsc := (offsetLaws_iff.mp h) (.zone k)
            rw [hcut] at hsc
            have hR := hsc.2.right
            have hprior : e.prior = endOffset (sched.base.offset (.zone k)) (lowerPart (.zone k) b sched.entries) :=
              hR.chain.1
            have hU : ScaleLaws _ (.zone k) (upperPart (.zone k) b sched.entries) := hR.tail
            have hpend : ∀ g ∈ upperPart (.zone k) b sched.entries, g.pending = true := by
              intro g hg
              have hafirst := appliedFirst_ofScale he.appliedFirst (.zone k)
              rw [hcut] at hafirst
              have := (List.pairwise_append.mp hafirst).2.1
              rw [List.cons_append, List.pairwise_cons] at this
              rw [pending_eq_not_isApplied]
              cases hga : g.isApplied
              · rfl
              · have := this.1 g (by simpa using hg) hga
                simp [Entry.isApplied] at this
                exact absurd this happ
            have hnext : NextFits (endOffset (sched.base.offset (.zone k)) (lowerPart (.zone k) b sched.entries))
                (upperPart (.zone k) b sched.entries) := by
              intro g hg
              rw [hg] at h1 h2
              rw [← hprior]
              simp at h1 h2
              exact ⟨h1, h2⟩
            have hL := hsc.2.left
            refine offsetLaws_withEntries h (fun sc' hne => ?_) ?_
            · rw [ofScale_filter, List.filter_eq_self]
              intro g hg
              have : g.scale ≠ .zone k := by rw [(mem_ofScale.mp hg).2]; exact hne.symm
              simp [this]
            · rw [ofScale_filter, hcut, List.filter_append, List.filter_append]
              have e1 : (lowerPart (.zone k) b sched.entries).filter
                  (fun g => !(g.scale == .zone k && g.boundary == b)) = lowerPart (.zone k) b sched.entries := by
                rw [List.filter_eq_self]
                intro g hg
                have : g.boundary ≠ b := fun hc => by
                  have := (mem_lowerPart.mp hg).2.2; rw [hc] at this; omega
                simp [this]
              have e2 : (upperPart (.zone k) b sched.entries).filter
                  (fun g => !(g.scale == .zone k && g.boundary == b)) = upperPart (.zone k) b sched.entries := by
                rw [List.filter_eq_self]
                intro g hg
                have : g.boundary ≠ b := fun hc => by
                  have := (mem_upperPart.mp hg).2.2; rw [hc] at this; omega
                simp [this]
              have e3 : [e].filter (fun g => !(g.scale == .zone k && g.boundary == b)) = [] := by simp [hs, hb]
              rw [e1, e2, e3, List.nil_append, reprior_chained _ hL.chain hL.scale]
              refine hL.append (hU.zoneTail hpend hnext) fun hne g hg g' hg' => ?_
              obtain ⟨u, hu, hub⟩ := reprior_boundary hg'
              rw [← hub]
              have := (List.pairwise_append.mp (hsc.2.spaced hne)).2.2 g hg u (by simp [hu])
              exact this

/-- Every judged request keeps the laws of the offsets. -/
theorem judgeRequest_offsetLaws {s : State} {r : Request} {v : Verdict} (h : OffsetLaws s.list.sched)
    (he : EntryLaws s.list.listSecond s.list.sched.entries) (hv : judgeRequest s r = some v) : OffsetLaws v.sched := by
  cases r <;> simp only [judgeRequest, Option.some.injEq, reduceCtorEq] at hv <;> subst hv
  · exact armCivil_offsetLaws h he
  · exact armZone_offsetLaws h he
  · exact replaceCivil_offsetLaws h he
  · exact withdrawCivil_offsetLaws h he
  · exact withdrawZone_offsetLaws h he

/-- An empty list has the laws when its base offsets are in range. -/
theorem offsetLaws_nil {b : BaseRecord} (h : ∀ sc, OffsetInRange sc (b.offset sc)) :
    OffsetLaws { entries := [], base := b } := by
  rw [offsetLaws_iff]
  exact fun sc => ⟨h sc, ⟨by simp [ofScale], trivial, by simp [ofScale], by simp [ofScale], by simp [ofScale],
    fun _ => .nil⟩⟩

/-- The base record a successful ACTIVATE sets is in range (R173, R177). -/
theorem activatedBase_range (g : GlobalConfig) (sc : Scale) : OffsetInRange sc ((activatedBase g).offset sc) := by
  cases sc with
  | civil =>
    have h1 := BitVec.toInt_lt (x := g.civilOffset)
    have h2 := BitVec.le_toInt (x := g.civilOffset)
    show Config.civilMin ≤ g.civilOffset.toInt ∧ g.civilOffset.toInt ≤ Config.civilMax
    unfold Config.civilMin Config.civilMax
    omega
  | zone k =>
    show -Config.zoneLimit ≤ (Vector.ofFn fun k => clampZone g.zoneOffsets[k].toInt)[k] ∧
      (Vector.ofFn fun k => clampZone g.zoneOffsets[k].toInt)[k] ≤ Config.zoneLimit
    simp only [Fin.getElem_fin, Vector.getElem_ofFn]
    unfold clampZone Config.zoneLimit
    split <;> [skip; split] <;> omega

end Sys2Proof.Machine
end

