-- ==== Sys2Proof/Laws/ListState.lean ====
section
/-! SUPPORT. The laws of the list across states whose list agrees: schedule and list second and claims and S. They cross
every memory operation. -/

namespace Sys2Proof.Machine

/-! ## What the laws of the list see of a state -/

/-- Schedule, list second, claims, S and RESET of two states agree. -/
structure SameList (s t : State) : Prop where
  sched : t.list.sched = s.list.sched
  listSecond : t.list.listSecond = s.list.listSecond
  claims : t.list.claims = s.list.claims
  coming : t.list.coming = s.list.coming
  second : t.sup.s = s.sup.s
  resetAsserted : t.resetAsserted = s.resetAsserted

theorem SameList.refl (s : State) : SameList s s := ⟨rfl, rfl, rfl, rfl, rfl, rfl⟩

theorem SameList.trans {s t u : State} (h : SameList s t) (k : SameList t u) : SameList s u :=
  ⟨k.sched.trans h.sched, k.listSecond.trans h.listSecond, k.claims.trans h.claims, k.coming.trans h.coming, k.second.trans h.second,
    k.resetAsserted.trans h.resetAsserted⟩

theorem AccessFrame.sameList {s t : State} (h : AccessFrame s t) : SameList s t :=
  ⟨h.sched, h.listSecond, h.claims, h.coming, congrArg Supervisor.s h.sup, h.resetAsserted⟩

theorem ListLaws.same {s t : State} (h : ListLaws s) (k : SameList s t)
    (hh : s.resetAsserted = true → s.path.held = none → t.path.held = none) : ListLaws t := by
  refine EntryLaws.listLaws ?_ ?_
  · rw [k.sched, k.listSecond]; exact h.entryLaws
  · have := h.claims
    unfold ClaimsLaw at this ⊢
    rw [k.resetAsserted, k.claims, k.coming, k.listSecond, k.second]
    split
    · rename_i hr
      rw [if_pos hr] at this
      exact ⟨this.1, this.2.1, hh hr this.2.2⟩
    · rename_i hr
      rw [if_neg hr] at this
      exact this

/-- Serving the card takes nothing while RESET is asserted. -/
theorem serve_reset {s : State} (h : s.resetAsserted = true) : serve s = s := serve_busy (by simp [pathFree, h])

theorem ListLaws.serve {s : State} (h : ListLaws s) : ListLaws (serve s) :=
  h.same (serve_frame s).sameList fun hr hn => by rw [serve_reset hr]; exact hn

/-! ## Operations that touch nothing of the list -/

theorem raise_same (es : List Event) (s : State) : SameList s (raise es s) := ⟨rfl, rfl, rfl, rfl, rfl, rfl⟩
theorem ask_same (q : Query) (s : State) : SameList s (ask q s) := ⟨rfl, rfl, rfl, rfl, rfl, rfl⟩
theorem request_same (r : Request) (who : Asker) (s : State) : SameList s (request r who s) := ⟨rfl, rfl, rfl, rfl, rfl, rfl⟩
theorem abandonClaims_same (who : Asker) (s : State) : SameList s (abandonClaims who s) := ⟨rfl, rfl, rfl, rfl, rfl, rfl⟩
theorem setIntake_same (s : State) (x : Intake) : SameList s (s.setIntake x) := ⟨rfl, rfl, rfl, rfl, rfl, rfl⟩
theorem setElection_same (s : State) (x : Election) : SameList s (s.setElection x) := ⟨rfl, rfl, rfl, rfl, rfl, rfl⟩
theorem setPatcher_same (s : State) (x : PortPatcher) : SameList s (s.setPatcher x) := ⟨rfl, rfl, rfl, rfl, rfl, rfl⟩
theorem setStatus_same (s : State) (x : StatusUnit) : SameList s (s.setStatus x) := ⟨rfl, rfl, rfl, rfl, rfl, rfl⟩
theorem setPath_same (s : State) (x : PathUnit) : SameList s (s.setPath x) := ⟨rfl, rfl, rfl, rfl, rfl, rfl⟩
theorem setWires_same (s : State) (x : Wires) : SameList s (s.setWires x) := ⟨rfl, rfl, rfl, rfl, rfl, rfl⟩
theorem setCounter_same (s : State) (x : Count) : SameList s (s.setCounter x) := ⟨rfl, rfl, rfl, rfl, rfl, rfl⟩
end Sys2Proof.Machine
end

