-- ==== Sys2Proof/Laws/Supervisor.lean ====
section
/-! SUPPORT. The Second Supervisor: what a mark and an expiry come to, and how a change of S reads as State.moved. -/

namespace Sys2Proof.Machine

@[simp] theorem State.captured_s (s : State) (x : Count) : (s.captured x).s = s.sup.s := rfl
@[simp] theorem State.captured_timeBase (s : State) (x : Count) : (s.captured x).timeBase = s.sup.timeBase := rfl
@[simp] theorem State.captured_p (s : State) (x : Count) : (s.captured x).p = s.sup.p := rfl
@[simp] theorem State.captured_missed (s : State) (x : Count) : (s.captured x).missed = s.sup.missed := rfl
@[simp] theorem State.captured_holdover (s : State) (x : Count) : (s.captured x).holdover = s.sup.holdover := rfl
@[simp] theorem State.captured_stray (s : State) (x : Count) : (s.captured x).stray = s.sup.stray := rfl
@[simp] theorem State.captured_disagree (s : State) (x : Count) : (s.captured x).disagree = s.sup.disagree := rfl

/-- S advanced by one, as the supervisor computes it. -/
theorem succSecond_eq (s : State) : succSecond s.sup.s = s.nextSecond := rfl

/-- The tolerance in use. -/
theorem tolerance_eq (s : State) : tolerance s = s.tol := rfl

/-- Setting S in a state whose other supervisor fields are already new: the supervisor moved to `new`. -/
theorem changeS_moved {n : Second} {new : Supervisor} {s t : State} (hn : n = new.s)
    (ht : t = s.setSup { new with s := s.sup.s }) : changeS n t = s.moved new [] := by
  subst ht hn
  by_cases h : new.s = s.sup.s
  · rcases new with ⟨⟩
    simp only at h
    subst h
    simp [changeS, State.moved, handOn, State.setSup, State.setList, State.setWires]
  · simp [changeS, State.moved, handOn, h, State.setSup, State.setList, State.setWires]

/-- Events raised after a move join those raised by it. -/
theorem raise_moved (new : Supervisor) (es fs : List Event) (s : State) :
    raise fs (s.moved new es) = s.moved new (es ++ fs) := by
  simp [raise, State.moved, State.setSup, State.setList, State.setWires]

/-- A count lies in the mark window. -/
theorem inWindow_iff (s : State) (x : Count) :
    inWindow s x = true ↔
      100000000 - s.tol ≤ (x - s.sup.p).toNat ∧ (x - s.sup.p).toNat ≤ 100000000 + s.tol := decide_eq_true_iff

/-- The open window has ended. -/
theorem windowOver_eq (s : State) :
    windowOver s = (hasWindow s.sup.timeBase && decide (100000000 + s.tol + 1 ≤ (s.counter - s.sup.p).toNat)) := rfl

/-- A mark is captured and then judged. -/
theorem exec_secondMark (e : Count) {s : State} (h : s.resetAsserted = false) :
    exec (.secondMark e) s = .next (judgeMark (s.counter + e) ((s.elapsed e).setSup (s.captured (s.counter + e)))) := by
  simp [exec, execSecondMark, mark, advanceCounter_eq, h, capture, State.captured]

/-- An expiry makes a substitute mark when the window has ended. -/
theorem exec_windowExpiry (e : Count) {s : State} (h : s.resetAsserted = false) :
    exec (.windowExpiry e) s =
      .next (if windowOver (s.elapsed e) then substituteMark (s.elapsed e) else s.elapsed e) := by
  simp only [exec, execWindowExpiry, windowExpiry, advanceCounter_eq, State.elapsed_resetAsserted, h]
  rfl

/-- A mark judged while a window exists: inside it, or a stray. -/
theorem judgeMark_window {s : State} (x : Count) (h : s.sup.timeBase = .locked ∨ s.sup.timeBase = .flywheel) :
    judgeMark x s = if inWindow s x then inWindowMark x s else strayMark x s := by
  rcases h with h | h <;> simp only [judgeMark, h]

/-- A stray after none. -/
theorem strayMark_none {s : State} (x : Count) (h : s.sup.stray = .none) :
    strayMark x s = s.setSup { s.sup with stray := .one x } := by simp only [strayMark, h]

/-- A stray after one. -/
theorem strayMark_one {s : State} (x : Count) {last : Count} (h : s.sup.stray = .one last) :
    strayMark x s = s.setSup { s.sup with
      stray := if nearNominal (tolerance s) (distance x last) then .two x else .one x } := by
  simp only [strayMark, h]
  split <;> rfl

/-- A stray after two. -/
theorem strayMark_two {s : State} (x : Count) {last : Count} (h : s.sup.stray = .two last) :
    strayMark x s = if nearNominal (tolerance s) (distance x last) then reAnchor x s
      else s.setSup { s.sup with stray := .one x } := by simp only [strayMark, h]

end Sys2Proof.Machine
end

