-- ==== Sys2Proof/Laws/Take.lean ====
section
/-! SUPPORT. The takes of the qualifier (R98): what handling a record leaves of the queues, that a take removes one record,
that none is due after the takes of one moment, and that they do not depend on the path, the answers and the card. -/

namespace Sys2Proof.Machine

/-! ## Queues -/

/-- Every queue is as it was. -/
def SameQueues (s t : State) : Prop := ∀ m : SourceNo, t.intake.sources[m].queue = s.intake.sources[m].queue

theorem SameQueues.refl (s : State) : SameQueues s s := fun _ => rfl

theorem SameQueues.trans {s t u : State} (h : SameQueues s t) (k : SameQueues t u) : SameQueues s u :=
  fun m => (k m).trans (h m)

/-- What stands in the queues is read from the sources alone. -/
theorem SameQueues.of_sources {s t u : State} (h : SameQueues s t) (e : u.intake.sources = t.intake.sources) :
    SameQueues s u := fun m => by rw [e]; exact h m

/-- An update of one source reads as its function at that source and leaves the others. -/
theorem updSource_source (n m : SourceNo) (f : Source → Source) (s : State) :
    (updSource n f s).intake.sources[m] = if m = n then f s.intake.sources[n] else s.intake.sources[m] := by
  show (s.intake.sources.set n (f s.intake.sources[n]))[m] = _
  by_cases h : m = n
  · subst h
    simp
  · have : n.val ≠ m.val := fun e => h (Fin.ext e.symm)
    simp [h, this]

theorem updSource_sameQueues {n : SourceNo} {f : Source → Source} {s : State} (h : ∀ x, (f x).queue = x.queue) :
    SameQueues s (updSource n f s) := by
  intro m
  rw [updSource_source]
  split
  · rename_i e
    rw [h, e]
  · rfl

theorem dispose_sameQueues (n : SourceNo) (o : DispositionOutcome) (q : BitVec 16) (a : Option ListAnswer) (s : State) :
    SameQueues s (dispose n o q a s) := updSource_sameQueues fun _ => rfl

theorem sourceFault_sameQueues (n : SourceNo) (f : SourceFlag) (s : State) : SameQueues s (sourceFault n f s) :=
  (updSource_sameQueues (n := n) (f := fun src => { src with flags := withFlag f src.flags }) fun _ => rfl).of_sources rfl

theorem hear_sameQueues (n : SourceNo) (a : Second) (s : State) : SameQueues s (hear n a s) := by
  have h : SameQueues s (updSource n (fun src => { src with
      lastHeard := some a
      state := if src.state = .waiting ∨ src.state = .silent then .listening else src.state }) s) :=
    updSource_sameQueues fun _ => rfl
  unfold hear
  dsimp only
  split
  · exact h.of_sources rfl
  · exact h

theorem count_sameQueues (n : SourceNo) (c : Content) (d : Bool) (a : Second) (s : State) :
    SameQueues s (count n c d a s) := updSource_sameQueues fun _ => rfl

theorem setQualifier_sameQueues (q : Option Qualifying) (s : State) :
    SameQueues s (s.setIntake { s.intake with qualifier := q }) := fun _ => rfl
theorem request_sameQueues (r : Request) (who : Asker) (s : State) : SameQueues s (request r who s) := fun _ => rfl
theorem ask_sameQueues (q : Query) (s : State) : SameQueues s (ask q s) := fun _ => rfl

theorem zoneSteps_sameQueues (n : SourceNo) (q : BitVec 16) (a : Second) (c : Content) (s : State) :
    SameQueues s (zoneSteps n q a c s) := by
  unfold zoneSteps
  dsimp only
  split
  · exact (dispose_sameQueues _ _ _ _ _).trans (setQualifier_sameQueues none _)
  · refine (count_sameQueues n c false a s).trans ?_
    generalize count n c false a s = u
    have h : SameQueues u (updSource n (fun src => { src with candidate := none }) u) :=
      updSource_sameQueues fun _ => rfl
    split
    · refine h.trans ?_
      generalize updSource n (fun src => { src with candidate := none }) u = v
      split
      · exact (setQualifier_sameQueues _ _).trans (request_sameQueues _ _ _)
      · exact setQualifier_sameQueues none _
    · exact (dispose_sameQueues _ _ _ _ _).trans (setQualifier_sameQueues none _)

/-- Handling a record leaves the queues alone (R97). -/
theorem handleRecord_sameQueues (n : SourceNo) (r : Record) (s : State) : SameQueues s (handleRecord n r s) := by
  unfold handleRecord
  dsimp only
  split
  · exact (sourceFault_sameQueues _ _ _).trans (dispose_sameQueues _ _ _ _ _)
  · refine (hear_sameQueues n (if r.preAcquisition = true then s.sup.s else r.arrival) s).trans ?_
    generalize hear n _ s = u
    have h : SameQueues u (updSource n (fun src => { src with candidate := none }) u) :=
      updSource_sameQueues fun _ => rfl
    exact h.trans (dispose_sameQueues _ _ _ _ _)
  · exact ((hear_sameQueues _ _ _).trans (setQualifier_sameQueues _ _)).trans (ask_sameQueues _ _)
  · exact (hear_sameQueues _ _ _).trans (zoneSteps_sameQueues _ _ _ _ _)

/-! ## The next source -/

/-- The source found is one with a record, or there is none and no source seen has one. -/
theorem betterWaiting_foldl (s : State) (l : List SourceNo) (best : Option SourceNo)
    (hb : ∀ b, best = some b → s.intake.sources[b].queue ≠ []) :
    (∀ n, l.foldl (betterWaiting s) best = some n → s.intake.sources[n].queue ≠ []) ∧
      (l.foldl (betterWaiting s) best = none → best = none ∧ ∀ n ∈ l, s.intake.sources[n].queue = []) := by
  induction l generalizing best with
  | nil => exact ⟨hb, fun h => ⟨h, by simp⟩⟩
  | cons m l ih =>
    have hb' : ∀ b, betterWaiting s best m = some b → s.intake.sources[b].queue ≠ [] := by
      intro b h
      unfold betterWaiting at h
      split at h
      · exact hb b h
      · rename_i hq
        split at h
        · cases h
          simpa using hq
        · split at h
          · cases h
            simpa using hq
          · cases h
            exact hb _ rfl
    refine ⟨(ih _ hb').1, fun h => ?_⟩
    obtain ⟨h1, h2⟩ := (ih _ hb').2 h
    unfold betterWaiting at h1
    split at h1
    · rename_i hq
      refine ⟨h1, fun n hn => ?_⟩
      rcases List.mem_cons.mp hn with e | e
      · rw [e]
        simpa using hq
      · exact h2 n e
    · split at h1
      · cases h1
      · split at h1 <;> cases h1

/-- The source a take names has a record. -/
theorem nextSource_some {s : State} {n : SourceNo} (h : nextSource s = some n) : s.intake.sources[n].queue ≠ [] :=
  (betterWaiting_foldl s _ none (by simp)).1 n h

/-- There is none exactly when every queue is empty. -/
theorem nextSource_none {s : State} : nextSource s = none ↔ ∀ n : SourceNo, s.intake.sources[n].queue = [] := by
  constructor
  · intro h n
    exact ((betterWaiting_foldl s _ none (by simp)).2 h).2 n (List.mem_finRange n)
  · intro h
    cases e : nextSource s with
    | none => rfl
    | some n => exact absurd (h n) (nextSource_some e)

/-! ## One take -/

/-- The conditions of a take, one by one (R98). -/
theorem canTake_iff {s : State} : canTake s = true ↔
    s.resetAsserted = false ∧ s.status.part = .active ∧ s.sup.timeBase ≠ .unset ∧ s.intake.qualifier = none := by
  unfold canTake isActive
  simp only [Bool.and_eq_true, bne_iff_ne, beq_iff_eq, Option.isNone_iff_eq_none, Bool.not_eq_true']
  tauto

/-- No take is due exactly when none can be made or every queue is empty. -/
theorem noTakeDue_iff {s : State} : NoTakeDue s ↔ (canTake s = true → nextSource s = none) := by
  rw [canTake_iff, nextSource_none]
  exact ⟨fun h k => h k.1 k.2.1 k.2.2.1 k.2.2.2, fun h a b c d => h ⟨a, b, c, d⟩⟩

/-- With no take due nothing is taken. -/
theorem takeRecord_of_noTakeDue {s : State} (h : NoTakeDue s) : takeRecord s = s := by
  unfold takeRecord
  split
  · rename_i hc
    rw [noTakeDue_iff.mp h hc]
  · rfl

/-- The count of a sum in which one term falls by one. -/
theorem sum_map_lower {α : Type} (l : List α) (f g : α → Nat) (a : α) (hd : l.Nodup) (ha : a ∈ l)
    (hf : f a = g a + 1) (ho : ∀ b ∈ l, b ≠ a → f b = g b) : (l.map f).sum = (l.map g).sum + 1 := by
  induction l with
  | nil => cases ha
  | cons x l ih =>
    obtain ⟨hx, hd⟩ := List.nodup_cons.mp hd
    rcases List.mem_cons.mp ha with e | e
    · subst e
      have : l.map f = l.map g := List.map_congr_left fun b hb =>
        ho b (List.mem_cons_of_mem _ hb) fun h => hx (h ▸ hb)
      simp only [List.map_cons, List.sum_cons, this, hf]
      omega
    · have hne : x ≠ a := fun h => hx (h ▸ e)
      simp only [List.map_cons, List.sum_cons, ho x (List.mem_cons_self ..) hne,
        ih hd e fun b hb => ho b (List.mem_cons_of_mem _ hb)]
      omega

/-- A take that can be made removes one record. -/
theorem queuedRecords_takeRecord {s : State} {n : SourceNo} (hc : canTake s = true) (hn : nextSource s = some n) :
    queuedRecords s = queuedRecords (takeRecord s) + 1 := by
  obtain ⟨r, rest, hq⟩ := List.exists_cons_of_ne_nil (nextSource_some hn)
  have ht : takeRecord s = handleRecord n r (updSource n (fun src => { src with queue := rest }) s) := by
    unfold takeRecord
    rw [if_pos hc, hn]
    dsimp only
    rw [hq]
  have hsame := handleRecord_sameQueues n r (updSource n (fun src => { src with queue := rest }) s)
  unfold queuedRecords
  refine sum_map_lower _ _ _ n (List.nodup_finRange 8) (List.mem_finRange n) ?_ ?_
  · rw [ht, hsame n, updSource_source, if_pos rfl, hq]
    rfl
  · intro b _ hb
    rw [ht, hsame b, updSource_source, if_neg hb]

/-! ## The takes of one moment -/

theorem takeRecords_of_noTakeDue (k : Nat) {s : State} (h : NoTakeDue s) : takeRecords k s = s := by
  induction k with
  | zero => rfl
  | succ k ih =>
    show takeRecords k (takeRecord s) = s
    rw [takeRecord_of_noTakeDue h, ih]

/-- With no take due the qualifier takes nothing (R98). -/
theorem qualifierTake_of_noTakeDue {s : State} (h : NoTakeDue s) : qualifierTake s = s := takeRecords_of_noTakeDue _ h

/-- A busy qualifier takes nothing (R98). -/
theorem qualifierTake_of_busy {s : State} {q : Qualifying} (h : s.intake.qualifier = some q) : qualifierTake s = s :=
  qualifierTake_of_noTakeDue fun _ _ _ k => by rw [h] at k; cases k

/-- With every queue empty nothing is taken (R98). -/
theorem qualifierTake_of_empty {s : State} (h : ∀ n : SourceNo, s.intake.sources[n].queue = []) : qualifierTake s = s :=
  qualifierTake_of_noTakeDue fun _ _ _ _ => h

/-- The takes of a moment are its first take and then the takes that follow it (R98). -/
theorem qualifierTake_eq (s : State) : qualifierTake s = qualifierTake (takeRecord s) := by
  by_cases h : NoTakeDue s
  · rw [takeRecord_of_noTakeDue h]
  · rw [noTakeDue_iff] at h
    push Not at h
    obtain ⟨hc, hn⟩ := h
    obtain ⟨n, hn⟩ := Option.ne_none_iff_exists'.mp hn
    unfold qualifierTake
    rw [queuedRecords_takeRecord hc hn]
    rfl

theorem noTakeDue_takeRecords (k : Nat) (s : State) (h : queuedRecords s ≤ k) : NoTakeDue (takeRecords k s) := by
  induction k generalizing s with
  | zero =>
    refine noTakeDue_iff.mpr fun hc => ?_
    by_contra hn
    obtain ⟨n, hn⟩ := Option.ne_none_iff_exists'.mp hn
    have := queuedRecords_takeRecord (s := s) hc hn
    omega
  | succ k ih =>
    by_cases hd : NoTakeDue s
    · rwa [takeRecords_of_noTakeDue _ hd]
    · rw [noTakeDue_iff] at hd
      push Not at hd
      obtain ⟨hc, hn⟩ := hd
      obtain ⟨n, hn⟩ := Option.ne_none_iff_exists'.mp hn
      have := queuedRecords_takeRecord hc hn
      exact ih _ (by omega)

/-- After the takes of a moment none is due (R98). -/
theorem noTakeDue_qualifierTake (s : State) : NoTakeDue (qualifierTake s) := noTakeDue_takeRecords _ s le_rfl

/-! ## What the takes do not depend on -/

/-- An update of parts of the state that no take reads or writes: path, answers, card and queue of commands. -/
def State.outer (s : State) (p : PathUnit) (a : List SysAnswer) (c : List Access) (q : List Instr) : State :=
  (((s.setPath p).setAnswers a).setCard c).setPending q

section Outer

variable (s : State) (p : PathUnit) (a : List SysAnswer) (c : List Access) (q : List Instr)

theorem updSource_outer (n : SourceNo) (f : Source → Source) :
    updSource n f (s.outer p a c q) = (updSource n f s).outer p a c q := rfl
theorem setIntake_outer (x : Intake) : (s.outer p a c q).setIntake x = (s.setIntake x).outer p a c q := rfl
theorem setWires_outer (x : Wires) : (s.outer p a c q).setWires x = (s.setWires x).outer p a c q := rfl
theorem setList_outer (x : ChangeList) : (s.outer p a c q).setList x = (s.setList x).outer p a c q := rfl
theorem outer_intake : (s.outer p a c q).intake = s.intake := rfl
theorem outer_status : (s.outer p a c q).status = s.status := rfl
theorem outer_sup : (s.outer p a c q).sup = s.sup := rfl
theorem outer_wires : (s.outer p a c q).wires = s.wires := rfl
theorem outer_list : (s.outer p a c q).list = s.list := rfl
theorem outer_resetAsserted : (s.outer p a c q).resetAsserted = s.resetAsserted := rfl

theorem hear_outer (n : SourceNo) (x : Second) : hear n x (s.outer p a c q) = (hear n x s).outer p a c q := by
  unfold hear
  show (if s.intake.sources[n].state = .silent then _ else _) =
    State.outer (if s.intake.sources[n].state = .silent then _ else _) p a c q
  split_ifs <;> rfl

theorem zoneSteps_outer (n : SourceNo) (e : BitVec 16) (x : Second) (d : Content) :
    zoneSteps n e x d (s.outer p a c q) = (zoneSteps n e x d s).outer p a c q := by
  unfold zoneSteps
  show (if tooSoon (spacing s) s.intake.sources[n].lastCounted x then _
      else if confirmCount s n ≤ (countCandidate (confirmCount s n) s.intake.sources[n].candidate d false).count then _
      else _) =
    State.outer (if tooSoon (spacing s) s.intake.sources[n].lastCounted x then _
      else if confirmCount s n ≤ (countCandidate (confirmCount s n) s.intake.sources[n].candidate d false).count then _
      else _) p a c q
  split_ifs
  · rfl
  · cases zoneRequest n d <;> rfl
  · rfl

theorem handleRecord_outer (n : SourceNo) (r : Record) :
    handleRecord n r (s.outer p a c q) = (handleRecord n r s).outer p a c q := by
  unfold handleRecord
  simp only [zoneCount, dispose, sourceFault, raise, ask, hear_outer, zoneSteps_outer, updSource_outer, setIntake_outer,
    setWires_outer, setList_outer, outer_intake, outer_status, outer_wires, outer_list, outer_sup]
  cases readRecord s.status.config.glob.zoneCount.toNat s.status.config.sources[n].kind r.words with
  | none => rfl
  | some x =>
    cases x with
    | leap o change => cases o <;> rfl
    | zone x => rfl

end Outer

theorem takeRecord_outer (s : State) (p : PathUnit) (a : List SysAnswer) (c : List Access) (q : List Instr) :
    takeRecord (s.outer p a c q) = (takeRecord s).outer p a c q := by
  unfold takeRecord
  show (if canTake s then match nextSource s with
    | none => _
    | some n => match s.intake.sources[n].queue with
      | [] => _
      | r :: rest => handleRecord n r ((updSource n (fun src => { src with queue := rest }) s).outer p a c q)
    else _) = _
  split
  · cases nextSource s with
    | none => rfl
    | some n =>
      dsimp only
      cases s.intake.sources[n].queue with
      | nil => rfl
      | cons r rest => exact handleRecord_outer _ _ _ _ _ _ _
  · rfl

/-- The takes of a moment commute with the path, the answers, the card and the queue of commands. -/
theorem qualifierTake_outer (s : State) (p : PathUnit) (a : List SysAnswer) (c : List Access) (q : List Instr) :
    qualifierTake (s.outer p a c q) = (qualifierTake s).outer p a c q := by
  have h : ∀ (k : Nat) (s : State), takeRecords k (s.outer p a c q) = (takeRecords k s).outer p a c q := by
    intro k
    induction k with
    | zero => exact fun _ => rfl
    | succ k ih =>
      intro s
      show takeRecords k (takeRecord (s.outer p a c q)) = _
      rw [takeRecord_outer, ih]
      rfl
  exact h _ s

end Sys2Proof.Machine
end

