-- ==== Sys2Proof/Tests/Slice0.lean ====
section
/-! SUPPORT. Tests: an ill-formed term for every check of WellFormed, small one-step tests from the worked examples of the
spec, and for every statement with hypotheses a concrete state and operands that meet them (boundary values where a
clause has a range). -/

namespace Sys2Proof.Machine.Tests

set_option Elab.async false

/-! ## Small states -/

/-- ACTIVE, everything else as after reset. -/
def act : State := State.reset.setStatus { StatusUnit.reset with part := .active }

/-- RESET asserted. -/
def held : State := State.reset.setResetAsserted true

/-- ACTIVE with global fields replaced. -/
def actWith (g : GlobalConfig) : State :=
  State.reset.setStatus { StatusUnit.reset with part := .active, config := { ConfigCopy.default with glob := g } }

/-- ACTIVE with a time base of state `tb` anchored at count 0 in second `x`, with a stray run. -/
def base (tb : TimeBase) (x : Second) (stray : StrayRun) : State :=
  act.setSup { Supervisor.reset with s := x, timeBase := tb, stray := stray }

/-- A civil entry. -/
def civil (b : Second) (k : LeapKind) (prior new : Int) (st : EntryState) : Entry :=
  { boundary := b, scale := .civil, kind := .leap k, prior := prior, new := new, origin := 0, state := st, late := false,
    steppedOver := false, gridDated := false }

/-- An entry of zone 0. -/
def zone0 (b : Second) (prior new : Int) (st : EntryState) : Entry :=
  { boundary := b, scale := .zone 0, kind := .zoneShift, prior := prior, new := new, origin := 0, state := st,
    late := false, steppedOver := false, gridDated := false }

/-- ACTIVE with entries in the list and the list second at `x`, S being the same. -/
def listAt (x : Second) (es : List Entry) : State :=
  (act.setList { ChangeList.reset with sched := { entries := es, base := .reset }, listSecond := x }).setSup
    { Supervisor.reset with s := x, timeBase := .locked }

/-- The state with one request at the head of the list's queue. -/
def asking (r : Request) (who : Asker) (s : State) : State :=
  s.setList { s.list with requests := [{ request := r, asker := who }] }

/-- The next state of an outcome, where there is one. -/
def after : Host.Outcome State Fault Refusal → Option State
  | .next s => some s
  | .fault _ => none
  | .refused _ => none

/-- The state a command leads to from reset-like states where every command answers next. -/
def run (c : Instr) (s : State) : State := (after (exec c s)).getD s

theorem ready_reset : Ready State.reset := ⟨rfl, rfl, rfl, rfl, rfl, rfl⟩
theorem ready_act : Ready act := ⟨rfl, rfl, rfl, rfl, rfl, rfl⟩
theorem ready_base (tb : TimeBase) (x : Second) (r : StrayRun) : Ready (base tb x r) := ⟨rfl, rfl, rfl, rfl, rfl, rfl⟩
theorem ready_listAt (x : Second) (es : List Entry) : Ready (listAt x es) := ⟨rfl, rfl, rfl, rfl, rfl, rfl⟩

/-! ## Ill-formed terms -/

theorem test_wf_access_read_with_data :
    Access.wf { master := 0, addr := 0, dir := .read, shape := .beat .one, data := [0#8] } = false := by decide
theorem test_wf_access_write_too_short :
    Access.wf { master := 0, addr := 0, dir := .write, shape := .beat .two, data := [0#8] } = false := by decide
theorem test_wf_forwarded_access :
    Instr.wf (.forwardedAccess { master := 0, addr := 0, dir := .write, shape := .burst 7, data := [] }) = false := by
  decide
theorem test_wf_region_write_length : Instr.wf (.regionWrite 0 0x2000#16 (.beat .eight) [0#8]) = false := by decide
theorem test_wf_configuration_write_length :
    Instr.wf (.configurationWrite 0 0#16 (.beat .one) []) = false := by decide
theorem test_wf_configuration_write_window :
    Instr.wf (.configurationWrite 0 0x0400#16 (.beat .one) [0#8]) = false := by decide
theorem test_wf_port_shadow_write_window :
    Instr.wf (.portShadowWrite 0 0x01FF#16 (.beat .one) [0#8]) = false := by decide
theorem test_wf_port_shadow_write_length : Instr.wf (.portShadowWrite 0 0x0200#16 (.beat .one) []) = false := by decide
theorem test_wf_intake_write_window : Instr.wf (.intakeSlotWrite 0 0x0900#16 (.beat .one) [0#8]) = false := by decide
theorem test_wf_intake_write_length : Instr.wf (.intakeSlotWrite 0 0x0800#16 (.beat .one) []) = false := by decide
theorem test_wf_memory_error_with_data : Instr.wf (.memoryAnswer false [0#8]) = false := by decide
theorem test_wf_status_read_window : Instr.wf (.statusRead 0 0x2000#16 (.beat .eight)) = false := by decide
theorem test_wf_announcement_read_window :
    Instr.wf (.announcementBlockRead 0 0x2400#16 (.beat .eight)) = false := by decide
theorem test_wf_time_view_read_window : Instr.wf (.timeViewRead 0 0xF000#16 (.beat .eight)) = false := by decide
theorem test_wf_view_0_write_window : Instr.wf (.view0Write 0 0x9000#16 (.beat .one) [0#8]) = false := by decide
theorem test_wf_view_0_write_length : Instr.wf (.view0Write 0 0x8000#16 (.beat .one) []) = false := by decide
theorem test_wf_converted_write_window :
    Instr.wf (.convertedViewWrite 0 0x8FFF#16 (.beat .one) [0#8]) = false := by decide
theorem test_wf_converted_write_length : Instr.wf (.convertedViewWrite 0 0x9000#16 (.beat .one) []) = false := by decide
theorem test_wf_unknown_code : Instr.wf (.unknownCommandCode 0 (.beat .eight) 6#8 0#56) = false := by decide
theorem test_wf_status_read : Instr.wf (.statusRead 0 0x1000#16 (.beat .eight)) = true := by decide

/-! ## Decoding: no word spells a command -/

theorem test_decode_none (nbits w : Nat) : decodeTableWord nbits w = none := rfl
theorem test_withFetchWord (s : State) (nbits w : Nat) : s.withFetchWord nbits w = s := rfl

/-! ## Hypotheses met: one step, RESET, the supervisor -/

theorem test_meets_StepRunsTheFrontCommand : State.reset.pending = [] := rfl

theorem test_meets_ResetReleaseSetsTheResetValues :
    State.reset.resetAsserted = false ∧ held.resetAsserted = true ∧ held.card = [] := by decide +kernel

/-- ACTIVE, and memory still owes the answer to an access issued before a reset. -/
def owing : State :=
  act.setPath { act.path with
    outstanding := some { master := 3, addr := 0#24, dir := .read, shape := .beat .one, data := [] }, stale := true }

theorem test_meets_ResetAssertAbandonsWorkInFlight :
    held.resetAsserted = true ∧ State.reset.resetAsserted = false ∧ owing.resetAsserted = false ∧
      owing.path.outstanding ≠ none := by decide +kernel

theorem test_meets_NothingIsTakenWhileResetIsAsserted :
    held.resetAsserted = true ∧
      accessOf held (.statusRead 0 0x1000#16 (.beat .eight)) =
        some (regionAccess held 0 0x1000#16 .read (.beat .eight) []) := by decide +kernel

theorem test_meets_MarkBeforeLockIsCapturedAndLocks :
    act.resetAsserted = false ∧ act.sup.timeBase = .unset ∧
      (base .acquiring 5#48 .none).resetAsserted = false ∧ (base .acquiring 5#48 .none).sup.timeBase = .acquiring := by
  decide +kernel

/-- Both ends of the window [N - tol, N + tol], in LOCKED and FLYWHEEL. -/
theorem test_meets_InWindowMarkAdvancesTheSecond :
    ∀ tb ∈ [TimeBase.locked, TimeBase.flywheel], ∀ n ∈ [99998000, 100002000],
      let e := BitVec.ofNat 32 n
      let s := base tb 5#48 .none
      s.resetAsserted = false ∧ s.sup.timeBase = tb ∧
        100000000 - s.tol ≤ (s.counter + e - s.sup.p).toNat ∧ (s.counter + e - s.sup.p).toNat ≤ 100000000 + s.tol := by
  decide +kernel

/-- Just outside the window on both sides, with runs of 0, 1 and 2 strays, the last stray as near and as far as the bounds
of N within tol. -/
theorem test_meets_StrayMarksReAnchorAtTheThird :
    ∀ tb ∈ [TimeBase.locked, TimeBase.flywheel], ∀ n ∈ [99997999, 100002001],
      let e := BitVec.ofNat 32 n
      ∀ r ∈ [StrayRun.none, .one (e - 99998000#32), .one (e - 99997999#32), .two (e - 100002000#32),
        .two (e - 100002001#32)],
      let s := base tb 5#48 r
      s.resetAsserted = false ∧ (s.sup.timeBase = .locked ∨ s.sup.timeBase = .flywheel) ∧ s.sup.stray = r ∧
        ¬ (100000000 - s.tol ≤ (s.counter + e - s.sup.p).toNat ∧
          (s.counter + e - s.sup.p).toNat ≤ 100000000 + s.tol) := by decide +kernel

/-- The last count of the window and the expiry count. -/
theorem test_meets_WindowExpiryMakesASubstituteMark :
    (∀ tb ∈ [TimeBase.locked, TimeBase.flywheel],
      let s := base tb 5#48 .none
      s.resetAsserted = false ∧ s.sup.timeBase = tb ∧
        100000000 + s.tol + 1 ≤ (s.counter + 100002001#32 - s.sup.p).toNat ∧
        ¬ 100000000 + s.tol + 1 ≤ (s.counter + 100002000#32 - s.sup.p).toNat) ∧
      act.sup.timeBase = .unset := by decide +kernel

theorem test_meets_MarkAndExpiryAgreeInEitherOrder :
    ∀ tb ∈ [TimeBase.locked, TimeBase.flywheel], ∀ n ∈ [100002001, 149999999],
      let e := BitVec.ofNat 32 n
      let s := base tb 5#48 .none
      s.resetAsserted = false ∧ (s.sup.timeBase = .locked ∨ s.sup.timeBase = .flywheel) ∧
        100000000 + s.tol + 1 ≤ (s.counter + e - s.sup.p).toNat ∧ (s.counter + e - s.sup.p).toNat < 150000000 := by
  decide +kernel

/-- All four time-base states; in the last two an equal second, a difference that ends the run of disagreements or meets
resync pending, and one that does neither. -/
theorem test_meets_LiveWriteSetsOrChecksTheSecond :
    Ready (base .unset 0#48 .none) ∧ Ready (base .acquiring 0#48 .none) ∧ Ready (base .locked 0#48 .none) ∧
      act.status.part = .active ∧ field (0#64 : Word) 6 8 = 0#8 ∧ (field (0#64 : Word) 5 48 : Second) = 0#48 ∧
      (∀ d ∈ [(0 : Nat), 2],
        let s := (base .flywheel 5#48 .none).setSup { (base .flywheel 5#48 .none).sup with disagree := d }
        (field (0#64 : Word) 5 48 : Second) ≠ s.sup.s ∧
          (s.sup.disagree + 1 = max s.status.config.glob.resyncCount.toNat 1 ↔ d = 2)) :=
  ⟨ready_base _ _ _, ready_base _ _ _, ready_base _ _ _, by decide +kernel, by decide +kernel, by decide +kernel, by decide +kernel⟩

/-! ## Hypotheses met: accesses -/

/-- Part ACTIVE, region at page 1: the access that ends just below the region, the one just above it. And TRANSPARENT: a
read in the region. -/
theorem test_meets_ForwardedAccessIsPassedOnUnchanged :
    let s := act.setStraps { page := 1#8, control := 0#4 }
    Ready s ∧ Ready State.reset ∧
      (∀ n ∈ [0x00FFF8, 0x020000],
        let a : Access := { master := 1, addr := BitVec.ofNat 24 n, dir := .read, shape := .beat .eight, data := [] }
        a.wf = true ∧ (a.addr.toNat + a.shape.bytes ≤ s.straps.page.toNat * 0x10000 ∨
          s.straps.page.toNat * 0x10000 + 0x10000 ≤ a.addr.toNat)) ∧
      (let a : Access := { master := 1, addr := 0x000000#24, dir := .write, shape := .beat .one, data := [1#8] }
      a.wf = true ∧ State.reset.status.part = .transparent ∧
        touches a (regionBase State.reset) 0x1000 0x1FFF = false ∧ a.master ≠ State.reset.straps.control) ∧
      owing.path.held = none ∧ owing.path.toIssue = [] ∧ owing.card = [] ∧ owing.path.outstanding ≠ none ∧
      owing.path.stale = true ∧ owing.straps.page.toNat * 0x10000 + 0x10000 ≤ 0x010000 :=
  ⟨⟨rfl, rfl, rfl, rfl, rfl, rfl⟩, ready_reset, by decide +kernel, by decide +kernel, rfl, rfl, rfl, by decide +kernel, rfl,
    by decide +kernel⟩

/-- One access for each kind that a check refuses. -/
theorem test_meets_RefusedAccessIsRecordedAndAnswered :
    Ready act ∧ ∀ c ∈ [
        (Instr.refusedRegionRead 0 0x0400#16 (.beat .eight), FaultKind.badAddress),
        (.statusRead 0 0x1000#16 (.beat .one), .badSize),
        (.regionWrite 1 0x2000#16 (.beat .eight) (List.replicate 8 0#8), .notOwner),
        (.configurationWrite 0 0x0000#16 (.beat .eight) (List.replicate 8 0#8), .configLocked),
        (.convertedViewWrite 0 0x9010#16 (.beat .eight) (List.replicate 8 0#8), .splitWrite),
        (.convertedViewWrite 0 0xE010#16 (.beat .eight) (List.replicate 8 0#8), .viewReadOnly)],
      ∃ a, accessOf act c.1 = some a ∧ isChecked act a = true ∧ checkAccess act a = some c.2 := by
  refine ⟨ready_act, ?_⟩
  intro c hc
  fin_cases hc <;> exact ⟨_, rfl, by decide +kernel, by decide +kernel⟩

/-- ACTIVE with the region at page 1. -/
def paged : State := act.setStraps { page := 1#8, control := 0#4 }

/-- The numeric clauses, each at a bound of its range, with what refuses the access: an access that starts below the region
and reaches into it; the ends of the unassigned ranges, the view of an absent zone, a status write beside the command word;
misaligned beats and bursts, a burst past its window and past the region, a long command write, word 1 of two records in
one burst; the status page, the announcement blocks, the last slot and record 0 written by a foreign master; the last source
byte; views 6, 1 and 5. -/
theorem test_meets_RefusedAccessIsRecordedAndAnswered_by_number :
    Ready paged ∧ paged.status.part = .active ∧
      (let a : Access := { master := 0, addr := 0x00FFF8#24, dir := .read, shape := .burst 1, data := [] }
      a.addr.toNat < 0x10000 ∧ 0x10000 < a.addr.toNat + a.shape.bytes ∧ checkAccess paged a = some .badSize) ∧
      ∀ x ∈ [
        ((0 : Master), 0x0400, Dir.read, Shape.beat .eight, FaultKind.badAddress), (0, 0x2400, .read, .beat .eight, .badAddress),
        (0, 0xA000, .read, .beat .eight, .badAddress), (0, 0x1FF0, .write, .beat .eight, .badAddress),
        (0, 0x1004, .read, .beat .eight, .badSize), (0, 0x2004, .read, .burst 0, .badSize),
        (0, 0x23F8, .read, .burst 1, .badSize), (0, 0x8008, .read, .burst 1, .badSize), (0, 0xEFF8, .read, .burst 1, .badSize),
        (0, 0x8004, .read, .beat .four, .badSize), (0, 0x1FF8, .write, .beat .four, .badSize),
        (1, 0x1FF8, .write, .burst 0, .notOwner), (1, 0x2000, .write, .beat .eight, .notOwner),
        (1, 0x08E0, .write, .beat .eight, .notOwner), (1, 0x8000, .write, .beat .eight, .notOwner),
        (0, 0x9000, .write, .burst 1, .notOwner), (0, 0x01F8, .write, .beat .eight, .configLocked),
        (0, 0xE010, .write, .burst 1, .viewReadOnly), (0, 0x9018, .write, .beat .eight, .splitWrite)],
        let a := regionAccess paged x.1 (BitVec.ofNat 16 x.2.1) x.2.2.1 x.2.2.2.1 []
        a.addr.toNat - 0x10000 = x.2.1 ∧ checkAccess paged a = some x.2.2.2.2 :=
  ⟨⟨rfl, rfl, rfl, rfl, rfl, rfl⟩, rfl, by decide +kernel, by decide +kernel⟩

/-- The ends of every unassigned range and of the views of absent zones, and the offsets beside them. -/
theorem test_meets_RegionReadsAreRefusedByAddressThenShape :
    Ready act ∧ act.status.part = .active ∧ act.status.config.glob.zoneCount = 0#3 ∧
      (∀ o ∈ [0x0400, 0x07FF, 0x0900, 0x0FFF, 0x2400, 0x7FFF, 0xF000, 0xFFFF],
        (0x0400 ≤ o ∧ o ≤ 0x07FF) ∨ (0x0900 ≤ o ∧ o ≤ 0x0FFF) ∨ (0x2400 ≤ o ∧ o ≤ 0x7FFF) ∨ 0xF000 ≤ o) ∧
      (∀ o ∈ [0xA000, 0xDFFF], 0xA000 ≤ o ∧ o ≤ 0xDFFF ∧ act.status.config.glob.zoneCount.toNat ≤ (o - 0xA000) / 0x1000) ∧
      ∀ o ∈ [0x03FF, 0x0800, 0x08FF, 0x1000, 0x23FF, 0x8000, 0x9FFF, 0xE000, 0xEFFF],
        ¬ ((0x0400 ≤ o ∧ o ≤ 0x07FF) ∨ (0x0900 ≤ o ∧ o ≤ 0x0FFF) ∨ (0x2400 ≤ o ∧ o ≤ 0x7FFF) ∨ 0xF000 ≤ o) ∧
          ¬ (0xA000 ≤ o ∧ o ≤ 0xDFFF) := by
  refine ⟨ready_act, rfl, rfl, by decide +kernel, by decide +kernel, by decide +kernel⟩

theorem test_meets_UnknownCommandCodeIsRefused :
    Ready act ∧ Ready State.reset ∧ (∀ code ∈ [0#8, 7#8, 255#8], code = 0#8 ∨ 7 ≤ code.toNat) ∧
      isEight (.beat .four) = false ∧ isEight (.beat .eight) = true ∧ isEight (.burst 0) = true ∧
      (1#4 : Master) ≠ act.straps.control ∧
      accessOf act (.portTransfer 1 (.beat .four) 0#40 2#8 3#8) =
        some (commandAccess act 1 (.beat .four) 6#8 0x0203#56) ∧
      Instr.activate 1 (.beat .four) 0#56 ∈ [Instr.activate 1 (.beat .four) 0#56] :=
  ⟨ready_act, ready_reset, by decide +kernel, by decide +kernel, by decide +kernel, by decide +kernel, by decide +kernel,
    by decide +kernel, List.mem_singleton.mpr rfl⟩

/-- The first and the last aligned write of the window. -/
theorem test_meets_AnnouncementWriteReachesMemoryOnly :
    Ready act ∧ act.status.part = .active ∧ ∀ x ∈ [(0x2000#16, Shape.burst 7), (0x23FC#16, .beat .four)],
      PlainShape x.2 x.1 ∧ 0x2000 ≤ x.1.toNat ∧ x.1.toNat + x.2.bytes ≤ 0x2400 ∧
        (List.replicate x.2.bytes 0#8).length = x.2.bytes := by
  refine ⟨ready_act, rfl, ?_⟩
  intro x hx
  fin_cases hx
  · exact ⟨.inr (.inr ⟨7, rfl, by decide +kernel⟩), by decide +kernel, by decide +kernel, by decide +kernel⟩
  · exact ⟨.inr (.inl ⟨rfl, by decide +kernel⟩), by decide +kernel, by decide +kernel, by decide +kernel⟩

/-- TRANSPARENT, from the control master and from another; ACTIVE at both ends of the locked areas. -/
theorem test_meets_ConfigurationWriteIsSnoopedOrLocked :
    Ready State.reset ∧ Ready act ∧ State.reset.status.part = .transparent ∧ act.status.part = .active ∧
      (0#4 : Master) = act.straps.control ∧ (1#4 : Master) ≠ act.straps.control ∧
      PlainShape (.beat .four) 0x0000#16 ∧ PlainShape (.beat .four) 0x01FC#16 ∧ PlainShape (.beat .four) 0x03FC#16 :=
  ⟨ready_reset, ready_act, rfl, rfl, rfl, by decide +kernel, .inr (.inl ⟨rfl, by decide +kernel⟩), .inr (.inl ⟨rfl, by decide +kernel⟩),
    .inr (.inl ⟨rfl, by decide +kernel⟩)⟩

theorem test_meets_PortShadowWriteUpdatesTheShadow :
    Ready act ∧ act.status.part = .active ∧ PlainShape (.burst 7) 0x0200#16 ∧ PlainShape (.beat .eight) 0x03F8#16 ∧
      (0x03F8#16 : Offset).toNat + (Shape.beat .eight).bytes ≤ 0x0400 :=
  ⟨ready_act, rfl, .inr (.inr ⟨7, rfl, by decide +kernel⟩), .inl ⟨rfl, by decide +kernel⟩, by decide +kernel⟩

/-- The ends of the ranges of bytes that no field holds. -/
theorem test_meets_SnoopedByteFillsTheHeldBits :
    ∀ o ∈ [0x32, 0xFF, 0x106, 0x1FF, 0x204, 0x20A, 0x3FF, 0x400],
      (0x32 ≤ o ∧ o ≤ 0xFF) ∨ (0x100 ≤ o ∧ o ≤ 0x1FF ∧ 6 ≤ o % 0x20) ∨
        (0x200 ≤ o ∧ o ≤ 0x3FF ∧ (o % 0x20 = 4 ∨ 10 ≤ o % 0x20)) ∨ 0x400 ≤ o := by decide +kernel

/-- ACTIVE with source 7 WAITING. -/
def waiting : State := updSource 7 (fun src => { src with state := .waiting }) act

theorem ready_waiting : Ready waiting := ⟨rfl, rfl, rfl, rfl, rfl, rfl⟩

theorem test_meets_IntakeWriteIsStaged :
    Ready waiting ∧ waiting.status.part = .active ∧ waiting.intake.sources[(7 : SourceNo)].state ≠ .disabled ∧
      waiting.intake.sources[(0 : SourceNo)].state = .disabled ∧
      (List.replicate 8 0#8).length = (Shape.beat .eight).bytes ∧
      (List.replicate 4 0#8).length = (Shape.beat .four).bytes := by
  refine ⟨ready_waiting, ?_⟩
  decide +kernel

/-- ACTIVE with source 7 WAITING and a staging word 0 of sequence 3, a last accepted sequence and a queue. -/
def closing (lastSeq : Option (BitVec 16)) (queue : List Record) : State :=
  updSource 7 (fun src => { src with
    state := .waiting, lastSeq := lastSeq, queue := queue, staging := { src.staging with w0 := some 3#64 } }) act

/-- A record. -/
def someRecord : Record := { words := .absent, seq := 2#16, arrival := 5#48, preAcquisition := false }

/-- Every clause: DISABLED, no word 0, another echo, a repeat, a queue with room and a full queue. -/
theorem test_meets_ClosingAcceptsOrDropsTheRecord :
    Ready waiting ∧ Ready (closing none []) ∧ Ready (closing (some 3#16) [someRecord]) ∧
      waiting.intake.sources[(7 : SourceNo)].staging.w0 = none ∧
      act.intake.sources[(7 : SourceNo)].state = .disabled ∧
      (closing none []).intake.sources[(7 : SourceNo)].staging.w0 = some 3#64 ∧
      (field (3#64 : Word) 7 16 : BitVec 16) = 3#16 ∧ (field (4#64 : Word) 7 16 : BitVec 16) ≠ 3#16 ∧
      (closing (some 3#16) []).intake.sources[(7 : SourceNo)].lastSeq = some 3#16 ∧
      (closing none []).intake.sources[(7 : SourceNo)].queue.length = 0 ∧
      (closing none [someRecord]).intake.sources[(7 : SourceNo)].queue.length = 1 ∧
      act.status.config.sources[(7 : SourceNo)].deep = false := by
  refine ⟨ready_waiting, ⟨rfl, rfl, rfl, rfl, rfl, rfl⟩, ⟨rfl, rfl, rfl, rfl, rfl, rfl⟩, ?_⟩
  decide +kernel

/-- A burst of 8 words into the last two slots, and one that ends at the last word. -/
theorem test_meets_ClosingAcceptsOrDropsTheRecord_burst :
    Ready waiting ∧ waiting.status.part = .active ∧ (List.replicate 8 (0#64 : Word)).length = (7 : Fin 8).val + 1 ∧
      24 + (List.replicate 8 (0#64 : Word)).length ≤ 32 ∧ 31 + (List.replicate 1 (0#64 : Word)).length ≤ 32 ∧
      (∀ n : SourceNo, waiting.status.config.sources[n].owner = 0) ∧
      (∀ n : SourceNo, (4 * n.val < 32 ∧ 24 < 4 * n.val + 4) ↔ (n = 6 ∨ n = 7)) :=
  ⟨ready_waiting, rfl, rfl, by decide, by decide, by decide +kernel, by decide⟩

/-- A candidate and a confirmed proposal of a source, a fault record with and without SECOND-FAULT, and each pending
trigger: the states in which the words of section 11.7 differ. -/
theorem test_meets_StatusReadsReturnAndClear :
    let f : FaultRecord := { kind := .splitWrite, master := 5, off := 0x9018#16, dir := .write, second := 7#48 }
    let s := updSource 2 (fun src => { src with
      candidate := some { content := .zoneSet 3 9#48 (-60), count := 2, gridDated := false }
      confirmed := some { content := .change .delete 99#48, gridDated := true } }) act
    Ready State.reset ∧ Ready act ∧ Ready s ∧ act.path.fault = none ∧ act.path.secondFault = false ∧
      Ready (act.setPath { act.path with fault := some f, secondFault := true }) ∧
      (act.setPath { act.path with fault := some f, secondFault := true }).path.fault = some f ∧
      act.intake.sources[(2 : SourceNo)].candidate = none ∧ act.intake.sources[(2 : SourceNo)].confirmed = none ∧
      s.intake.sources[(2 : SourceNo)].candidate.isSome = true ∧ s.intake.sources[(2 : SourceNo)].confirmed.isSome = true :=
  ⟨ready_reset, ready_act, ⟨rfl, rfl, rfl, rfl, rfl, rfl⟩, rfl, rfl, ⟨rfl, rfl, rfl, rfl, rfl, rfl⟩, rfl, by decide +kernel,
    by decide +kernel, by decide +kernel, by decide +kernel⟩

/-- ACTIVE with the claim of a change of S from 4 to 5 on its way to the list. -/
def claimComing : State :=
  (base .locked 5#48 .none).setList { ChangeList.reset with coming := [{ before := 4#48, after := 5#48 }] }

/-- TRANSPARENT and ACTIVE; and ACTIVE with a claim on its way. -/
theorem test_meets_SummaryReadPairsArrivalWithOneSnapshot :
    Ready State.reset ∧ ListFree State.reset ∧ State.reset.status.part = .transparent ∧ Ready act ∧
      ListFree act ∧ act.status.part = .active ∧ Ready claimComing ∧ ListFree claimComing ∧
      claimComing.status.part = .active ∧ claimComing.list.coming ≠ [] :=
  ⟨ready_reset, ⟨rfl, rfl, rfl⟩, rfl, ready_act, ⟨rfl, rfl, rfl⟩, rfl,
    ⟨rfl, rfl, rfl, rfl, rfl, rfl⟩, ⟨rfl, rfl, rfl⟩, rfl, by decide +kernel⟩

/-! ## Hypotheses met: commands -/

/-- The checks of ACTIVATE at the bounds of their ranges, the earliest failing one first. -/
theorem test_activation_checks :
    let check := fun f : GlobalConfig → GlobalConfig => activationCheck { ConfigCopy.default with glob := f .default }
    check id = .none ∧ check (fun g => { g with zoneCount := 4#3 }) = .none ∧
      check (fun g => { g with zoneCount := 5#3, grid := 0#32 }) = .zoneCount ∧
      check (fun g => { g with freezeLead := 59#16 }) = .none ∧
      check (fun g => { g with freezeLead := 60#16 }) = .freezeLead ∧
      check (fun g => { g with horizon := 61#32 }) = .none ∧ check (fun g => { g with horizon := 60#32 }) = .horizon ∧
      check (fun g => { g with grid := 1#32 }) = .none ∧ check (fun g => { g with grid := 0#32 }) = .grid ∧
      check (fun g => { g with smearExponent := 17#5 }) = .none ∧
      check (fun g => { g with smearExponent := 18#5 }) = .smearExponent ∧
      check (fun g => { g with tolerance := 24999999#32 }) = .none ∧
      check (fun g => { g with tolerance := 25000000#32 }) = .tolerance ∧
      check (fun g => { g with tolerance := 0#32 }) = .tolerance := by decide +kernel

theorem test_activation_confirm_count :
    let check := fun k : BitVec 4 => activationCheck { ConfigCopy.default with
      sources := ConfigCopy.default.sources.set 5 { SourceConfig.default with enabled := true, confirm := k } }
    check 0#4 = .confirmCount 5 ∧ check 1#4 = .none ∧ check 8#4 = .none ∧ check 9#4 = .confirmCount 5 := by
  decide +kernel

/-- The part state each command needs, from the control master in both accepted shapes. -/
theorem test_meets_commands :
    Ready State.reset ∧ State.reset.status.part = .transparent ∧ Ready act ∧ act.status.part = .active ∧
      ListFree act ∧ act.wires.intakeFlushes = 0 ∧ isEight (.beat .eight) = true ∧ isEight (.burst 0) = true ∧
      (0#4 : Master) = act.straps.control ∧ (0#4 : Master) = State.reset.straps.control :=
  ⟨ready_reset, rfl, ready_act, rfl, ⟨rfl, rfl, rfl⟩, rfl, rfl, rfl, rfl, rfl⟩

/-- The last port and the first that is none, the ends of the triggers and the codes beside them. -/
theorem test_meets_PortTransferActsOrWaitsForItsTrigger :
    (15#8 : Byte).toNat = (15 : PortNo).val ∧ 16 ≤ (16#8 : Byte).toNat ∧ 1 ≤ (1#8 : Byte).toNat ∧
      (4#8 : Byte).toNat ≤ 4 ∧ 5 ≤ (5#8 : Byte).toNat := by decide

/-! ## Hypotheses met: announcement blocks and time views -/

/-- ACTIVE with port 3 enabled for CIVIL and all words but word 2 patched. -/
def patching : State :=
  updPort 3 (fun _ => { active := { Policy.default with enabled := true, mask := 0x3B#6 }, transfer := none }) act

theorem ready_patching : Ready patching := ⟨rfl, rfl, rfl, rfl, rfl, rfl⟩

/-- A disabled policy, a clear mask bit, and word 6; a block of 64 bytes. -/
theorem test_meets_UnpatchedWordComesFromMemory :
    Ready patching ∧ patching.status.part = .active ∧ patching.patcher.ports[(0 : PortNo)].active.enabled = false ∧
      patching.patcher.ports[(3 : PortNo)].active.mask.getLsbD 2 = false ∧ (List.replicate 64 0#8).length = 64 := by
  refine ⟨ready_patching, ?_⟩
  decide +kernel

/-- The first and the last word that can be patched; and for bursts the last word of the blocks, one within a block and one
into the next, over a patched word among 0 to 4 and over none. -/
theorem test_meets_PatchedWordIsFormedFromSampleAndSnapshot :
    127 + (0 : Fin 8).val < 128 ∧ 120 + (7 : Fin 8).val < 128 ∧ (24 + (3 : Fin 8).val) / 8 = 24 / 8 ∧
      ¬ (28 + (4 : Fin 8).val) / 8 = 28 / 8 ∧ (List.replicate 64 0#8).length = 64 ∧
      (24 ≤ 24 ∧ 24 ≤ 24 + (3 : Fin 8).val ∧ 24 % 8 ≤ 4 ∧ 24 / 8 = (3 : PortNo).val) ∧
      patching.patcher.ports[(15 : PortNo)].active.enabled = false ∧
      Ready patching ∧ ListFree patching ∧ patching.status.part = .active ∧
      patching.patcher.ports[(3 : PortNo)].active.enabled = true ∧
      patching.patcher.ports[(3 : PortNo)].active.mask.getLsbD 0 = true ∧
      patching.patcher.ports[(3 : PortNo)].active.mask.getLsbD 5 = true := by
  refine ⟨by decide, by decide, by decide, by decide, rfl, by decide, by decide +kernel, ready_patching,
    ⟨rfl, rfl, rfl⟩, ?_⟩
  decide +kernel

/-- Both orders of a snapshot and the claim of the change of S that the sample holds. While the claim is on its way the
snapshot goes ahead, and word 0 says JUST-CHANGED with the old offset (R70, R143, first case); once a cycle has passed the
claim waits at the list and goes first, and the word carries the new offset (R16, R88). -/
theorem test_snapshot_and_the_claim_of_the_sampled_second :
    let s := (updPort 3 (fun _ => { active := { Policy.default with enabled := true }, transfer := none })
      (base .acquiring 4#48 .none)).setList
        { ChangeList.reset with sched := { entries := [civil 5#48 .insert 0 1 .frozen], base := .reset }, listSecond := 4#48 }
    let asked := run (.announcementBlockRead 0 0x20C0#16 (.beat .eight)) (run (.secondMark 9#32) s)
    let fetched := run (.memoryAnswer true (List.replicate 64 0#8)) asked
    let later := (after (step fetched)).getD fetched
    (run .snapshotClaim fetched).answers =
        [{ master := 0, ok := true, data := [0#8, 0#8, 0x09#8, 1#8, 0#8, 0#8, 0#8, 0#8] }] ∧
      (run .snapshotClaim later).answers = [] ∧ later.list.claims = [{ before := 4#48, after := 5#48 }] ∧
      (run .snapshotClaim (run .freezeAndCommitClaim later)).answers =
        [{ master := 0, ok := true, data := [0#8, 1#8, 0x09#8, 1#8, 0#8, 0#8, 0#8, 0#8] }] := by decide +kernel

/-- An empty latch, a latch of another record, and a matching one. -/
theorem test_meets_ViewZeroReadsAndMatchingLatch :
    let s := setLatch 2#4 (some { record := 9#8, view := 1, word1 := 5#64 }) act
    Ready act ∧ Ready s ∧ act.path.latches[(2#4 : Master).toFin] = none ∧
      s.path.latches[(2#4 : Master).toFin] = some { record := 9#8, view := 1, word1 := 5#64 } ∧
      (List.replicate 16 0#8).length = 16 :=
  ⟨ready_act, ⟨rfl, rfl, rfl, rfl, rfl, rfl⟩, by decide +kernel, by decide +kernel, by decide⟩

/-- ACTIVE with four zones, floor end 150 and a civil insertion at 200. -/
def viewing : State :=
  (actWith { GlobalConfig.default with zoneCount := 4#3, smearEnable := true, smearExponent := 4#5 }).setList
    { ChangeList.reset with sched :=
      { entries := [civil 200#48 .insert 0 1 .applied], base := { BaseRecord.reset with floorEnd := 150 } } }

theorem ready_viewing : Ready viewing := ⟨rfl, rfl, rfl, rfl, rfl, rfl⟩

/-- Word 0 of a record of second `x`. -/
def record0 (x : Second) : Word := mkWord0 x 0#8 false false

/-- The ends of the range of converted views, both sides of the nanoseconds limit, a foreign tag, a second that is shown and
one below the floor end. -/
theorem test_meets_ConvertedReadShowsEachResultOnce :
    Ready viewing ∧ ListFree viewing ∧ viewing.status.part = .active ∧
      (∀ m : Fin 16, viewing.path.latches[m] = none) ∧
      (setLatch 2#4 (some { record := 9#8, view := 1, word1 := 5#64 }) viewing).path.latches[(2#4 : Master).toFin] =
        some { record := 9#8, view := 1, word1 := 5#64 } ∧ ¬ ((9#8 : BitVec 8) = 8#8 ∧ (1 : Fin 7) = 1) ∧
      5 - 2 < viewing.status.config.glob.zoneCount.toNat ∧ field (record0 200#48) 6 8 = 0#8 ∧
      field (mkWord0 1#48 1#8 false false) 6 8 ≠ 0#8 ∧ (field (mkWord1 999999999 0 0#16) 3 32).toNat ≤ 999999999 ∧
      999999999 < (field (mkWord1 1000000000 0 0#16) 3 32).toNat ∧
      viewing.list.sched.base.floorEnd ≤ (field (record0 150#48) 5 48 : Second).toNat ∧
      ¬ viewing.list.sched.base.floorEnd ≤ (field (record0 149#48) 5 48 : Second).toNat ∧
      rawResult viewing.list.sched 1 150 = { seconds := 150, inserted := false, fold := false } ∧
      rawResult viewing.list.sched 1 200 = { seconds := 199, inserted := true, fold := false } := by
  refine ⟨ready_viewing, ⟨rfl, rfl, rfl⟩, ?_⟩
  decide +kernel

/-- The same for a second that is shown: none before it gives the same result. -/
theorem test_meets_ConvertedReadShowsEachResultOnce_first :
    ∀ earlier < 201, 150 ≤ earlier → earlier ≠ 200 →
      rawResult viewing.list.sched 1 earlier ≠ rawResult viewing.list.sched 1 200 := by decide +kernel

theorem test_meets_ViewZeroWriteIsStoredAsWritten :
    Ready act ∧ act.status.part = .active ∧ (255#8 : BitVec 8) ≠ 0#8 ∧
      (0x8FF0#16 : Offset).toNat = 0x8000 + (255#8 : BitVec 8).toNat * 0x10 ∧
      (0x8018#16 : Offset).toNat = 0x8008 + (1#8 : BitVec 8).toNat * 0x10 ∧
      (List.replicate 16 0#8).length = (Shape.burst 1).bytes := by
  refine ⟨ready_act, ?_⟩
  decide +kernel

/-- UNCONVERTED set; a wrong tag; a triple that is found; one below the view's value at the floor end; one above it that no
second gives. -/
theorem test_meets_ConvertedWriteStoresTheUniformSecond :
    Ready viewing ∧ ListFree viewing ∧ viewing.status.part = .active ∧
      ((field (4#64 : Word) 7 8 : Byte).getLsbD 2) = true ∧ field (0#64 : Word) 6 8 ≠ BitVec.ofNat 8 1 ∧
      field (mkWord0 199#48 1#8 true false) 6 8 = BitVec.ofNat 8 1 ∧
      rawResult viewing.list.sched 1 200 = { seconds := 199, inserted := true, fold := false } ∧
      (∀ y < 200, 150 ≤ y → rawResult viewing.list.sched 1 y ≠ { seconds := 199, inserted := true, fold := false }) ∧
      firstGiving viewing.list.sched 1 { seconds := 10, inserted := false, fold := false } = none ∧
      (10 : Int) < (rawResult viewing.list.sched 1 viewing.list.sched.base.floorEnd).seconds ∧
      firstGiving viewing.list.sched 1 { seconds := 180, inserted := true, fold := false } = none ∧
      ¬ (180 : Int) < (rawResult viewing.list.sched 1 viewing.list.sched.base.floorEnd).seconds := by
  refine ⟨ready_viewing, ⟨rfl, rfl, rfl⟩, ?_⟩
  decide +kernel

theorem test_meets_WritableViewsAreOneToOne :
    convertPlain viewing.list.sched 1 200#48 = some (mkWord0 199#48 1#8 true false) ∧
      writtenFormOk 1 (mkWord0 199#48 1#8 true false) 0#64 = true ∧
      (convertWrite viewing.list.sched 1 (mkWord0 199#48 1#8 true false)).toOption = some (record0 200#48) := by
  decide +kernel

/-- The two ends of the smear window; and, in `viewing`, a second before the window, one inside it and one below the floor
end. -/
theorem test_meets_SmearedReadShiftsTheInstant :
    (200 : Int) - 2 ^ 4 ≤ 184 ∧ (184 : Int) < 200 ∧ (200 : Int) - 2 ^ 4 ≤ 199 ∧ (199 : Int) < 200 ∧
      field (record0 184#48) 6 8 = 0#8 ∧ (field (0#64 : Word) 3 32).toNat ≤ 999999999 ∧
      viewing.status.config.glob.smearEnable = true ∧ act.status.config.glob.smearEnable = false ∧
      viewing.list.sched.base.floorEnd ≤ 183 ∧ ¬ viewing.list.sched.base.floorEnd ≤ 149 := by decide +kernel

/-! ## Hypotheses met: the change list -/

/-- A list with APPLIED and pending entries of two scales. -/
def sample : List Entry :=
  [civil 100#48 .insert 0 1 .applied, zone0 150#48 0 3600 .applied, civil 300#48 .delete 1 0 .armed,
    zone0 86550#48 3600 0 .armed]

/-- The sample with its pending civil entry FROZEN. -/
def frozenSample : List Entry :=
  [civil 100#48 .insert 0 1 .applied, zone0 150#48 0 3600 .applied, civil 205#48 .delete 1 0 .frozen]

/-- 32 APPLIED leaps, an insertion and a deletion in turn. -/
def fullSample : List Entry :=
  (List.range 32).map fun i =>
    if i % 2 = 0 then civil (BitVec.ofNat 48 (i + 1)) .insert 0 1 .applied
    else civil (BitVec.ofNat 48 (i + 1)) .delete 1 0 .applied

theorem listLaws_of (x : Second) (es : List Entry) (ho : OrderLaw es) (hc : CapacityLaw es) (ha : AppliedFirst es)
    (hp : PendingAbove x es) (hu : PendingUnflagged es) : ListLaws (listAt x es) :=
  ⟨ho, hc, ha, hp, hu, rfl⟩

theorem listLaws_sample : ListLaws (listAt 200#48 sample) :=
  listLaws_of _ _ (by unfold OrderLaw; decide +kernel) ⟨by decide +kernel, by decide +kernel, by decide +kernel⟩
    (by unfold AppliedFirst; decide +kernel) (by unfold PendingAbove; decide +kernel)
    (by unfold PendingUnflagged; decide +kernel)

theorem listLaws_frozenSample : ListLaws (listAt 200#48 frozenSample) :=
  listLaws_of _ _ (by unfold OrderLaw; decide +kernel) ⟨by decide +kernel, by decide +kernel, by decide +kernel⟩
    (by unfold AppliedFirst; decide +kernel) (by unfold PendingAbove; decide +kernel)
    (by unfold PendingUnflagged; decide +kernel)

theorem listLaws_fullSample : ListLaws (listAt 200#48 fullSample) :=
  listLaws_of _ _ (by unfold OrderLaw; decide +kernel) ⟨by decide +kernel, by decide +kernel, by decide +kernel⟩
    (by unfold AppliedFirst; decide +kernel) (by unfold PendingAbove; decide +kernel)
    (by unfold PendingUnflagged; decide +kernel)

theorem listLaws_empty : ListLaws (listAt 200#48 []) :=
  listLaws_of _ _ .nil ⟨by decide, by decide, by decide⟩ .nil (by simp [PendingAbove]) (by simp [PendingUnflagged])

/-- The laws of the offsets, each part checked on the entries. -/
theorem offsetLaws_of (es : List Entry) (hk : ∀ e ∈ es, e.scale = .civil ↔ e.kind ≠ .zoneShift)
    (hc : OffsetChain 0 (es.filter fun e => e.scale == .civil))
    (hz : ∀ k : ZoneNo, OffsetChain 0 (es.filter fun e => e.scale == .zone k))
    (hr : ∀ e ∈ es, -32768 ≤ e.new ∧ e.new ≤ 32767) (hs : ∀ e ∈ es, e.scale ≠ .civil → e.new ≠ e.prior ∧
      |e.new - e.prior| ≤ 43200) (hp : ZoneSpacing es) : OffsetLaws { entries := es, base := .reset } := by
  have h0 : ∀ k : ZoneNo, (BaseRecord.reset.offset (.zone k)) = 0 := by decide
  refine ⟨hk, ?_, ?_, ?_, hs, hp⟩
  · intro sc
    cases sc with
    | civil => exact hc
    | zone k => show OffsetChain (BaseRecord.reset.offset (.zone k)) _; rw [h0]; exact hz k
  · intro sc
    cases sc with
    | civil =>
      show OffsetInRange .civil (0 : Int)
      exact ⟨by decide, by decide⟩
    | zone k =>
      show OffsetInRange _ (BaseRecord.reset.offset (.zone k))
      rw [h0]
      exact ⟨by decide, by decide⟩
  · intro e he
    have h := hr e he
    cases hsc : e.scale with
    | civil => exact h
    | zone k =>
      show -Config.zoneLimit ≤ e.new ∧ e.new ≤ Config.zoneLimit
      unfold Config.zoneLimit
      omega

theorem offsetLaws_sample : OffsetLaws (listAt 200#48 sample).list.sched :=
  offsetLaws_of sample (by decide +kernel) (by simp [sample, civil, zone0, OffsetChain, Kind.apply])
    (by intro k; fin_cases k <;> simp [sample, civil, zone0, OffsetChain, Kind.apply]) (by decide +kernel)
    (by decide +kernel) (by unfold ZoneSpacing; decide +kernel)

theorem offsetLaws_empty : OffsetLaws (listAt 200#48 []).list.sched :=
  offsetLaws_of [] (by simp) trivial (fun _ => trivial) (by simp) (by simp) .nil

/-- A claim that commits, one that freezes and one that steps back. -/
theorem test_meets_ClaimBringsEntriesToTheNewSecond :
    let s := listAt 200#48 sample
    ((s.setList { s.list with claims := [{ before := 200#48, after := 300#48 }] }).list.claims =
        { before := 200#48, after := 300#48 } :: []) ∧
      (∃ e ∈ sample, e.state ≠ .applied ∧ e.boundary.toNat ≤ 300) ∧
      (∃ e ∈ sample, e.state = .armed ∧ 290 < e.boundary.toNat ∧
        e.boundary.toNat - 290 ≤ s.status.config.glob.freezeLead.toNat) ∧
      ∃ e ∈ sample, e.state = .applied ∧ 149 < e.boundary.toNat := by decide +kernel

/-- A claim still on its way, one behind a waiting claim, and waiting claims and requests that hold others back. -/
theorem test_meets_ClaimBringsEntriesToTheNewSecond_coming :
    let c : SChange := { before := 200#48, after := 300#48 }
    let d : SChange := { before := 300#48, after := 301#48 }
    let s := listAt 200#48 sample
    let u := s.setList { s.list with coming := [c] }
    let w := s.setList { s.list with claims := [c], coming := [d] }
    u.list.claims ++ u.list.coming = c :: [] ∧ w.list.claims ++ w.list.coming = c :: [d] ∧
      w.list.claims ≠ [] ∧ (u.elapsed 1#32).list.claims = [c] ∧ (u.elapsed 0#32).list.claims = [] ∧
      (asking .withdrawCivil .election u).list.requests ≠ [] := by decide +kernel

/-- A claim of one second that commits the entry at 300. -/
theorem test_meets_OneSecondClaimCommitsNothingLate :
    let s := (listAt 299#48 sample).setSup { Supervisor.reset with s := 300#48, timeBase := .locked }
    let u := s.setList { s.list with coming := [{ before := 299#48, after := 300#48 }] }
    ListLaws u ∧ u.resetAsserted = false ∧
      u.list.claims ++ u.list.coming = { before := 299#48, after := 300#48 } :: [] ∧
      (300#48 : Second).toNat = (299#48 : Second).toNat + 1 := by
  refine ⟨⟨listLaws_sample.order, listLaws_sample.capacity, listLaws_sample.appliedFirst, ?_,
    listLaws_sample.unflagged, ?_⟩, rfl, rfl, rfl⟩
  · show PendingAbove 299#48 sample
    unfold PendingAbove
    decide +kernel
  · exact ⟨rfl, by decide, rfl⟩

/-- Two schedules that differ in a state and the flags only. -/
theorem test_meets_ClaimLeavesLookupsAsTheyWere :
    let f : Entry := { civil 205#48 .delete 1 0 .applied with late := true, steppedOver := true, gridDated := true }
    frozenSample.map (fun e => (e.boundary, e.scale, e.kind, e.prior, e.new)) =
      (frozenSample.map fun e => if e = civil 205#48 .delete 1 0 .frozen then f else e).map
        (fun e => (e.boundary, e.scale, e.kind, e.prior, e.new)) ∧
      f ∈ frozenSample.map (fun e => if e = civil 205#48 .delete 1 0 .frozen then f else e) := by decide +kernel

/-- An arm request into an empty list at both ends of FROZEN and ARMED (F = 10), one into a full list, and a zone request
between entries of its zone. -/
theorem test_meets_AcceptedArmInsertsTheEntry :
    ListLaws (listAt 200#48 []) ∧ OffsetLaws (listAt 200#48 []).list.sched ∧ ListLaws (listAt 200#48 fullSample) ∧
      fullSample.length = 32 ∧ (∀ e ∈ fullSample, e.scale = .civil → e.state = .applied) ∧
      (∀ e ∈ fullSample, e.state = .applied → e.boundary.toNat < 201) ∧
      (210 - 200 ≤ 10 ∧ ¬ 211 - 200 ≤ 10) ∧
      ListLaws (listAt 200#48 sample) ∧ OffsetLaws (listAt 200#48 sample).list.sched ∧
      (∀ e ∈ sample, e.state = .applied → e.boundary.toNat < 172950) ∧
      (sample.filter fun e => e.state != .applied && e.scale != .civil).length < 15 ∧
      (∀ e ∈ sample, e.scale = .zone 0 → 86400 ≤ |(172950 : Int) - e.boundary.toNat|) ∧
      ((64800 : Int) ≠ 0 ∧ |(43200 : Int) - 0| ≤ 43200) :=
  ⟨listLaws_empty, offsetLaws_empty, listLaws_fullSample, by decide +kernel, by decide +kernel, by decide +kernel,
    by decide, listLaws_sample, offsetLaws_sample, by decide +kernel, by decide +kernel, by decide +kernel, by decide⟩

/-- A replacement, withdrawals, and arms at the boundary of the pending entry of each scale. -/
theorem test_meets_AcceptedReplaceAndWithdrawRewriteTheList :
    ListLaws (listAt 200#48 sample) ∧ OffsetLaws (listAt 200#48 sample).list.sched ∧
      (listAt 200#48 sample).list.claims = [] ∧
      (civil 300#48 .delete 1 0 .armed).kind ≠ .leap .insert ∧ (1 + 1 : Int) ≤ 32767 ∧
      (∀ f ∈ sample, f.state = .applied → f.boundary.toNat < 300) ∧
      (zone0 86550#48 3600 0 .armed).new ≠ 1800 ∧ (1800 : Int) ≠ 3600 ∧ |(1800 : Int) - 3600| ≤ 43200 ∧
      (judgeRequest (listAt 200#48 sample) (.armCivil 300#48 .insert 1 true)).map (·.answer) = some .replacedArmed ∧
      (judgeRequest (listAt 200#48 sample) (.armZone 0 86550#48 1800 1)).map (·.answer) = some .replacedArmed ∧
      civil 300#48 .delete 1 0 .armed ∈ sample ∧ zone0 86550#48 3600 0 .armed ∈ sample ∧
      (∀ f ∈ sample, f.state = .applied → f.boundary.toNat < 201) ∧
      (sample.find? fun f => f.scale == .zone 0 && decide (86550 < f.boundary.toNat)) = none :=
  ⟨listLaws_sample, offsetLaws_sample, rfl, by decide +kernel, by decide, by decide +kernel,
    by decide +kernel, by decide, by decide, by decide +kernel, by decide +kernel, by decide +kernel, by decide +kernel,
    by decide +kernel, by decide +kernel⟩

/-- A request that waits at the list, and one still on its way with nothing waiting before it. -/
theorem test_meets_requests_waiting_and_on_their_way :
    let r : WaitingRequest := { request := .withdrawCivil, asker := .election }
    let s := listAt 200#48 sample
    let u := s.setList { s.list with sending := [r] }
    (asking .withdrawCivil .election s).list.requests ++ (asking .withdrawCivil .election s).list.sending = r :: [] ∧
      u.list.requests ++ u.list.sending = r :: [] ∧ u.list.requests = [] ∧ u.list.claims = [] ∧
      (u.elapsed 1#32).list.requests = [r] ∧ (judgeRequest u .withdrawCivil).isSome = true := by decide +kernel

/-- The orders of R126: a withdraw request on its way is answered NO-SUCH-ENTRY behind a FLUSH claim that reaches the list
first, and WITHDRAWN ahead of one that does not. -/
theorem test_flush_claim_before_and_after_a_request :
    let s := listAt 200#48 sample
    let u := ((s.setList { s.list with sending := [{ request := .withdrawCivil, asker := .election }] }).setElection
      { Election.reset with run := some (.awaitingAnswer 6) })
    let flushed := claimFlush u
    let waited := claimFlush (u.elapsed 1#32)
    (run .listFlush flushed).list.sched.entries.length = 2 ∧ nextRequest waited = nextRequest u ∧
      (run .withdrawRequest flushed).list = flushed.list ∧
      (judgeRequest (run .listFlush flushed) .withdrawCivil).map (·.answer) = some .noSuchEntry ∧
      (run .withdrawRequest (run .listFlush flushed)).election.run = none ∧
      (run .withdrawRequest waited).list.sched.entries.length = 3 := by decide +kernel

/-- Each clause: a late boundary by the second and by the horizon, the pending entry's own boundary ARMED and FROZEN,
another boundary, and no pending entry. -/
theorem test_meets_RequestChecksRefuseWithoutChange :
    CapacityLaw sample ∧ CapacityLaw frozenSample ∧ CapacityLaw fullSample ∧
      (200#48 : Second).toNat ≤ 200 ∧ ((sample.filter Entry.isApplied).getLast?).map (·.boundary) = some 150#48 ∧
      (civil 300#48 .delete 1 0 .armed ∈ sample ∧ (civil 300#48 .delete 1 0 .armed).state ≠ .applied) ∧
      (civil 205#48 .delete 1 0 .frozen ∈ frozenSample) ∧ (301#48 : Second) ≠ 300#48 ∧
      (∀ e ∈ fullSample, ¬ (e.scale = .civil ∧ e.state ≠ .applied)) ∧
      (judgeRequest (listAt 200#48 sample) .withdrawCivil).map (·.answer) = some .withdrawn ∧
      (judgeRequest (listAt 200#48 frozenSample) .withdrawCivil).map (·.answer) = some .frozen :=
  ⟨listLaws_sample.capacity, listLaws_frozenSample.capacity, listLaws_fullSample.capacity, by decide, by decide +kernel,
    by decide +kernel, by decide +kernel, by decide, by decide +kernel, by decide +kernel, by decide +kernel⟩

/-- Zone 0 with an APPLIED, an ARMED and a later ARMED entry. -/
def zoneSample : List Entry :=
  [zone0 150#48 0 3600 .applied, zone0 86550#48 3600 7200 .armed, zone0 172950#48 7200 3600 .armed]

/-- 15 pending entries of zone 0. -/
def zonesFull : List Entry :=
  (List.range 15).map fun i => zone0 (BitVec.ofNat 48 ((i + 1) * 86400)) (if i % 2 = 0 then 0 else 3600)
    (if i % 2 = 0 then 3600 else 0) .armed

/-- Every answer of a zone arm, at the bounds of the checks, and of replace and withdraw requests. -/
theorem test_meets_RequestChecksRefuseWithoutChange_zones :
    let answer := fun (es : List Entry) (r : Request) => (judgeRequest (listAt 200#48 es) r).map (·.answer)
    answer zoneSample (.armZone 0 200#48 1800 1) = some .tooLate ∧
      answer zoneSample (.armZone 0 86550#48 7200 1) = some .unchanged ∧
      answer zoneSample (.armZone 0 86550#48 1800 1) = some .replacedArmed ∧
      answer zoneSample (.armZone 0 86550#48 3600 1) = some .noChange ∧
      answer zoneSample (.armZone 0 259350#48 64801 1) = some .offsetLimit ∧
      answer zoneSample (.armZone 0 259349#48 0 1) = some .tooClose ∧
      answer zoneSample (.armZone 0 259350#48 0 1) = some .armed ∧
      answer zoneSample (.armZone 0 259350#48 46801 1) = some .shiftTooLarge ∧
      answer [zone0 205#48 0 3600 .frozen] (.armZone 0 205#48 1800 1) = some .frozen ∧
      answer [] (.armZone 0 210#48 1800 1) = some .armedFrozen ∧
      answer zonesFull (.armZone 1 210#48 1800 1) = some .full ∧
      answer zoneSample (.withdrawZone 0 86551#48) = some .noSuchEntry ∧
      answer zoneSample (.withdrawZone 0 150#48) = some .tooLate ∧
      answer zoneSample (.withdrawZone 0 86550#48) = some .noChange ∧
      answer [zone0 86550#48 0 43200 .armed, zone0 172950#48 43200 50000 .armed] (.withdrawZone 0 86550#48) =
        some .shiftTooLarge ∧
      answer zoneSample (.withdrawZone 0 172950#48) = some .withdrawn ∧
      answer [zone0 205#48 0 3600 .frozen] (.withdrawZone 0 205#48) = some .frozen ∧
      answer sample (.replace 210#48 .delete 1 false) = some .replacedFrozen ∧
      answer sample (.replace 211#48 .delete 1 false) = some .replacedArmed ∧
      answer sample (.replace 300#48 .delete 1 false) = some .unchanged ∧
      answer sample (.replace 200#48 .delete 1 false) = some .tooLate ∧
      answer frozenSample (.replace 300#48 .delete 1 false) = some .frozen ∧
      answer fullSample (.replace 300#48 .delete 1 false) = some .noSuchEntry ∧
      answer fullSample .withdrawCivil = some .noSuchEntry := by decide +kernel

/-- A waiting request of each requester, accepted and refused. -/
theorem test_meets_ListAnswersReachTheirRequesters :
    let q : Qualifying := { source := 1, seq := 7#16, arrival := 190#48, work := .zoneAnswer }
    let s := (listAt 200#48 sample).setIntake { Intake.reset with qualifier := some q }
    let u := s.setElection { Election.reset with run := some (.awaitingAnswer 2) }
    u.list.claims = [] ∧ u.intake.qualifier = some q ∧ u.election.run = some (.awaitingAnswer 2) ∧
      u.election.runPending = false ∧
      (u.setElection { u.election with runPending := true }).election.run = some (.awaitingAnswer 2) ∧
      (asking .withdrawCivil .election u).list.requests = [{ request := .withdrawCivil, asker := .election }] ∧
      (judgeRequest u .withdrawCivil).map (·.answer) = some .withdrawn ∧
      (judgeRequest u (.withdrawZone 0 86550#48)).map (·.answer) = some .withdrawn ∧
      (judgeRequest u (.armCivil 400#48 .insert 1 false)).map (·.answer) = some .full := by decide +kernel

theorem test_meets_DiscardKeepsLookupsAboveTheFloorEnd :
    fullSample = civil 1#48 .insert 0 1 .applied :: fullSample.tail ∧ 32 ≤ fullSample.length ∧
      (civil 1#48 .insert 0 1 .applied).kindFits := by
  refine ⟨by decide +kernel, by decide +kernel, ?_⟩
  simp [Entry.kindFits, civil]

/-! ## Hypotheses met: intake, election, ports, events -/

/-- ACTIVE and LOCKED with one record in the queue of source 4, its priority 1. -/
def queued (w0 : Word) : State :=
  let s := updSource 4 (fun src => { src with
    state := .silent, queue := [{ someRecord with words := { w0 := some w0, w1 := some 0#64, w2 := none } }] })
      (base .locked 10#48 .none)
  s.setStatus { s.status with config := { s.status.config with
    sources := s.status.config.sources.set 4 { SourceConfig.default with enabled := true, priority := 1#4 } } }

/-- A take is possible and source 4 stands first; what each of three records says; and a state without a take. -/
theorem test_meets_QualifierTakesTheFirstRecord :
    let s := queued 0x0101000000000002#64
    s.resetAsserted = false ∧ s.status.part = .active ∧ s.sup.timeBase ≠ .unset ∧ s.intake.qualifier = none ∧
      s.intake.sources[(4 : SourceNo)].queue.length = 1 ∧
      (∀ m : SourceNo, m ≠ 4 → s.intake.sources[m].queue = []) ∧
      (s.intake.sources[(4 : SourceNo)].queue.map fun r => readRecord 0 .network r.words) = [some (.leap (some 0) none)] ∧
      readRecord 0 .network { w0 := some 0x0100000000000002#64, w1 := none, w2 := none } = some (.leap none none) ∧
      readRecord 0 .network { w0 := some 0#64, w1 := none, w2 := none } = none ∧
      readRecord 1 .localSource { w0 := some 0x0300000000000000#64, w1 := none, w2 := some 9#64 } =
        some (.zone (.zoneCancel 0 9#48)) ∧
      act.sup.timeBase = .unset := by decide +kernel

/-- A zone record of source 4: its spacing (M = 1 here: counted at 10, arrival 10 and 11), its count below and at K = 3, and
the next state of a record that is counted. -/
theorem test_meets_QualifierTakesTheFirstRecord_zone :
    let content : Content := .zoneCancel 0 9#48
    let src := fun n : Nat => { Source.reset with candidate := some { content := content, count := n, gridDated := false } }
    let counted := fun n : Nat => match (src n).candidate.filter fun c => c.content == content with
      | some c => min (c.count + 1) SourceConfig.default.confirm.toNat
      | none => 1
    (10 : Int) - (10#48 : Second).toNat < GlobalConfig.default.spacing.toNat ∧
      ¬ (11 : Int) - (10#48 : Second).toNat < GlobalConfig.default.spacing.toNat ∧
      counted 1 < SourceConfig.default.confirm.toNat ∧ SourceConfig.default.confirm.toNat ≤ counted 2 ∧
      SourceConfig.default.confirm.toNat ≤ counted 3 := by decide +kernel

/-- A record closed while the qualifier is free and the time base set is taken in the same step (R98); in UNSET it waits,
and is taken with the live write that sets the time base. -/
theorem test_a_record_is_taken_at_the_first_moment :
    let w0 : Word := 0x0101000000000002#64
    let src : Source := { Source.reset with state := .waiting, staging := { w0 := some w0, w1 := some 0#64, w2 := none } }
    let closed := fun tb : TimeBase => closeRecord 4 2#16 (updSource 4 (fun _ => src) (base tb 10#48 .none))
    let live := liveWriteTaken 10#48 (closed .unset)
    (closed .locked).intake.sources[(4 : SourceNo)].queue = [] ∧ (closed .locked).intake.qualifier.isSome = true ∧
      (closed .unset).intake.sources[(4 : SourceNo)].queue.length = 1 ∧ (closed .unset).intake.qualifier = none ∧
      live.sup.timeBase = .acquiring ∧ live.intake.sources[(4 : SourceNo)].queue = [] ∧
      live.intake.qualifier.map (·.arrival) = some 10#48 ∧ live.list.queries = [.lookup .qualifier] := by decide +kernel

/-- The qualifier waits for its lookup. -/
def looking (d : Int) (change : Option (LeapKind × Option Second)) : State :=
  let s := listAt 200#48 [civil 100#48 .insert 0 1 .applied]
  (s.setList { s.list with queries := [.lookup .qualifier] }).setIntake { Intake.reset with
    qualifier := some { source := 1, seq := 7#16, arrival := 200#48, work := .leap d change } }

/-- Another offset; on-grid, too late at the last second and too far at the first (L_min 60, L_max 31622400, G 86400). -/
theorem test_meets_LookupAnswerQualifiesTheLeapRecord :
    let s := looking 1 none
    s.list.claims = [] ∧ s.list.requests = [] ∧ s.list.queries = [.lookup .qualifier] ∧ s.card = [] ∧
      (lookup s.list.sched 200).map (·.civil) = some 1 ∧ (lookup s.list.sched 200).map (·.civil) ≠ some 2 ∧
      ((86401 : Int) - 1) % s.status.config.glob.grid.toNat = 0 ∧ (86402 - 1 : Int) % s.status.config.glob.grid.toNat ≠ 0 ∧
      (260 : Int) - 200 ≤ s.status.config.glob.minLead.toNat ∧ ¬ (261 : Int) - 200 ≤ s.status.config.glob.minLead.toNat ∧
      s.status.config.glob.horizon.toNat < (31622601 : Int) - 200 ∧
      ¬ s.status.config.glob.horizon.toNat < (31622600 : Int) - 200 ∧ (0 : Int) < s.status.config.glob.grid.toNat := by
  decide +kernel

/-- A source that falls silent at exactly T_s, one a second short of it; and a proposal at and above the committed S. -/
theorem test_meets_ChangesAndCommitsReachTheSources :
    let s := act.setWires { Wires.empty with
      intakeS := [{ before := 299#48, after := 300#48 }]
      civilCommits := [{ s := 300#48, boundary := 300#48, kind := .leap .insert }] }
    s.wires.intakeS = { before := 299#48, after := 300#48 } :: [] ∧
      s.wires.civilCommits = { s := 300#48, boundary := 300#48, kind := .leap .insert } :: [] ∧
      s.status.config.glob.silence.toNat ≤ (300#48 : Second).toNat - (0#48 : Second).toNat ∧
      ¬ s.status.config.glob.silence.toNat ≤ (300#48 : Second).toNat - (1#48 : Second).toNat := by decide +kernel

/-- ACTIVE with a confirmed proposal "no change" of source 6. -/
def proposing : State :=
  updSource 6 (fun src => { src with state := .listening, confirmed := some { content := .noChange, gridDated := false } })
    act

theorem test_meets_TriggersAndFlushStartARun :
    let s := proposing.setWires { Wires.empty with triggers := [.civilCommit], electionFlushes := 1 }
    s.wires.triggers = .civilCommit :: [] ∧ s.wires.electionFlushes = 0 + 1 ∧ s.election.run = none ∧
      s.election.runPending = false ∧ winner s = some 6 ∧
      s.intake.sources[(6 : SourceNo)].confirmed = some { content := .noChange, gridDated := false } ∧
      (s.setElection { s.election with run := some (.awaitingAnswer 6) }).election.run = some (.awaitingAnswer 6) ∧
      (∀ n : SourceNo, act.intake.sources[n].confirmed = none) := by decide +kernel

/-- A run on its snapshot, with an ARMED, a FROZEN and no pending entry; with run pending clear and set. -/
theorem test_meets_RunDecidesByTheTable :
    ∀ es ∈ [sample, frozenSample, []],
      let u := listAt 200#48 es
      let s := (u.setList { u.list with queries := [.snapshot .election] }).setElection
        { Election.reset with run := some (.awaitingSnapshot 6 { content := .noChange, gridDated := false }) }
      s.list.claims = [] ∧ s.list.requests = [] ∧ s.list.queries = [.snapshot .election] ∧ s.card = [] ∧
        s.election.runPending = false ∧
        (s.setElection { s.election with runPending := true }).election.run = s.election.run ∧
        s.election.run = some (.awaitingSnapshot 6 { content := .noChange, gridDated := false }) ∧
        (s.list.sched.entries.find? fun e => e.state != .applied && e.scale == .civil) =
          (es.find? fun e => e.state != .applied && e.scale == .civil) := by
  intro es _
  exact ⟨rfl, rfl, rfl, rfl, rfl, rfl, rfl, rfl⟩

/-- A run that ends with run pending set starts the next at once: it sends its own snapshot claim (R119). -/
theorem test_pending_run_starts_when_the_run_ends :
    let p : Confirmed := { content := .noChange, gridDated := false }
    let u := (proposing.setList { ChangeList.reset with queries := [.snapshot .election] }).setElection
      { Election.reset with run := some (.awaitingSnapshot 6 p), runPending := true }
    (run .snapshotClaim u).election =
        { lastWinner := some 6, disagree := false, run := some (.awaitingSnapshot 6 p), runPending := false } ∧
      (run .snapshotClaim u).list.queries = [.snapshot .election] := by decide +kernel

/-- ACTIVE with transfers of every trigger pending. -/
def transferring : State :=
  updPort 0 (fun p => { p with transfer := some .nextMark }) (updPort 1 (fun p => { p with transfer := some .nextCommit })
    (updPort 2 (fun p => { p with transfer := some .quiet }) act))

theorem test_meets_ChangesAndCommitsCarryOutTransfers :
    let s := transferring.setWires { Wires.empty with
      portS := [{ before := 5#48, after := 6#48 }], commits := [6#48] }
    s.wires.portS = { before := 5#48, after := 6#48 } :: [] ∧ s.wires.commits = 6#48 :: [] ∧
      s.patcher.judgement = none ∧ (∃ p : PortNo, s.patcher.ports[p].transfer = some .quiet) ∧
      (∀ p : PortNo, act.patcher.ports[p].transfer ≠ some .quiet) ∧
      (s.setPatcher { s.patcher with judgement := some 5#48 }).patcher.judgement ≠ none := by decide +kernel

/-- A judgement for which port 2 is quiet: with an entry one second before the interval, and one in it (hold 60). -/
theorem test_meets_QuietPortsAreTransferred :
    let s := (transferring.setPatcher { transferring.patcher with judgement := some 161#48 }).setList
      { ChangeList.reset with queries := [.snapshot .quiet] }
    s.list.claims = [] ∧ s.list.requests = [] ∧ s.list.queries = [.snapshot .quiet] ∧ s.card = [] ∧
      s.patcher.judgement = some 161#48 ∧ s.patcher.waiting = [] ∧
      s.patcher.ports[(2 : PortNo)].transfer = some .quiet ∧
      ¬ ((161 : Int) - s.patcher.ports[(2 : PortNo)].active.hold.toNat ≤ (100#48 : Second).toNat) ∧
      (160 : Int) - s.patcher.ports[(2 : PortNo)].active.hold.toNat ≤ (100#48 : Second).toNat := by decide +kernel

/-- A port that leaves QUIET while a judgement awaits its snapshot is not tested; one that has returned is (log entry 32). -/
theorem test_a_port_that_returns_to_quiet_is_tested :
    let s := (transferring.setPatcher { transferring.patcher with judgement := some 161#48 }).setList
      { ChangeList.reset with queries := [.snapshot .quiet] }
    let set := fun (trigger : Byte) (u : State) =>
      run (.memoryAnswer true []) (run (.portTransfer 0 (.beat .eight) 0#40 2#8 trigger) u)
    let left := set 2#8 s
    (run .snapshotClaim left).patcher.ports[(2 : PortNo)].transfer = some .nextMark ∧
      (set 4#8 left).patcher.ports[(2 : PortNo)].transfer = some .quiet ∧
      (run .snapshotClaim (set 4#8 left)).patcher.ports[(2 : PortNo)].transfer = none := by decide +kernel

/-- Waiting changes behind a judgement: with a port still pending QUIET the first of them begins the next judgement and the
second stays; with none left both are taken. -/
theorem test_waiting_changes_are_taken_after_a_judgement :
    let waiting : List SChange := [{ before := 161#48, after := 162#48 }, { before := 162#48, after := 163#48 }]
    let s := fun es : List Entry =>
      (transferring.setPatcher { transferring.patcher with judgement := some 161#48, waiting := waiting }).setList
        { ChangeList.reset with sched := { entries := es, base := .reset }, queries := [.snapshot .quiet] }
    let near := run .snapshotClaim (s [civil 150#48 .insert 0 1 .applied])
    let clear := run .snapshotClaim (s [])
    near.patcher.judgement = some 162#48 ∧ near.patcher.waiting = [{ before := 162#48, after := 163#48 }] ∧
      near.list.queries = [.snapshot .quiet] ∧ near.patcher.ports[(0 : PortNo)].transfer = none ∧
      clear.patcher.judgement = none ∧ clear.patcher.waiting = [] ∧ clear.list.queries = [] ∧
      clear.wires.events = [.portTransfer, .portTransfer] := by decide +kernel

theorem test_meets_RaisedEventsSetIndicationsAndTheLine :
    Event.freeze ∈ (act.raised [.freeze]).wires.events ∧ Event.freeze ∉ act.wires.events := by decide +kernel

/-! ## Hypotheses met: invariants, with a step from each state -/

theorem test_meets_EveryStepKeepsTheListLaws :
    ListLaws (listAt 200#48 sample) ∧ OffsetLaws (listAt 200#48 sample).list.sched ∧
      step (listAt 200#48 sample) = .next ((listAt 200#48 sample).setCounter 1#32) :=
  ⟨listLaws_sample, offsetLaws_sample, rfl⟩

/-- A record waits behind the one in the qualifier. -/
theorem test_meets_EveryStepKeepsQueuesAndConfiguration :
    let q : Qualifying := { source := 1, seq := 7#16, arrival := 9#48, work := .zoneAnswer }
    let s := (queued 0#64).setIntake { (queued 0#64).intake with qualifier := some q }
    IntakeLaws s ∧ s.status.part = .active ∧ ¬ NoTakeDue (queued 0#64) := by
  refine ⟨⟨by decide +kernel, fun h => absurd h (by decide +kernel), ?_, ?_⟩, by decide +kernel, ?_⟩
  · intro _ a h
    cases h
  · intro _ _ _ h
    cases h
  · intro h
    exact absurd (h rfl rfl (by decide +kernel) rfl 4) (by decide +kernel)

/-- A TRANSPARENT part that holds a forwarded access. -/
theorem test_meets_EveryStepKeepsTheTransparentPartIdle :
    let a : Access := { master := 0, addr := 0#24, dir := .read, shape := .beat .one, data := [] }
    TransparentIdle (State.reset.waitingFor a .relay a) ∧
      (State.reset.waitingFor a .relay a).status.part = .transparent :=
  ⟨fun _ => ⟨rfl, ⟨rfl, rfl, rfl, rfl, rfl, rfl⟩, rfl, ⟨rfl, rfl⟩, rfl, ⟨by decide +kernel, rfl, rfl⟩, by decide +kernel, rfl, by
    intro h hh
    cases hh
    rfl⟩, rfl⟩

end Sys2Proof.Machine.Tests
end

section
/-! SUPPORT and PROOFS. What a command can do to the schedule and the list second, said once, and the laws of the change
list and of its offsets kept by every step (spec/01_the_change_list.md, spec/04_freeze_and_commit.md). -/

namespace Sys2Proof.Machine

/-! ## What a command can do to the schedule and the list second -/

/-- The schedules and list seconds a command can lead to from `s`: as they were, after a claim, after a judged request,
after FLUSH, or an empty list at second 0 with the base record kept, activated or reset. -/
inductive SchedMove (s : State) : Schedule → Second → Prop
  | kept : SchedMove s s.list.sched s.list.listSecond
  | claimed (c : SChange) (rest : List SChange) (h : s.list.claims ++ s.list.coming = c :: rest) :
      SchedMove s { s.list.sched with entries := claimEntries (freezeLead s) c s.list.sched.entries } c.after
  | judged (r : Request) (v : Verdict) (h : judgeRequest s r = some v) : SchedMove s v.sched s.list.listSecond
  | flushed : SchedMove s (flushSchedule s.list.sched).1 s.list.listSecond
  | emptied (b : BaseRecord) (h : b = s.list.sched.base ∨ b = .reset ∨ ∃ g, b = activatedBase g) :
      SchedMove s { entries := [], base := b } 0#48

/-- One command seen from the list: how schedule and list second move, and that the law of the claims is kept. -/
structure ListStep (s t : State) : Prop where
  move : SchedMove s t.list.sched t.list.listSecond
  claims : ClaimsLaw s → ClaimsLaw t

/-- The law of the claims across states that agree in what it sees. -/
theorem ClaimsLaw.congr {s t : State} (h : ClaimsLaw s) (hx : t.list.listSecond = s.list.listSecond)
    (hc : t.list.claims = s.list.claims) (hm : t.list.coming = s.list.coming) (hs : t.sup.s = s.sup.s)
    (hr : t.resetAsserted = s.resetAsserted)
    (hh : s.resetAsserted = true → s.path.held = none → t.path.held = none) : ClaimsLaw t := by
  unfold ClaimsLaw at h ⊢
  rw [hr, hc, hm, hx, hs]
  split
  · rename_i ha
    rw [if_pos ha] at h
    obtain ⟨h1, h2, h3⟩ := h
    exact ⟨h1, h2, hh ha h3⟩
  · rename_i ha
    rwa [if_neg ha] at h

theorem ClaimsLaw.same {s t : State} (h : ClaimsLaw s) (k : SameList s t)
    (hh : s.resetAsserted = true → s.path.held = none → t.path.held = none) : ClaimsLaw t :=
  h.congr k.listSecond k.claims k.coming k.second k.resetAsserted hh

/-- While RESET is not asserted the law is the chain alone. -/
theorem ClaimsLaw.of_chain {s : State} (hr : s.resetAsserted = false)
    (h : ClaimChain s.list.listSecond (s.list.claims ++ s.list.coming) s.sup.s) : ClaimsLaw s := by
  simpa [ClaimsLaw, hr] using h

theorem ClaimsLaw.chain {s : State} (h : ClaimsLaw s) (hr : s.resetAsserted = false) :
    ClaimChain s.list.listSecond (s.list.claims ++ s.list.coming) s.sup.s := by
  simpa [ClaimsLaw, hr] using h

/-- An access is held only while RESET is not asserted. -/
theorem ClaimsLaw.running {s : State} (h : ClaimsLaw s) {x : Held} (hh : s.path.held = some x) :
    s.resetAsserted = false := by
  by_contra hr
  have hr : s.resetAsserted = true := by simpa using hr
  simp [ClaimsLaw, hr, hh] at h

/-- The oldest claim starts from the list second. -/
theorem ClaimsLaw.before {s : State} (h : ClaimsLaw s) {c : SChange} {rest : List SChange}
    (hc : s.list.claims ++ s.list.coming = c :: rest) :
    s.resetAsserted = false ∧ c.before = s.list.listSecond ∧ ClaimChain c.after rest s.sup.s := by
  cases hr : s.resetAsserted with
  | true =>
    simp only [ClaimsLaw, hr, if_true] at h
    obtain ⟨hcl, hcm, _⟩ := h
    rw [hcl, hcm] at hc
    cases hc
  | false =>
    have hch := h.chain hr
    rw [hc] at hch
    obtain ⟨hb, _, ht⟩ := hch
    exact ⟨rfl, hb, ht⟩

theorem ListStep.of_same {s t : State} (k : SameList s t)
    (hh : s.resetAsserted = true → s.path.held = none → t.path.held = none) : ListStep s t :=
  ⟨by rw [k.sched, k.listSecond]; exact .kept, fun h => h.same k hh⟩

theorem ListStep.refl (s : State) : ListStep s s := .of_same (.refl s) fun _ h => h

/-- A command whose last operations touch nothing of the list. -/
theorem ListStep.then {s t u : State} (h : ListStep s t) (k : SameList t u)
    (hh : t.resetAsserted = true → t.path.held = none → u.path.held = none) : ListStep s u :=
  ⟨by rw [k.sched, k.listSecond]; exact h.move, fun hc => (h.claims hc).same k hh⟩

theorem ListStep.serve {s t : State} (h : ListStep s t) : ListStep s (serve t) :=
  h.then (serve_frame t).sameList fun hr hn => by rw [serve_reset hr]; exact hn

theorem InnerFrame.sameList {s t : State} (h : InnerFrame s t) : SameList s t :=
  ⟨h.sched, h.listSecond, h.claims, h.coming, congrArg Supervisor.s h.sup, h.resetAsserted⟩

theorem ListStep.inner {s t u : State} (h : ListStep s t) (k : InnerFrame t u) : ListStep s u :=
  h.then k.sameList fun _ hn => by rw [k.path]; exact hn

theorem ListStep.of_inner {s t : State} (k : InnerFrame s t) : ListStep s t := (ListStep.refl s).inner k

/-! ## The Second Supervisor -/

/-- Schedule and list second stay and the chain of the claims is led on to S: what each mark, expiry and live write does
while RESET is not asserted. -/
structure ChainKept (s t : State) : Prop where
  sched : t.list.sched = s.list.sched
  listSecond : t.list.listSecond = s.list.listSecond
  running : s.resetAsserted = false → t.resetAsserted = false
  chain : ClaimChain s.list.listSecond (s.list.claims ++ s.list.coming) s.sup.s →
    ClaimChain t.list.listSecond (t.list.claims ++ t.list.coming) t.sup.s

theorem ChainKept.refl (s : State) : ChainKept s s := ⟨rfl, rfl, id, id⟩

theorem ChainKept.trans {s t u : State} (h : ChainKept s t) (k : ChainKept t u) : ChainKept s u :=
  ⟨k.sched.trans h.sched, k.listSecond.trans h.listSecond, fun hr => k.running (h.running hr),
    fun hc => k.chain (h.chain hc)⟩

theorem SameList.chainKept {s t : State} (k : SameList s t) : ChainKept s t :=
  ⟨k.sched, k.listSecond, fun hr => k.resetAsserted.trans hr, fun hc => by
    rwa [k.claims, k.coming, k.listSecond, k.second]⟩

theorem ChainKept.listStep {s t : State} (k : ChainKept s t) (hr : ClaimsLaw s → s.resetAsserted = false) :
    ListStep s t :=
  ⟨by rw [k.sched, k.listSecond]; exact .kept,
    fun h => .of_chain (k.running (hr h)) (k.chain (h.chain (hr h)))⟩

/-- What the supervisor does in a mark, an expiry and a live write: the chain of the claims is led on, and the Status Unit
and the Path Unit stay. -/
structure SupStep (s t : State) : Prop extends ChainKept s t where
  status : t.status = s.status
  path : t.path = s.path

theorem SupStep.refl (s : State) : SupStep s s := ⟨.refl s, rfl, rfl⟩

/-- The supervisor changed, S apart. -/
theorem SupStep.setSup {s t : State} (h : SupStep s t) {x : Supervisor} (hx : x.s = t.sup.s := by rfl) :
    SupStep s (t.setSup x) :=
  ⟨h.trans (SameList.chainKept ⟨rfl, rfl, rfl, rfl, hx, rfl⟩), h.status, h.path⟩

theorem SupStep.raise {s t : State} (h : SupStep s t) (es : List Event) : SupStep s (raise es t) :=
  ⟨h.trans (raise_same es t).chainKept, h.status, h.path⟩

theorem SupStep.changeS {s t : State} (h : SupStep s t) (new : Second) : SupStep s (changeS new t) :=
  ⟨h.trans ⟨changeS_sched new t, changeS_listSecond new t, fun hr => (changeS_resetAsserted new t).trans hr,
    changeS_claimChain new⟩, (changeS_status new t).trans h.status, (changeS_path new t).trans h.path⟩

theorem SupStep.inner {s t u : State} (h : SupStep s t) (k : InnerFrame t u) : SupStep s u :=
  ⟨h.trans k.sameList.chainKept, k.status.trans h.status, k.path.trans h.path⟩

theorem inWindowMark_supStep (x : Count) (s : State) : SupStep s (inWindowMark x s) := by
  unfold inWindowMark
  dsimp only
  split
  · exact (SupStep.changeS (SupStep.refl s).setSup _).raise _
  · exact SupStep.changeS (SupStep.refl s).setSup _

theorem reAnchor_supStep (x : Count) (s : State) : SupStep s (reAnchor x s) := by
  unfold reAnchor
  dsimp only
  refine SupStep.raise ?_ _
  split
  · exact (SupStep.refl s).setSup
  · exact SupStep.changeS (SupStep.refl s).setSup _

theorem strayMark_supStep (x : Count) (s : State) : SupStep s (strayMark x s) := by
  unfold strayMark
  split
  · exact (SupStep.refl s).setSup
  · split <;> exact (SupStep.refl s).setSup
  · split
    · exact reAnchor_supStep x s
    · exact (SupStep.refl s).setSup

theorem judgeMark_supStep (x : Count) (s : State) : SupStep s (judgeMark x s) := by
  cases hb : s.sup.timeBase with
  | unset => simp only [judgeMark, hb]; exact .refl s
  | acquiring =>
    simp only [judgeMark, hb]
    exact (SupStep.changeS (SupStep.refl s).setSup _).raise _
  | locked =>
    rw [judgeMark_window x (.inl hb)]
    split
    · exact inWindowMark_supStep x s
    · exact strayMark_supStep x s
  | flywheel =>
    rw [judgeMark_window x (.inr hb)]
    split
    · exact inWindowMark_supStep x s
    · exact strayMark_supStep x s

theorem substituteMark_supStep (s : State) : SupStep s (substituteMark s) := by
  unfold substituteMark
  exact (SupStep.changeS (SupStep.refl s).setSup _).raise _

theorem SupStep.resync {s t : State} (h : SupStep s t) (w : Second) : SupStep s (resync w t) :=
  (SupStep.changeS h.setSup _).raise _

theorem SupStep.liveCheck {s t : State} (h : SupStep s t) (p : Bool) (w : Second) :
    SupStep s (liveCheck p w t) := by
  unfold Machine.liveCheck
  split
  · exact h.setSup
  · split
    · exact h.resync w
    · split
      · exact h.resync w
      · exact h.setSup

theorem liveWrite_supStep (w : Second) (s : State) : SupStep s (liveWrite w s) := by
  have h : SupStep s (s.setSup { s.sup with resyncPending := false }) := (SupStep.refl s).setSup
  unfold liveWrite
  dsimp only
  split
  · exact (SupStep.changeS h.setSup _).raise _
  · exact h.changeS w
  · exact h.liveCheck _ w
  · exact h.liveCheck _ w

theorem liveWriteTaken_supStep (w : Second) (s : State) : SupStep s (liveWriteTaken w s) := by
  unfold liveWriteTaken
  split
  · exact (liveWrite_supStep w s).inner (qualifierTake_inner _)
  · exact liveWrite_supStep w s

/-- Cycles that pass keep schedule and list second, and the claims in their order. -/
theorem elapsed_listStep (e : Count) (s : State) : ListStep s (s.elapsed e) := by
  obtain ⟨-, hc, -, -⟩ := s.elapsed_spec e
  refine ⟨by rw [State.elapsed_sched, State.elapsed_listSecond]; exact .kept, fun h => ?_⟩
  unfold ClaimsLaw at h ⊢
  rw [hc]
  simp only [State.elapsed_resetAsserted, State.elapsed_listSecond, State.elapsed_sup, State.elapsed_path]
  split
  · rename_i hr
    rw [if_pos hr] at h
    obtain ⟨hcl, hcm, hh⟩ := h
    rw [hcl, hcm] at hc
    obtain ⟨hcl', hcm'⟩ := List.append_eq_nil_iff.mp hc
    exact ⟨hcl', hcm', hh⟩
  · rename_i hr
    rwa [if_neg hr] at h

theorem elapsed_chainKept (e : Count) (s : State) : ChainKept s (s.elapsed e) := by
  obtain ⟨-, hc, -, -⟩ := s.elapsed_spec e
  exact ⟨State.elapsed_sched .., State.elapsed_listSecond .., fun hr => by simpa using hr, fun h => by
    rw [hc]; simpa using h⟩

theorem secondMark_listStep {e : Count} {s t : State} (h : exec (.secondMark e) s = .next t) : ListStep s t := by
  cases hr : s.resetAsserted with
  | false =>
    rw [exec_secondMark e hr] at h
    cases h
    have hk : SupStep (s.elapsed e) ((s.elapsed e).setSup (s.captured (s.counter + e))) :=
      (SupStep.refl _).setSup (by simp)
    exact (((elapsed_chainKept e s).trans hk.toChainKept).trans (judgeMark_supStep _ _).toChainKept).listStep fun _ => hr
  | true =>
    have : mark (s.elapsed e) = s.elapsed e := by simp [mark, hr]
    simp only [exec, execSecondMark, advanceCounter_eq, this] at h
    cases h
    exact elapsed_listStep e s

theorem windowExpiry_listStep {e : Count} {s t : State} (h : exec (.windowExpiry e) s = .next t) : ListStep s t := by
  cases hr : s.resetAsserted with
  | false =>
    rw [exec_windowExpiry e hr] at h
    cases h
    split
    · exact ((elapsed_chainKept e s).trans (substituteMark_supStep _).toChainKept).listStep fun _ => hr
    · exact elapsed_listStep e s
  | true =>
    have : windowExpiry (s.elapsed e) = s.elapsed e := by simp [windowExpiry, hr]
    simp only [exec, execWindowExpiry, advanceCounter_eq, this] at h
    cases h
    exact elapsed_listStep e s

/-! ## Memory's answer -/

/-- A held access answered or held on: nothing of the list changes and RESET is not asserted. -/
theorem ListStep.of_frame {s t : State} (k : AccessFrame s t) (hr : ClaimsLaw s → s.resetAsserted = false) :
    ListStep s t := k.sameList.chainKept.listStep hr

theorem handOff_chainKept (o : HandOff) (a : Access) (s : State) : ChainKept s (handOff o a s) := by
  cases o with
  | none => exact .refl s
  | config => exact (setStatus_same s _).chainKept
  | intake => exact (intakeWords_inner _ _ _ s).sameList.chainKept
  | liveWrite => exact (liveWriteTaken_supStep _ s).toChainKept

/-- A part whose list is empty at second 0, with S at 0 and no claim, while RESET is not asserted. -/
theorem ListStep.of_emptied {s t : State} {b : BaseRecord}
    (hb : b = s.list.sched.base ∨ b = .reset ∨ ∃ g, b = activatedBase g)
    (hl : t.list = { ChangeList.reset with sched := { entries := [], base := b } })
    (hs : t.sup.s = 0#48) (hr : ClaimsLaw s → t.resetAsserted = false) : ListStep s t :=
  ⟨by rw [hl]; exact .emptied b hb, fun h => .of_chain (hr h) (by rw [hl, hs]; rfl)⟩

/-- The list, S and the RESET line after a successful ACTIVATE (R177). -/
theorem activatePart_list (s : State) : (activatePart s).list =
    { ChangeList.reset with sched := { entries := [], base := activatedBase s.status.config.glob } } := by
  simp [activatePart, emptyLatches]

theorem activatePart_sup (s : State) : (activatePart s).sup =
    { Supervisor.reset with present := s.sup.present, previous := s.sup.previous } := by
  simp [activatePart, emptyLatches]

theorem activatePart_resetAsserted (s : State) : (activatePart s).resetAsserted = s.resetAsserted := by
  simp [activatePart, emptyLatches]

theorem setEvent_same (e : Event) (s : State) : SameList s (setEvent e s) := setStatus_same s _

theorem takeActivate_listStep {s t : State} (k : ChainKept s t) (hr : ClaimsLaw s → s.resetAsserted = false) :
    ListStep s (takeActivate t) := by
  unfold takeActivate
  split
  · have he : ListStep s (activatePart t) :=
      .of_emptied (.inr (.inr ⟨t.status.config.glob, rfl⟩)) (activatePart_list t) (by rw [activatePart_sup]; rfl)
        fun h => (activatePart_resetAsserted t).trans (k.running (hr h))
    exact he.then (setEvent_same _ _) fun _ hn => hn
  · exact (k.trans ((setStatus_same t _).trans (setEvent_same _ _)).chainKept).listStep hr

/-- The list, S and the RESET line after DEACTIVATE (R178). -/
theorem takeDeactivate_list (s : State) : (takeDeactivate s).list =
    { ChangeList.reset with sched := { entries := [], base := s.list.sched.base } } := by
  simp [takeDeactivate, emptyLatches]

theorem takeDeactivate_sup (s : State) : (takeDeactivate s).sup = Supervisor.reset := by
  simp [takeDeactivate, emptyLatches]

theorem takeDeactivate_resetAsserted (s : State) : (takeDeactivate s).resetAsserted = s.resetAsserted := by
  simp [takeDeactivate, emptyLatches]

theorem takeDeactivate_listStep {s t : State} (k : ChainKept s t) (hr : ClaimsLaw s → s.resetAsserted = false) :
    ListStep s (takeDeactivate t) :=
  .of_emptied (.inl (by rw [k.sched])) (takeDeactivate_list t) (by rw [takeDeactivate_sup]; rfl)
    fun h => (takeDeactivate_resetAsserted t).trans (k.running (hr h))

theorem takeFlush_same (a : Access) (s : State) : SameList s (takeFlush a s) := ⟨rfl, rfl, rfl, rfl, rfl, rfl⟩

/-- Answering keeps what the list sees, and frees the unit. -/
theorem ListStep.answer {s t : State} (h : ListStep s t) (a : Access) (ok : Bool) (d : List Byte) :
    ListStep s (answer a ok d t) := h.then (answer_frame a ok d t).sameList fun _ _ => rfl

theorem takeCommand_listStep (a : Access) (w : Word) (s : State) (hr : ClaimsLaw s → s.resetAsserted = false) :
    ListStep s (takeCommand a w s) := by
  have k : ChainKept s (s.setStatus { s.status with lastCommand := w }) := (setStatus_same s _).chainKept
  unfold takeCommand
  dsimp only
  split
  · exact (takeActivate_listStep k hr).answer _ _ _
  · exact (takeDeactivate_listStep k hr).answer _ _ _
  · exact (k.trans (takeFlush_same a _).chainKept).listStep hr
  · exact ((k.trans ((SupStep.refl _).setSup).toChainKept).listStep hr).answer _ _ _
  · exact ((k.trans (setPath_same _ _).chainKept).listStep hr).answer _ _ _
  · exact ((k.trans (takePortTransfer_inner _ _ _).sameList.chainKept).listStep hr).answer _ _ _
  · exact (k.listStep hr).answer _ _ _

theorem memoryOk_listStep (h : Held) (d : List Byte) (s : State) (hr : ClaimsLaw s → s.resetAsserted = false) :
    ListStep s (memoryOk h d s) := by
  obtain ⟨a, j⟩ := h
  cases j with
  | store o => exact ((handOff_chainKept o a s).trans (answer_frame a true d _).sameList.chainKept).listStep hr
  | command w => exact takeCommand_listStep a w s hr
  | _ => exact .of_frame (memoryOk_frame d s (fun _ h => by cases h) (fun _ h => by cases h)) hr

theorem memoryError_same (h : Held) (s : State) : SameList s (memoryError h s) := by
  unfold memoryError
  dsimp only
  split <;> exact ⟨rfl, rfl, rfl, rfl, rfl, rfl⟩

theorem judgeRequest_congr {s u : State} (k : SameList s u) (hs : u.status = s.status) (r : Request) :
    judgeRequest u r = judgeRequest s r := by
  cases r <;> simp only [judgeRequest, freezeLead, k.sched, k.listSecond, hs]

/-- First operations that touch nothing a step of the list sees. -/
theorem ListStep.after {s u t : State} (h : ListStep u t) (k : SameList s u) (hs : u.status = s.status)
    (hh : u.path.held = s.path.held) : ListStep s t := by
  refine ⟨?_, fun hc => h.claims (hc.same k fun _ hn => hh.trans hn)⟩
  have hf : freezeLead u = freezeLead s := by simp only [freezeLead, hs]
  generalize hx : t.list.sched = x, hy : t.list.listSecond = y
  have hm := h.move
  rw [hx, hy] at hm
  cases hm with
  | kept => rw [k.sched, k.listSecond]; exact .kept
  | claimed c rest hc =>
    rw [k.sched, hf]
    exact .claimed c rest (by rw [← k.claims, ← k.coming]; exact hc)
  | judged r v hv => rw [k.listSecond]; exact .judged r v ((judgeRequest_congr k hs r).symm.trans hv)
  | flushed => rw [k.sched, k.listSecond]; exact .flushed
  | emptied b hb => exact .emptied b (by rw [← k.sched]; exact hb)

theorem memoryAnswer_listStep (ok : Bool) (d : List Byte) (s : State) : ListStep s (memoryAnswer ok d s) := by
  unfold memoryAnswer
  split
  · exact .refl s
  · dsimp only
    split
    · exact ListStep.of_same ((setPath_frame s _).trans (issueNext_frame _)).sameList fun _ hn => by
        unfold issueNext; split <;> exact hn
    · split
      · rename_i hh
        exact .of_same (setPath_same s _) fun _ _ => hh
      · rename_i x hh
        refine ListStep.after (u := s.setPath { s.path with outstanding := none, stale := false }) ?_ (setPath_same s _) rfl rfl
        have hr : ClaimsLaw (s.setPath { s.path with outstanding := none, stale := false }) → s.resetAsserted = false :=
          fun h => h.running hh
        split
        · exact memoryOk_listStep x _ _ hr
        · exact (memoryError_same x _).chainKept.listStep hr

/-! ## Claims, requests, FLUSH and queries at the list -/

theorem freezeAndCommitClaim_listStep {s t : State} (h : exec .freezeAndCommitClaim s = .next t) : ListStep s t := by
  simp only [exec, execFreezeAndCommitClaim] at h
  split at h
  · cases h; exact .refl s
  · rename_i c l hp
    cases h
    obtain ⟨hc, -, hl⟩ := popClaim_some hp
    have hsched : l.sched = s.list.sched := by rw [hl]
    constructor
    · show SchedMove s { l.sched with entries := claimEntries (freezeLead s) c l.sched.entries } c.after
      rw [hsched]
      exact .claimed c _ hc
    · intro hl'
      obtain ⟨hr, -, ht⟩ := hl'.before hc
      exact .of_chain hr ht

/-- A request that leaves the list with a new schedule and events raised. -/
theorem ListStep.popped {s : State} {sched : Schedule} (h : SchedMove s sched s.list.listSecond) (es : List Event) :
    ListStep s (raise es ((popRequest s).setList { (popRequest s).list with sched := sched })) := by
  have hp := popRequest_inner s
  refine ⟨?_, fun hc => hc.congr hp.listSecond hp.claims hp.coming (congrArg Supervisor.s hp.sup) hp.resetAsserted ?_⟩
  · show SchedMove s sched (popRequest s).list.listSecond
    rwa [hp.listSecond]
  · exact fun _ hn => (congrArg PathUnit.held hp.path).trans hn

theorem takeRequest_listStep (row : RequestRow) (s : State) : ListStep s (takeRequest row s) := by
  unfold takeRequest
  split
  · exact .refl s
  · split
    · split
      · rename_i v hv
        exact (ListStep.popped (.judged _ v hv) v.events).inner (deliverAnswer_inner _ _ _)
      · exact .refl s
    · exact .refl s

/-- Where no access is held, the progress of FLUSH holds none. -/
theorem flushProgress_held {l i : Bool} {s : State} (h : s.path.held = none) : flushProgress l i s = s := by
  unfold flushProgress; rw [h]

theorem takeFlushClaim_listStep (s : State) : ListStep s (takeFlushClaim s) := by
  unfold takeFlushClaim
  split
  · have hp := popRequest_inner s
    have hm : ListStep s (raise (flushSchedule (popRequest s).list.sched).2
        ((popRequest s).setList { (popRequest s).list with sched := (flushSchedule (popRequest s).list.sched).1 })) := by
      rw [hp.sched]; exact .popped .flushed _
    exact (hm.then (flushProgress_frame true false _).sameList
      fun _ hn => by rw [flushProgress_held hn]; exact hn).serve
  · exact .refl s

/-- While no access is held, none of the Path Unit's answers to a query holds one. -/
theorem deliverLookup_listStep (who : Asker) (sched : Schedule) (s : State) : ListStep s (deliverLookup who sched s) := by
  unfold deliverLookup
  split
  · exact .of_same (converterLookup_frame sched s).sameList fun _ hn => by simp only [converterLookup, hn]
  · exact .of_inner (qualifierLookup_inner sched s)
  · exact .refl s

theorem deliverSnapshot_listStep (who : Asker) (sched : Schedule) (s : State) :
    ListStep s (deliverSnapshot who sched s) := by
  unfold deliverSnapshot
  split
  · exact .of_inner (electionSnapshot_inner sched s)
  · exact .of_same (patcherSnapshot_frame sched s).sameList fun _ hn => by simp only [patcherSnapshot, hn]
  · exact .of_inner (quietSnapshot_inner sched s)
  · exact .of_same (statusSnapshot_frame sched s).sameList fun _ hn => by simp only [statusSnapshot, hn]
  · exact .refl s

theorem takeLookup_listStep (s : State) : ListStep s (takeLookup s) := by
  unfold takeLookup
  split
  · exact (ListStep.after (deliverLookup_listStep _ _ (popQuery s)) (popQuery_inner s).sameList rfl rfl).serve
  · exact .refl s

theorem takeSnapshot_listStep (s : State) : ListStep s (takeSnapshot s) := by
  unfold takeSnapshot
  split
  · exact (ListStep.after (deliverSnapshot_listStep _ _ (popQuery s)) (popQuery_inner s).sameList rfl rfl).serve
  · exact .refl s

/-! ## Reset -/

theorem assertReset_listStep (s : State) : ListStep s (assertReset s) := by
  cases hr : s.resetAsserted with
  | true =>
    have : assertReset s = s := by simp [assertReset, hr]
    rw [this]; exact .refl s
  | false =>
    have hs : (assertReset s).list.sched = s.list.sched ∧ (assertReset s).list.listSecond = s.list.listSecond := by
      cases hh : s.path.held <;> simp [assertReset, hr, hh, emptyLatches, answerError, answer]
    refine ⟨by rw [hs.1, hs.2]; exact .kept, fun _ => ?_⟩
    cases hh : s.path.held <;> simp [ClaimsLaw, assertReset, hr, hh, emptyLatches, answerError, answer]

theorem resetRelease_listStep {page : BitVec 8} {control : Master} {s t : State}
    (h : exec (.resetRelease page control) s = .next t) : ListStep s t := by
  simp only [exec, execResetRelease] at h
  split at h
  · cases h
    exact (ListStep.of_emptied (b := .reset) (.inr (.inl rfl)) rfl rfl fun _ => rfl).serve
  · cases h; exact .refl s

/-! ## Every command -/

theorem intakeFlush_listStep {s t : State} (h : exec .intakeFlush s = .next t) : ListStep s t := by
  simp only [exec, execIntakeFlush] at h
  split at h
  · cases h; exact .refl s
  · cases h
    exact ((ListStep.of_inner ((setWires_inner s _).trans (flushIntake_inner _))).then
      (flushProgress_frame false true _).sameList fun _ hn => by rw [flushProgress_held hn]; exact hn).serve

/-- Every command moves schedule and list second in one of the ways of `SchedMove`, and keeps the law of the claims. -/
theorem exec_listStep {c : Instr} {s t : State} (h : exec c s = .next t) : ListStep s t := by
  cases ha : accessOf s c with
  | some a =>
    rw [exec_access ha] at h
    cases h
    exact (ListStep.of_same (t := s.setCard (s.card ++ [a])) (setCard_frame s _).sameList fun _ hn => hn).serve
  | none =>
    cases c
    case resetAssert => cases h; exact assertReset_listStep s
    case resetRelease => exact resetRelease_listStep h
    case secondMark => exact secondMark_listStep h
    case windowExpiry => exact windowExpiry_listStep h
    case memoryAnswer ok d => cases h; exact (memoryAnswer_listStep ok d s).serve
    case freezeAndCommitClaim => exact freezeAndCommitClaim_listStep h
    case armRequest => cases h; exact takeRequest_listStep .arm s
    case replaceRequest => cases h; exact takeRequest_listStep .replace s
    case withdrawRequest => cases h; exact takeRequest_listStep .withdraw s
    case listFlush => cases h; exact takeFlushClaim_listStep s
    case lookupClaim => cases h; exact takeLookup_listStep s
    case snapshotClaim => cases h; exact takeSnapshot_listStep s
    case qualifierTake => cases h; exact .of_inner (qualifierTake_inner s)
    case intakeFlush => exact intakeFlush_listStep h
    case intakeChangeOfS =>
      simp only [exec, execIntakeChangeOfS] at h
      split at h <;> cases h
      · exact .refl s
      · exact .of_inner ((setWires_inner s _).trans (intakeChange_inner _ _))
    case civilCommitNotice =>
      simp only [exec, execCivilCommitNotice] at h
      split at h <;> cases h
      · exact .refl s
      · exact .of_inner ((setWires_inner s _).trans (civilCommit_inner _ _))
    case electionTrigger =>
      simp only [exec, execElectionTrigger] at h
      split at h <;> cases h
      · exact .refl s
      · exact .of_inner ((setWires_inner s _).trans (takeTrigger_inner _))
    case electionFlush =>
      simp only [exec, execElectionFlush] at h
      split at h <;> cases h
      · exact .refl s
      · exact .of_inner ((setWires_inner s _).trans (flushElection_inner _))
    case portChangeOfS =>
      simp only [exec, execPortChangeOfS] at h
      split at h <;> cases h
      · exact .refl s
      · exact .of_inner ((setWires_inner s _).trans (arriveChangeOfS_inner _ _))
    case commitNotice =>
      simp only [exec, execCommitNotice] at h
      split at h <;> cases h
      · exact .refl s
      · exact .of_inner ((setWires_inner s _).trans (transferPorts_inner _ _))
    case eventRaise e =>
      simp only [exec, execEventRaise] at h
      split at h <;> cases h
      · exact .of_same ((setWires_same s _).trans (setEvent_same _ _)) fun _ hn => hn
      · exact .refl s
    all_goals cases ha

/-- So does every step. -/
theorem step_listStep {s t : State} (h : step s = .next t) : ∃ rest, ListStep (s.setPending rest) t := by
  unfold step at h
  split at h
  · rename_i hp
    cases h
    refine ⟨[], ?_⟩
    have : s.setPending [] = s := by rw [← hp, State.setPending_self]
    rw [this]
    exact elapsed_listStep 1#32 s
  · rename_i c rest hp
    exact ⟨rest, exec_listStep h⟩

/-! ## The laws kept -/

theorem ListLaws.setPending {s : State} (h : ListLaws s) (q : List Instr) : ListLaws (s.setPending q) :=
  h.same ⟨rfl, rfl, rfl, rfl, rfl, rfl⟩ fun _ hn => hn

/-- A move from a state with the laws of the list leads to entries that have them, at the new list second. -/
theorem SchedMove.entryLaws {s : State} {sched : Schedule} {x : Second} (m : SchedMove s sched x) (h : ListLaws s) :
    EntryLaws x sched.entries := by
  cases m with
  | kept => exact h.entryLaws
  | claimed c rest hc =>
    obtain ⟨-, hb, -⟩ := h.claims.before hc
    exact EntryLaws.claim (hb ▸ h.entryLaws) _
  | judged r v hv => exact judgeRequest_laws h.entryLaws hv
  | flushed => exact flush_laws h.entryLaws
  | emptied b hb => exact .nil _

theorem reset_baseRange (sc : Scale) : OffsetInRange sc (BaseRecord.reset.offset sc) := by
  cases sc with
  | civil => exact ⟨by decide, by decide⟩
  | zone k => fin_cases k <;> exact ⟨by decide, by decide⟩

/-- A move from a state with both kinds of laws leads to a schedule with the laws of the offsets. -/
theorem SchedMove.offsetLaws {s : State} {sched : Schedule} {x : Second} (m : SchedMove s sched x) (h : ListLaws s)
    (ho : OffsetLaws s.list.sched) : OffsetLaws sched := by
  cases m with
  | kept => exact ho
  | claimed c rest hc => exact claim_offsetLaws ho _ c
  | judged r v hv => exact judgeRequest_offsetLaws ho h.entryLaws hv
  | flushed => exact flush_offsetLaws ho h.entryLaws
  | emptied b hb =>
    refine offsetLaws_nil fun sc => ?_
    rcases hb with rfl | rfl | ⟨g, rfl⟩
    · exact ho.baseRange sc
    · exact reset_baseRange sc
    · exact activatedBase_range g sc

/-- Settles O56: every step is a move of the list that keeps the laws of the entries, and it keeps the law of the claims. -/
theorem everyStepKeepsTheListLaws : Obligations.EveryStepKeepsTheListLaws := by
  intro s t h hs
  obtain ⟨rest, m, hc⟩ := step_listStep hs
  exact (m.entryLaws (h.setPending rest)).listLaws (hc (h.setPending rest).claims)

/-- Settles O57: every step is a move of the list, and every move keeps the laws of the offsets. -/
theorem everyStepKeepsTheOffsetLaws : Obligations.EveryStepKeepsTheOffsetLaws := by
  intro s t h ho hs
  obtain ⟨rest, m, -⟩ := step_listStep hs
  exact m.offsetLaws (h.setPending rest) ho

end Sys2Proof.Machine
end

section
/-! PROOFS. The TRANSPARENT part is idle (R27, R43, R72, R91, R117, R133): every command keeps the laws of the TRANSPARENT
part, and only DEACTIVATE and the release of RESET lead to it. -/

namespace Sys2Proof.Machine

/-! ## What keeps the laws of the TRANSPARENT part -/

/-- A command that keeps the part state needs to keep the laws while TRANSPARENT only. -/
theorem TransparentIdle.keep {s t : State} (h : TransparentIdle s) (hp : t.status.part = s.status.part)
    (k : s.status.part = .transparent → TransparentLaws s → TransparentLaws t) : TransparentIdle t :=
  fun ht => k (hp.symm.trans ht) (h (hp.symm.trans ht))

/-- The laws look at neither the Status Unit, the counter, the card, the answers nor the queue of commands, and of the path
at latches and held access only. -/
theorem TransparentLaws.setPath {s : State} (h : TransparentLaws s) {x : PathUnit}
    (hl : ∀ m : Fin 16, x.latches[m] = none) (hh : ∀ y, x.held = some y → transparentJob y.job = true) :
    TransparentLaws (s.setPath x) := { h with latches := hl, held := hh }

theorem TransparentLaws.setAnswers {s : State} (h : TransparentLaws s) (x : List SysAnswer) :
    TransparentLaws (s.setAnswers x) := { h with }

theorem TransparentLaws.setCard {s : State} (h : TransparentLaws s) (x : List Access) : TransparentLaws (s.setCard x) :=
  { h with }

theorem TransparentLaws.setStatus {s : State} (h : TransparentLaws s) (x : StatusUnit) :
    TransparentLaws (s.setStatus x) := { h with }

theorem TransparentLaws.setPending {s : State} (h : TransparentLaws s) (x : List Instr) :
    TransparentLaws (s.setPending x) := { h with }

theorem TransparentLaws.setSources {s : State} (h : TransparentLaws s) (v : Vector Source 8) :
    TransparentLaws (s.setIntake { s.intake with sources := v }) := { h with }

/-- Events are all that may be on its way. -/
theorem TransparentLaws.setEvents {s : State} (h : TransparentLaws s) (es : List Event) :
    TransparentLaws (s.setWires { s.wires with events := es }) :=
  { h with wires := by rw [h.wires]; rfl }

theorem TransparentLaws.raise {s : State} (h : TransparentLaws s) (es : List Event) : TransparentLaws (raise es s) :=
  h.setEvents _

theorem TransparentLaws.hold {s : State} (h : TransparentLaws s) (a : Access) {j : Job} (hj : transparentJob j = true) :
    TransparentLaws (hold a j s) := h.setPath h.latches fun _ hy => by cases hy; exact hj

theorem TransparentLaws.answer {s : State} (h : TransparentLaws s) (a : Access) (ok : Bool) (d : List Byte) :
    TransparentLaws (answer a ok d s) :=
  (h.setPath (x := { s.path with held := none }) h.latches fun _ hy => by cases hy).setAnswers _

theorem TransparentLaws.issueNext {s : State} (h : TransparentLaws s) : TransparentLaws (issueNext s) := by
  unfold Machine.issueNext
  split
  · exact h.setPath h.latches h.held
  · exact h

theorem TransparentLaws.holdAndIssue {s : State} (h : TransparentLaws s) (a : Access) {j : Job}
    (hj : transparentJob j = true) (ms : List Access) : TransparentLaws (holdAndIssue a j ms s) := by
  have hh := h.hold a hj
  exact TransparentLaws.issueNext (hh.setPath hh.latches hh.held)

theorem latches_set_none {v : Vector (Option Latch) 16} (h : ∀ m : Fin 16, v[m] = none) (k m : Fin 16) :
    (v.set k none)[m] = none := by
  by_cases hk : (k : Nat) = m
  · simp [hk]
  · simpa [hk] using h m

theorem recordFault_latches (r : FaultRecord) (p : PathUnit) : (recordFault r p).latches = p.latches := by
  unfold recordFault; split <;> rfl

theorem recordFault_held (r : FaultRecord) (p : PathUnit) : (recordFault r p).held = p.held := by
  unfold recordFault; split <;> rfl

theorem TransparentLaws.refuse {s : State} (h : TransparentLaws s) (kind : FaultKind) (a : Access) :
    TransparentLaws (refuse kind a s) := by
  have hr : ∀ r : FaultRecord, TransparentLaws (Machine.raise [.accessFault] (s.setPath (recordFault r s.path))) :=
    fun r => TransparentLaws.raise (h.setPath (by rw [recordFault_latches]; exact h.latches)
      (by rw [recordFault_held]; exact h.held)) _
  unfold Machine.refuse
  dsimp only
  split
  · exact TransparentLaws.answer ((hr _).setPath (x := { (Machine.raise [.accessFault] _).path with latches := _ })
      (latches_set_none (hr _).latches _) (hr _).held) a false []
  · exact (hr _).answer a false []

/-! ## Taking an access while TRANSPARENT -/

/-- An access takes at most 64 bytes. -/
theorem shape_bytes_le (sh : Shape) : sh.bytes ≤ 64 := by
  cases sh with
  | beat n => cases n <;> decide
  | burst m => simp only [Shape.bytes]; omega

/-- An access that touches the status page begins in it, or in the unassigned offsets below it (R156). -/
theorem windowOf_touchesStatus {s : State} {a : Access} (h : touchesStatus s a = true) :
    windowOf (regionOff a (regionBase s)) = .status ∨ windowOf (regionOff a (regionBase s)) = .unassigned := by
  have hlen : accessLen a ≤ 64 := shape_bytes_le a.shape
  obtain ⟨hlo, hhi⟩ := of_decide_eq_true h
  have hoff : regionOff a (regionBase s) = a.addr.toNat - regionBase s := by
    unfold regionOff; rw [if_neg (by omega)]
  have hr : 0xFC0 < regionOff a (regionBase s) ∧ regionOff a (regionBase s) ≤ 0x1FFF := by omega
  generalize regionOff a (regionBase s) = off at hr
  unfold windowOf
  by_cases hs : 0x1000 ≤ off
  · rw [if_neg (by omega), if_neg (by omega), if_pos (by omega)]
    exact .inl rfl
  · rw [if_neg (by omega), if_neg (by omega), if_neg (by omega), if_neg (by omega), if_neg (by omega)]
    exact .inr rfl

theorem TransparentLaws.clearRead {s : State} (h : TransparentLaws s) (rel len : Nat) :
    TransparentLaws (clearRead rel len s) := by
  unfold Machine.clearRead
  dsimp only
  split
  · exact (h.setStatus _).setSources _
  · exact h.setSources _

/-- While TRANSPARENT a status-page access is answered, refused, or held as an allowed command (R167, R175, R185). -/
theorem TransparentLaws.carryOut {s : State} (h : TransparentLaws s) (hp : s.status.part = .transparent) {a : Access}
    (hw : windowOf (regionOff a (regionBase s)) = .status ∨ windowOf (regionOff a (regionBase s)) = .unassigned) :
    TransparentLaws (carryOut a s) := by
  unfold Machine.carryOut
  dsimp only
  rcases hw with hw | hw <;> rw [hw]
  · cases a.dir with
    | read =>
      simp only [statusRead, hp, reduceCtorEq, false_and, if_false]
      exact (h.clearRead _ _).answer _ _ _
    | write =>
      simp only [commandWrite, hp]
      split
      · rename_i hc
        exact h.holdAndIssue a (j := .command (firstWord a)) hc _
      · exact h.refuse _ _
  · exact h.refuse _ _

theorem TransparentLaws.forward {s : State} (h : TransparentLaws s) (a : Access) : TransparentLaws (forward a s) := by
  refine h.holdAndIssue a ?_ _
  unfold forwardedHandOff
  split
  · split <;> rfl
  · rfl

theorem TransparentLaws.takeAccess {s : State} (h : TransparentLaws s) (hp : s.status.part = .transparent) (a : Access) :
    TransparentLaws (takeAccess a s) := by
  unfold Machine.takeAccess
  split
  · rename_i hc
    split
    · exact h.refuse _ _
    · refine h.carryOut hp (windowOf_touchesStatus ?_)
      simp [isChecked, hp] at hc
      exact hc.2
  · exact h.forward a

theorem TransparentIdle.takeAccess {s : State} (h : TransparentIdle s) (a : Access) : TransparentIdle (takeAccess a s) :=
  h.keep (takeAccess_frame a s).part fun hp hl => hl.takeAccess hp a

theorem TransparentIdle.setCard {s : State} (h : TransparentIdle s) (x : List Access) : TransparentIdle (s.setCard x) :=
  h.keep rfl fun _ hl => hl.setCard x

theorem TransparentIdle.serve {s : State} (h : TransparentIdle s) : TransparentIdle (serve s) :=
  serve_keeps (fun _ a rest hs _ _ => (hs.setCard rest).takeAccess a) h

/-! ## Memory's answer -/

theorem transparent_commandOf {w : Word} (h : transparentJob (.command w) = true) :
    commandOf w = some .activate ∨ commandOf w = some .clearFault := by
  simp only [transparentJob, Option.any_eq_true] at h
  obtain ⟨c, hc, ha⟩ := h
  cases c <;> simp [commandAllowed] at ha <;> simp [hc]

theorem takeActivate_idle {s : State} (h : TransparentIdle s) : TransparentIdle (takeActivate s) := by
  unfold takeActivate
  split
  · intro ht; cases ht
  · exact h.keep rfl fun _ hl => (hl.setStatus _).setStatus _

/-- DEACTIVATE leads to the laws from every state whose held access is answered (R178). -/
theorem answer_takeDeactivate_laws (a : Access) (d : List Byte) (s : State) :
    TransparentLaws (answer a true d (takeDeactivate s)) where
  entries := rfl
  list := ⟨rfl, rfl, rfl, rfl, rfl, rfl⟩
  supervisor := rfl
  qualifier := ⟨rfl, rfl⟩
  election := rfl
  transfers := ⟨fun p => by simp [takeDeactivate, emptyLatches, answer], rfl, rfl⟩
  latches := fun m => by simp [takeDeactivate, emptyLatches, answer]
  wires := rfl
  held := fun _ hy => by cases hy

theorem takeCommand_idle {a : Access} {w : Word} {s : State} (h : TransparentIdle s)
    (hj : s.status.part = .transparent → transparentJob (.command w) = true) : TransparentIdle (takeCommand a w s) := by
  have hk : TransparentIdle (s.setStatus { s.status with lastCommand := w }) := h.keep rfl fun _ hl => hl.setStatus _
  have hno : ∀ {c : Option Command} {P : Prop}, commandOf w = c → c ≠ some .activate → c ≠ some .clearFault →
      s.status.part = .transparent → P := by
    intro c P hc ha hf hp
    rcases transparent_commandOf (hj hp) with he | he
    · exact absurd (hc.symm.trans he) ha
    · exact absurd (hc.symm.trans he) hf
  unfold takeCommand
  dsimp only
  split
  · exact (takeActivate_idle hk).keep rfl fun _ hl => hl.answer _ _ _
  · exact fun _ => answer_takeDeactivate_laws _ _ _
  · rename_i hc
    exact hk.keep rfl fun hp _ => hno hc (by simp) (by simp) hp
  · rename_i hc
    exact hk.keep rfl fun hp _ => hno hc (by simp) (by simp) hp
  · exact hk.keep rfl fun _ hl => TransparentLaws.answer (hl.setPath
      (x := { s.path with fault := none, secondFault := false }) hl.latches hl.held) _ _ _
  · rename_i hc
    exact hk.keep (congrArg StatusUnit.part (takePortTransfer_inner _ _ _).status)
      fun hp _ => hno hc (by simp) (by simp) hp
  · exact hk.keep rfl fun _ hl => hl.answer _ _ _

theorem handOff_part (o : HandOff) (a : Access) (s : State) : (handOff o a s).status.part = s.status.part := by
  cases o with
  | none => rfl
  | config => rfl
  | intake => exact congrArg StatusUnit.part (intakeWords_inner _ _ _ s).status
  | liveWrite => exact congrArg StatusUnit.part (liveWriteTaken_supStep _ s).status

theorem memoryOk_idle {h : Held} {d : List Byte} {s : State} (hs : TransparentIdle s)
    (hj : s.status.part = .transparent → transparentJob h.job = true) : TransparentIdle (memoryOk h d s) := by
  obtain ⟨a, j⟩ := h
  cases j with
  | command w => exact takeCommand_idle hs hj
  | store o =>
    refine hs.keep (handOff_part o a s) fun hp hl => ?_
    cases o with
    | none => exact hl.answer _ _ _
    | config => exact (hl.setStatus _).answer _ _ _
    | intake => cases hj hp
    | liveWrite => cases hj hp
  | relay => exact hs.keep rfl fun _ hl => hl.answer _ _ _
  | _ =>
    exact hs.keep (memoryOk_frame d s (fun _ h => by cases h) (fun _ h => by cases h)).part fun hp _ => by cases hj hp

theorem memoryError_idle {h : Held} {s : State} (hs : TransparentIdle s)
    (hj : s.status.part = .transparent → transparentJob h.job = true) : TransparentIdle (memoryError h s) := by
  unfold memoryError
  dsimp only
  split
  · rename_i hjob
    exact hs.keep rfl fun hp _ => by have := hj hp; rw [hjob] at this; cases this
  · exact hs.keep rfl fun _ hl => TransparentLaws.answer (hl.setPath
      (x := { s.path with toIssue := [] }) hl.latches hl.held) _ _ _

theorem TransparentIdle.memoryAnswer {s : State} (h : TransparentIdle s) (ok : Bool) (d : List Byte) :
    TransparentIdle (memoryAnswer ok d s) := by
  have h1 : TransparentIdle (s.setPath { s.path with outstanding := none, stale := false }) :=
    h.keep rfl fun _ hl => hl.setPath hl.latches hl.held
  unfold Machine.memoryAnswer
  split
  · exact h
  · dsimp only
    split
    · exact h1.keep (issueNext_frame _).part fun _ hl => hl.issueNext
    · split
      · exact h1
      · rename_i x hx
        have hj : s.status.part = .transparent → transparentJob x.job = true := fun hp => (h hp).held x hx
        split
        · exact memoryOk_idle h1 hj
        · exact memoryError_idle h1 hj

/-! ## Marks and reset -/

/-- In UNSET a mark is captured and no more (R58). -/
theorem TransparentLaws.capture {s : State} (h : TransparentLaws s) (x : Option Count) (y : Option Count) :
    TransparentLaws (s.setSup { s.sup with present := x, previous := y }) :=
  { h with supervisor := by rw [h.supervisor]; rfl }

theorem TransparentLaws.elapsed {s : State} (h : TransparentLaws s) (e : Count) : TransparentLaws (s.elapsed e) := by
  obtain ⟨-, -, hm, -, hs, -⟩ := h.list
  have : s.elapsed e = s.setCounter (s.counter + e) := by
    rw [← advanceCounter_eq]
    unfold advanceCounter
    split
    · rfl
    · rw [claimsArrive_of_none hm hs]
  rw [this]
  exact { h with }

theorem TransparentLaws.timeBase {s : State} (h : TransparentLaws s) : s.sup.timeBase = .unset := by
  rw [h.supervisor]; rfl

theorem secondMark_idle {e : Count} {s t : State} (hs : TransparentIdle s) (h : exec (.secondMark e) s = .next t) :
    TransparentIdle t := by
  cases h
  unfold mark
  rw [advanceCounter_eq]
  split
  · exact hs.keep (by simp) fun _ hl => hl.elapsed e
  · refine hs.keep ?_ fun _ hl => ?_
    · rw [(judgeMark_supStep _ _).status]
      exact congrArg StatusUnit.part (s.elapsed_status e)
    · have hc : TransparentLaws (capture (s.elapsed e)) := (hl.elapsed e).capture _ _
      simpa only [judgeMark, hc.timeBase] using hc

theorem windowExpiry_idle {e : Count} {s t : State} (hs : TransparentIdle s) (h : exec (.windowExpiry e) s = .next t) :
    TransparentIdle t := by
  cases h
  unfold windowExpiry
  rw [advanceCounter_eq]
  split
  · exact hs.keep (by simp) fun _ hl => hl.elapsed e
  · split
    · rename_i ho
      refine hs.keep ?_ fun _ hl => ?_
      · rw [(substituteMark_supStep _).status, s.elapsed_status]
      · simp only [windowOver, (hl.elapsed e).timeBase, hasWindow, Bool.false_and, reduceCtorEq] at ho
    · exact hs.keep (by simp) fun _ hl => hl.elapsed e

theorem assertReset_part (s : State) : (assertReset s).status.part = s.status.part := by
  unfold assertReset
  split
  · rfl
  · cases s.path.held <;> rfl

/-- The assertion of RESET once the held access is answered: work in flight abandoned and latches emptied (R170, R182). -/
def abandonWork (s : State) : State :=
  let s2 := emptyLatches (s.setPath { s.path with toIssue := [], stale := s.path.outstanding.isSome })
  let s3 := s2.setList { s2.list with claims := [], coming := [], requests := [], sending := [], queries := [] }
  let s4 := s3.setIntake { s3.intake with qualifier := none }
  let s5 := s4.setElection { s4.election with run := none, runPending := false }
  let s6 := s5.setPatcher { s5.patcher with judgement := none, waiting := [] }
  (s6.setWires Wires.empty).setResetAsserted true

theorem assertReset_eq {s : State} (h : s.resetAsserted = false) : assertReset s =
    abandonWork (match s.path.held with
      | none => s
      | some x => answerError x.access s) := by
  cases hh : s.path.held <;> simp only [assertReset, h, hh, abandonWork, Bool.false_eq_true, if_false]

theorem TransparentLaws.abandonWork {s : State} (h : TransparentLaws s) (hh : s.path.held = none) :
    TransparentLaws (abandonWork s) where
  entries := by simpa [Machine.abandonWork, emptyLatches] using h.entries
  list := by simpa [Machine.abandonWork, emptyLatches] using h.list.1
  supervisor := by simpa [Machine.abandonWork, emptyLatches] using h.supervisor
  qualifier := by simpa [Machine.abandonWork, emptyLatches] using h.qualifier.2
  election := by simp [Machine.abandonWork, emptyLatches, h.election, Election.reset]
  transfers := by simpa [Machine.abandonWork, emptyLatches] using h.transfers.1
  latches := fun m => by simp [Machine.abandonWork, emptyLatches]
  wires := by simp [Machine.abandonWork, Wires.empty]
  held := fun y hy => by simp [Machine.abandonWork, emptyLatches, hh] at hy

theorem TransparentLaws.assertReset {s : State} (h : TransparentLaws s) : TransparentLaws (assertReset s) := by
  cases hr : s.resetAsserted with
  | true => simpa only [Machine.assertReset, hr, if_true] using h
  | false =>
    rw [assertReset_eq hr]
    cases hh : s.path.held with
    | none => exact h.abandonWork hh
    | some x => exact TransparentLaws.abandonWork (h.answer x.access false []) rfl

theorem releasedPart_laws (page : BitVec 8) (control : Master) (s : State) :
    TransparentLaws (releasedPart page control s) where
  entries := rfl
  list := ⟨rfl, rfl, rfl, rfl, rfl, rfl⟩
  supervisor := rfl
  qualifier := ⟨rfl, rfl⟩
  election := rfl
  transfers := ⟨fun p => by simp [releasedPart, State.reset, PortPatcher.reset], rfl, rfl⟩
  latches := fun m => by simp [releasedPart, PathUnit.reset]
  wires := rfl
  held := fun _ hy => by cases hy

theorem resetRelease_idle {page : BitVec 8} {control : Master} {s t : State} (hs : TransparentIdle s)
    (h : exec (.resetRelease page control) s = .next t) : TransparentIdle t := by
  simp only [exec, execResetRelease] at h
  split at h <;> cases h
  · exact TransparentIdle.serve fun _ => releasedPart_laws page control s
  · exact hs

/-! ## Nothing waits at the list or on its way between blocks -/

theorem TransparentLaws.nextRequest {s : State} (h : TransparentLaws s) : nextRequest s = none := by
  obtain ⟨-, hc, -, hr, hq, -⟩ := h.list
  simp [Machine.nextRequest, hc, hr, hq]

theorem TransparentLaws.nextQuery {s : State} (h : TransparentLaws s) : nextQuery s = none := by
  obtain ⟨-, hc, -, hr, -, hq⟩ := h.list
  simp [Machine.nextQuery, hc, hr, hq]

theorem handleRequest_part (who : Asker) (v : Verdict) (s : State) :
    (handleRequest who v s).status.part = s.status.part :=
  congrArg StatusUnit.part ((deliverAnswer_inner who v.answer _).status.trans (popRequest_inner s).status)

theorem takeRequest_idle {row : RequestRow} {s : State} (h : TransparentIdle s) : TransparentIdle (takeRequest row s) := by
  refine h.keep ?_ fun _ hl => by simpa only [takeRequest, hl.nextRequest] using hl
  unfold takeRequest
  split
  · rfl
  · split
    · split
      · exact handleRequest_part _ _ s
      · rfl
    · rfl

theorem takeFlushClaim_idle {s : State} (h : TransparentIdle s) : TransparentIdle (takeFlushClaim s) := by
  refine h.keep ?_ fun _ hl => by simpa only [takeFlushClaim, hl.nextRequest] using hl
  unfold takeFlushClaim
  split
  · exact ((serve_frame _).part.trans (flushProgress_frame true false _).part).trans
      (congrArg StatusUnit.part (popRequest_inner s).status)
  · rfl

theorem deliverLookup_part (who : Asker) (sched : Schedule) (s : State) :
    (deliverLookup who sched s).status.part = s.status.part := by
  unfold deliverLookup
  split
  · exact (converterLookup_frame sched s).part
  · exact congrArg StatusUnit.part (qualifierLookup_inner sched s).status
  · rfl

theorem deliverSnapshot_part (who : Asker) (sched : Schedule) (s : State) :
    (deliverSnapshot who sched s).status.part = s.status.part := by
  unfold deliverSnapshot
  split
  · exact congrArg StatusUnit.part (electionSnapshot_inner sched s).status
  · exact (patcherSnapshot_frame sched s).part
  · exact congrArg StatusUnit.part (quietSnapshot_inner sched s).status
  · exact (statusSnapshot_frame sched s).part
  · rfl

theorem takeLookup_idle {s : State} (h : TransparentIdle s) : TransparentIdle (takeLookup s) := by
  refine h.keep ?_ fun _ hl => by simpa only [takeLookup, hl.nextQuery] using hl
  unfold takeLookup
  split
  · exact (serve_frame _).part.trans (deliverLookup_part _ _ (popQuery s))
  · rfl

theorem takeSnapshot_idle {s : State} (h : TransparentIdle s) : TransparentIdle (takeSnapshot s) := by
  refine h.keep ?_ fun _ hl => by simpa only [takeSnapshot, hl.nextQuery] using hl
  unfold takeSnapshot
  split
  · exact (serve_frame _).part.trans (deliverSnapshot_part _ _ (popQuery s))
  · rfl

theorem freezeAndCommitClaim_idle {s t : State} (hs : TransparentIdle s)
    (h : exec .freezeAndCommitClaim s = .next t) : TransparentIdle t := by
  simp only [exec, execFreezeAndCommitClaim] at h
  split at h <;> cases h
  · exact hs
  · rename_i hp
    refine hs.keep rfl fun _ hl => ?_
    obtain ⟨-, hc, hm, -⟩ := hl.list
    rw [popClaim_none.mpr ⟨hc, hm⟩] at hp
    cases hp

theorem qualifierTake_idle {s : State} (h : TransparentIdle s) : TransparentIdle (qualifierTake s) :=
  h.keep (congrArg StatusUnit.part (qualifierTake_inner s).status) fun hp hl => by
    rwa [qualifierTake_of_noTakeDue fun _ ha => by rw [hp] at ha; cases ha]

/-- A notice or command on its way that a block takes: while TRANSPARENT there is none. -/
theorem TransparentIdle.notice {s t : State} (h : TransparentIdle s) (k : InnerFrame s t)
    (hw : s.wires = { Wires.empty with events := s.wires.events } → False) : TransparentIdle t :=
  h.keep (congrArg StatusUnit.part k.status) fun _ hl => (hw hl.wires).elim

theorem eventRaise_idle {e : Event} {s t : State} (hs : TransparentIdle s) (h : exec (.eventRaise e) s = .next t) :
    TransparentIdle t := by
  simp only [exec, execEventRaise] at h
  split at h <;> cases h
  · exact hs.keep rfl fun _ hl => (hl.setEvents _).setStatus _
  · exact hs

theorem intakeFlush_idle {s t : State} (hs : TransparentIdle s) (h : exec .intakeFlush s = .next t) :
    TransparentIdle t := by
  simp only [exec, execIntakeFlush] at h
  split at h <;> cases h
  · exact hs
  · rename_i n hn
    refine hs.keep ?_ fun _ hl => ?_
    · exact ((serve_frame _).part.trans (flushProgress_frame false true _).part).trans
        (congrArg StatusUnit.part (flushIntake_inner _).status)
    · rw [hl.wires] at hn
      cases hn

/-! ## Every command -/

theorem exec_transparentIdle {c : Instr} {s t : State} (hs : TransparentIdle s) (h : exec c s = .next t) :
    TransparentIdle t := by
  cases ha : accessOf s c with
  | some a =>
    rw [exec_access ha] at h
    cases h
    exact (hs.setCard _).serve
  | none =>
    cases c
    case resetAssert => cases h; exact hs.keep (assertReset_part s) fun _ hl => hl.assertReset
    case resetRelease => exact resetRelease_idle hs h
    case secondMark => exact secondMark_idle hs h
    case windowExpiry => exact windowExpiry_idle hs h
    case memoryAnswer ok d => cases h; exact (hs.memoryAnswer ok d).serve
    case freezeAndCommitClaim => exact freezeAndCommitClaim_idle hs h
    case armRequest => cases h; exact takeRequest_idle hs
    case replaceRequest => cases h; exact takeRequest_idle hs
    case withdrawRequest => cases h; exact takeRequest_idle hs
    case listFlush => cases h; exact takeFlushClaim_idle hs
    case lookupClaim => cases h; exact takeLookup_idle hs
    case snapshotClaim => cases h; exact takeSnapshot_idle hs
    case qualifierTake => cases h; exact qualifierTake_idle hs
    case intakeFlush => exact intakeFlush_idle hs h
    case intakeChangeOfS =>
      simp only [exec, execIntakeChangeOfS] at h
      split at h <;> cases h
      · exact hs
      · rename_i hn
        exact hs.notice ((setWires_inner s _).trans (intakeChange_inner _ _)) fun hw => by rw [hw] at hn; cases hn
    case civilCommitNotice =>
      simp only [exec, execCivilCommitNotice] at h
      split at h <;> cases h
      · exact hs
      · rename_i hn
        exact hs.notice ((setWires_inner s _).trans (civilCommit_inner _ _)) fun hw => by rw [hw] at hn; cases hn
    case electionTrigger =>
      simp only [exec, execElectionTrigger] at h
      split at h <;> cases h
      · exact hs
      · rename_i hn
        exact hs.notice ((setWires_inner s _).trans (takeTrigger_inner _)) fun hw => by rw [hw] at hn; cases hn
    case electionFlush =>
      simp only [exec, execElectionFlush] at h
      split at h <;> cases h
      · exact hs
      · rename_i hn
        exact hs.notice ((setWires_inner s _).trans (flushElection_inner _)) fun hw => by rw [hw] at hn; cases hn
    case portChangeOfS =>
      simp only [exec, execPortChangeOfS] at h
      split at h <;> cases h
      · exact hs
      · rename_i hn
        exact hs.notice ((setWires_inner s _).trans (arriveChangeOfS_inner _ _)) fun hw => by rw [hw] at hn; cases hn
    case commitNotice =>
      simp only [exec, execCommitNotice] at h
      split at h <;> cases h
      · exact hs
      · rename_i hn
        exact hs.notice ((setWires_inner s _).trans (transferPorts_inner _ _)) fun hw => by rw [hw] at hn; cases hn
    case eventRaise e => exact eventRaise_idle hs h
    all_goals cases ha

/-- Settles O59: a step is a command or an idle cycle, and both keep the part idle while it is TRANSPARENT. -/
theorem everyStepKeepsTheTransparentPartIdle : Obligations.EveryStepKeepsTheTransparentPartIdle := by
  intro s t hs h
  unfold step at h
  split at h
  · cases h
    rw [advanceCounter_eq]
    exact hs.keep (by simp) fun _ hl => hl.elapsed _
  · rename_i c rest _
    exact exec_transparentIdle (s := s.setPending rest) (hs.keep rfl fun _ hl => hl.setPending _) h

end Sys2Proof.Machine
end

section
/-! PROOFS. The command word: a command write of the control master is carried to memory or refused, memory's answer decides
whether it is taken, and what ACTIVATE, DEACTIVATE and FLUSH do then (R167, R173 to R179, R199). -/

namespace Sys2Proof.Machine

/-! ## Bytes and words -/

theorem fit_self {d : List Byte} {n : Nat} (h : d.length = n) : fit n d = d := by
  subst h; simp [fit]

@[simp] theorem fit_length (n : Nat) (d : List Byte) : (fit n d).length = n := by simp [fit]

@[simp] theorem wordBytes_length (w : Word) : (wordBytes w).length = 8 := by simp [wordBytes]

/-- One more byte joins the bytes above it. -/
theorem shiftLeft_or_byte (w : Word) (k : Nat) :
    ((w >>> (k + 8)) <<< 8) ||| (w.extractLsb' k 8).setWidth 64 = w >>> k := by
  apply BitVec.eq_of_getLsbD_eq
  intro i hi
  by_cases h : i < 8
  · simp [h, hi]
  · have hk : k + 8 + (i - 8) = k + i := by omega
    simp [h, hi, hk]

/-- The bytes of a word spell it. -/
theorem bytesWord_wordBytes (w : Word) : bytesWord (wordBytes w) = w := by
  have h (i k : Nat) (hk : 8 * (7 - i) = k) :
      ((w >>> (k + 8)) <<< 8) ||| (wordByte w i).setWidth 64 = w >>> k := by subst hk; exact shiftLeft_or_byte w _
  have h0 : (0#64 : Word) = w >>> (56 + 8) := by
    apply BitVec.eq_of_getLsbD_eq
    intro i hi
    simp [BitVec.getLsbD_of_ge]
  show ((((((((0#64 <<< 8 ||| _) <<< 8 ||| _) <<< 8 ||| _) <<< 8 ||| _) <<< 8 ||| _) <<< 8 ||| _) <<< 8 ||| _) <<< 8 |||
    _) = w
  rw [h0, h 0 56 rfl, h 1 48 rfl, h 2 40 rfl, h 3 32 rfl, h 4 24 rfl, h 5 16 rfl, h 6 8 rfl, h 7 0 rfl]
  exact BitVec.ushiftRight_zero w

/-- The code of a command word (section 11.8). -/
theorem field_commandWord (code : Byte) (arg : BitVec 56) : field (commandWord code arg) 0 8 = code := by
  apply BitVec.eq_of_getLsbD_eq
  intro i hi
  have h64 : 56 + i < 64 := by omega
  simp [field, commandWord, place, hi, h64]

/-- The commands of the codes 1 to 5 (section 11.8). -/
theorem commandOf_commandWord (arg : BitVec 56) :
    commandOf (commandWord 1#8 arg) = some .activate ∧ commandOf (commandWord 2#8 arg) = some .deactivate ∧
      commandOf (commandWord 3#8 arg) = some .flush ∧ commandOf (commandWord 4#8 arg) = some .resyncNow ∧
      commandOf (commandWord 5#8 arg) = some .clearFault := by
  simp only [commandOf, field_commandWord]
  exact ⟨rfl, rfl, rfl, rfl, rfl⟩

/-! ## The access of a command write -/

theorem isEight_bytes {sh : Shape} (h : isEight sh = true) : sh.bytes = 8 := by
  unfold isEight at h
  split at h
  · rfl
  · rfl
  · cases h

section CommandWrite

variable (s : State) (m : Master) {sh : Shape} (code : Byte) (arg : BitVec 56)

theorem commandAccess_addr : (commandAccess s m sh code arg).addr.toNat = regionBase s + 0x1FF8 := by
  have := s.straps.page.isLt
  simp only [commandAccess, regionAccess, systemAddress, regionBase, commandOffset, BitVec.toNat_ofNat]
  omega

theorem commandAccess_bytes (h : isEight sh = true) :
    accessBytes (commandAccess s m sh code arg) = wordBytes (commandWord code arg) := by
  have hb := isEight_bytes h
  simp only [accessBytes, accessLen, commandAccess, regionAccess, hb]
  rw [fit_self (fit_length _ _), fit_self (wordBytes_length _)]
  rfl

/-- The word a command write carries. -/
theorem firstWord_commandAccess (h : isEight sh = true) :
    firstWord (commandAccess s m sh code arg) = commandWord code arg := by
  rw [firstWord, commandAccess_bytes s m code arg h, List.take_of_length_le (by simp), bytesWord_wordBytes]

/-- It goes to memory as it came. -/
theorem carried_commandAccess : carried (commandAccess s m sh code arg) = commandAccess s m sh code arg := by
  simp only [carried, accessBytes, accessLen, commandAccess, regionAccess]
  rw [fit_self (fit_length _ _)]

theorem regionOff_commandAccess : regionOff (commandAccess s m sh code arg) (regionBase s) = 0x1FF8 := by
  rw [regionOff, commandAccess_addr, if_neg (by omega)]
  omega

/-- A command write of the control master passes the four checks of section 8.3. -/
theorem checkAccess_commandAccess (h : isEight sh = true) (hm : m = s.straps.control) :
    checkAccess s (commandAccess s m sh code arg) = none := by
  have haddr := commandAccess_addr s m (sh := sh) code arg
  have hlen : accessLen (commandAccess s m sh code arg) = 8 := isEight_bytes h
  have hbase : regionBase s % 8 = 0 := by simp only [regionBase]; omega
  have hdir : (commandAccess s m sh code arg).dir = .write := rfl
  have hsh : (commandAccess s m sh code arg).shape = sh := rfl
  have hmas : (commandAccess s m sh code arg).master = s.straps.control := hm
  have hwin : windowOf 0x1FF8 = .status := rfl
  have hplain : plainShapeOk (commandAccess s m sh code arg) = true := by
    unfold isEight at h
    unfold plainShapeOk
    rw [hsh]
    split at h
    · simp only [haddr, beq_iff_eq]; omega
    · simp only [haddr, beq_iff_eq]; omega
    · cases h
  have hstay : staysInWindow (regionBase s) (commandAccess s m sh code arg) .status = true := by
    simp only [staysInWindow, Window.range, haddr, hlen, decide_eq_true_eq]
    omega
  unfold checkAccess
  dsimp only
  rw [regionOff_commandAccess]
  simp [addressStep, shapeStep, ownershipStep, viewWriteStep, hwin, hdir, hsh, hmas, hplain, hstay, h, commandOffset]

/-- A command write of the control master is judged at the command word in both part states (R157, R167). -/
theorem takeAccess_commandAccess (h : isEight sh = true) (hm : m = s.straps.control) :
    takeAccess (commandAccess s m sh code arg) s = commandWrite (commandAccess s m sh code arg) s := by
  have haddr := commandAccess_addr s m (sh := sh) code arg
  have hlen : accessLen (commandAccess s m sh code arg) = 8 := isEight_bytes h
  have hc : isChecked s (commandAccess s m sh code arg) = true := by
    simp only [isChecked, touchesStatus, inRegion, touches, haddr, hlen, Bool.and_eq_true, Bool.or_eq_true,
      decide_eq_true_eq]
    exact ⟨by omega, .inr (by omega)⟩
  rw [takeAccess, if_pos hc, checkAccess_commandAccess s m code arg h hm]
  simp only [carryOut, regionOff_commandAccess]
  rfl

end CommandWrite

/-! ## Refusal -/

theorem windowOf_eq_views (off : Nat) : windowOf off = .views ↔ 0x8000 ≤ off ∧ off ≤ 0xEFFF := by
  unfold windowOf
  constructor
  · intro h
    split at h <;> [cases h; skip]
    split at h <;> [cases h; skip]
    split at h <;> [cases h; skip]
    split at h <;> [cases h; skip]
    split at h
    · assumption
    · cases h
  · intro h
    rw [if_neg (by omega), if_neg (by omega), if_neg (by omega), if_neg (by omega), if_pos h]

/-- An answer ERROR, as the statements write it (R152; log entry 23). -/
theorem answerError_eq (a : Access) (s : State) :
    answerError a s = (s.setPath { s.path with held := none }).answered a.master false (zeroData a) := by
  cases hd : a.dir <;>
    simp [answerError, answer, hd, zeroData, fit, accessLen, State.answered, State.setPath, State.setAnswers]

/-- A refusal, as the statements write it, where no access is held. -/
theorem refuse_eq {s : State} (kind : FaultKind) (a : Access) (h : s.path.held = none) :
    refuse kind a s = s.refusedWith kind a := by
  have hv := windowOf_eq_views (regionOff a (regionBase s))
  by_cases hw : windowOf (regionOff a (regionBase s)) = .views
  · have hb := hv.mp hw
    cases hf : s.path.fault <;>
      simp [refuse, State.refusedWith, recordFault, hf, hw, hb, answerError_eq, setLatch, raise, State.answered,
        State.raised, State.setPath, State.setWires, State.setAnswers, h]
  · have hb := mt hv.mpr hw
    cases hf : s.path.fault <;>
      simp [refuse, State.refusedWith, recordFault, hf, hw, hb, answerError_eq, raise, State.answered,
        State.raised, State.setPath, State.setWires, State.setAnswers, h]

/-! ## Command writes and memory's answers to them -/

theorem Ready.path {s : State} (h : Ready s) :
    s.path = { s.path with held := none, outstanding := none, stale := false, toIssue := [] } := by
  rcases hp : s.path with ⟨held, outstanding, stale, toIssue, latches, fault, secondFault⟩
  have h1 := h.free; have h2 := h.quiet; have h3 := h.fresh; have h4 := h.issued
  rw [hp] at h1 h2 h3 h4
  simp only at h1 h2 h3 h4
  subst h1 h2 h3 h4
  rfl

section Commands

variable {s : State} {m : Master} {sh : Shape} {code : Byte} {arg : BitVec 56} {c : Instr}

/-- A command that the part state does not allow is refused (R167, R175). -/
theorem exec_command_refused (h : Ready s) (h8 : isEight sh = true) (hm : m = s.straps.control)
    (hc : accessOf s c = some (commandAccess s m sh code arg))
    (ha : (commandOf (commandWord code arg)).any (commandAllowed s.status.part) = false) :
    exec c s = .next (s.refusedWith .badCommand (commandAccess s m sh code arg)) := by
  rw [exec_access hc, offer_ready _ h, takeAccess_commandAccess s m code arg h8 hm, commandWrite,
    firstWord_commandAccess s m code arg h8, ha, ← refuse_eq _ _ h.free]
  rfl

/-- A command that the part state allows is carried to memory, and its access held (R167). -/
theorem exec_command_allowed (h : Ready s) (h8 : isEight sh = true) (hm : m = s.straps.control)
    (hc : accessOf s c = some (commandAccess s m sh code arg))
    (ha : (commandOf (commandWord code arg)).any (commandAllowed s.status.part) = true) :
    exec c s = .next (s.waitingFor (commandAccess s m sh code arg) (.command (commandWord code arg))
      (commandAccess s m sh code arg)) := by
  rw [exec_access hc, offer_ready _ h, takeAccess_commandAccess s m code arg h8 hm, commandWrite,
    firstWord_commandAccess s m code arg h8, ha, carried_commandAccess, ← holdAndIssue_one h.quiet h.issued]
  rfl

/-- On memory's ERROR the command is not taken (R155, R167). -/
theorem exec_command_error (h : Ready s) (w : Word) (d : List Byte) :
    exec (.memoryAnswer false d) (s.waitingFor (commandAccess s m sh code arg) (.command w)
      (commandAccess s m sh code arg)) = .next (s.answered m false []) := by
  have he : memoryAnswer false d (s.waitingFor (commandAccess s m sh code arg) (.command w)
      (commandAccess s m sh code arg)) = s.answered m false [] := by
    rw [memoryAnswer_error h.fresh]
    show (s.setPath { s.path with held := none, outstanding := none, toIssue := [] }).setAnswers _ = _
    have hp : ({ s.path with held := none, outstanding := none, toIssue := [] } : PathUnit) = s.path := by
      conv_rhs => rw [h.path]
      simp only [h.fresh]
    rw [hp]
    rfl
  rw [exec, execMemoryAnswer, he, serve_nil (s := s.answered m false []) h.alone]

/-- A command taken serves nothing from the card, and puts nothing on it. -/
theorem takeCommand_card (a : Access) (w : Word) (s : State) : (takeCommand a w s).card = s.card := by
  unfold takeCommand
  dsimp only
  split
  · unfold takeActivate
    split <;> simp [answer, setEvent, activatePart, emptyLatches]
  · simp [answer, takeDeactivate, emptyLatches]
  · rfl
  · rfl
  · rfl
  · exact (takePortTransfer_inner _ _ _).card
  · rfl

/-- On memory's OK the command is taken (R167). -/
theorem exec_command_ok (h : Ready s) (a : Access) (w : Word) (d : List Byte) :
    exec (.memoryAnswer true d) (s.waitingFor a (.command w) a) =
      .next (takeCommand a w (s.holding a (.command w))) := by
  have hp : s.setPath { s.path with held := some { access := a, job := .command w }, outstanding := none } =
      s.holding a (.command w) := by
    rw [State.holding, ← h.quiet]
  have hc : (takeCommand a w (s.holding a (.command w))).card = [] := (takeCommand_card _ _ _).trans h.alone
  rw [← serve_nil hc, exec, execMemoryAnswer, memoryAnswer_ok h.fresh, hp]
  rfl

end Commands

/-! ## ACTIVATE -/

/-- The seven checks of R176, as the statement writes them. -/
theorem activationCheck_eq (c : ConfigCopy) : activationCheck c =
    if 4 < c.glob.zoneCount.toNat then .zoneCount
    else if ¬ c.glob.freezeLead.toNat < c.glob.minLead.toNat then .freezeLead
    else if ¬ c.glob.minLead.toNat < c.glob.horizon.toNat then .horizon
    else if c.glob.grid.toNat = 0 then .grid
    else match (List.finRange 8).find? fun n => c.sources[n].enabled &&
        !decide (1 ≤ c.sources[n].confirm.toNat ∧ c.sources[n].confirm.toNat ≤ 8) with
      | some n => .confirmCount n
      | none =>
        if 17 < c.glob.smearExponent.toNat then .smearExponent
        else if c.glob.tolerance.toNat = 0 ∨ 25000000 ≤ c.glob.tolerance.toNat then .tolerance
        else .none := by
  simp only [activationCheck, badConfirmCount, Nat.not_lt, Nat.lt_one_iff]
  rfl

theorem clampZone_eq (z : Int) : clampZone z = max (-64800) (min 64800 z) := by
  unfold clampZone Config.zoneLimit
  split
  · omega
  · split <;> omega

/-- What ACTIVATE leaves as it was, whatever the checks find: nothing on its way between blocks changes (R176). -/
theorem takeActivate_kept (s : State) : (takeActivate s).answers = s.answers ∧ (takeActivate s).card = s.card ∧
    (takeActivate s).wires = s.wires ∧ (takeActivate s).straps = s.straps ∧ (takeActivate s).counter = s.counter ∧
    (takeActivate s).resetAsserted = s.resetAsserted := by
  unfold takeActivate
  split <;> simp [setEvent, activatePart, emptyLatches]

theorem takeActivate_status (s : State) : (takeActivate s).status = { s.status with
    part := if activationCheck s.status.config = .none then .active else s.status.part
    configError := activationCheck s.status.config
    eventWord := s.status.eventWord ||| 0x8000#16 } := by
  unfold takeActivate
  split
  · rename_i h
    rw [h]; rfl
  · rename_i h
    rw [if_neg fun e => h e]; rfl

/-- ACTIVATE whose checks pass: every block set up, and then the indication (R177). -/
theorem takeActivate_pass {s : State} (h : activationCheck s.status.config = .none) :
    takeActivate s = setEvent .activation (activatePart s) := by rw [takeActivate, h]

/-- ACTIVATE that fails a check changes the Status Unit alone (R176). -/
theorem takeActivate_fail {s : State} (h : activationCheck s.status.config ≠ .none) :
    takeActivate s = setEvent .activation (s.setStatus { s.status with configError := activationCheck s.status.config }) := by
  unfold takeActivate
  split
  · contradiction
  · rfl

/-- Every block after an ACTIVATE whose checks pass, the held access answered (R8, R53, R91, R117, R133, R177). -/
theorem takeActivate_pass_blocks (a : Access) {s : State} (h : activationCheck s.status.config = .none) :
    let t := answer a true [] (takeActivate s)
    t.sup = { Supervisor.reset with present := s.sup.present, previous := s.sup.previous } ∧
      t.list = { ChangeList.reset with sched := { entries := [], base := activatedBase s.status.config.glob } } ∧
      (∀ n : SourceNo, t.intake.sources[n] = activatedSource s.status.config.sources[n] s.intake.sources[n]) ∧
      (t.intake.qualifier = none ∧ t.intake.civilHorizon = none) ∧ t.election = Election.reset ∧
      (∀ p : PortNo, t.patcher.ports[p] = { active := s.status.config.shadows[p], transfer := none }) ∧
      (t.patcher.judgement = none ∧ t.patcher.waiting = []) ∧
      t.path = { s.path with held := none, latches := t.path.latches } ∧ ∀ k : Fin 16, t.path.latches[k] = none := by
  have hsrc (n : SourceNo) := mapSources_get (fun n => activatedSource s.status.config.sources[n]) s.intake.sources n
  rw [takeActivate_pass h]
  simp [answer, setEvent, activatePart, emptyLatches, Intake.reset, PortPatcher.reset] at hsrc ⊢
  exact hsrc

/-- The command of ACTIVATE taken: judged with the command kept as the last one, and answered. -/
theorem takeCommand_activate (a : Access) (arg : BitVec 56) (s : State) :
    takeCommand a (commandWord 1#8 arg) s = answer a true [] (takeActivate (s.took (commandWord 1#8 arg))) := by
  rw [takeCommand, (commandOf_commandWord arg).1]
  rfl

/-- The blocks after an ACTIVATE that fails a check: as they were, the held access answered (R176). -/
theorem takeActivate_fail_blocks {s : State} (hr : Ready s) {a : Access} {w : Word}
    (h : activationCheck s.status.config ≠ .none) :
    let u := answer a true [] (takeActivate ((s.holding a (.command w)).took w))
    u.sup = s.sup ∧ u.list = s.list ∧ u.intake = s.intake ∧ u.election = s.election ∧ u.patcher = s.patcher ∧
      u.path = s.path := by
  have hpath : ({ s.path with held := none } : PathUnit) = s.path := by rw [← hr.free]
  intro u
  have hu : u = answer a true [] _ := congrArg (answer a true []) (takeActivate_fail h)
  rw [hu]
  exact ⟨rfl, rfl, rfl, rfl, rfl, hpath⟩

/-- Settles O24: the command write is refused or held, memory's ERROR discards it, and its OK takes ACTIVATE, whose seven
checks decide between the blocks set up and the blocks as they were. -/
theorem activateChecksAndSetsUp : Obligations.ActivateChecksAndSetsUp := by
  intro m sh arg d s hr h8 hm a g badK code
  obtain ⟨hcmd, -⟩ := commandOf_commandWord arg
  have hcode : activationCheck s.status.config = code := activationCheck_eq _
  refine ⟨fun hp => ?_, fun hp => ?_⟩
  · exact exec_command_refused hr h8 hm rfl (by rw [hcmd, hp]; rfl)
  · refine ⟨_, exec_command_allowed hr h8 hm rfl (by rw [hcmd, hp]; rfl), rfl, exec_command_error hr _ d, _,
      exec_command_ok hr a _ d, ?_⟩
    rw [takeCommand_activate]
    obtain ⟨hans, -, hwires, hstraps, hcounter, hreset⟩ :=
      takeActivate_kept ((s.holding a (.command (commandWord 1#8 arg))).took (commandWord 1#8 arg))
    refine ⟨?_, ?_, fun hne => ?_, fun he => ?_, hwires, hstraps, hcounter, hreset.trans hr.running⟩
    · exact congrArg (· ++ [_]) hans
    · refine (takeActivate_status _).trans ?_
      rw [← hcode, ← hp]
      rfl
    · exact takeActivate_fail_blocks hr (hcode ▸ hne)
    · have hu := takeActivate_pass_blocks a
        (s := (s.holding a (.command (commandWord 1#8 arg))).took (commandWord 1#8 arg)) (hcode.trans he)
      generalize answer a true [] (takeActivate ((s.holding a (.command (commandWord 1#8 arg))).took
        (commandWord 1#8 arg))) = u at hu ⊢
      obtain ⟨hsup, hlist, hsources, hqual, helection, hports, hjudge, hpath, hlatches⟩ := hu
      have hfree : ({ s.path with held := none } : PathUnit) = s.path := by rw [← hr.free]
      refine ⟨hsup, by rw [hlist]; rfl, by rw [hlist]; rfl, by rw [hlist]; rfl, by rw [hlist]; rfl, fun k => ?_, hsources,
        hqual.1, hqual.2, helection, hports, hjudge.1, hjudge.2, ?_, hlatches⟩
      · rw [hlist, ← clampZone_eq]
        simp [activatedBase, State.took, State.holding, g]
      · rw [hpath, ← hfree]
        rfl

/-! ## DEACTIVATE -/

theorem takeCommand_deactivate (a : Access) (arg : BitVec 56) (s : State) :
    takeCommand a (commandWord 2#8 arg) s = answer a true [] (takeDeactivate (s.took (commandWord 2#8 arg))) := by
  rw [takeCommand, (commandOf_commandWord arg).2.1]
  rfl

/-- Every block after DEACTIVATE, the held access answered (R27, R72, R91, R131, R151, R178). -/
theorem takeDeactivate_blocks (a : Access) (s : State) :
    let t := answer a true [] (takeDeactivate s)
    t.status = { s.status with part := .transparent } ∧ t.sup = Supervisor.reset ∧
      t.list = { ChangeList.reset with sched := { entries := [], base := s.list.sched.base } } ∧
      (∀ n : SourceNo, t.intake.sources[n] = deactivatedSource s.intake.sources[n]) ∧
      (t.intake.qualifier = none ∧ t.intake.civilHorizon = none) ∧ t.election = Election.reset ∧
      (∀ p : PortNo, t.patcher.ports[p] = { active := s.patcher.ports[p].active, transfer := none }) ∧
      (t.patcher.judgement = none ∧ t.patcher.waiting = []) ∧
      t.path = { s.path with held := none, latches := t.path.latches } ∧ (∀ k : Fin 16, t.path.latches[k] = none) ∧
      t.wires = { Wires.empty with events := s.wires.events } ∧ t.straps = s.straps ∧ t.counter = s.counter ∧
      t.resetAsserted = s.resetAsserted := by
  have hsrc (n : SourceNo) := mapSources_get (fun _ => deactivatedSource) s.intake.sources n
  simp [answer, takeDeactivate, emptyLatches, Intake.reset, PortPatcher.reset] at hsrc ⊢
  exact hsrc

/-- Settles O25: the command write is refused or held, memory's ERROR discards it, and its OK takes DEACTIVATE, which brings
every block to its deactivation values. -/
theorem deactivateReturnsEveryBlock : Obligations.DeactivateReturnsEveryBlock := by
  intro m sh arg d s hr h8 hm a
  obtain ⟨-, hcmd, -⟩ := commandOf_commandWord arg
  refine ⟨fun hp => ?_, fun hp => ?_⟩
  · exact exec_command_refused hr h8 hm rfl (by rw [hcmd, hp]; rfl)
  · refine ⟨_, exec_command_allowed hr h8 hm rfl (by rw [hcmd, hp]; rfl), rfl, exec_command_error hr _ d, _,
      exec_command_ok hr a _ d, ?_⟩
    rw [takeCommand_deactivate]
    have hans : (answer a true [] (takeDeactivate ((s.holding a (.command (commandWord 2#8 arg))).took
        (commandWord 2#8 arg)))).answers = s.answers ++ [{ master := m, ok := true, data := [] }] := by
      simp [answer, takeDeactivate, emptyLatches]
      exact ⟨rfl, rfl, rfl⟩
    have hu := takeDeactivate_blocks a ((s.holding a (.command (commandWord 2#8 arg))).took (commandWord 2#8 arg))
    generalize answer a true [] (takeDeactivate ((s.holding a (.command (commandWord 2#8 arg))).took
      (commandWord 2#8 arg))) = u at hu hans ⊢
    obtain ⟨hstatus, hsup, hlist, hsources, hqual, helection, hports, hjudge, hpath, hlatches, hwires, hstraps, hcounter,
      hreset⟩ := hu
    have hfree : ({ s.path with held := none } : PathUnit) = s.path := by rw [← hr.free]
    refine ⟨hans, hstatus, hlist, hsup, hsources, hqual.1, hqual.2, helection, hports, hjudge.1, hjudge.2, ?_, hlatches,
      hwires, hstraps, hcounter, hreset.trans hr.running⟩
    rw [hpath, ← hfree]
    rfl

/-! ## FLUSH -/

theorem takeCommand_flush (a : Access) (arg : BitVec 56) (s : State) :
    takeCommand a (commandWord 3#8 arg) s = takeFlush a (s.took (commandWord 3#8 arg)) := by
  rw [takeCommand, (commandOf_commandWord arg).2.2.1]
  rfl

theorem flushProgress_wait {s : State} {a : Access} {l i list intake : Bool}
    (h : s.path.held = some { access := a, job := .flushing l i }) (hw : ((l || list) && (i || intake)) = false) :
    flushProgress list intake s = hold a (.flushing (l || list) (i || intake)) s := by
  simp only [flushProgress, h, hw, Bool.false_eq_true, if_false]

theorem flushProgress_done {s : State} {a : Access} {l i list intake : Bool}
    (h : s.path.held = some { access := a, job := .flushing l i }) (hw : ((l || list) && (i || intake)) = true) :
    flushProgress list intake s = answer a true [] s := by
  simp only [flushProgress, h, hw, if_true]

/-- The FLUSH claim taken, before the held command write goes on (R26). -/
def listFlushed (s : State) : State :=
  raise (flushSchedule s.list.sched).2
    (s.setList { s.list with requests := [], sched := (flushSchedule s.list.sched).1 })

theorem exec_listFlush {s : State} {who : Asker} (hc : s.list.claims = [])
    (hr : s.list.requests = [{ request := .flush, asker := who }]) :
    exec .listFlush s = .next (serve (flushProgress true false (listFlushed s))) := by
  simp [exec, execListFlush, takeFlushClaim, nextRequest, hc, hr, takeListFlush, popRequest, listFlushed]

/-- FLUSH at the Intake Unit, the last one on its way taken. -/
def intakeFlushed (s : State) : State := flushIntake (s.setWires { s.wires with intakeFlushes := 0 })

theorem exec_intakeFlush {s : State} (h : s.wires.intakeFlushes = 1) :
    exec .intakeFlush s = .next (serve (flushProgress false true (intakeFlushed s))) := by
  simp only [exec, execIntakeFlush, h]
  rfl

/-- List and Intake Unit take FLUSH in either order with one result (R179). -/
theorem intakeFlushed_listFlushed (s : State) : intakeFlushed (listFlushed s) = listFlushed (intakeFlushed s) := rfl

section FlushFields

variable (a : Access) (j : Job) (s : State)

@[simp] theorem takeFlush_path : (takeFlush a s).path =
    { s.path with held := some { access := a, job := .flushing false false } } := rfl
@[simp] theorem takeFlush_list : (takeFlush a s).list = { s.list with
    requests := s.list.requests ++ [{ request := .flush, asker := .statusUnit }] } := rfl
@[simp] theorem takeFlush_wires : (takeFlush a s).wires =
    { s.wires with intakeFlushes := s.wires.intakeFlushes + 1 } := rfl
@[simp] theorem takeFlush_card : (takeFlush a s).card = s.card := rfl
@[simp] theorem takeFlush_answers : (takeFlush a s).answers = s.answers := rfl

@[simp] theorem listFlushed_path : (listFlushed s).path = s.path := rfl
@[simp] theorem listFlushed_wires : (listFlushed s).wires =
    { s.wires with events := s.wires.events ++ (flushSchedule s.list.sched).2 } := rfl
@[simp] theorem listFlushed_card : (listFlushed s).card = s.card := rfl
@[simp] theorem listFlushed_answers : (listFlushed s).answers = s.answers := rfl

@[simp] theorem intakeFlushed_path : (intakeFlushed s).path = s.path := rfl
@[simp] theorem intakeFlushed_list : (intakeFlushed s).list = { s.list with
    queries := s.list.queries.map (Query.abandonIf .qualifier)
    requests := s.list.requests.map fun r => { r with asker := Asker.abandonIf .qualifier r.asker }
    sending := s.list.sending.map fun r => { r with asker := Asker.abandonIf .qualifier r.asker } } := rfl
@[simp] theorem intakeFlushed_card : (intakeFlushed s).card = s.card := rfl
@[simp] theorem intakeFlushed_answers : (intakeFlushed s).answers = s.answers := rfl
@[simp] theorem takeFlush_intake : (takeFlush a s).intake = s.intake := rfl
@[simp] theorem takeFlush_status : (takeFlush a s).status = s.status := rfl
@[simp] theorem takeFlush_sup : (takeFlush a s).sup = s.sup := rfl
@[simp] theorem takeFlush_election : (takeFlush a s).election = s.election := rfl
@[simp] theorem takeFlush_patcher : (takeFlush a s).patcher = s.patcher := rfl
@[simp] theorem listFlushed_intake : (listFlushed s).intake = s.intake := rfl
@[simp] theorem listFlushed_status : (listFlushed s).status = s.status := rfl
@[simp] theorem listFlushed_sup : (listFlushed s).sup = s.sup := rfl
@[simp] theorem listFlushed_election : (listFlushed s).election = s.election := rfl
@[simp] theorem listFlushed_patcher : (listFlushed s).patcher = s.patcher := rfl
@[simp] theorem intakeFlushed_intake : (intakeFlushed s).intake = { s.intake with
    qualifier := none, sources := mapSources (fun _ => flushSource) s.intake.sources } := rfl
@[simp] theorem intakeFlushed_status : (intakeFlushed s).status = s.status := rfl
@[simp] theorem intakeFlushed_sup : (intakeFlushed s).sup = s.sup := rfl
@[simp] theorem intakeFlushed_election : (intakeFlushed s).election = s.election := rfl
@[simp] theorem intakeFlushed_patcher : (intakeFlushed s).patcher = s.patcher := rfl
@[simp] theorem intakeFlushed_wires : (intakeFlushed s).wires =
    { s.wires with intakeFlushes := 0, electionFlushes := s.wires.electionFlushes + 1 } := rfl
@[simp] theorem listFlushed_list : (listFlushed s).list =
    { s.list with requests := [], sched := (flushSchedule s.list.sched).1 } := rfl

theorem listFlushed_hold : listFlushed (hold a j s) = hold a j (listFlushed s) := rfl
theorem intakeFlushed_hold : intakeFlushed (hold a j s) = hold a j (intakeFlushed s) := rfl
theorem answer_hold (ok : Bool) (d : List Byte) : answer a ok d (hold a j s) = answer a ok d s := rfl
@[simp] theorem hold_path : (hold a j s).path = { s.path with held := some { access := a, job := j } } := rfl
@[simp] theorem hold_list : (hold a j s).list = s.list := rfl
@[simp] theorem hold_wires : (hold a j s).wires = s.wires := rfl
@[simp] theorem hold_card : (hold a j s).card = s.card := rfl
@[simp] theorem hold_answers : (hold a j s).answers = s.answers := rfl

end FlushFields

section Flush

variable {s : State} (a : Access)

/-- The list takes FLUSH first: the command write is held on (R179). -/
theorem exec_listFlush_first (hc : s.list.claims = []) (hr : s.list.requests = []) (hk : s.card = []) :
    exec .listFlush (takeFlush a s) = .next (hold a (.flushing true false) (listFlushed (takeFlush a s))) := by
  rw [exec_listFlush (who := .statusUnit) (by simpa using hc) (by simp [hr]),
    flushProgress_wait (a := a) (l := false) (i := false) (by simp) rfl, serve_nil (by simpa using hk)]
  rfl

/-- The Intake Unit takes FLUSH first: the command write is held on (R179). -/
theorem exec_intakeFlush_first (hn : s.wires.intakeFlushes = 0) (hk : s.card = []) :
    exec .intakeFlush (takeFlush a s) = .next (hold a (.flushing false true) (intakeFlushed (takeFlush a s))) := by
  rw [exec_intakeFlush (by simp [hn]), flushProgress_wait (a := a) (l := false) (i := false) (by simp) rfl,
    serve_nil (by simpa using hk)]
  rfl

/-- The part once list and Intake Unit have both taken FLUSH and its write is answered (R26, R116, R179). -/
def flushDone (s : State) : State := answer a true [] (intakeFlushed (listFlushed (takeFlush a s)))

theorem flushDone_answers (s : State) (h : a.dir = .write) : (flushDone a s).answers = s.answers ++
    [{ master := a.master, ok := true, data := [] }] := by simp [flushDone, answer, h]

theorem answer_card (ok : Bool) (d : List Byte) (s : State) : (answer a ok d s).card = s.card := rfl

theorem exec_intakeFlush_second (hn : s.wires.intakeFlushes = 0) (hk : s.card = []) :
    exec .intakeFlush (hold a (.flushing true false) (listFlushed (takeFlush a s))) = .next (flushDone a s) := by
  rw [exec_intakeFlush (by simp [hn]), flushProgress_done (a := a) (l := true) (i := false) (by simp) rfl,
    serve_nil (by simpa [answer_card] using hk), intakeFlushed_hold, answer_hold]
  rfl

theorem exec_listFlush_second (hc : s.list.claims = []) (hr : s.list.requests = []) (hk : s.card = []) :
    exec .listFlush (hold a (.flushing false true) (intakeFlushed (takeFlush a s))) = .next (flushDone a s) := by
  rw [exec_listFlush (who := .statusUnit) (by simpa using hc) (by simp [hr, Asker.abandonIf]),
    flushProgress_done (a := a) (l := false) (i := true) (by simp) rfl,
    serve_nil (by simpa [answer_card] using hk), listFlushed_hold, answer_hold, ← intakeFlushed_listFlushed]
  rfl

/-- The blocks once FLUSH is done: what it empties, and what it leaves (R26, R100, R116, R179). -/
theorem flushDone_blocks (s : State) (hr : s.list.requests = []) (hq : s.list.queries = [])
    (hn : s.wires.intakeFlushes = 0) :
    let u := flushDone a s
    u.list = { s.list with
        sending := s.list.sending.map fun r => { r with asker := if r.asker = .qualifier then .abandoned else r.asker }
        sched := { s.list.sched with entries := s.list.sched.entries.filter fun e => e.state == .applied } } ∧
      u.intake.qualifier = none ∧ u.intake.civilHorizon = s.intake.civilHorizon ∧
      (∀ n : SourceNo, u.intake.sources[n] = flushSource s.intake.sources[n]) ∧
      u.wires = { s.wires with
        events := s.wires.events ++
          (if s.list.sched.entries.any (fun e => e.state != .applied) then [.scheduleChange] else [])
        electionFlushes := s.wires.electionFlushes + 1 } ∧
      u.status = s.status ∧ u.sup = s.sup ∧ u.election = s.election ∧ u.patcher = s.patcher ∧
      u.path = { s.path with held := none } := by
  have hsrc (n : SourceNo) := mapSources_get (fun _ => flushSource) s.intake.sources n
  have hp : Entry.pending = fun e => e.state != .applied := rfl
  have ha : Entry.isApplied = fun e => e.state == .applied := rfl
  simp [flushDone, answer, hr, hq, hn, flushSchedule, hp, ha, Asker.abandonIf] at hsrc ⊢
  exact hsrc

end Flush

/-- Settles O26: the command write is refused or held, memory's ERROR discards it, and its OK hands FLUSH to list and Intake
Unit, which take it in either order with one result. -/
theorem flushEmptiesListAndIntake : Obligations.FlushEmptiesListAndIntake := by
  intro m sh arg d s hr h8 hm hlf hn a
  obtain ⟨hclaims, hrequests, hqueries⟩ := hlf
  obtain ⟨-, -, hcmd, -⟩ := commandOf_commandWord arg
  refine ⟨fun hp => ?_, fun hp => ?_⟩
  · exact exec_command_refused hr h8 hm rfl (by rw [hcmd, hp]; rfl)
  · refine ⟨_, _, exec_command_allowed hr h8 hm rfl (by rw [hcmd, hp]; rfl), rfl, exec_command_error hr _ d,
      exec_command_ok hr a _ d, ?_⟩
    rw [takeCommand_flush]
    have hk : ((s.holding a (.command (commandWord 3#8 arg))).took (commandWord 3#8 arg)).card = [] := hr.alone
    obtain ⟨hlist, hqual, hhorizon, hsources, hwires, hstatus, hsup, helection, hpatcher, hpath⟩ :=
      flushDone_blocks a ((s.holding a (.command (commandWord 3#8 arg))).took (commandWord 3#8 arg)) hrequests hqueries hn
    have hans := flushDone_answers a ((s.holding a (.command (commandWord 3#8 arg))).took (commandWord 3#8 arg)) rfl
    have hfree : ({ s.path with held := none } : PathUnit) = s.path := by rw [← hr.free]
    refine ⟨takeFlush_answers a _, _, _, _, exec_listFlush_first a hclaims hrequests hk, ?_,
      exec_intakeFlush_second a hn hk, exec_intakeFlush_first a hn hk, ?_, exec_listFlush_second a hclaims hrequests hk,
      hans, hlist, hqual, hhorizon, hsources, hwires, hstatus, hsup, helection, hpatcher, hpath.trans hfree⟩
    · rw [hold_answers, listFlushed_answers, takeFlush_answers]; rfl
    · rw [hold_answers, intakeFlushed_answers, takeFlush_answers]; rfl

end Sys2Proof.Machine
end

section
/-! PROOFS. Claims and lookups: what a freeze-and-commit claim does to each entry, and that lookups see neither states nor
flags, nor a discarded entry at or above the floor end (R8 to R14, R25, R73 to R83, R88). -/

namespace Sys2Proof.Machine

/-! ## Lookups see the course of the entries alone -/

/-- Schedules of one base record whose entries agree in boundary, scale, kind and offsets. -/
structure SameCourse (a b : Schedule) : Prop where
  base : a.base = b.base
  entries : a.entries.map Entry.course = b.entries.map Entry.course

/-- What a test of entries sees: boundary, scale, kind and offsets alone. -/
def OfCourse {α : Type} (p : Entry → α) : Prop := ∀ e f : Entry, e.course = f.course → p e = p f

theorem course_filter {p : Entry → Bool} (hp : OfCourse p) {as bs : List Entry}
    (h : as.map Entry.course = bs.map Entry.course) :
    (as.filter p).map Entry.course = (bs.filter p).map Entry.course := by
  induction as generalizing bs with
  | nil => cases bs with
    | nil => rfl
    | cons b bs => cases h
  | cons a as ih =>
    cases bs with
    | nil => cases h
    | cons b bs =>
      simp only [List.map_cons, List.cons.injEq] at h
      obtain ⟨hab, h⟩ := h
      simp only [List.filter_cons, hp a b hab]
      split
      · simp only [List.map_cons, hab, ih h]
      · exact ih h

theorem course_any {p : Entry → Bool} (hp : OfCourse p) {as bs : List Entry}
    (h : as.map Entry.course = bs.map Entry.course) : as.any p = bs.any p := by
  have hl : (as.filter p).length = (bs.filter p).length := by
    simpa using congrArg List.length (course_filter hp h)
  rw [Bool.eq_iff_iff, List.any_eq_true, List.any_eq_true]
  simp only [← List.length_filter_pos_iff, hl]

/-- An option of entries read through something that sees the course alone. -/
theorem course_map {α : Type} {p : Entry → α} (hp : OfCourse p) {x y : Option Entry}
    (h : x.map Entry.course = y.map Entry.course) : x.map p = y.map p := by
  cases x <;> cases y <;> simp_all
  exact hp _ _ h

theorem course_getLast {p : Entry → Bool} (hp : OfCourse p) {as bs : List Entry}
    (h : as.map Entry.course = bs.map Entry.course) :
    ((as.filter p).getLast?).map Entry.course = ((bs.filter p).getLast?).map Entry.course := by
  rw [← List.getLast?_map, ← List.getLast?_map, course_filter hp h]

theorem course_find {p : Entry → Bool} (hp : OfCourse p) {as bs : List Entry}
    (h : as.map Entry.course = bs.map Entry.course) :
    (as.find? p).map Entry.course = (bs.find? p).map Entry.course := by
  rw [← List.head?_filter, ← List.head?_filter, ← List.head?_map, ← List.head?_map, course_filter hp h]

theorem offsetAt_eq (sched : Schedule) (sc : Scale) (x : Nat) : offsetAt sched sc x =
    endOffset (sched.base.offset sc) (sched.entries.filter fun e => e.scale == sc && decide (e.boundary.toNat ≤ x)) := by
  unfold offsetAt endOffset
  split <;> rename_i h <;> rw [h] <;> rfl

/-- A test of the course of an entry is one: its fields are read from it. -/
theorem ofCourse {α : Type} (q : Second × Scale × Kind × Int × Int → α) : OfCourse fun e => q e.course :=
  fun _ _ h => congrArg q h

theorem SameCourse.offsetAt {a b : Schedule} (h : SameCourse a b) (sc : Scale) (x : Nat) :
    offsetAt a sc x = offsetAt b sc x := by
  have hl := course_getLast (p := fun e => e.scale == sc && decide (e.boundary.toNat ≤ x))
    (ofCourse fun c => c.2.1 == sc && decide (c.1.toNat ≤ x)) h.entries
  have hn := course_map (p := fun e => e.new) (ofCourse fun c => c.2.2.2.2) hl
  rw [offsetAt_eq, offsetAt_eq, endOffset, endOffset, h.base, hn]

theorem SameCourse.insertedAt {a b : Schedule} (h : SameCourse a b) (x : Nat) : insertedAt a x = insertedAt b x :=
  course_any (ofCourse fun c => c.2.1 == .civil && c.2.2.1 == .leap .insert && c.1.toNat == x) h.entries

theorem SameCourse.foldAt {a b : Schedule} (h : SameCourse a b) (k : ZoneNo) (x : Nat) : foldAt a k x = foldAt b k x :=
  course_any (ofCourse fun c => c.2.1 == .zone k &&
    decide (c.2.2.2.2 < c.2.2.2.1 ∧ c.1.toNat ≤ x ∧ (x : Int) < c.1.toNat + (c.2.2.2.1 - c.2.2.2.2))) h.entries

theorem SameCourse.nextCivil {a b : Schedule} (h : SameCourse a b) (x : Nat) :
    (nextCivil a x).map (fun e => (e.boundary, e.kind)) = (nextCivil b x).map fun e => (e.boundary, e.kind) :=
  course_map (ofCourse fun c => (c.1, c.2.2.1))
    (course_find (ofCourse fun c => c.2.1 == .civil && decide (x < c.1.toNat)) h.entries)

theorem SameCourse.lookup {a b : Schedule} (h : SameCourse a b) (x : Nat) : lookup a x = lookup b x := by
  simp only [Machine.lookup, h.base, h.offsetAt, h.insertedAt, h.foldAt, h.nextCivil]

theorem SameCourse.offsetsOf {a b : Schedule} (h : SameCourse a b) (sc : Scale) : offsetsOf a sc = offsetsOf b sc := by
  have hf := course_filter (p := fun e => e.scale == sc) (ofCourse fun c => c.2.1 == sc) h.entries
  have hn := congrArg (List.map fun c : Second × Scale × Kind × Int × Int => c.2.2.2.2) hf
  simp only [List.map_map] at hn
  unfold Machine.offsetsOf
  rw [h.base]
  exact congrArg _ hn

theorem SameCourse.rawResult {a b : Schedule} (h : SameCourse a b) (v : Fin 7) (x : Nat) :
    rawResult a v x = rawResult b v x := by
  simp only [Machine.rawResult, h.offsetAt, h.insertedAt, h.foldAt]

theorem SameCourse.firstGiving {a b : Schedule} (h : SameCourse a b) (v : Fin 7) (t : Triple) :
    firstGiving a v t = firstGiving b v t := by
  have hg : gives a v t = gives b v t := funext fun x => by simp only [gives, h.base, h.rawResult]
  simp only [Machine.firstGiving, candidates, h.offsetsOf, hg]

/-- The conversion through views 1 to 5 sees what lookups see. -/
theorem SameCourse.convertPlain {a b : Schedule} (h : SameCourse a b) (v : Fin 7) (x : Second) :
    convertPlain a v x = convertPlain b v x := by
  simp only [Machine.convertPlain, h.base, h.rawResult, h.firstGiving]

/-! ## A claim, entry by entry -/

/-- One entry after a claim (R76, R79). -/
def claimEntry (f : Int) (c : SChange) (e : Entry) : Entry :=
  if c.before.toNat < c.after.toNat then forwardEntry f c.after e
  else if c.after.toNat < c.before.toNat then backwardEntry c.after e
  else e

theorem claimEntries_eq (f : Int) (c : SChange) (es : List Entry) : claimEntries f c es = es.map (claimEntry f c) := by
  unfold claimEntries claimEntry
  split
  · rfl
  · split
    · rfl
    · exact (List.map_id es).symm

/-- A claim changes states and flags alone (R77). -/
theorem claimEntry_course (f : Int) (c : SChange) (e : Entry) : (claimEntry f c e).course = e.course := by
  unfold claimEntry
  split
  · unfold forwardEntry
    split <;> [skip; split] <;> rfl
  · split
    · unfold backwardEntry
      split <;> rfl
    · rfl

/-- The command of a claim, where none is to be taken and where one is (R16, R76). -/
theorem exec_claim_none {s : State} (h : s.list.claims ++ s.list.coming = []) :
    exec .freezeAndCommitClaim s = .next s := by
  simp only [exec, execFreezeAndCommitClaim, popClaim_none.mpr (List.append_eq_nil_iff.mp h)]

theorem exec_claim_cons {s : State} {c : SChange} {rest : List SChange} (h : s.list.claims ++ s.list.coming = c :: rest) :
    ∃ claims coming, claims = s.list.claims.tail ∧ claims ++ coming = rest ∧ exec .freezeAndCommitClaim s =
      .next (takeClaim c (s.setList { s.list with claims := claims, coming := coming })) := by
  simp only [exec, execFreezeAndCommitClaim]
  split
  · rename_i hp
    obtain ⟨h1, h2⟩ := popClaim_none.mp hp
    rw [h1, h2] at h
    cases h
  · rename_i c' l hp
    obtain ⟨hc, ht, hl⟩ := popClaim_some hp
    rw [h] at hc
    obtain ⟨rfl, rfl⟩ := List.cons.inj hc
    exact ⟨l.claims, l.coming, ht, rfl, by rw [← hl]⟩

/-- Settles O41: a lookup sees the course of the entries alone, and a claim keeps the course of every entry. -/
theorem claimLeavesLookupsAsTheyWere : Obligations.ClaimLeavesLookupsAsTheyWere := by
  refine ⟨fun a b hb he x => SameCourse.lookup ⟨hb, he⟩ x, fun s => ?_⟩
  cases hc : s.list.claims ++ s.list.coming with
  | nil => exact ⟨s, exec_claim_none hc, fun _ => rfl, fun _ _ => rfl⟩
  | cons c rest =>
    obtain ⟨claims, coming, -, -, ht⟩ := exec_claim_cons hc
    refine ⟨_, ht, ?_⟩
    have hk : SameCourse { s.list.sched with entries := claimEntries (freezeLead s) c s.list.sched.entries }
        s.list.sched := ⟨rfl, by
      rw [claimEntries_eq, List.map_map]
      exact List.map_congr_left fun e _ => claimEntry_course _ c e⟩
    exact ⟨hk.lookup, hk.convertPlain⟩

/-! ## The discard -/

theorem le_intervalEnd (e : Entry) : e.boundary.toNat ≤ intervalEnd e := by
  unfold intervalEnd
  split <;> omega

/-- The end of an interval, as the statements write it (R9). -/
theorem intervalEnd_eq (e : Entry) : intervalEnd e = match e.kind with
    | .leap .insert => e.boundary.toNat + 1
    | .leap .delete => e.boundary.toNat
    | .zoneShift => if e.new < e.prior then e.boundary.toNat + (e.prior - e.new).toNat else e.boundary.toNat := by
  obtain ⟨b, sc, kind, p, n, o, st, late, stepped, grid⟩ := e
  cases kind with
  | leap k => cases k <;> rfl
  | zoneShift =>
    simp only [intervalEnd]
    split <;> omega

theorem endOffset_filter_cons (r : Int) (e : Entry) (es : List Entry) {p : Entry → Bool} (h : p e = true) :
    endOffset r ((e :: es).filter p) = endOffset e.new (es.filter p) := by
  rw [List.filter_cons, if_pos h, endOffset_cons]

theorem discardIfFull_cons {sched : Schedule} {e : Entry} {es : List Entry} (h : sched.entries = e :: es)
    (hl : 32 ≤ sched.entries.length) :
    discardIfFull sched = ({ entries := es, base := sched.base.afterDiscard e }, [.historyDiscard]) := by
  unfold discardIfFull
  rw [h]
  exact if_pos (h ▸ hl)

theorem afterDiscard_floor (b : BaseRecord) (e : Entry) : (b.afterDiscard e).floor = e.boundary ∧
    (b.afterDiscard e).floorEnd = max b.floorEnd (intervalEnd e) := by
  unfold BaseRecord.afterDiscard
  split <;> exact ⟨rfl, rfl⟩

/-- An inserted second lies below the end of its entry's interval (R9, R12). -/
theorem not_insertedAt_end {e : Entry} {x : Nat} (hx : intervalEnd e ≤ x) :
    (e.scale == .civil && e.kind == .leap .insert && e.boundary.toNat == x) = false := by
  simp only [Bool.and_eq_false_imp, Bool.and_eq_true, beq_iff_eq, and_imp, beq_eq_false_iff_ne]
  intro _ hk
  simp only [intervalEnd, hk] at hx
  omega

/-- A fold lies below the end of its entry's interval (R9, R13). -/
theorem not_foldAt_end {e : Entry} {k : ZoneNo} {x : Nat} (hk : e.kindFits) (hx : intervalEnd e ≤ x) :
    (e.scale == .zone k && decide (e.new < e.prior ∧ e.boundary.toNat ≤ x ∧
      (x : Int) < e.boundary.toNat + (e.prior - e.new))) = false := by
  simp only [Bool.and_eq_false_imp, beq_iff_eq, decide_eq_false_iff_not]
  intro hs
  simp only [intervalEnd, kindFits_zone hs hk] at hx
  omega

/-- At or above its end, a discarded entry shows in the base offset alone (R8, R25). -/
theorem lookup_discard {sched : Schedule} {e : Entry} {es : List Entry} (h : sched.entries = e :: es)
    (hk : e.kindFits) {x : Nat} (hx : max sched.base.floorEnd (intervalEnd e) ≤ x) :
    lookup { entries := es, base := sched.base.afterDiscard e } x = lookup sched x := by
  have hfloor := (afterDiscard_floor sched.base e).2
  have hle := le_intervalEnd e
  have hoff (sc : Scale) : offsetAt { entries := es, base := sched.base.afterDiscard e } sc x = offsetAt sched sc x := by
    rw [offsetAt_eq, offsetAt_eq, offset_afterDiscard, h]
    split
    · rename_i hsc
      rw [endOffset_filter_cons _ _ _ (by simp [hsc]; omega)]
    · rename_i hsc
      rw [List.filter_cons, if_neg (by simp; exact fun he => absurd he.symm (by simpa using hsc))]
  have hins : insertedAt { entries := es, base := sched.base.afterDiscard e } x = insertedAt sched x := by
    unfold insertedAt
    rw [h, List.any_cons, not_insertedAt_end (by omega), Bool.false_or]
  have hfold (k : ZoneNo) : foldAt { entries := es, base := sched.base.afterDiscard e } k x = foldAt sched k x := by
    unfold foldAt
    rw [h, List.any_cons, not_foldAt_end hk (by omega), Bool.false_or]
  have hnext : nextCivil { entries := es, base := sched.base.afterDiscard e } x = nextCivil sched x := by
    unfold nextCivil
    rw [h, List.find?_cons_of_neg (by simp; omega)]
  unfold lookup
  rw [hfloor, if_neg (by omega), if_neg (by omega)]
  simp only [hoff, hins, hfold, hnext]

/-- Settles O46: the base record after the discard is that of R25, and lookups at or above the new floor end are kept. -/
theorem discardKeepsLookupsAboveTheFloorEnd : Obligations.DiscardKeepsLookupsAboveTheFloorEnd := by
  intro sched e es h hl hk after ends
  have hd := discardIfFull_cons h hl
  have ha : after = { entries := es, base := sched.base.afterDiscard e } := congrArg Prod.fst hd
  have hends : intervalEnd e = ends := intervalEnd_eq e
  obtain ⟨hfloor, hend⟩ := afterDiscard_floor sched.base e
  rw [ha]
  refine ⟨congrArg Prod.snd hd, rfl, hfloor, hend.trans (by rw [hends]), offset_afterDiscard _ e, fun x hx => ?_⟩
  exact lookup_discard h hk (hend ▸ hx)

/-! ## A claim at the list -/

/-- The entry is committed by a claim (R76). -/
def Commits (c : SChange) (e : Entry) : Prop :=
  c.before.toNat < c.after.toNat ∧ e.state ≠ .applied ∧ e.boundary.toNat ≤ c.after.toNat

/-- The entry is frozen by a claim, `lead` being the freeze lead (R76, R78). -/
def Freezes (lead : Nat) (c : SChange) (e : Entry) : Prop :=
  c.before.toNat < c.after.toNat ∧ e.state = .armed ∧ c.after.toNat < e.boundary.toNat ∧
    e.boundary.toNat - c.after.toNat ≤ lead

/-- The entry is stepped over by a claim (R79). -/
def Steps (c : SChange) (e : Entry) : Prop :=
  c.after.toNat < c.before.toNat ∧ e.state = .applied ∧ c.after.toNat < e.boundary.toNat

theorem committedBy_iff {x : Second} {e : Entry} :
    committedBy x e = true ↔ e.state ≠ .applied ∧ e.boundary.toNat ≤ x.toNat := by
  simp [committedBy, Entry.pending]

theorem frozenBy_iff {lead : Nat} {x : Second} {e : Entry} : frozenBy (lead : Int) x e = true ↔
    e.state = .armed ∧ x.toNat < e.boundary.toNat ∧ e.boundary.toNat - x.toNat ≤ lead := by
  simp only [frozenBy, Bool.and_eq_true, beq_iff_eq, decide_eq_true_eq, and_congr_right_iff]
  omega

theorem steppedBy_iff {x : Second} {e : Entry} :
    steppedBy x e = true ↔ e.state = .applied ∧ x.toNat < e.boundary.toNat := by
  simp [steppedBy, Entry.isApplied]

/-- What a claim does to one entry (R76 to R79). -/
theorem claimEntry_spec (lead : Nat) (c : SChange) (e : Entry) :
    (Commits c e → claimEntry lead c e =
      { e with state := .applied, late := decide (e.boundary.toNat < c.after.toNat) }) ∧
    (Freezes lead c e → claimEntry lead c e = { e with state := .frozen }) ∧
    (Steps c e → claimEntry lead c e = { e with steppedOver := true }) ∧
    (¬ Commits c e → ¬ Freezes lead c e → ¬ Steps c e → claimEntry lead c e = e) := by
  have hc : Commits c e ↔ c.before.toNat < c.after.toNat ∧ committedBy c.after e = true :=
    and_congr_right fun _ => committedBy_iff.symm
  have hf : Freezes lead c e ↔ c.before.toNat < c.after.toNat ∧ frozenBy lead c.after e = true :=
    and_congr_right fun _ => frozenBy_iff.symm
  have hs : Steps c e ↔ c.after.toNat < c.before.toNat ∧ steppedBy c.after e = true :=
    and_congr_right fun _ => steppedBy_iff.symm
  have hex : frozenBy lead c.after e = true → committedBy c.after e = false := by
    intro h
    rw [← Bool.not_eq_true, committedBy_iff]
    have := frozenBy_iff.mp h
    omega
  rw [hc, hf, hs]
  unfold claimEntry forwardEntry backwardEntry
  refine ⟨fun ⟨h, hx⟩ => ?_, fun ⟨h, hx⟩ => ?_, fun ⟨h, hx⟩ => ?_, fun h1 h2 h3 => ?_⟩
  · rw [if_pos h, if_pos hx]
  · rw [if_pos h, hex hx, if_neg (by simp), if_pos hx]
  · rw [if_neg (by omega), if_pos h, if_pos hx]
  · split
    · rename_i h
      rw [if_neg fun hx => h1 ⟨h, hx⟩, if_neg fun hx => h2 ⟨h, hx⟩]
    · split
      · rename_i h
        rw [if_neg fun hx => h3 ⟨h, hx⟩]
      · rfl

theorem mem_eventIf {b : Bool} {e f : Event} : f ∈ eventIf b e ↔ b = true ∧ f = e := by
  cases b <;> simp [eventIf]

/-- The events a claim raises, each at most once (R81). -/
theorem claimEvents_spec (lead : Nat) (c : SChange) (es : List Entry) :
    (claimEvents lead c es).Nodup ∧
    (.commit ∈ claimEvents lead c es ↔ ∃ e ∈ es, Commits c e) ∧
    (.lateCommit ∈ claimEvents lead c es ↔ ∃ e ∈ es, Commits c e ∧ e.boundary.toNat < c.after.toNat) ∧
    (.freeze ∈ claimEvents lead c es ↔ ∃ e ∈ es, Freezes lead c e) ∧
    (.stepBack ∈ claimEvents lead c es ↔ ∃ e ∈ es, Steps c e) ∧
    ∀ e ∈ claimEvents lead c es, e = .commit ∨ e = .lateCommit ∨ e = .freeze ∨ e = .stepBack := by
  unfold claimEvents Commits Freezes Steps
  split
  · rename_i h
    have hb : ¬ c.after.toNat < c.before.toNat := by omega
    refine ⟨?_, ?_⟩
    · simp only [eventIf]
      split <;> split <;> split <;> decide
    · simp [mem_eventIf, committedBy_iff, frozenBy_iff, h, hb]
      rintro e (⟨-, he⟩ | ⟨-, he⟩ | ⟨-, he⟩) <;> simp [he]
  · split
    · rename_i hf h
      refine ⟨by simp only [eventIf]; split <;> decide, ?_⟩
      simp [mem_eventIf, steppedBy_iff, h, hf]
      exact fun e x _ _ _ he => .inr (.inr (.inr he))
    · rename_i hf hb
      simp [hf, hb]

theorem mem_claimCommits {c : SChange} {es : List Entry} {e : Entry} :
    e ∈ claimCommits c es ↔ e ∈ es ∧ Commits c e := by
  unfold claimCommits Commits
  split
  · rename_i h
    simp [committedBy_iff, h]
  · rename_i h
    simp [h]

/-- One commit notice when something was committed, and none else (R82). -/
theorem commitNotices_spec (c : SChange) (es : List Entry) :
    ((∃ e ∈ es, Commits c e) → commitNotices c es = [c.after]) ∧ ((∀ e ∈ es, ¬ Commits c e) → commitNotices c es = []) := by
  unfold commitNotices
  refine ⟨fun ⟨e, he, hc⟩ => ?_, fun h => ?_⟩
  · have hm : e ∈ claimCommits c es := mem_claimCommits.mpr ⟨he, hc⟩
    rw [if_neg (by simpa using List.ne_nil_of_mem hm)]
  · have hn : claimCommits c es = [] := List.eq_nil_iff_forall_not_mem.mpr fun e hm =>
      h e (mem_claimCommits.mp hm).1 (mem_claimCommits.mp hm).2
    rw [hn]; rfl

/-- One civil-commit notice for each civil entry committed (R82). -/
theorem mem_civilNotices {c : SChange} {es : List Entry} {n : CivilCommit} : n ∈ civilNotices c es ↔
    ∃ e ∈ es, Commits c e ∧ e.scale = .civil ∧ n = { s := c.after, boundary := e.boundary, kind := e.kind } := by
  simp only [civilNotices, List.mem_map, List.mem_filter, mem_claimCommits, beq_iff_eq, and_assoc, eq_comm (a := n)]

/-- A waiting claim goes ahead of every request, lookup and snapshot (R16, R83, R88). -/
theorem exec_behind_claim {s : State} (h : s.list.claims ≠ []) :
    exec .armRequest s = .next s ∧ exec .replaceRequest s = .next s ∧ exec .withdrawRequest s = .next s ∧
      exec .listFlush s = .next s ∧ exec .lookupClaim s = .next s ∧ exec .snapshotClaim s = .next s := by
  obtain ⟨c, cs, hc⟩ := List.exists_cons_of_ne_nil h
  have hr : nextRequest s = none := by simp [nextRequest, hc]
  have hq : nextQuery s = none := by simp [nextQuery, hc]
  simp [exec, execArmRequest, execReplaceRequest, execWithdrawRequest, execListFlush, execLookupClaim, execSnapshotClaim,
    takeRequest, takeFlushClaim, takeLookup, takeSnapshot, hr, hq]

/-- A waiting request goes ahead of every lookup and snapshot (R16, R88). -/
theorem exec_behind_request {s : State} (h : s.list.requests ≠ []) :
    exec .lookupClaim s = .next s ∧ exec .snapshotClaim s = .next s := by
  have hq : nextQuery s = none := by
    unfold nextQuery
    split
    · contradiction
    · rfl
  simp [exec, execLookupClaim, execSnapshotClaim, takeLookup, takeSnapshot, hq]

/-- Settles O39: what a claim does entry by entry, the events and notices it sends, and the order of claims at the list. -/
theorem claimBringsEntriesToTheNewSecond : Obligations.ClaimBringsEntriesToTheNewSecond := by
  refine ⟨?_, fun s => ⟨exec_behind_claim, exec_behind_request⟩⟩
  intro c rest s hc new forward backward es lead commits freezes steps
  obtain ⟨claims, coming, hcl, hrest, ht⟩ := exec_claim_cons hc
  obtain ⟨hnodup, hevents⟩ := claimEvents_spec lead c es
  have hes : (takeClaim c (s.setList { s.list with claims := claims, coming := coming })).list.sched.entries =
      es.map (claimEntry lead c) := claimEntries_eq _ c es
  refine ⟨_, ht, hcl, hrest, rfl, ?_, fun i e e' he he' => ?_, rfl, rfl, ⟨_, rfl, hnodup, hevents⟩,
    ⟨_, rfl, commitNotices_spec c es⟩, ⟨_, rfl, fun n => mem_civilNotices⟩⟩
  · rw [hes, List.length_map]
  · rw [hes, List.getElem?_map, he] at he'
    obtain rfl : claimEntry lead c e = e' := by simpa using he'
    exact claimEntry_spec lead c e

end Sys2Proof.Machine
end

section
/-! PROOFS. Requests at the list: who takes the answer, the checks in their order, and what an accepted request does to the
entries (R3, R8, R9, R16 to R25, R73, R98, R110, R119, R126). -/

namespace Sys2Proof.Machine

/-! ## A request taken, and its answer -/

/-- The part once a request has left the list with its verdict, before its answer is handed on (R16, R17). -/
def State.handled (s : State) (rest : List WaitingRequest) (v : Verdict) : State :=
  (s.setList { s.list with
    sched := v.sched, requests := s.list.requests.tail
    sending := if s.list.requests = [] then rest else s.list.sending }).raised v.events

/-- The command that takes a request of a row. -/
def RequestRow.instr : RequestRow → Instr
  | .arm => .armRequest
  | .replace => .replaceRequest
  | .withdraw => .withdrawRequest

theorem nextRequest_cons {s : State} {q : WaitingRequest} {rest : List WaitingRequest} (hc : s.list.claims = [])
    (hq : s.list.requests ++ s.list.sending = q :: rest) : nextRequest s = some q := by
  simp [nextRequest, hc, hq]

theorem popRequest_handled {s : State} {q : WaitingRequest} {rest : List WaitingRequest} (v : Verdict)
    (hq : s.list.requests ++ s.list.sending = q :: rest) :
    raise v.events ((popRequest s).setList { (popRequest s).list with sched := v.sched }) = s.handled rest v := by
  cases hr : s.list.requests with
  | nil =>
    have hs : s.list.sending.tail = rest := by rw [hr] at hq; rw [List.nil_append] at hq; rw [hq]; rfl
    simp only [popRequest, hr, hs, State.handled, if_true, List.tail_nil]
    rfl
  | cons p ps =>
    simp only [popRequest, hr, State.handled, reduceCtorEq, if_false, List.tail_cons]
    rfl

/-- The request that is next at the list is judged, and its answer handed to its requester (R16, R17). -/
theorem exec_request {s : State} {r : Request} {who : Asker} {rest : List WaitingRequest} {v : Verdict} {row : RequestRow}
    (hc : s.list.claims = []) (hq : s.list.requests ++ s.list.sending = { request := r, asker := who } :: rest)
    (hrow : rowOf r = some row) (hv : judgeRequest s r = some v) :
    exec row.instr s = .next (deliverAnswer who v.answer (s.handled rest v)) := by
  have ht : exec row.instr s = .next (takeRequest row s) := by cases row <;> rfl
  rw [ht, takeRequest, nextRequest_cons hc hq]
  simp only [hrow, hv, if_true, handleRequest, popRequest_handled v hq]

theorem isAcceptance_iff (a : ListAnswer) : isAcceptance a = true ↔ a = .armed ∨ a = .armedFrozen ∨
    a = .replacedArmed ∨ a = .replacedFrozen ∨ a = .withdrawn ∨ a = .unchanged := by cases a <;> decide

theorem disputeAnswer_iff (a : ListAnswer) : disputeAnswer a = true ↔ a = .frozen ∨ a = .offsetLimit ∨ a = .full := by
  cases a <;> decide

/-- A trigger taken while no run is in progress starts one (R119). -/
theorem exec_electionTrigger {s : State} {y : ElectionTrigger} (h : s.election.run = none) :
    exec .electionTrigger (s.setWires { s.wires with triggers := y :: s.wires.triggers }) = .next (startRun s) := by
  show Host.Outcome.next (takeTrigger s) = _
  rw [takeTrigger, h]

/-- The answer to a run's request ends the run, with a dispute where R126 asks for one. -/
theorem electionAnswer_eq {s : State} {w : SourceNo} (a : ListAnswer) (h : s.election.run = some (.awaitingAnswer w)) :
    electionAnswer a s = endRun (s.raised (if a = .frozen ∨ a = .offsetLimit ∨ a = .full then [.dispute] else [])) := by
  simp only [electionAnswer, h]
  by_cases hd : disputeAnswer a = true
  · rw [if_pos hd, if_pos ((disputeAnswer_iff a).mp hd), raise_eq]
  · rw [if_neg hd, if_neg (mt (disputeAnswer_iff a).mpr hd), ← raise_eq, raise_nil]

/-- The answer to a zone record's request frees the qualifier, is recorded, and lets it take the next record (R98, R110). -/
theorem qualifierAnswer_eq {s : State} {n : SourceNo} {seq : BitVec 16} {x : Second} (a : ListAnswer)
    (h : s.intake.qualifier = some { source := n, seq := seq, arrival := x, work := .zoneAnswer }) :
    qualifierAnswer a s = qualifierTake (recordAnswer n seq a (freeQualifier s)) := by
  simp only [qualifierAnswer, h]

/-- Settles O45: the request is judged, and its answer handed to the run, the qualifier or nobody. -/
theorem listAnswersReachTheirRequesters : Obligations.ListAnswersReachTheirRequesters := by
  intro r who rest v s hc hq hv c handled accepted
  have ht : exec c s = .next (deliverAnswer who v.answer handled) := by
    cases r with
    | flush => cases hv
    | _ => exact exec_request hc hq rfl hv
  refine ⟨fun hw => ?_, fun hw w hrun => ?_, fun hw n seq x hqual => ?_⟩ <;> subst hw
  · exact ht
  · intro ended
    have ha : exec c s = .next (endRun (handled.raised _)) :=
      ht.trans (congrArg _ (electionAnswer_eq v.answer (s := handled) hrun))
    refine ⟨fun hp => ?_, fun hp y => ?_⟩
    · rw [ha, endRun, if_neg (by simpa [handled, State.raised] using hp)]
      rfl
    · rw [ha, endRun, if_pos (by simpa [handled, State.raised] using hp), exec_electionTrigger rfl]
      rfl
  · intro told
    have ha : exec c s = .next (qualifierTake (recordAnswer n seq v.answer (freeQualifier handled))) :=
      ht.trans (congrArg _ (qualifierAnswer_eq v.answer (s := handled) hqual))
    refine ⟨fun hacc => ?_, fun hacc => ?_⟩
    · rw [ha, recordAnswer, if_pos ((isAcceptance_iff _).mpr hacc)]
      rfl
    · rw [ha, recordAnswer, if_neg (mt (isAcceptance_iff _).mp hacc)]
      rfl

end Sys2Proof.Machine
end

section
/-! PROOFS. The checks of a request in their order, in the words of the statements (R17 to R23). -/

namespace Sys2Proof.Machine

/-! ## The conditions the checks look at -/

/-- TOO-LATE (R19, R20, R22). -/
def Late (sched : Schedule) (x b : Second) : Prop :=
  b.toNat ≤ x.toNat ∨ ∃ e, (sched.entries.filter Entry.isApplied).getLast? = some e ∧ b.toNat ≤ e.boundary.toNat

theorem tooLate_iff (sched : Schedule) (x b : Second) : tooLate sched x b = true ↔ Late sched x b := by
  simp only [tooLate, Late, appliedHorizon, newestApplied, Bool.or_eq_true, decide_eq_true_eq]
  refine or_congr_right ?_
  cases (sched.entries.filter Entry.isApplied).getLast? with
  | none => simp [atOrBelow]
  | some e => simp [atOrBelow]

/-- A new civil offset out of its range (R19, R22). -/
def CivilBad (k : LeapKind) (prior : Int) : Prop :=
  (k = .insert ∧ 32767 < prior + 1) ∨ (k = .delete ∧ prior - 1 < -32768)

theorem civilOffsetBad_iff (k : LeapKind) (prior : Int) : civilOffsetBad k prior = true ↔ CivilBad k prior := by
  cases k <;> simp [civilOffsetBad, CivilBad, Config.civilMax, Config.civilMin]

/-- The boundary lies within the freeze lead (R21, R22). -/
def WithinLead (f : Int) (x b : Second) : Prop := (b.toNat : Int) - x.toNat ≤ f

theorem entryStateFor_pos {f : Int} {x b : Second} (h : WithinLead f x b) : entryStateFor f x b = .frozen :=
  if_pos h

theorem entryStateFor_neg {f : Int} {x b : Second} (h : ¬ WithinLead f x b) : entryStateFor f x b = .armed :=
  if_neg h

theorem acceptArm_answer_pos {f : Int} {x : Second} {e : Entry} (h : WithinLead f x e.boundary) (sched : Schedule) :
    (acceptArm f x sched e).answer = .armedFrozen := by
  simp only [acceptArm, entryStateFor_pos h, if_true]

theorem acceptArm_answer_neg {f : Int} {x : Second} {e : Entry} (h : ¬ WithinLead f x e.boundary) (sched : Schedule) :
    (acceptArm f x sched e).answer = .armed := by
  simp only [acceptArm, entryStateFor_neg h, reduceCtorEq, if_false]

@[simp] theorem refuseRequest_answer (sched : Schedule) (a : ListAnswer) : (refuseRequest sched a).answer = a := rfl

/-! ## Civil arm requests -/

/-- The pending civil entries of a list (R6). -/
def PendingCivil (es : List Entry) (e : Entry) : Prop := e ∈ es ∧ e.scale = .civil ∧ e.state ≠ .applied

theorem pendingCivil_filter {es : List Entry} {e : Entry} :
    e ∈ es.filter (fun e => e.pending && e.scale == .civil) ↔ PendingCivil es e := by
  simp [PendingCivil, Entry.pending, and_comm]

/-- At most one civil entry is pending (R6). -/
theorem CapacityLaw.unique {es : List Entry} (h : CapacityLaw es) {e f : Entry} (he : PendingCivil es e)
    (hf : PendingCivil es f) : e = f := by
  have hl := h.civil
  rw [← pendingCivil_filter] at he hf
  match hm : es.filter (fun e => e.pending && e.scale == .civil) with
  | [] => rw [hm] at he; cases he
  | [g] =>
    rw [hm, List.mem_singleton] at he hf
    rw [he, hf]
  | _ :: _ :: l => rw [hm] at hl; simp at hl

/-- The pending entry at a boundary, where no other pending entry of its scale stands there. -/
theorem pendingAt_eq_some {es : List Entry} {sc : Scale} {b : Second} {e : Entry}
    (he : e ∈ es ∧ e.state ≠ .applied ∧ e.scale = sc ∧ e.boundary = b)
    (hu : ∀ f ∈ es, f.state ≠ .applied → f.scale = sc → f.boundary = b → f = e) : pendingAt es sc b = some e := by
  obtain ⟨hm, hp, hs, hb⟩ := he
  match hf : pendingAt es sc b with
  | none =>
    have := List.find?_eq_none.mp hf e hm
    simp [Entry.pending, hp, hs, hb] at this
  | some f =>
    have hc := List.find?_some hf
    simp only [Entry.pending, Bool.and_eq_true, bne_iff_ne, beq_iff_eq] at hc
    obtain ⟨⟨hfp, hfs⟩, hfb⟩ := hc
    rw [hu f (List.mem_of_find?_eq_some hf) hfp hfs hfb]

theorem pendingAt_eq_none {es : List Entry} {sc : Scale} {b : Second} :
    pendingAt es sc b = none ↔ ∀ e ∈ es, e.state ≠ .applied → e.scale = sc → e.boundary ≠ b := by
  simp [pendingAt, Entry.pending]

theorem pendingCivil_eq_none {es : List Entry} : pendingCivil es = none ↔ ∀ e, ¬ PendingCivil es e := by
  simp only [pendingCivil, List.find?_eq_none, PendingCivil, Entry.pending, Bool.and_eq_true, bne_iff_ne, beq_iff_eq]
  grind

theorem pendingCivil_eq_some {es : List Entry} (h : CapacityLaw es) {e : Entry} (he : PendingCivil es e) :
    pendingCivil es = some e := by
  match hf : pendingCivil es with
  | none => exact absurd he (pendingCivil_eq_none.mp hf e)
  | some f =>
    have hc := List.find?_some hf
    simp only [Entry.pending, Bool.and_eq_true, bne_iff_ne, beq_iff_eq] at hc
    obtain ⟨hfp, hfs⟩ := hc
    rw [h.unique he ⟨List.mem_of_find?_eq_some hf, hfs, hfp⟩]

theorem pendingAt_civil {es : List Entry} (h : CapacityLaw es) {e : Entry} (he : PendingCivil es e) :
    pendingAt es .civil e.boundary = some e :=
  pendingAt_eq_some ⟨he.1, he.2.2, he.2.1, rfl⟩ fun _ hm hp hs _ => h.unique ⟨hm, hs, hp⟩ he

theorem pendingAt_civil_other {es : List Entry} (h : CapacityLaw es) {e : Entry} (he : PendingCivil es e) {b : Second}
    (hb : e.boundary ≠ b) : pendingAt es .civil b = none :=
  pendingAt_eq_none.mpr fun _ hm hp hs => h.unique he ⟨hm, hs, hp⟩ ▸ hb

/-- What a civil arm request comes to at a pending entry of its boundary (R19). -/
theorem armCivil_at {f : Int} {x b : Second} {sched : Schedule} {e : Entry} (hl : ¬ Late sched x b)
    (hp : pendingAt sched.entries .civil b = some e) (k : LeapKind) (o : SourceNo) (g : Bool) :
    armCivil f x sched b k o g =
      if e.state = .frozen then refuseRequest sched .frozen
      else if e.kind = .leap k then refuseRequest sched .unchanged
      else if civilOffsetBad k (priorAt sched .civil b) then refuseRequest sched .offsetLimit
      else
        { answer := .replacedArmed
          sched := rewritePending sched .civil b (fun e => { e with kind := .leap k, origin := o, gridDated := g })
          events := [.scheduleChange] } := by
  rw [← tooLate_iff] at hl
  simp only [armCivil, if_neg hl, hp]

/-- What a civil arm request comes to at a free place (R19). -/
theorem armCivil_free {f : Int} {x b : Second} {sched : Schedule} (hl : ¬ Late sched x b)
    (hp : pendingAt sched.entries .civil b = none) (k : LeapKind) (o : SourceNo) (g : Bool) :
    armCivil f x sched b k o g =
      if (pendingCivil sched.entries).isSome then refuseRequest sched .full
      else if civilOffsetBad k (priorAt sched .civil b) then refuseRequest sched .offsetLimit
      else acceptArm f x sched (newEntry b .civil (.leap k) 0 o g) := by
  rw [← tooLate_iff] at hl
  simp only [armCivil, if_neg hl, hp]

theorem armCivil_late {f : Int} {x b : Second} {sched : Schedule} (hl : Late sched x b) (k : LeapKind) (o : SourceNo)
    (g : Bool) : armCivil f x sched b k o g = refuseRequest sched .tooLate := by
  rw [← tooLate_iff] at hl
  simp only [armCivil, if_pos hl]

/-- The answers at the pending civil entry of the boundary, by its state and kind (R19 step 2). -/
theorem armCivil_answer_at {f : Int} {x : Second} {sched : Schedule} (hc : CapacityLaw sched.entries) {e : Entry}
    (hl : ¬ Late sched x e.boundary) (he : PendingCivil sched.entries e) (k : LeapKind) (o : SourceNo) (g : Bool) :
    let answer := (armCivil f x sched e.boundary k o g).answer
    let prior := priorAt sched .civil e.boundary
    (e.state = .frozen → answer = .frozen) ∧ (e.state = .armed → e.kind = .leap k → answer = .unchanged) ∧
      (e.state = .armed → e.kind ≠ .leap k →
        (CivilBad k prior → answer = .offsetLimit) ∧ (¬ CivilBad k prior → answer = .replacedArmed)) := by
  dsimp only
  rw [armCivil_at hl (pendingAt_civil hc he)]
  refine ⟨fun hf => ?_, fun ha hk => ?_, fun ha hk => ⟨fun hb => ?_, fun hb => ?_⟩⟩
  · simp [hf]
  · simp [ha, hk]
  · simp [ha, hk, (civilOffsetBad_iff _ _).mpr hb]
  · rw [← civilOffsetBad_iff] at hb
    simp [ha, hk, hb]

theorem armCivil_answer_full {f : Int} {x b : Second} {sched : Schedule} (hc : CapacityLaw sched.entries) {e : Entry}
    (hl : ¬ Late sched x b) (he : PendingCivil sched.entries e) (hb : e.boundary ≠ b) (k : LeapKind) (o : SourceNo)
    (g : Bool) : (armCivil f x sched b k o g).answer = .full := by
  rw [armCivil_free hl (pendingAt_civil_other hc he hb), pendingCivil_eq_some hc he]
  rfl

/-- Without a pending civil entry only the offset is left to check (R19 step 4). -/
theorem armCivil_none {f : Int} {x b : Second} {sched : Schedule} (hl : ¬ Late sched x b)
    (hn : ∀ e, ¬ PendingCivil sched.entries e) (k : LeapKind) (o : SourceNo) (g : Bool) :
    armCivil f x sched b k o g =
      if civilOffsetBad k (priorAt sched .civil b) then refuseRequest sched .offsetLimit
      else acceptArm f x sched (newEntry b .civil (.leap k) 0 o g) := by
  have hp : pendingAt sched.entries .civil b = none :=
    pendingAt_eq_none.mpr fun e hm hp hs => absurd ⟨hm, hs, hp⟩ (hn e)
  rw [armCivil_free hl hp, pendingCivil_eq_none.mpr hn]
  rfl

theorem armCivil_answer_none {f : Int} {x b : Second} {sched : Schedule} (hl : ¬ Late sched x b)
    (hn : ∀ e, ¬ PendingCivil sched.entries e) (k : LeapKind) (o : SourceNo) (g : Bool) :
    let answer := (armCivil f x sched b k o g).answer
    let prior := priorAt sched .civil b
    (CivilBad k prior → answer = .offsetLimit) ∧
      (¬ CivilBad k prior → WithinLead f x b → answer = .armedFrozen) ∧
      (¬ CivilBad k prior → ¬ WithinLead f x b → answer = .armed) := by
  dsimp only
  rw [armCivil_none hl hn]
  refine ⟨fun hb => ?_, fun hb hw => ?_, fun hb hw => ?_⟩ <;> rw [← civilOffsetBad_iff] at hb
  · rw [if_pos hb]; rfl
  · rw [if_neg hb]; exact acceptArm_answer_pos hw sched
  · rw [if_neg hb]; exact acceptArm_answer_neg hw sched

/-! ## Zone arm requests -/

/-- The answer to a zone arm request whose checks of the shift come last: by the first of them that fails, and `ok` when
all pass (R20 steps 4 to 7). -/
def ZoneChecked (others : List Entry) (prior : Int) (b : Second) (new : Int) (answer ok : ListAnswer) : Prop :=
  let later := nextLater others b
  let outside := new < -64800 ∨ 64800 < new
  let close := ∃ e ∈ others, |(b.toNat : Int) - e.boundary.toNat| < 86400
  let same := new = prior ∨ ∃ e, later = some e ∧ e.new = new
  let large := 43200 < |new - prior| ∨ ∃ e, later = some e ∧ 43200 < |e.new - new|
  (outside → answer = .offsetLimit) ∧ (¬ outside → close → answer = .tooClose) ∧
    (¬ outside → ¬ close → same → answer = .noChange) ∧
    (¬ outside → ¬ close → ¬ same → large → answer = .shiftTooLarge) ∧
    (¬ outside → ¬ close → ¬ same → ¬ large → answer = ok)

theorem zoneChecks_spec (sched : Schedule) (k : ZoneNo) (b : Second) (new : Int) (ok : ListAnswer) :
    ZoneChecked (otherZone sched k b) (priorAt sched (.zone k) b) b new ((zoneChecks sched k b new).getD ok) ok := by
  have houtside : (new < -Config.zoneLimit ∨ Config.zoneLimit < new) ↔ (new < -64800 ∨ 64800 < new) := Iff.rfl
  have hclose : ((otherZone sched k b).any fun e => decide (|(b.toNat : Int) - e.boundary.toNat| < Config.zoneSpacing)) =
      true ↔ ∃ e ∈ otherZone sched k b, |(b.toNat : Int) - e.boundary.toNat| < 86400 := by
    simp only [List.any_eq_true, decide_eq_true_eq]; rfl
  have hsame : (nextLater (otherZone sched k b) b).any (fun e => e.new == new) = true ↔
      ∃ e, nextLater (otherZone sched k b) b = some e ∧ e.new = new := by simp only [Option.any_eq_true, beq_iff_eq]
  have hlarge : (Config.shiftLimit < |new - priorAt sched (.zone k) b| ∨
        (nextLater (otherZone sched k b) b).any (fun e => decide (Config.shiftLimit < |e.new - new|)) = true) ↔
      (43200 < |new - priorAt sched (.zone k) b| ∨
        ∃ e, nextLater (otherZone sched k b) b = some e ∧ 43200 < |e.new - new|) := by
    simp only [Option.any_eq_true, decide_eq_true_eq]; rfl
  unfold ZoneChecked zoneChecks
  dsimp only
  rw [← houtside, ← hclose, ← hsame, ← hlarge]
  refine ⟨fun h => ?_, fun h1 h => ?_, fun h1 h2 h => ?_, fun h1 h2 h3 h => ?_, fun h1 h2 h3 h => ?_⟩
  · rw [if_pos h]; rfl
  · rw [if_neg h1, if_pos h]; rfl
  · rw [if_neg h1, if_neg h2, if_pos h]; rfl
  · rw [if_neg h1, if_neg h2, if_neg h3, if_pos h]; rfl
  · rw [if_neg h1, if_neg h2, if_neg h3, if_neg h]; rfl

/-- A failed check of the shift is one of four (R20). -/
theorem zoneChecks_some {sched : Schedule} {k : ZoneNo} {b : Second} {new : Int} {a : ListAnswer}
    (h : zoneChecks sched k b new = some a) : a ∈ [.offsetLimit, .tooClose, .noChange, .shiftTooLarge] := by
  unfold zoneChecks at h
  dsimp only at h
  split_ifs at h <;> cases h <;> decide

theorem armZone_late {f : Int} {x b : Second} {sched : Schedule} (hl : Late sched x b) (k : ZoneNo) (new : Int)
    (o : SourceNo) : armZone f x sched k b new o = refuseRequest sched .tooLate := by
  rw [← tooLate_iff] at hl
  simp only [armZone, if_pos hl]

/-- What a zone arm request comes to at a pending entry of its boundary (R20). -/
theorem armZone_at {f : Int} {x b : Second} {sched : Schedule} {k : ZoneNo} {e : Entry} (hl : ¬ Late sched x b)
    (hp : pendingAt sched.entries (.zone k) b = some e) (new : Int) (o : SourceNo) :
    armZone f x sched k b new o =
      if e.state = .frozen then refuseRequest sched .frozen
      else if e.new = new then refuseRequest sched .unchanged
      else ((zoneChecks sched k b new).map (refuseRequest sched)).getD
        { answer := .replacedArmed
          sched := rewritePending sched (.zone k) b (fun e => { e with new := new, origin := o })
          events := [.scheduleChange] } := by
  rw [← tooLate_iff] at hl
  simp only [armZone, if_neg hl, hp]
  cases zoneChecks sched k b new <;> rfl

/-- What a zone arm request comes to at a free place (R20). -/
theorem armZone_free {f : Int} {x b : Second} {sched : Schedule} {k : ZoneNo} (hl : ¬ Late sched x b)
    (hp : pendingAt sched.entries (.zone k) b = none) (new : Int) (o : SourceNo) :
    armZone f x sched k b new o =
      if Config.pendingZoneLimit ≤ pendingZones sched.entries then refuseRequest sched .full
      else ((zoneChecks sched k b new).map (refuseRequest sched)).getD
        (acceptArm f x sched (newEntry b (.zone k) .zoneShift new o false)) := by
  rw [← tooLate_iff] at hl
  simp only [armZone, if_neg hl, hp]
  cases zoneChecks sched k b new <;> rfl

theorem answer_map_refuse (c : Option ListAnswer) (sched : Schedule) (v : Verdict) :
    ((c.map (refuseRequest sched)).getD v).answer = c.getD v.answer := by cases c <;> rfl

/-- The answers at a pending entry of the boundary (R20 step 2). -/
theorem armZone_answer_at {f : Int} {x b : Second} {sched : Schedule} {k : ZoneNo} {e : Entry} (hl : ¬ Late sched x b)
    (hp : pendingAt sched.entries (.zone k) b = some e) (new : Int) (o : SourceNo) :
    let answer := (armZone f x sched k b new o).answer
    (e.state = .frozen → answer = .frozen) ∧ (e.state = .armed → e.new = new → answer = .unchanged) ∧
      (e.state = .armed → e.new ≠ new →
        ZoneChecked (otherZone sched k b) (priorAt sched (.zone k) b) b new answer .replacedArmed) := by
  dsimp only
  rw [armZone_at hl hp]
  refine ⟨fun hf => ?_, fun ha hn => ?_, fun ha hn => ?_⟩
  · simp [hf]
  · simp [ha, hn]
  · rw [if_neg (by rw [ha]; decide), if_neg hn, answer_map_refuse]
    exact zoneChecks_spec sched k b new .replacedArmed

/-- The answers at a free place (R20 step 3). -/
theorem armZone_answer_free {f : Int} {x b : Second} {sched : Schedule} {k : ZoneNo} (hl : ¬ Late sched x b)
    (hp : pendingAt sched.entries (.zone k) b = none) (new : Int) (o : SourceNo) :
    let answer := (armZone f x sched k b new o).answer
    (Config.pendingZoneLimit ≤ pendingZones sched.entries → answer = .full) ∧
      (pendingZones sched.entries < Config.pendingZoneLimit → WithinLead f x b →
        ZoneChecked (otherZone sched k b) (priorAt sched (.zone k) b) b new answer .armedFrozen) ∧
      (pendingZones sched.entries < Config.pendingZoneLimit → ¬ WithinLead f x b →
        ZoneChecked (otherZone sched k b) (priorAt sched (.zone k) b) b new answer .armed) := by
  dsimp only
  rw [armZone_free hl hp]
  refine ⟨fun h => by rw [if_pos h]; rfl, fun h hw => ?_, fun h hw => ?_⟩ <;>
    rw [if_neg (Nat.not_le.mpr h), answer_map_refuse]
  · rw [acceptArm_answer_pos hw]; exact zoneChecks_spec sched k b new .armedFrozen
  · rw [acceptArm_answer_neg hw]; exact zoneChecks_spec sched k b new .armed

/-! ## Replace and withdraw requests -/

/-- Answers without a pending civil entry (R22, R23). -/
theorem civil_answers_none {f : Int} {x b : Second} {sched : Schedule} (h : pendingCivil sched.entries = none)
    (k : LeapKind) (o : SourceNo) (g : Bool) : (replaceCivil f x sched b k o g).answer = .noSuchEntry ∧
      (withdrawCivil sched).answer = .noSuchEntry := by
  simp only [replaceCivil, withdrawCivil, h, refuseRequest_answer, and_self]

theorem withdrawCivil_some {sched : Schedule} {e : Entry} (h : pendingCivil sched.entries = some e) :
    withdrawCivil sched =
      if e.state = .frozen then refuseRequest sched .frozen
      else
        { answer := .withdrawn
          sched := sched.withEntries .civil (withoutPendingCivil sched.entries)
          events := [.scheduleChange] } := by
  simp only [withdrawCivil, h]

/-- What a replace request comes to with a pending civil entry (R22). -/
theorem replaceCivil_some {sched : Schedule} {e : Entry} (h : pendingCivil sched.entries = some e) (f : Int)
    (x b : Second) (k : LeapKind) (o : SourceNo) (g : Bool) :
    replaceCivil f x sched b k o g =
      if e.state = .frozen then refuseRequest sched .frozen
      else if e.boundary = b ∧ e.kind = .leap k then refuseRequest sched .unchanged
      else if tooLate sched x b then refuseRequest sched .tooLate
      else if civilOffsetBad k (priorAt { sched with entries := withoutPendingCivil sched.entries } .civil b) then
        refuseRequest sched .offsetLimit
      else
        { answer := if entryStateFor f x b = .frozen then .replacedFrozen else .replacedArmed
          sched := sched.withEntries .civil (insertEntry
            { e with boundary := b, kind := .leap k, origin := o, gridDated := g, state := entryStateFor f x b }
            (withoutPendingCivil sched.entries))
          events := .scheduleChange :: freezeEvents (entryStateFor f x b) } := by
  simp only [replaceCivil, h]

/-- Answers at a pending civil entry, to a replace and to a withdraw request (R22, R23). -/
theorem civil_answers_some {sched : Schedule} {e : Entry} (h : pendingCivil sched.entries = some e) (f : Int)
    (x b : Second) (k : LeapKind) (o : SourceNo) (g : Bool) :
    let answer := (replaceCivil f x sched b k o g).answer
    let prior := priorAt { sched with entries := withoutPendingCivil sched.entries } .civil b
    (e.state = .frozen → answer = .frozen ∧ (withdrawCivil sched).answer = .frozen) ∧
      (e.state = .armed → (withdrawCivil sched).answer = .withdrawn ∧
        (e.boundary = b ∧ e.kind = .leap k → answer = .unchanged) ∧
        (¬ (e.boundary = b ∧ e.kind = .leap k) →
          (Late sched x b → answer = .tooLate) ∧
          (¬ Late sched x b → CivilBad k prior → answer = .offsetLimit) ∧
          (¬ Late sched x b → ¬ CivilBad k prior → WithinLead f x b → answer = .replacedFrozen) ∧
          (¬ Late sched x b → ¬ CivilBad k prior → ¬ WithinLead f x b → answer = .replacedArmed))) := by
  dsimp only
  rw [replaceCivil_some h, withdrawCivil_some h]
  refine ⟨fun hf => by simp [hf], fun ha => ?_⟩
  have hf : e.state ≠ .frozen := by rw [ha]; decide
  rw [if_neg hf, if_neg hf]
  refine ⟨rfl, fun hk => by rw [if_pos hk]; rfl, fun hk => ?_⟩
  rw [if_neg hk, ← tooLate_iff, ← civilOffsetBad_iff]
  refine ⟨fun hl => by rw [if_pos hl]; rfl, fun hl hb => by rw [if_neg hl, if_pos hb]; rfl, fun hl hb hw => ?_,
    fun hl hb hw => ?_⟩ <;> rw [if_neg hl, if_neg hb]
  · simp only [entryStateFor_pos hw, if_true]
  · simp only [entryStateFor_neg hw, reduceCtorEq, if_false]

theorem withdrawZone_none {sched : Schedule} {k : ZoneNo} {b : Second}
    (h : (sched.entries.find? fun e => e.scale == .zone k && e.boundary == b) = none) :
    withdrawZone sched k b = refuseRequest sched .noSuchEntry := by
  simp only [withdrawZone, h]

/-- What a zone withdraw request comes to at an entry (R23). -/
theorem withdrawZone_some {sched : Schedule} {k : ZoneNo} {b : Second} {e : Entry}
    (h : (sched.entries.find? fun e => e.scale == .zone k && e.boundary == b) = some e) :
    withdrawZone sched k b =
      let later := sched.entries.find? fun g => g.scale == .zone k && decide (b.toNat < g.boundary.toNat)
      if e.state = .applied then refuseRequest sched .tooLate
      else if e.state = .frozen then refuseRequest sched .frozen
      else if ∃ g, later = some g ∧ g.new = e.prior then refuseRequest sched .noChange
      else if ∃ g, later = some g ∧ 43200 < |g.new - e.prior| then refuseRequest sched .shiftTooLarge
      else
        { answer := .withdrawn
          sched := sched.withEntries (.zone k) (sched.entries.filter fun g => !(g.scale == .zone k && g.boundary == b))
          events := [.scheduleChange] } := by
  simp only [withdrawZone, h, Option.any_eq_true, beq_iff_eq, decide_eq_true_eq]
  rfl

/-- The answers to a zone withdraw request at an entry (R23). -/
theorem withdrawZone_answers {sched : Schedule} {k : ZoneNo} {b : Second} {e : Entry}
    (h : (sched.entries.find? fun e => e.scale == .zone k && e.boundary == b) = some e) :
    let later := sched.entries.find? fun g => g.scale == .zone k && decide (b.toNat < g.boundary.toNat)
    let answer := (withdrawZone sched k b).answer
    (e.state = .applied → answer = .tooLate) ∧ (e.state = .frozen → answer = .frozen) ∧
      (e.state = .armed →
        ((∃ g, later = some g ∧ g.new = e.prior) → answer = .noChange) ∧
        ((∃ g, later = some g ∧ g.new ≠ e.prior ∧ 43200 < |g.new - e.prior|) → answer = .shiftTooLarge) ∧
        ((∀ g, later = some g → g.new ≠ e.prior ∧ |g.new - e.prior| ≤ 43200) → answer = .withdrawn)) := by
  dsimp only
  rw [withdrawZone_some h]
  dsimp only
  refine ⟨fun ha => by rw [if_pos ha]; rfl, fun hf => by simp [hf], fun ha => ?_⟩
  rw [if_neg (by rw [ha]; decide), if_neg (by rw [ha]; decide)]
  refine ⟨fun hn => by rw [if_pos hn]; rfl, fun hs => ?_, fun hok => ?_⟩
  · obtain ⟨g, hg, hne, hlt⟩ := hs
    rw [if_neg (by rw [hg]; simpa using hne), if_pos ⟨g, hg, hlt⟩]
    rfl
  · rw [if_neg fun ⟨g, hg, hn⟩ => (hok g hg).1 hn, if_neg fun ⟨g, hg, hn⟩ => absurd (hok g hg).2 (by omega)]

/-! ## Refusals change nothing -/

/-- The answers that accept a request. -/
def Accepts (a : ListAnswer) : Prop :=
  a = .armed ∨ a = .armedFrozen ∨ a = .replacedArmed ∨ a = .replacedFrozen ∨ a = .withdrawn

/-- A verdict that accepts raises SCHEDULE-CHANGE, and any other leaves the list as it was (R17). -/
def Verdict.Honest (sched : Schedule) (v : Verdict) : Prop :=
  (Accepts v.answer → .scheduleChange ∈ v.events) ∧ (¬ Accepts v.answer → v.sched = sched ∧ v.events = [])

theorem honest_refuse (sched : Schedule) (a : ListAnswer) (h : ¬ Accepts a) : (refuseRequest sched a).Honest sched :=
  ⟨fun ha => absurd ha h, fun _ => ⟨rfl, rfl⟩⟩

theorem Verdict.Honest.of_accepts {sched : Schedule} {v : Verdict} (ha : Accepts v.answer)
    (he : .scheduleChange ∈ v.events) : v.Honest sched :=
  ⟨fun _ => he, fun hn => absurd ha hn⟩

theorem acceptArm_honest (f : Int) (x : Second) (sched : Schedule) (e : Entry) :
    (acceptArm f x sched e).Honest sched := by
  refine .of_accepts ?_ (by simp [acceptArm])
  by_cases h : WithinLead f x e.boundary
  · rw [acceptArm_answer_pos h]; exact .inr (.inl rfl)
  · rw [acceptArm_answer_neg h]; exact .inl rfl

theorem honest_map_refuse {c : Option ListAnswer} {sched : Schedule} {v : Verdict} (hc : ∀ a, c = some a → ¬ Accepts a)
    (hv : v.Honest sched) : ((c.map (refuseRequest sched)).getD v).Honest sched := by
  cases c with
  | none => exact hv
  | some a => exact honest_refuse sched a (hc a rfl)

theorem zoneChecks_refuse {sched : Schedule} {k : ZoneNo} {b : Second} {new : Int} (a : ListAnswer)
    (h : zoneChecks sched k b new = some a) : ¬ Accepts a := by
  have := zoneChecks_some h
  simp only [List.mem_cons, List.not_mem_nil, or_false] at this
  rcases this with rfl | rfl | rfl | rfl <;> simp [Accepts]

theorem armCivil_honest (f : Int) (x b : Second) (sched : Schedule) (k : LeapKind) (o : SourceNo) (g : Bool) :
    (armCivil f x sched b k o g).Honest sched := by
  by_cases hl : Late sched x b
  · rw [armCivil_late hl]; exact honest_refuse _ _ (by simp [Accepts])
  · match hp : pendingAt sched.entries .civil b with
    | some e =>
      rw [armCivil_at hl hp]
      split_ifs
      · exact honest_refuse _ _ (by simp [Accepts])
      · exact honest_refuse _ _ (by simp [Accepts])
      · exact honest_refuse _ _ (by simp [Accepts])
      · exact .of_accepts (by simp [Accepts]) (by simp)
    | none =>
      rw [armCivil_free hl hp]
      split_ifs
      · exact honest_refuse _ _ (by simp [Accepts])
      · exact honest_refuse _ _ (by simp [Accepts])
      · exact acceptArm_honest ..

theorem armZone_honest (f : Int) (x b : Second) (sched : Schedule) (k : ZoneNo) (new : Int) (o : SourceNo) :
    (armZone f x sched k b new o).Honest sched := by
  by_cases hl : Late sched x b
  · rw [armZone_late hl]; exact honest_refuse _ _ (by simp [Accepts])
  · match hp : pendingAt sched.entries (.zone k) b with
    | some e =>
      rw [armZone_at hl hp]
      split_ifs
      · exact honest_refuse _ _ (by simp [Accepts])
      · exact honest_refuse _ _ (by simp [Accepts])
      · exact honest_map_refuse zoneChecks_refuse (.of_accepts (by simp [Accepts]) (by simp))
    | none =>
      rw [armZone_free hl hp]
      split_ifs
      · exact honest_refuse _ _ (by simp [Accepts])
      · exact honest_map_refuse zoneChecks_refuse (acceptArm_honest ..)

theorem replaceCivil_honest (f : Int) (x b : Second) (sched : Schedule) (k : LeapKind) (o : SourceNo) (g : Bool) :
    (replaceCivil f x sched b k o g).Honest sched := by
  match hp : pendingCivil sched.entries with
  | none =>
    have : replaceCivil f x sched b k o g = refuseRequest sched .noSuchEntry := by simp only [replaceCivil, hp]
    rw [this]
    exact honest_refuse _ _ (by simp [Accepts])
  | some e =>
    rw [replaceCivil_some hp]
    split_ifs
    · exact honest_refuse _ _ (by simp [Accepts])
    · exact honest_refuse _ _ (by simp [Accepts])
    · exact honest_refuse _ _ (by simp [Accepts])
    · exact honest_refuse _ _ (by simp [Accepts])
    · exact .of_accepts (by simp [Accepts]) (by simp)
    · exact .of_accepts (by simp [Accepts]) (by simp)

theorem withdrawCivil_honest (sched : Schedule) : (withdrawCivil sched).Honest sched := by
  match hp : pendingCivil sched.entries with
  | none =>
    have : withdrawCivil sched = refuseRequest sched .noSuchEntry := by simp only [withdrawCivil, hp]
    rw [this]
    exact honest_refuse _ _ (by simp [Accepts])
  | some e =>
    rw [withdrawCivil_some hp]
    split_ifs
    · exact honest_refuse _ _ (by simp [Accepts])
    · exact .of_accepts (by simp [Accepts]) (by simp)

theorem withdrawZone_honest (sched : Schedule) (k : ZoneNo) (b : Second) : (withdrawZone sched k b).Honest sched := by
  match hp : sched.entries.find? fun e => e.scale == .zone k && e.boundary == b with
  | none => rw [withdrawZone_none hp]; exact honest_refuse _ _ (by simp [Accepts])
  | some e =>
    rw [withdrawZone_some hp]
    dsimp only
    split_ifs
    · exact honest_refuse _ _ (by simp [Accepts])
    · exact honest_refuse _ _ (by simp [Accepts])
    · exact honest_refuse _ _ (by simp [Accepts])
    · exact honest_refuse _ _ (by simp [Accepts])
    · exact .of_accepts (by simp [Accepts]) (by simp)

theorem judgeRequest_honest {s : State} {r : Request} {v : Verdict} (hv : judgeRequest s r = some v) :
    v.Honest s.list.sched := by
  cases r <;> simp only [judgeRequest, Option.some.injEq, reduceCtorEq] at hv <;> subst hv
  · exact armCivil_honest ..
  · exact armZone_honest ..
  · exact replaceCivil_honest ..
  · exact withdrawCivil_honest ..
  · exact withdrawZone_honest ..

/-! ## The statement's way of writing the lists -/

theorem zone_others_eq (sched : Schedule) (k : ZoneNo) (b : Second) :
    ((sched.entries.filter fun e => e.scale == .zone k).filter fun e => !(e.state != .applied && e.boundary == b)) =
      otherZone sched k b := by
  rw [List.filter_filter]
  exact List.filter_congr fun e _ => Bool.and_comm _ _

theorem zone_prior_eq (sched : Schedule) (k : ZoneNo) (b : Second) :
    ((((sched.entries.filter fun e => e.scale == .zone k).filter fun e => decide (e.boundary.toNat < b.toNat)).getLast?).map
      (·.new)).getD sched.base.zones[k] = priorAt sched (.zone k) b := by
  rw [priorAt_eq, List.filter_filter]
  refine congrArg (endOffset _) (List.filter_congr fun e _ => Bool.and_comm _ _)

theorem zone_here_eq (es : List Entry) (k : ZoneNo) (b : Second) :
    ((es.filter fun e => e.scale == .zone k).find? fun e => e.state != .applied && e.boundary == b) =
      pendingAt es (.zone k) b := by
  rw [List.find?_filter]
  refine congrArg (List.find? · es) (funext fun e => ?_)
  rw [Bool.decide_and, Bool.decide_eq_true, Bool.decide_eq_true, ← Bool.and_assoc,
    Bool.and_comm (e.scale == .zone k)]
  rfl

theorem civil_rest_prior_eq (sched : Schedule) (b : Second) :
    (((sched.entries.filter fun e => !(e.state != .applied && e.scale == .civil) && e.scale == .civil &&
      decide (e.boundary.toNat < b.toNat)).getLast?).map (·.new)).getD sched.base.civil =
      priorAt { sched with entries := withoutPendingCivil sched.entries } .civil b := by
  rw [priorAt_eq]
  unfold lowerPart withoutPendingCivil
  rw [List.filter_filter]
  refine congrArg (endOffset _) (List.filter_congr fun e _ => ?_)
  show (!(e.pending && _) && _ && _) = (_ && _ && !(e.pending && _))
  cases e.pending <;> cases e.scale == .civil <;> simp

/-- Settles O44: one lemma per request and outcome gives its answer, in the order of the checks. -/
theorem requestChecksRefuseWithoutChange : Obligations.RequestChecksRefuseWithoutChange := by
  refine ⟨fun f x b sched o => ?_, fun r s v hv => judgeRequest_honest hv⟩
  intro es late frozenAt bad
  refine ⟨?_, ?_, ?_, ?_⟩
  · intro k g hc prior answer pending
    have hp : priorAt sched .civil b = prior := priorAt_eq ..
    refine ⟨fun hl => ?_, fun hl e he hb => ?_, fun hl e he hb => ?_, fun hl hn => ?_⟩
    · exact congrArg Verdict.answer (armCivil_late hl k o g)
    · subst hb
      exact hp ▸ armCivil_answer_at hc hl he k o g
    · exact armCivil_answer_full hc hl he hb k o g
    · exact hp ▸ armCivil_answer_none hl hn k o g
  · intro k new zone here others prior later pending answer outside close same large checked
    have hchecked (ok : ListAnswer) :
        ZoneChecked (otherZone sched k b) (priorAt sched (.zone k) b) b new answer ok → checked ok := by
      rw [← zone_others_eq, ← zone_prior_eq]
      exact id
    refine ⟨fun hl => ?_, fun hl e he => ?_, fun hl hn => ?_⟩
    · exact congrArg Verdict.answer (armZone_late hl k new o)
    · obtain ⟨hfrozen, hunchanged, hok⟩ := armZone_answer_at hl ((zone_here_eq es k b).symm.trans he) new o (f := f)
      exact ⟨hfrozen, hunchanged, fun ha hne => hchecked _ (hok ha hne)⟩
    · obtain ⟨hfull, hin, hout⟩ := armZone_answer_free hl ((zone_here_eq es k b).symm.trans hn) new o (f := f)
      exact ⟨hfull, fun hp hw => hchecked _ (hin hp hw), fun hp hw => hchecked _ (hout hp hw)⟩
  · intro k g pending prior answer
    have hp : priorAt { sched with entries := withoutPendingCivil sched.entries } .civil b = prior :=
      (civil_rest_prior_eq sched b).symm
    exact ⟨fun hn => civil_answers_none hn k o g, fun e he => hp ▸ civil_answers_some he f x b k o g⟩
  · intro k found later answer
    exact ⟨fun hn => congrArg Verdict.answer (withdrawZone_none hn), fun e he => withdrawZone_answers he⟩

end Sys2Proof.Machine
end

section
/-! PROOFS. What the answer to a request adds to the requests on their way and to the events, and the state an accepted
request leaves (R16, R17, R98, R119). -/

namespace Sys2Proof.Machine

/-! ## What the requester of an answer adds -/

/-- The waiting requests stay, and requests on their way and events are added behind those there. -/
structure Grows (s t : State) : Prop where
  requests : t.list.requests = s.list.requests
  sending : s.list.sending <+: t.list.sending
  events : s.wires.events <+: t.wires.events

theorem Grows.refl (s : State) : Grows s s := ⟨rfl, List.prefix_rfl, List.prefix_rfl⟩

theorem Grows.trans {s t u : State} (h : Grows s t) (k : Grows t u) : Grows s u :=
  ⟨k.requests.trans h.requests, h.sending.trans k.sending, h.events.trans k.events⟩

theorem raise_grows (es : List Event) (s : State) : Grows s (raise es s) :=
  ⟨rfl, List.prefix_rfl, List.prefix_append _ _⟩

theorem ask_grows (q : Query) (s : State) : Grows s (ask q s) := ⟨rfl, List.prefix_rfl, List.prefix_rfl⟩

theorem request_grows (r : Request) (who : Asker) (s : State) : Grows s (request r who s) :=
  ⟨rfl, List.prefix_append _ _, List.prefix_rfl⟩

theorem setIntake_grows (s : State) (x : Intake) : Grows s (s.setIntake x) := ⟨rfl, List.prefix_rfl, List.prefix_rfl⟩

theorem setElection_grows (s : State) (x : Election) : Grows s (s.setElection x) := ⟨rfl, List.prefix_rfl, List.prefix_rfl⟩

theorem updSource_grows (n : SourceNo) (f : Source → Source) (s : State) : Grows s (updSource n f s) :=
  setIntake_grows s _

theorem dispose_grows (n : SourceNo) (o : DispositionOutcome) (q : BitVec 16) (a : Option ListAnswer) (s : State) :
    Grows s (dispose n o q a s) := updSource_grows n _ s

theorem sourceFault_grows (n : SourceNo) (f : SourceFlag) (s : State) : Grows s (sourceFault n f s) :=
  (updSource_grows n _ s).trans (raise_grows _ _)

theorem hear_grows (n : SourceNo) (a : Second) (s : State) : Grows s (hear n a s) := by
  unfold hear
  dsimp only
  split <;> exact ⟨rfl, List.prefix_rfl, List.prefix_rfl⟩

theorem zoneSteps_grows (n : SourceNo) (q : BitVec 16) (a : Second) (c : Content) (s : State) :
    Grows s (zoneSteps n q a c s) := by
  unfold zoneSteps
  dsimp only
  split
  · exact (dispose_grows ..).trans (setIntake_grows ..)
  · refine (updSource_grows .. : Grows s (count n c false a s)).trans ?_
    split
    · split
      · exact ((updSource_grows ..).trans (setIntake_grows ..)).trans (request_grows ..)
      · exact (updSource_grows ..).trans (setIntake_grows ..)
    · exact (dispose_grows ..).trans (setIntake_grows ..)

theorem handleRecord_grows (n : SourceNo) (r : Record) (s : State) : Grows s (handleRecord n r s) := by
  unfold handleRecord
  dsimp only
  split
  · exact (sourceFault_grows ..).trans (dispose_grows ..)
  · exact ((hear_grows ..).trans (updSource_grows ..)).trans (dispose_grows ..)
  · exact ((hear_grows ..).trans (setIntake_grows ..)).trans (ask_grows ..)
  · exact (hear_grows ..).trans (zoneSteps_grows ..)

theorem takeRecord_grows (s : State) : Grows s (takeRecord s) := by
  unfold takeRecord
  split
  · split
    · exact .refl s
    · split
      · exact .refl s
      · exact (updSource_grows ..).trans (handleRecord_grows ..)
  · exact .refl s

theorem takeRecords_grows (k : Nat) (s : State) : Grows s (takeRecords k s) := by
  induction k generalizing s with
  | zero => exact .refl s
  | succ k ih => exact (takeRecord_grows s).trans (ih _)

theorem recordAnswer_grows (n : SourceNo) (q : BitVec 16) (a : ListAnswer) (s : State) :
    Grows s (recordAnswer n q a s) := by
  unfold recordAnswer
  split
  · exact dispose_grows ..
  · exact (dispose_grows ..).trans (raise_grows ..)

theorem qualifierAnswer_grows (a : ListAnswer) (s : State) : Grows s (qualifierAnswer a s) := by
  unfold qualifierAnswer
  split
  · exact ((setIntake_grows s _).trans (recordAnswer_grows ..)).trans (takeRecords_grows ..)
  · exact .refl s

theorem updateIndication_grows (s : State) : Grows s (updateIndication s) := by
  unfold updateIndication
  dsimp only
  split
  · exact (setElection_grows ..).trans (raise_grows ..)
  · exact setElection_grows ..

theorem startRun_grows (s : State) : Grows s (startRun s) := by
  unfold startRun
  dsimp only
  refine (updateIndication_grows s).trans ?_
  split
  · exact setElection_grows ..
  · split
    · exact .refl _
    · exact (setElection_grows ..).trans (ask_grows ..)

theorem endRun_grows (s : State) : Grows s (endRun s) := by
  unfold endRun
  dsimp only
  split
  · exact (setElection_grows ..).trans (startRun_grows _)
  · exact setElection_grows ..

theorem electionAnswer_grows (a : ListAnswer) (s : State) : Grows s (electionAnswer a s) := by
  unfold electionAnswer
  split
  · split
    · exact (raise_grows ..).trans (endRun_grows _)
    · exact endRun_grows _
  · exact .refl s

/-- The requester of an answer adds to the requests on their way and to the events, and touches no other request. -/
theorem deliverAnswer_grows (who : Asker) (a : ListAnswer) (s : State) : Grows s (deliverAnswer who a s) := by
  unfold deliverAnswer
  split
  · exact qualifierAnswer_grows _ _
  · exact electionAnswer_grows _ _
  · exact .refl s

/-! ## The state a judged request leaves -/

/-- A judged request replaces the schedule by its verdict's and raises its events; every other part of the list, the
supervisor, the access path and the status unit stay (R16, R17). -/
structure Took (s t : State) (rest : List WaitingRequest) (v : Verdict) : Prop where
  sched : t.list.sched = v.sched
  claims : t.list.claims = []
  coming : t.list.coming = s.list.coming
  requests : t.list.requests = s.list.requests.tail
  sent : ∃ new, t.list.requests ++ t.list.sending = rest ++ new
  listSecond : t.list.listSecond = s.list.listSecond
  sup : t.sup = s.sup
  path : t.path = s.path
  status : t.status = s.status
  events : ∃ more, t.wires.events = s.wires.events ++ v.events ++ more

theorem handled_waiting {s : State} {q : WaitingRequest} {rest : List WaitingRequest} (v : Verdict)
    (hq : s.list.requests ++ s.list.sending = q :: rest) :
    (s.handled rest v).list.requests ++ (s.handled rest v).list.sending = rest := by
  show s.list.requests.tail ++ (if s.list.requests = [] then rest else s.list.sending) = rest
  match hr : s.list.requests with
  | [] => rfl
  | p :: ps =>
    rw [hr] at hq
    exact (List.cons.inj hq).2

theorem exec_request_took {s : State} {r : Request} {who : Asker} {rest : List WaitingRequest} {v : Verdict}
    {row : RequestRow} (hc : s.list.claims = [])
    (hq : s.list.requests ++ s.list.sending = { request := r, asker := who } :: rest) (hrow : rowOf r = some row)
    (hv : judgeRequest s r = some v) : ∃ t, exec row.instr s = .next t ∧ Took s t rest v := by
  have hframe := deliverAnswer_inner who v.answer (s.handled rest v)
  have hgrows := deliverAnswer_grows who v.answer (s.handled rest v)
  refine ⟨_, exec_request hc hq hrow hv, hframe.sched, hframe.claims.trans hc, hframe.coming, hgrows.requests, ?_,
    hframe.listSecond, hframe.sup, hframe.path, hframe.status, ?_⟩
  · obtain ⟨new, hnew⟩ := hgrows.sending
    refine ⟨new, ?_⟩
    rw [hgrows.requests, ← hnew, ← List.append_assoc, handled_waiting v hq]
  · obtain ⟨more, hmore⟩ := hgrows.events
    exact ⟨more, hmore.symm⟩

end Sys2Proof.Machine
end

section
/-! PROOFS. What an accepted request does to the entries of the list (R3, R8, R9, R18 to R25). -/

namespace Sys2Proof.Machine

/-! ## Prior offsets recomputed behind a changed place -/

/-- Entries behind a place, the first with a new prior offset (R24). -/
def rehead (r : Int) : List Entry → List Entry
  | [] => []
  | e :: es => { e with prior := r } :: es

/-- Pending entries of a zone behind a new offset: only the first takes another prior offset (R24). -/
theorem reprior_eq_rehead {sc : Scale} {r r' : Int} {U : List Entry} (hc : OffsetChain r' U)
    (hs : ∀ e ∈ U, e.scale = sc ∧ e.pending = true ∧ e.kind = .zoneShift) : reprior sc r U = rehead r U := by
  rw [reprior_zone_tail hc hs]
  cases U <;> rfl

/-- Behind a chained run, a pending entry takes the offset after the run, and the entries behind it follow (R24). -/
theorem reprior_place {sc : Scale} {r : Int} {L : List Entry} (hc : OffsetChain r L) (hs : ∀ e ∈ L, e.scale = sc)
    {e : Entry} (he : e.scale = sc) (hp : e.isApplied = false) (U : List Entry) :
    reprior sc r (L ++ e :: U) = L ++ { e with prior := endOffset r L, new := e.kind.apply (endOffset r L) e.new } ::
      reprior sc (e.kind.apply (endOffset r L) e.new) U := by
  rw [reprior_chained _ hc hs, reprior_pending he hp]

theorem reprior_length (sc : Scale) (r : Int) (es : List Entry) : (reprior sc r es).length = es.length :=
  (reprior_cores sc r es).length_eq.symm

theorem insertEntry_length (e : Entry) (es : List Entry) : (insertEntry e es).length = es.length + 1 :=
  (insertEntry_perm e es).length_eq

/-- Lists with the same entries scale by scale have the same entries. -/
theorem mem_congr_of_scales {es fs : List Entry} (h : ∀ sc e, e ∈ ofScale sc es ↔ e ∈ ofScale sc fs) (e : Entry) :
    e ∈ es ↔ e ∈ fs := by
  have := h e.scale e
  simpa [mem_ofScale] using this

theorem entryStateFor_pending (f : Int) (x b : Second) : entryStateFor f x b ≠ .applied := by
  unfold entryStateFor
  split <;> decide

/-! ## An entry put at a free place -/

/-- The entries of a scale after a pending entry is put at a free place: those below, the entry with the offset before it,
and those above recomputed (R5, R24). -/
theorem ofScale_placed {sched : Schedule} {e : Entry} (ho : OrderLaw sched.entries)
    (hfree : ∀ f ∈ sched.entries, ¬ (e.boundary = f.boundary ∧ e.scale = f.scale)) (hp : e.isApplied = false)
    (hc : OffsetChain (sched.base.offset e.scale) (lowerPart e.scale e.boundary sched.entries)) :
    let prior := priorAt sched e.scale e.boundary
    let new := e.kind.apply prior e.new
    ofScale e.scale (sched.withEntries e.scale (insertEntry e sched.entries)).entries =
      lowerPart e.scale e.boundary sched.entries ++ { e with prior := prior, new := new } ::
        reprior e.scale new (upperPart e.scale e.boundary sched.entries) := by
  dsimp only
  rw [priorAt_eq]
  show ofScale e.scale (reprior e.scale _ (insertEntry e sched.entries)) = _
  rw [ofScale_reprior_same, ofScale_insertEntry ho hfree,
    reprior_place hc (fun f hf => (mem_lowerPart.mp hf).2.1) rfl hp]

theorem ofScale_placed_other {sched : Schedule} {e : Entry} {sc : Scale} (h : e.scale ≠ sc) :
    ofScale sc (sched.withEntries e.scale (insertEntry e sched.entries)).entries = ofScale sc sched.entries := by
  show ofScale sc (reprior e.scale _ (insertEntry e sched.entries)) = _
  rw [ofScale_reprior_other h, ofScale_insertEntry_other h]

theorem OffsetLaws.lowerChain {sched : Schedule} (h : OffsetLaws sched) (ho : OrderLaw sched.entries) (sc : Scale)
    (b : Second) : OffsetChain (sched.base.offset sc) (lowerPart sc b sched.entries) := by
  have hs := ((offsetLaws_iff.mp h) sc).2
  rw [ofScale_cut ho sc b] at hs
  exact hs.left.chain

/-- The entries above a boundary, all pending and of a zone where there is any, follow a new offset at their head. -/
theorem reprior_upper {sched : Schedule} (h : OffsetLaws sched) (ho : OrderLaw sched.entries) {sc : Scale} {b : Second}
    (hp : ∀ f ∈ upperPart sc b sched.entries, f.pending = true)
    (hciv : sc = .civil → upperPart sc b sched.entries = []) (r : Int) :
    reprior sc r (upperPart sc b sched.entries) = rehead r (upperPart sc b sched.entries) := by
  cases sc with
  | civil => rw [hciv rfl]; rfl
  | zone k =>
    have hs := ((offsetLaws_iff.mp h) (.zone k)).2
    rw [ofScale_cut ho (.zone k) b] at hs
    refine reprior_eq_rehead hs.right.right.chain fun f hf => ?_
    obtain ⟨hm, hsc, _⟩ := mem_upperPart.mp hf
    exact ⟨hsc, hp f hf, kindFits_zone hsc (h.kinds f hm)⟩

/-- The list after a pending entry is put at a free place: the entry is there, every other stays, and the next later entry
of its scale takes the new offset as its prior offset (R5, R24). -/
theorem placed_entries {sched : Schedule} (h : OffsetLaws sched) (ho : OrderLaw sched.entries) {e : Entry}
    (hfree : ∀ f ∈ sched.entries, ¬ (e.boundary = f.boundary ∧ e.scale = f.scale)) (hp : e.isApplied = false)
    (hup : ∀ f ∈ upperPart e.scale e.boundary sched.entries, f.pending = true)
    (hciv : e.scale = .civil → upperPart e.scale e.boundary sched.entries = []) :
    let prior := priorAt sched e.scale e.boundary
    let new := e.kind.apply prior e.new
    let later := (upperPart e.scale e.boundary sched.entries).head?
    let after := (sched.withEntries e.scale (insertEntry e sched.entries)).entries
    { e with prior := prior, new := new } ∈ after ∧ after.length = sched.entries.length + 1 ∧
      (∀ f ∈ sched.entries, some f ≠ later → f ∈ after) ∧ ∀ f, later = some f → { f with prior := new } ∈ after := by
  intro prior new later after
  have hsplit : ofScale e.scale after = _ := ofScale_placed ho hfree hp (h.lowerChain ho _ _)
  rw [reprior_upper h ho hup hciv] at hsplit
  have hin (f : Entry) : f ∈ lowerPart e.scale e.boundary sched.entries ++ { e with prior := prior, new := new } ::
      rehead new (upperPart e.scale e.boundary sched.entries) → f ∈ after := fun hf =>
    (mem_ofScale.mp (hsplit ▸ hf)).1
  refine ⟨hin _ (by simp), (reprior_length ..).trans (insertEntry_length ..), fun f hf hl => ?_, fun f hl => hin _ ?_⟩
  · by_cases hs : e.scale = f.scale
    · have hm := mem_ofScale.mpr ⟨hf, hs.symm⟩
      have hat : f ∉ atPart e.scale e.boundary sched.entries := fun ha =>
        hfree f hf ⟨(mem_atPart.mp ha).2.2.symm, hs⟩
      rw [ofScale_cut ho e.scale e.boundary, List.mem_append, List.mem_append, or_iff_right hat] at hm
      refine hin f (List.mem_append.mpr (hm.imp_right fun hu => List.mem_cons_of_mem _ ?_))
      match hU : upperPart e.scale e.boundary sched.entries with
      | [] => rw [hU] at hu; cases hu
      | u :: us =>
        rw [hU] at hu
        have hl : some f ≠ some u := by simpa [later, hU] using hl
        exact List.mem_cons_of_mem _ ((List.mem_cons.mp hu).resolve_left fun hc => hl (congrArg some hc))
    · have hother : ofScale f.scale after = ofScale f.scale sched.entries := ofScale_placed_other hs
      have hm : f ∈ ofScale f.scale after := by rw [hother]; exact mem_ofScale.mpr ⟨hf, rfl⟩
      exact (mem_ofScale.mp hm).1
  · match hU : upperPart e.scale e.boundary sched.entries with
    | [] => simp [later, hU] at hl
    | u :: us =>
      obtain rfl : u = f := by simpa [later, hU] using hl
      simp [rehead]

/-! ## An accepted arm request -/

/-- What an accepted arm request makes of the list (R21, R24, R25). -/
theorem acceptArm_entries {f : Int} {x : Second} {sched : Schedule} {e : Entry} (h : OffsetLaws sched)
    (he : EntryLaws x sched.entries) (ha : ∀ g ∈ sched.entries, g.isApplied = true → g.boundary.toNat < e.boundary.toNat)
    (hfree : ∀ g ∈ sched.entries, ¬ (e.boundary = g.boundary ∧ e.scale = g.scale))
    (hciv : e.scale = .civil → upperPart e.scale e.boundary sched.entries = []) :
    let prior := priorAt sched e.scale e.boundary
    let new := e.kind.apply prior e.new
    let later := (upperPart e.scale e.boundary sched.entries).head?
    let kept := (discardIfFull sched).1.entries
    let after := (acceptArm f x sched e).sched.entries
    { e with prior := prior, new := new, state := entryStateFor f x e.boundary } ∈ after ∧
      after.length = kept.length + 1 ∧ (∀ g ∈ kept, some g ≠ later → g ∈ after) ∧
      ∀ g, later = some g → { g with prior := new } ∈ after := by
  obtain ⟨hde, _, hsub, _⟩ := discard_laws he
  obtain ⟨hprior, hupper⟩ := discard_at he ha e.scale
  dsimp only
  rw [← hprior, ← hupper]
  refine placed_entries (discard_offsetLaws h) hde.order (e := { e with state := entryStateFor f x e.boundary })
    (fun g hg => hfree g (hsub.subset hg)) (by simp [Entry.isApplied, entryStateFor_pending])
    (fun g hg => upper_pending ha g (hupper ▸ hg)) fun hs => ?_
  exact hupper.trans (hciv hs)

theorem discardIfFull_room {sched : Schedule} (h : sched.entries.length < 32) : discardIfFull sched = (sched, []) := by
  unfold discardIfFull
  split
  · rfl
  · exact if_neg (Nat.not_le.mpr h)

theorem not_late {sched : Schedule} {x b : Second} (hx : x.toNat < b.toNat)
    (ha : ∀ e ∈ sched.entries, e.state = .applied → e.boundary.toNat < b.toNat) : ¬ Late sched x b := by
  rintro (hb | ⟨e, he, hb⟩)
  · omega
  · have hm := List.mem_of_getLast? he
    simp only [List.mem_filter, Entry.isApplied, beq_iff_eq] at hm
    have := ha e hm.1 hm.2
    omega

theorem not_civilBad {k : LeapKind} {prior : Int} (hmax : (if k = .insert then prior + 1 else prior - 1) ≤ 32767)
    (hmin : -32768 ≤ if k = .insert then prior + 1 else prior - 1) : ¬ CivilBad k prior := by
  rintro (⟨rfl, hbad⟩ | ⟨rfl, hbad⟩)
  · exact absurd hmax (Int.not_le.mpr hbad)
  · exact absurd hmin (Int.not_le.mpr hbad)

theorem leap_apply (k : LeapKind) (prior own : Int) :
    (Kind.leap k).apply prior own = if k = .insert then prior + 1 else prior - 1 := by cases k <;> rfl

/-- A zone arm request that passes the checks of the shift (R20). -/
theorem zoneChecks_eq_none {sched : Schedule} {k : ZoneNo} {b : Second} {new : Int} (hr : ¬ (new < -64800 ∨ 64800 < new))
    (hclose : ∀ e ∈ otherZone sched k b, 86400 ≤ |(b.toNat : Int) - e.boundary.toNat|)
    (hprior : new ≠ priorAt sched (.zone k) b ∧ |new - priorAt sched (.zone k) b| ≤ 43200)
    (hlater : ∀ e, nextLater (otherZone sched k b) b = some e → e.new ≠ new ∧ |e.new - new| ≤ 43200) :
    zoneChecks sched k b new = none := by
  obtain ⟨_, _, _, _, hpass⟩ := zoneChecks_spec sched k b new .armed
  have hok := hpass hr (fun ⟨e, he, hlt⟩ => by have := hclose e he; omega)
    (fun hs => hs.elim hprior.1 fun ⟨e, he, hn⟩ => (hlater e he).1 hn)
    (fun hl => hl.elim (fun hp => by omega) fun ⟨e, he, hn⟩ => by have := (hlater e he).2; omega)
  match hz : zoneChecks sched k b new with
  | none => rfl
  | some a =>
    rw [hz] at hok
    exact absurd (.inl hok) (zoneChecks_refuse a hz)


theorem zone_later_eq (es : List Entry) (k : ZoneNo) (b : Second) :
    ((es.filter fun e => e.scale == .zone k).find? fun e => decide (b.toNat < e.boundary.toNat)) =
      (upperPart (.zone k) b es).head? := by
  rw [upperPart_head, List.find?_filter]
  refine congrArg (List.find? · es) (funext fun e => ?_)
  rw [Bool.decide_and, Bool.decide_eq_true, Bool.decide_eq_true]

/-- The state of a new entry, S being below its boundary (R21, R22). -/
theorem entryStateFor_eq {s : State} {b : Second} (h : s.list.listSecond.toNat < b.toNat) :
    entryStateFor (freezeLead s) s.list.listSecond b =
      if b.toNat - s.list.listSecond.toNat ≤ s.status.config.glob.freezeLead.toNat then .frozen else .armed := by
  refine if_congr ?_ rfl rfl
  unfold freezeLead
  omega

/-- The base record after a discard, field by field (R8, R9, R25). -/
theorem afterDiscard_eq (b : BaseRecord) (e : Entry) : b.afterDiscard e =
    { floor := e.boundary, floorEnd := max b.floorEnd (intervalEnd e)
      civil := if e.scale = .civil then e.new else b.civil
      zones := match e.scale with
        | .civil => b.zones
        | .zone k => b.zones.set k e.new } := by
  obtain ⟨_, sc, _⟩ := e
  cases sc <;> rfl

theorem freezeEvents_eq (st : EntryState) : freezeEvents st = if st = .frozen then [.freeze] else [] := rfl

/-- Settles O42: the verdict of the request is that of an accepted arm, which places the entry after the discard. -/
theorem acceptedArmInsertsTheEntry : Obligations.AcceptedArmInsertsTheEntry := by
  intro who rest b origin s hlist hoff hc hx ha es base st kept ends baseAfter inserts
  have happ : ∀ g ∈ es, g.isApplied = true → g.boundary.toNat < b.toNat :=
    fun g hg hga => ha g hg (by simpa [Entry.isApplied] using hga)
  have hl : ¬ Late s.list.sched s.list.listSecond b := not_late hx ha
  have hst : entryStateFor (freezeLead s) s.list.listSecond b = st := entryStateFor_eq hx
  have hdiscard : (discardIfFull s.list.sched).1.entries = kept ∧ (discardIfFull s.list.sched).1.base = baseAfter ∧
      (discardIfFull s.list.sched).2 = if es.length < 32 then [] else [.historyDiscard] := by
    by_cases hlen : es.length < 32
    · rw [discardIfFull_room hlen, if_pos hlen]
      exact ⟨(if_pos hlen).symm, (if_pos hlen).symm, rfl⟩
    · obtain ⟨e, others, hes⟩ := List.exists_cons_of_ne_nil fun h : es = [] => hlen (by rw [h]; decide)
      rw [discardIfFull_cons hes (Nat.not_lt.mp hlen), if_neg hlen]
      refine ⟨Eq.trans ?_ (if_neg hlen).symm, Eq.trans ?_ (if_neg hlen).symm, rfl⟩
      · rw [hes]; rfl
      · have hends : intervalEnd e = ends e := intervalEnd_eq e
        have hrecord := afterDiscard_eq base e
        rw [hends] at hrecord
        rw [hes]
        exact hrecord
  obtain ⟨hkept, hbase, hevents⟩ := hdiscard
  have key (r : Request) (e : Entry) (hb : e.boundary = b) (hrow : rowOf r = some .arm)
      (hq : s.list.requests ++ s.list.sending = { request := r, asker := who } :: rest)
      (hv : judgeRequest s r = some (acceptArm (freezeLead s) s.list.listSecond s.list.sched e))
      (hfree : ∀ g ∈ es, ¬ (e.boundary = g.boundary ∧ e.scale = g.scale))
      (hciv : e.scale = .civil → upperPart e.scale b es = []) :
      inserts { e with prior := priorAt s.list.sched e.scale b, new := e.kind.apply (priorAt s.list.sched e.scale b) e.new,
                       state := st } (upperPart e.scale b es).head? := by
    subst hb
    obtain ⟨t, ht, took⟩ := exec_request_took hc hq hrow hv
    obtain ⟨hin, hlen, hstay, hnext⟩ := acceptArm_entries hoff hlist.entryLaws happ hfree hciv (f := freezeLead s)
    rw [hst] at hin
    rw [hkept] at hlen hstay
    have hsched := took.sched
    obtain ⟨more, hmore⟩ := took.events
    refine ⟨t, ht, took.claims, took.coming, took.requests, took.sent, took.listSecond, took.sup, took.path, took.status,
      ?_, ?_, ?_, ?_, ?_, more, ?_⟩
    · rw [hsched]; exact hbase
    · rw [hsched]; exact hin
    · rw [hsched]; exact hlen
    · rw [hsched]; exact hstay
    · rw [hsched]; exact hnext
    · rw [hmore, ← freezeEvents_eq, ← hevents, ← hst]
      simp [acceptArm]
  refine ⟨?_, ?_⟩
  · intro k grid hq happlied prior new hmax hmin
    have hbelow : ∀ g ∈ es, g.scale = .civil → g.boundary.toNat < b.toNat := fun g hg hs => ha g hg (happlied g hg hs)
    have hfree : ∀ g ∈ es, ¬ (b = g.boundary ∧ .civil = g.scale) := fun g hg ⟨hgb, hgs⟩ =>
      absurd (hbelow g hg hgs.symm) (by rw [hgb]; omega)
    have hup : upperPart .civil b es = [] := List.eq_nil_iff_forall_not_mem.mpr fun g hg => by
      obtain ⟨hm, hs, hlt⟩ := mem_upperPart.mp hg
      have := hbelow g hm hs
      omega
    have hat : atPart .civil b es = [] := List.eq_nil_iff_forall_not_mem.mpr fun g hg => by
      obtain ⟨hm, hs, hgb⟩ := mem_atPart.mp hg
      exact hfree g hm ⟨hgb.symm, hs.symm⟩
    have hprior : priorAt s.list.sched .civil b = prior := by
      have hcut := ofScale_cut hlist.order .civil b
      rw [hup, hat, List.append_nil, List.append_nil] at hcut
      rw [priorAt_eq, ← hcut]
      rfl
    have hgood : ¬ CivilBad k prior := not_civilBad hmax hmin
    have hnone (e : Entry) : ¬ PendingCivil es e := fun ⟨hm, hs, hp⟩ => hp (happlied e hm hs)
    have hv : judgeRequest s (.armCivil b k origin grid) = some (acceptArm (freezeLead s) s.list.listSecond s.list.sched
        (newEntry b .civil (.leap k) 0 origin grid)) := by
      rw [← hprior, ← civilOffsetBad_iff] at hgood
      exact congrArg some ((armCivil_none hl hnone k origin grid).trans (if_neg hgood))
    have := key _ (newEntry b .civil (.leap k) 0 origin grid) rfl rfl hq hv hfree fun _ => hup
    have hnew : (Kind.leap k).apply prior 0 = new := leap_apply ..
    rw [show (newEntry b .civil (.leap k) 0 origin grid).scale = .civil from rfl, hprior, hup] at this
    exact hnew ▸ this
  · intro k new hq zone prior later hroom hmax hmin hfar hne hshift hnext
    have hprior : priorAt s.list.sched (.zone k) b = prior := (zone_prior_eq ..).symm
    have hlater : later = (upperPart (.zone k) b es).head? := zone_later_eq es k b
    have hzone : ∀ g ∈ es, g.scale = .zone k → 86400 ≤ |(b.toNat : Int) - g.boundary.toNat| :=
      fun g hg hs => hfar g (mem_ofScale.mpr ⟨hg, hs⟩)
    have hfree : ∀ g ∈ es, ¬ (b = g.boundary ∧ .zone k = g.scale) := fun g hg ⟨hgb, hgs⟩ => by
      have := hzone g hg hgs.symm
      rw [hgb, sub_self] at this
      exact absurd this (by decide)
    have hat : pendingAt es (.zone k) b = none :=
      pendingAt_eq_none.mpr fun g hg _ hs hgb => hfree g hg ⟨hgb.symm, hs.symm⟩
    have hchecks : zoneChecks s.list.sched k b new = none := by
      refine zoneChecks_eq_none (by omega) (fun g hg => ?_) (hprior ▸ ⟨hne, hshift⟩) fun g hg => hnext g ?_
      · simp only [otherZone, List.mem_filter, Bool.and_eq_true, beq_iff_eq] at hg
        exact hzone g hg.1 hg.2.1
      · rw [hlater, ← nextLater_eq, hg]
    have hv : judgeRequest s (.armZone k b new origin) = some (acceptArm (freezeLead s) s.list.listSecond s.list.sched
        (newEntry b (.zone k) .zoneShift new origin false)) := by
      have hroom : ¬ Config.pendingZoneLimit ≤ pendingZones es := Nat.not_le.mpr hroom
      refine congrArg some ((armZone_free hl hat new origin).trans ?_)
      rw [if_neg hroom, hchecks]
      rfl
    have := key _ (newEntry b (.zone k) .zoneShift new origin false) rfl rfl hq hv hfree (fun h => by cases h)
    rw [show (newEntry b (.zone k) .zoneShift new origin false).scale = .zone k from rfl, hprior, ← hlater] at this
    exact this

end Sys2Proof.Machine
end

section
/-! PROOFS. What an accepted replacement, withdrawal and rewrite in place do to the entries of the list (R17, R19 to R24). -/

namespace Sys2Proof.Machine

/-! ## A pending entry and those around it -/

theorem isApplied_eq_false {e : Entry} : e.isApplied = false ↔ e.state ≠ .applied := by simp [Entry.isApplied]

/-- An ordered list holds one entry of a scale at a boundary. -/
theorem OrderLaw.unique {es : List Entry} (ho : OrderLaw es) {e f : Entry} (he : e ∈ es) (hf : f ∈ es)
    (hb : f.boundary = e.boundary) (hs : f.scale = e.scale) : f = e := by
  have hm : f ∈ atPart e.scale e.boundary es := mem_atPart.mpr ⟨hf, hs, hb⟩
  rw [atPart_of_mem ho he] at hm
  exact List.mem_singleton.mp hm

/-- An APPLIED entry stands before every pending one (R7). -/
theorem EntryLaws.applied_precedes {x : Second} {es : List Entry} (h : EntryLaws x es) {e f : Entry} (he : e ∈ es)
    (hf : f ∈ es) (hea : e.isApplied = true) (hfa : f.isApplied = false) : e.precedes f = true := by
  have ho := h.order
  rw [applied_split h.appliedFirst] at ho
  refine (List.pairwise_append.mp ho).2.2 e (List.mem_filter.mpr ⟨he, hea⟩) f (List.mem_filter.mpr ⟨hf, ?_⟩)
  rw [pending_eq_not_isApplied, hfa]
  rfl

theorem EntryLaws.applied_below {x : Second} {es : List Entry} (h : EntryLaws x es) {e f : Entry} (he : e ∈ es)
    (hf : f ∈ es) (hea : e.isApplied = true) (hfa : f.isApplied = false) (hs : e.scale = f.scale) :
    e.boundary.toNat < f.boundary.toNat := by
  rcases precedes_iff.mp (h.applied_precedes he hf hea hfa) with hlt | ⟨_, hrank⟩
  · exact hlt
  · rw [hs] at hrank
    exact absurd hrank (Nat.lt_irrefl _)

/-- Behind a pending entry of a scale only pending ones follow, and none behind a civil one (R6, R7). -/
theorem upper_of_pending {x : Second} {es : List Entry} (h : EntryLaws x es) {e : Entry} (he : e ∈ es)
    (hp : e.isApplied = false) : (∀ f ∈ upperPart e.scale e.boundary es, f.pending = true) ∧
      (e.scale = .civil → upperPart e.scale e.boundary es = []) := by
  have hpend : ∀ f ∈ upperPart e.scale e.boundary es, f.isApplied = false := fun f hf => by
    obtain ⟨hm, hs, hlt⟩ := mem_upperPart.mp hf
    by_contra hn
    have := h.applied_below hm he (by simpa using hn) hp hs
    omega
  refine ⟨fun f hf => by rw [pending_eq_not_isApplied, hpend f hf]; rfl, fun hc => ?_⟩
  refine List.eq_nil_iff_forall_not_mem.mpr fun f hf => ?_
  obtain ⟨hm, hs, hlt⟩ := mem_upperPart.mp hf
  have : f = e := h.capacity.unique ⟨hm, hs.trans hc, isApplied_eq_false.mp (hpend f hf)⟩
    ⟨he, hc, isApplied_eq_false.mp hp⟩
  rw [this] at hlt
  exact Nat.lt_irrefl _ hlt

theorem ofScale_split {es : List Entry} (ho : OrderLaw es) {e : Entry} (he : e ∈ es) :
    ofScale e.scale es = lowerPart e.scale e.boundary es ++ e :: upperPart e.scale e.boundary es := by
  rw [ofScale_cut ho e.scale e.boundary, atPart_of_mem ho he]
  rfl

/-- The prior offset of an entry is the offset before it (R24). -/
theorem OffsetLaws.prior_eq {sched : Schedule} (h : OffsetLaws sched) (ho : OrderLaw sched.entries) {e : Entry}
    (he : e ∈ sched.entries) : priorAt sched e.scale e.boundary = e.prior := by
  have hs := ((offsetLaws_iff.mp h) e.scale).2
  rw [ofScale_split ho he] at hs
  rw [priorAt_eq]
  exact hs.right.chain.1.symm

/-! ## Lists compared scale by scale -/

/-- A list recomputed on one scale has the entries of another list that agrees with it on the other scales. -/
theorem mem_withEntries {sched : Schedule} {sc : Scale} {es fs : List Entry}
    (hother : ∀ sc', sc ≠ sc' → ofScale sc' es = ofScale sc' fs)
    (hsame : ∀ e, e ∈ reprior sc (sched.base.offset sc) (ofScale sc es) ↔ e ∈ ofScale sc fs) (e : Entry) :
    e ∈ (sched.withEntries sc es).entries ↔ e ∈ fs := by
  refine mem_congr_of_scales (fun sc' f => ?_) e
  show f ∈ ofScale sc' (reprior sc (sched.base.offset sc) es) ↔ _
  by_cases hs : sc = sc'
  · subst hs
    rw [ofScale_reprior_same]
    exact hsame f
  · rw [ofScale_reprior_other hs, hother sc' hs]

theorem map_eq_self {l : List Entry} {g : Entry → Entry} (h : ∀ f ∈ l, g f = f) : l.map g = l :=
  (List.map_congr_left h).trans (List.map_id _)

/-- The entry named as the next later one with a new prior offset (R24). -/
def bump (later : Option Entry) (r : Int) (f : Entry) : Entry := if some f = later then { f with prior := r } else f

theorem bump_other {later : Option Entry} {f : Entry} (h : some f ≠ later) (r : Int) : bump later r f = f := if_neg h

theorem bump_scale (later : Option Entry) (r : Int) (f : Entry) : (bump later r f).scale = f.scale := by
  unfold bump
  split <;> rfl

theorem precedes_irrefl (e : Entry) : ¬ e.precedes e = true := by
  rw [precedes_iff]
  omega

theorem map_bump_upper {es : List Entry} (ho : OrderLaw es) (sc : Scale) (b : Second) (r : Int) :
    (upperPart sc b es).map (bump (upperPart sc b es).head? r) = rehead r (upperPart sc b es) := by
  have ho : (upperPart sc b es).Pairwise fun e f => e.precedes f = true := List.Pairwise.filter _ ho
  match hU : upperPart sc b es with
  | [] => rfl
  | u :: us =>
    rw [hU, List.pairwise_cons] at ho
    have hus : ∀ f ∈ us, bump (some u) r f = f := fun f hf => bump_other (fun hc => by
      obtain rfl : f = u := Option.some.inj hc
      exact precedes_irrefl f (ho.1 f hf)) r
    rw [List.head?_cons, List.map_cons, map_eq_self hus]
    simp [rehead, bump]

/-- A candidate for the next later entry stands above a boundary and is of the scale. -/
def LaterOf (sc : Scale) (b : Second) (later : Option Entry) : Prop :=
  ∀ f, some f = later → f.scale = sc ∧ b.toNat < f.boundary.toNat

theorem laterOf_none (sc : Scale) (b : Second) : LaterOf sc b none := fun _ h => by cases h

theorem laterOf_upper (es : List Entry) (sc : Scale) (b : Second) : LaterOf sc b (upperPart sc b es).head? :=
  fun _ h => (mem_upperPart.mp (List.mem_of_head? h.symm)).2

theorem bump_none (r : Int) (f : Entry) : bump none r f = f := bump_other (by simp) r

/-! ## The entry rewritten, and the entry removed -/

/-- One entry exchanged for another, and the next later one with a new prior offset (R24). -/
def exchange (e z : Entry) (later : Option Entry) (r : Int) (f : Entry) : Entry := if f = e then z else bump later r f

theorem exchange_self (e z : Entry) (later : Option Entry) (r : Int) : exchange e z later r e = z := if_pos rfl

theorem exchange_other {e f : Entry} (h : f ≠ e) (z : Entry) (later : Option Entry) (r : Int) :
    exchange e z later r f = bump later r f := if_neg h

theorem exchange_scale {e z : Entry} (hz : z.scale = e.scale) (later : Option Entry) (r : Int) (f : Entry) :
    (exchange e z later r f).scale = f.scale := by
  unfold exchange
  split
  · next hf => rw [hf, hz]
  · exact bump_scale later r f

theorem ofScale_exchange_other {sc : Scale} {e z : Entry} {later : Option Entry} (hz : z.scale = e.scale)
    (hl : LaterOf e.scale e.boundary later) (h : e.scale ≠ sc) (r : Int) (es : List Entry) :
    ofScale sc (es.map (exchange e z later r)) = ofScale sc es := by
  rw [ofScale_map (exchange_scale hz later r)]
  refine map_eq_self fun f hf => ?_
  have hs : e.scale ≠ f.scale := by rwa [(mem_ofScale.mp hf).2]
  rw [exchange_other fun hc => hs (by rw [hc]), bump_other fun hc => hs (hl f hc).1.symm]

theorem ofScale_exchange {es : List Entry} (ho : OrderLaw es) {e z : Entry} {later : Option Entry} (he : e ∈ es)
    (hz : z.scale = e.scale) (hl : LaterOf e.scale e.boundary later) (r : Int) :
    ofScale e.scale (es.map (exchange e z later r)) =
      lowerPart e.scale e.boundary es ++ z :: (upperPart e.scale e.boundary es).map (bump later r) := by
  have hlow : ∀ f ∈ lowerPart e.scale e.boundary es, exchange e z later r f = f := fun f hf => by
    have hlt := (mem_lowerPart.mp hf).2.2
    rw [exchange_other fun hc => by rw [hc] at hlt; omega, bump_other fun hc => by have := (hl f hc).2; omega]
  have hup : ∀ f ∈ upperPart e.scale e.boundary es, exchange e z later r f = bump later r f := fun f hf => by
    have hlt := (mem_upperPart.mp hf).2.2
    exact exchange_other (fun hc => by rw [hc] at hlt; omega) z later r
  rw [ofScale_map (exchange_scale hz later r), ofScale_split ho he, List.map_append, List.map_cons, map_eq_self hlow,
    List.map_congr_left hup, exchange_self]

/-- A pending entry rewritten in place keeps its prior offset, and the next later entry of its scale takes the new offset
as its own (R19, R20, R24). -/
theorem mem_rewritten {x : Second} {sched : Schedule} (h : OffsetLaws sched) (he : EntryLaws x sched.entries) {e z : Entry}
    {sc : Scale} {new : Int} (hm : e ∈ sched.entries) (hs : e.scale = sc) (hp : e.isApplied = false) (hz : z.scale = sc)
    (hzp : z.isApplied = false) (hn : z.kind.apply e.prior z.new = new) (f : Entry) :
    f ∈ (sched.withEntries sc (sched.entries.map (exchange e z none 0))).entries ↔
      f ∈ sched.entries.map (exchange e { z with prior := e.prior, new := new }
        (upperPart sc e.boundary sched.entries).head? new) := by
  subst hs hn
  have hz' : ({ z with prior := e.prior, new := z.kind.apply e.prior z.new } : Entry).scale = e.scale := hz
  obtain ⟨hpend, hciv⟩ := upper_of_pending he hm hp
  refine mem_withEntries (fun sc hs => ?_) (fun g => ?_) f
  · rw [ofScale_exchange_other hz (laterOf_none _ _) hs, ofScale_exchange_other hz' (laterOf_upper _ _ _) hs]
  · rw [ofScale_exchange he.order hm hz (laterOf_none _ _), ofScale_exchange he.order hm hz' (laterOf_upper _ _ _),
      map_bump_upper he.order, map_eq_self fun f _ => bump_none 0 f,
      reprior_place (h.lowerChain he.order _ _) (fun f hf => (mem_lowerPart.mp hf).2.1) hz hzp, ← priorAt_eq,
      h.prior_eq he.order hm, reprior_upper h he.order hpend hciv]

/-- The list without a pending entry: the next later entry of its scale takes its prior offset (R23, R24). -/
theorem mem_withdrawn {x : Second} {sched : Schedule} (h : OffsetLaws sched) (he : EntryLaws x sched.entries) {e : Entry}
    {sc : Scale} (hm : e ∈ sched.entries) (hs : e.scale = sc) (hp : e.isApplied = false) (f : Entry) :
    f ∈ (sched.withEntries sc (sched.entries.filter (· != e))).entries ↔
      f ∈ (sched.entries.filter (· != e)).map (bump (upperPart sc e.boundary sched.entries).head? e.prior) := by
  subst hs
  obtain ⟨hpend, hciv⟩ := upper_of_pending he hm hp
  have hother {sc : Scale} (hs : e.scale ≠ sc) : ofScale sc (sched.entries.filter (· != e)) = ofScale sc sched.entries := by
    rw [ofScale_filter, List.filter_eq_self]
    intro g hg
    have : g ≠ e := fun hc => hs (hc ▸ (mem_ofScale.mp hg).2)
    simpa using this
  have hsame : ofScale e.scale (sched.entries.filter (· != e)) =
      lowerPart e.scale e.boundary sched.entries ++ upperPart e.scale e.boundary sched.entries := by
    have hlow : ∀ g ∈ lowerPart e.scale e.boundary sched.entries, (g != e) = true := fun g hg => by
      have hlt := (mem_lowerPart.mp hg).2.2
      rw [bne_iff_ne]
      exact fun hc => by rw [hc] at hlt; omega
    have hup : ∀ g ∈ upperPart e.scale e.boundary sched.entries, (g != e) = true := fun g hg => by
      have hlt := (mem_upperPart.mp hg).2.2
      rw [bne_iff_ne]
      exact fun hc => by rw [hc] at hlt; omega
    rw [ofScale_filter, ofScale_split he.order hm, List.filter_append, List.filter_cons_of_neg (by simp),
      List.filter_eq_self.mpr hlow, List.filter_eq_self.mpr hup]
  have hlater := laterOf_upper sched.entries e.scale e.boundary
  refine mem_withEntries (fun sc hs => ?_) (fun g => ?_) f
  · rw [ofScale_map (bump_scale _ _), hother hs]
    refine (map_eq_self fun g hg => bump_other (fun hc => hs ?_) _).symm
    exact (hlater g hc).1.symm.trans (mem_ofScale.mp hg).2
  · have hlow : ∀ g ∈ lowerPart e.scale e.boundary sched.entries,
        bump (upperPart e.scale e.boundary sched.entries).head? e.prior g = g := fun g hg =>
      bump_other (fun hc => by have := (hlater g hc).2; have := (mem_lowerPart.mp hg).2.2; omega) _
    rw [ofScale_map (bump_scale _ _), hsame, List.map_append, map_eq_self hlow, map_bump_upper he.order,
      reprior_chained _ (h.lowerChain he.order _ _) (fun f hf => (mem_lowerPart.mp hf).2.1), ← priorAt_eq,
      h.prior_eq he.order hm, reprior_upper h he.order hpend hciv]

/-! ## Replacement of the pending civil entry -/

theorem withoutPendingCivil_eq {es : List Entry} (h : CapacityLaw es) {e : Entry} (he : PendingCivil es e) :
    withoutPendingCivil es = es.filter (· != e) := by
  refine List.filter_congr fun f hf => ?_
  rw [Bool.eq_iff_iff, bne_iff_ne, Bool.not_eq_true', ← Bool.not_eq_true, Bool.and_eq_true, beq_iff_eq, Entry.pending,
    bne_iff_ne]
  refine not_congr ⟨fun ⟨hp, hs⟩ => h.unique ⟨hf, hs, hp⟩ he, fun hc => ?_⟩
  rw [hc]
  exact ⟨he.2.2, he.2.1⟩

/-- Without the pending civil entry, the civil entries below any boundary above the APPLIED ones are those that stood below
that entry. -/
theorem lowerPart_withoutPendingCivil {x : Second} {es : List Entry} (h : EntryLaws x es) {e : Entry}
    (he : PendingCivil es e) {b : Second} (ha : ∀ f ∈ es, f.isApplied = true → f.boundary.toNat < b.toNat) :
    lowerPart .civil b (withoutPendingCivil es) = lowerPart .civil e.boundary es ∧
      ∀ f ∈ withoutPendingCivil es, f.scale = .civil → f.boundary.toNat < b.toNat := by
  obtain ⟨hm, hs, hp⟩ := he
  rw [withoutPendingCivil_eq h.capacity ⟨hm, hs, hp⟩]
  have happ : ∀ f ∈ es, f ≠ e → f.scale = .civil → f.isApplied = true := fun f hf hne hfs => by
    by_contra hn
    exact hne (h.capacity.unique ⟨hf, hfs, isApplied_eq_false.mp (by simpa using hn)⟩ ⟨hm, hs, hp⟩)
  refine ⟨?_, fun f hf hfs => ?_⟩
  · unfold lowerPart
    rw [List.filter_filter]
    refine List.filter_congr fun f hf => ?_
    by_cases hfe : f = e
    · subst hfe
      simp
    · by_cases hfs : f.scale = .civil
      · have hfa := happ f hf hfe hfs
        have h1 := ha f hf hfa
        have h2 := h.applied_below hf hm hfa (isApplied_eq_false.mpr hp) (hfs.trans hs.symm)
        simp [hfe, hfs, h1, h2]
      · have hfs : (f.scale == Scale.civil) = false := beq_eq_false_iff_ne.mpr hfs
        simp only [hfs, Bool.false_and]
  · rw [List.mem_filter, bne_iff_ne] at hf
    exact ha f hf.1 (happ f hf.1 hf.2 hfs)

/-- The replacement takes the place and the prior offset of the pending civil entry (R22, R24). -/
theorem mem_replaced {x : Second} {sched : Schedule} (h : OffsetLaws sched) (he : EntryLaws x sched.entries) {e z : Entry}
    (hm : PendingCivil sched.entries e) (hz : z.scale = .civil) (hzp : z.isApplied = false)
    (ha : ∀ f ∈ sched.entries, f.isApplied = true → f.boundary.toNat < z.boundary.toNat) (f : Entry) :
    f ∈ (sched.withEntries .civil (insertEntry z (withoutPendingCivil sched.entries))).entries ↔
      f ∈ { z with prior := e.prior, new := z.kind.apply e.prior z.new } :: sched.entries.filter (· != e) := by
  obtain ⟨hlow, hbelow⟩ := lowerPart_withoutPendingCivil he hm ha
  have hs : e.scale = .civil := hm.2.1
  have hord := (he.sublist (withoutPendingCivil_sublist sched.entries)).order
  rw [← withoutPendingCivil_eq he.capacity hm]
  have hfree : ∀ g ∈ withoutPendingCivil sched.entries, ¬ (z.boundary = g.boundary ∧ z.scale = g.scale) :=
    fun g hg ⟨hb, hgs⟩ => by
      have := hbelow g hg (hgs.symm.trans hz)
      rw [hb] at this
      omega
  have hup : upperPart .civil z.boundary (withoutPendingCivil sched.entries) = [] :=
    List.eq_nil_iff_forall_not_mem.mpr fun g hg => by
      obtain ⟨hgm, hgs, hlt⟩ := mem_upperPart.mp hg
      have := hbelow g hgm hgs
      omega
  have hat : atPart .civil z.boundary (withoutPendingCivil sched.entries) = [] :=
    List.eq_nil_iff_forall_not_mem.mpr fun g hg => by
      obtain ⟨hgm, hgs, hb⟩ := mem_atPart.mp hg
      exact hfree g hgm ⟨hb.symm, hz.trans hgs.symm⟩
  have hprior := h.prior_eq he.order hm.1
  rw [hs, priorAt_eq] at hprior
  refine mem_withEntries (fun sc hsc => ?_) (fun g => ?_) f
  · rw [ofScale_insertEntry_other (by rwa [hz]), ofScale_cons_other (by exact fun hc => hsc (hz.symm.trans hc))]
  · have hins := ofScale_insertEntry hord hfree
    rw [hz, hup, hlow] at hins
    rw [hins, reprior_place (h.lowerChain he.order _ _) (fun f hf => (mem_lowerPart.mp hf).2.1) hz hzp, hprior,
      ofScale_cons_same (by exact hz), ofScale_cut hord .civil z.boundary, hup, hat, hlow]
    simp [reprior, or_comm]

/-! ## Accepted replace and withdraw requests -/

theorem exchange_none (e z : Entry) (r : Int) (f : Entry) : exchange e z none r f = if f = e then z else f := by
  unfold exchange
  rw [bump_none]

/-- A pending entry is the only one a rewrite in place touches (R5). -/
theorem rewritePending_eq {sched : Schedule} (ho : OrderLaw sched.entries) {e : Entry} {sc : Scale}
    (he : e ∈ sched.entries) (hs : e.scale = sc) (hp : e.state ≠ .applied) (g : Entry → Entry) :
    rewritePending sched sc e.boundary g = sched.withEntries sc (sched.entries.map (exchange e (g e) none 0)) := by
  subst hs
  refine congrArg (sched.withEntries e.scale) (List.map_congr_left fun f hf => ?_)
  rw [exchange_none]
  by_cases hfe : f = e
  · subst hfe
    simp [Entry.pending, hp]
  · rw [if_neg hfe, if_neg]
    simp only [Bool.and_eq_true, beq_iff_eq]
    exact fun ⟨⟨_, hs⟩, hb⟩ => hfe (ho.unique he hf hb hs)

/-- A withdrawn entry is the only one that leaves (R5). -/
theorem filter_place_eq {es : List Entry} (ho : OrderLaw es) {e : Entry} (he : e ∈ es) {k : ZoneNo}
    (hs : e.scale = .zone k) :
    (es.filter fun g => !(g.scale == .zone k && g.boundary == e.boundary)) = es.filter (· != e) := by
  refine List.filter_congr fun f hf => ?_
  rw [Bool.eq_iff_iff, bne_iff_ne, Bool.not_eq_true', ← Bool.not_eq_true, Bool.and_eq_true, beq_iff_eq, beq_iff_eq]
  refine not_congr ⟨fun ⟨hfs, hb⟩ => ho.unique he hf hb (hfs.trans hs.symm), fun hc => ?_⟩
  rw [hc]
  exact ⟨hs, rfl⟩

theorem find_place {es : List Entry} (ho : OrderLaw es) {e : Entry} (he : e ∈ es) {k : ZoneNo} (hs : e.scale = .zone k) :
    (es.find? fun g => g.scale == .zone k && g.boundary == e.boundary) = some e := by
  have hsome : (es.find? fun g => g.scale == .zone k && g.boundary == e.boundary).isSome = true :=
    List.find?_isSome.mpr ⟨e, he, by simp [hs]⟩
  obtain ⟨f, hf⟩ := Option.isSome_iff_exists.mp hsome
  have hc := List.find?_some hf
  simp only [Bool.and_eq_true, beq_iff_eq] at hc
  rw [hf, ho.unique he (List.mem_of_find?_eq_some hf) hc.2 (hc.1.trans hs.symm)]

theorem withEntries_length (sched : Schedule) (sc : Scale) (es : List Entry) :
    (sched.withEntries sc es).entries.length = es.length := reprior_length ..

theorem EntryLaws.not_late {sched : Schedule} {x : Second} (h : EntryLaws x sched.entries) {e : Entry}
    (he : e ∈ sched.entries) (hp : e.isApplied = false)
    (ha : ∀ f ∈ sched.entries, f.state = .applied → f.boundary.toNat < e.boundary.toNat) :
    ¬ Late sched x e.boundary :=
  Machine.not_late (h.pendingAbove e he (by rw [pending_eq_not_isApplied, hp]; rfl)) ha

/-- The verdict of an accepted replacement (R22). -/
theorem replaceCivil_accepted {f : Int} {x b : Second} {sched : Schedule} (h : OffsetLaws sched)
    (he : EntryLaws x sched.entries) {e : Entry} (hm : PendingCivil sched.entries e) (hfrozen : e.state ≠ .frozen)
    {k : LeapKind} (hne : ¬ (e.boundary = b ∧ e.kind = .leap k)) (hx : x.toNat < b.toNat)
    (ha : ∀ g ∈ sched.entries, g.state = .applied → g.boundary.toNat < b.toNat) (hgood : ¬ CivilBad k e.prior)
    (o : SourceNo) (g : Bool) :
    replaceCivil f x sched b k o g =
      { answer := if entryStateFor f x b = .frozen then .replacedFrozen else .replacedArmed
        sched := sched.withEntries .civil (insertEntry
          { e with boundary := b, kind := .leap k, origin := o, gridDated := g, state := entryStateFor f x b }
          (withoutPendingCivil sched.entries))
        events := .scheduleChange :: freezeEvents (entryStateFor f x b) } := by
  have hlow := (lowerPart_withoutPendingCivil he hm (b := b) fun g hg hga => ha g hg (by simpa [Entry.isApplied] using hga)).1
  have hprior : priorAt { sched with entries := withoutPendingCivil sched.entries } .civil b = e.prior := by
    have hp := h.prior_eq he.order hm.1
    rw [hm.2.1, priorAt_eq] at hp
    rw [priorAt_eq]
    exact hlow ▸ hp
  have hlate := mt (tooLate_iff sched x b).mp (Machine.not_late hx ha)
  rw [← civilOffsetBad_iff, ← hprior] at hgood
  rw [replaceCivil_some (pendingCivil_eq_some he.capacity hm), if_neg hfrozen, if_neg hne, if_neg hlate, if_neg hgood]

/-- The verdict of an accepted civil withdrawal (R23). -/
theorem withdrawCivil_accepted {sched : Schedule} (h : CapacityLaw sched.entries) {e : Entry}
    (hm : PendingCivil sched.entries e) (hfrozen : e.state ≠ .frozen) : withdrawCivil sched =
      { answer := .withdrawn, sched := sched.withEntries .civil (sched.entries.filter (· != e)),
        events := [.scheduleChange] } := by
  rw [withdrawCivil_some (pendingCivil_eq_some h hm), if_neg hfrozen, withoutPendingCivil_eq h hm]

/-- The verdict of an accepted zone withdrawal (R23). -/
theorem withdrawZone_accepted {sched : Schedule} (ho : OrderLaw sched.entries) {e : Entry} (hm : e ∈ sched.entries)
    {k : ZoneNo} (hs : e.scale = .zone k) (ha : e.state = .armed)
    (hlater : ∀ g, (upperPart (.zone k) e.boundary sched.entries).head? = some g →
      g.new ≠ e.prior ∧ |g.new - e.prior| ≤ 43200) : withdrawZone sched k e.boundary =
      { answer := .withdrawn, sched := sched.withEntries (.zone k) (sched.entries.filter (· != e)),
        events := [.scheduleChange] } := by
  rw [withdrawZone_some (find_place ho hm hs)]
  dsimp only
  rw [← upperPart_head, if_neg (by rw [ha]; decide), if_neg (by rw [ha]; decide),
    if_neg fun ⟨g, hg, hn⟩ => (hlater g hg).1 hn, if_neg fun ⟨g, hg, hn⟩ => absurd (hlater g hg).2 (by omega),
    filter_place_eq ho hm hs]

/-- The verdict of a civil arm request that rewrites the pending entry in place (R19). -/
theorem armCivil_rewrites {f : Int} {x : Second} {sched : Schedule} (h : OffsetLaws sched)
    (he : EntryLaws x sched.entries) {e : Entry} (hm : PendingCivil sched.entries e) (hfrozen : e.state ≠ .frozen)
    {k : LeapKind} (hk : e.kind ≠ .leap k) (hl : ¬ Late sched x e.boundary) (hgood : ¬ CivilBad k e.prior)
    (o : SourceNo) (g : Bool) : armCivil f x sched e.boundary k o g =
      { answer := .replacedArmed
        sched := sched.withEntries .civil
          (sched.entries.map (exchange e { e with kind := .leap k, origin := o, gridDated := g } none 0))
        events := [.scheduleChange] } := by
  have hprior := h.prior_eq he.order hm.1
  rw [hm.2.1] at hprior
  rw [← civilOffsetBad_iff, ← hprior] at hgood
  rw [armCivil_at hl (pendingAt_civil he.capacity hm), if_neg hfrozen, if_neg hk, if_neg hgood,
    rewritePending_eq he.order hm.1 hm.2.1 hm.2.2]

/-- The verdict of a zone arm request that rewrites the pending entry in place (R20). -/
theorem armZone_rewrites {f : Int} {x : Second} {sched : Schedule} (ho : OrderLaw sched.entries) {e : Entry}
    (hm : e ∈ sched.entries) {k : ZoneNo} (hs : e.scale = .zone k) (hp : e.state ≠ .applied) (hfrozen : e.state ≠ .frozen)
    {new : Int} (hn : e.new ≠ new) (hl : ¬ Late sched x e.boundary)
    (hchecks : zoneChecks sched k e.boundary new = none) (o : SourceNo) : armZone f x sched k e.boundary new o =
      { answer := .replacedArmed
        sched := sched.withEntries (.zone k) (sched.entries.map (exchange e { e with new := new, origin := o } none 0))
        events := [.scheduleChange] } := by
  have hat : pendingAt sched.entries (.zone k) e.boundary = some e :=
    pendingAt_eq_some ⟨hm, hp, hs, rfl⟩ fun g hg _ hgs hgb => ho.unique hm hg hgb (hgs.trans hs.symm)
  rw [armZone_at hl hat, if_neg hfrozen, if_neg hn, hchecks, rewritePending_eq ho hm hs hp]
  rfl

/-- The other entries of the zone of a pending entry stand at least a day from it (R13). -/
theorem spaced_otherZone {sched : Schedule} (h : OffsetLaws sched) (ho : OrderLaw sched.entries) {e : Entry}
    (hm : e ∈ sched.entries) {k : ZoneNo} (hs : e.scale = .zone k) (hp : e.state ≠ .applied) :
    ∀ f ∈ otherZone sched k e.boundary, 86400 ≤ |(e.boundary.toNat : Int) - f.boundary.toNat| := by
  intro f hf
  simp only [otherZone, List.mem_filter, Bool.and_eq_true, beq_iff_eq, Bool.not_eq_true', Entry.pending] at hf
  obtain ⟨hfm, hfs, hother⟩ := hf
  have hne : f ≠ e := fun hc => by
    rw [hc] at hother
    simp [hp] at hother
  have hspaced := ((offsetLaws_iff.mp h) e.scale).2.spaced (by rw [hs]; simp)
  have hfin : f ∈ ofScale e.scale sched.entries := mem_ofScale.mpr ⟨hfm, hfs.trans hs.symm⟩
  rw [ofScale_split ho hm] at hspaced hfin
  obtain ⟨_, hright, hleft⟩ := List.pairwise_append.mp hspaced
  have hday : Config.zoneSpacing = 86400 := rfl
  rcases List.mem_append.mp hfin with hlow | hup
  · have := hleft f hlow e List.mem_cons_self
    exact le_abs.mpr (.inl (by omega))
  · have := (List.pairwise_cons.mp hright).1 f ((List.mem_cons.mp hup).resolve_left hne)
    exact le_abs.mpr (.inr (by omega))

/-- Settles O43: each accepted verdict, and the entries of the list it makes. -/
theorem acceptedReplaceAndWithdrawRewriteTheList : Obligations.AcceptedReplaceAndWithdrawRewriteTheList := by
  intro who rest s hlist hoff hc es ends
  have hlaws := hlist.entryLaws
  have armed {e : Entry} (h : e.state = .armed) : e.state ≠ .applied ∧ e.state ≠ .frozen ∧ e.isApplied = false := by
    rw [isApplied_eq_false, h]
    decide
  have key (r : Request) (row : RequestRow) (v : Verdict) (es' : List Entry) (events : List Event)
      (hq : s.list.requests ++ s.list.sending = { request := r, asker := who } :: rest) (hrow : rowOf r = some row)
      (hv : judgeRequest s r = some v) (hbase : v.sched.base = s.list.sched.base) (hevents : v.events = events)
      (hmem : ∀ e, e ∈ v.sched.entries ↔ e ∈ es') (hlen : v.sched.entries.length = es'.length) :
      ends row.instr es' events := by
    obtain ⟨t, ht, took⟩ := exec_request_took hc hq hrow hv
    obtain ⟨more, hmore⟩ := took.events
    have hsched := took.sched
    refine ⟨t, more, ht, took.claims, took.coming, took.requests, took.sent, took.listSecond, ?_, ?_, ?_, took.sup, took.path,
      took.status, ?_⟩
    · rw [hsched]; exact hbase
    · rw [hsched]; exact hmem
    · rw [hsched]; exact hlen
    · rw [hmore, hevents]
  refine ⟨?_, ?_, ?_, ?_, ?_⟩
  · intro b k origin grid e hq hm hs ha hne hx happ new st hmax hmin
    obtain ⟨hp, hfrozen, _⟩ := armed ha
    have hst : entryStateFor (freezeLead s) s.list.listSecond b = st := entryStateFor_eq hx
    have hnew : (Kind.leap k).apply e.prior e.new = new := leap_apply ..
    have hv := congrArg some (replaceCivil_accepted hoff hlaws ⟨hm, hs, hp⟩ hfrozen hne hx happ (not_civilBad hmax hmin)
      origin grid (f := freezeLead s))
    rw [hst] at hv
    refine key _ .replace _ _ _ hq rfl hv rfl rfl (fun f => ?_) ?_
    · have hz := mem_replaced hoff hlaws ⟨hm, hs, hp⟩ (f := f)
        (z := { e with boundary := b, kind := .leap k, origin := origin, gridDated := grid, state := st }) hs
        (isApplied_eq_false.mpr (hst ▸ entryStateFor_pending _ _ _ : st ≠ .applied))
        (fun f hf hfa => happ f hf (by simpa [Entry.isApplied] using hfa))
      rw [hnew] at hz
      exact hz
    · rw [withEntries_length, insertEntry_length, withoutPendingCivil_eq hlaws.capacity ⟨hm, hs, hp⟩, List.length_cons]
  · intro e hq hm hs ha
    obtain ⟨hp, hfrozen, hpe⟩ := armed ha
    have hup : upperPart .civil e.boundary es = [] := hs ▸ (upper_of_pending hlaws hm hpe).2 hs
    have hv := congrArg some (withdrawCivil_accepted hlaws.capacity ⟨hm, hs, hp⟩ hfrozen)
    refine key _ .withdraw _ _ _ hq rfl hv rfl rfl (fun f => ?_) (withEntries_length ..)
    have hz := mem_withdrawn hoff hlaws hm hs hpe f
    rw [hup, List.head?_nil, map_eq_self fun f _ => bump_none _ f] at hz
    exact hz
  · intro k e hq hm hs ha later hlater
    obtain ⟨hp, hfrozen, hpe⟩ := armed ha
    have hlater' : later = (upperPart (.zone k) e.boundary es).head? := (upperPart_head ..).symm
    have hv := congrArg some (withdrawZone_accepted hlist.order hm hs ha fun g hg => hlater g (hlater'.trans hg))
    refine key _ .withdraw _ _ _ hq rfl hv rfl rfl (fun f => ?_) ?_
    · have hz := mem_withdrawn hoff hlaws hm hs hpe f
      rw [← hlater'] at hz
      exact hz
    · rw [withEntries_length, List.length_map]
  · intro k origin grid e hq hm hs ha hk happ new hmax hmin
    obtain ⟨hp, hfrozen, hpe⟩ := armed ha
    have hup : upperPart .civil e.boundary es = [] := hs ▸ (upper_of_pending hlaws hm hpe).2 hs
    have hv := congrArg some (armCivil_rewrites hoff hlaws ⟨hm, hs, hp⟩ hfrozen hk (hlaws.not_late hm hpe happ)
      (not_civilBad hmax hmin) origin grid (f := freezeLead s))
    refine key _ .arm _ _ _ hq rfl hv rfl rfl (fun f => ?_) ?_
    · have hz := mem_rewritten hoff hlaws hm hs hpe (new := new)
        (z := { e with kind := .leap k, origin := origin, gridDated := grid }) hs hpe (leap_apply ..) f
      rw [hup, List.head?_nil, List.map_congr_left fun f _ => exchange_none ..] at hz
      exact hz
    · rw [withEntries_length, List.length_map, List.length_map]
  · intro k new origin e hq hm hs ha hn happ later hmax hmin hne hshift hlater
    obtain ⟨hp, hfrozen, hpe⟩ := armed ha
    have hlater' : later = (upperPart (.zone k) e.boundary es).head? := (upperPart_head ..).symm
    have hprior := hoff.prior_eq hlist.order hm
    rw [hs] at hprior
    have hchecks : zoneChecks s.list.sched k e.boundary new = none :=
      zoneChecks_eq_none (by omega) (spaced_otherZone hoff hlist.order hm hs hp) (hprior.symm ▸ ⟨hne, hshift⟩)
        fun g hg => hlater g (by rw [hlater', ← nextLater_eq, hg])
    have hv := congrArg some (armZone_rewrites hlist.order hm hs hp hfrozen hn (hlaws.not_late hm hpe happ) hchecks
      origin (f := freezeLead s))
    refine key _ .arm _ _ _ hq rfl hv rfl rfl (fun f => ?_) ?_
    · have hnew : e.kind.apply e.prior new = new := by rw [kindFits_zone hs (hoff.kinds e hm)]; rfl
      have hz := mem_rewritten hoff hlaws hm hs hpe (z := { e with new := new, origin := origin }) hs hpe hnew f
      rw [← hlater'] at hz
      exact hz
    · rw [withEntries_length, List.length_map, List.length_map]

end Sys2Proof.Machine
end

section
/-! SUPPORT. Words and their fields: what a field of a word formed of placed values holds, the fields of a time record's two
words, and the eight bytes a word is (00_scope.md, Words and byte order; section 11.3). -/

namespace Sys2Proof.Machine

theorem field_or (a b : Word) (last width : Nat) :
    field (a ||| b) last width = field a last width ||| field b last width :=
  BitVec.extractLsb'_or

/-- The field a value is placed in holds it. -/
theorem field_place (last : Nat) {width : Nat} (x : BitVec width) (h : 8 * (7 - last) + width ≤ 64) :
    field (place last x) last width = x := by
  apply BitVec.eq_of_getLsbD_eq
  intro i hi
  have hb : 8 * (7 - last) + i < 64 := by omega
  simp [field, place, hi, hb]

/-- A field below a placed value holds none of it. -/
theorem field_place_below (last k : Nat) {width n : Nat} (x : BitVec width) (h : 8 * (7 - k) + n ≤ 8 * (7 - last)) :
    field (place last x) k n = 0#n := by
  apply BitVec.eq_of_getLsbD_eq
  intro i hi
  have hlt : 8 * (7 - k) + i < 8 * (7 - last) := by omega
  simp [field, place, hlt]

/-- A field above a placed value holds none of it. -/
theorem field_place_above (last k : Nat) {width n : Nat} (x : BitVec width) (h : 8 * (7 - last) + width ≤ 8 * (7 - k)) :
    field (place last x) k n = 0#n := by
  apply BitVec.eq_of_getLsbD_eq
  intro i hi
  rw [field, place, BitVec.getLsbD_extractLsb', BitVec.getLsbD_shiftLeft, BitVec.getLsbD_setWidth,
    BitVec.getLsbD_of_ge x _ (by omega)]
  simp

/-- A bit of the last byte is a placed byte. -/
theorem placeBit_eq (bit : Nat) (b : Bool) (h : bit < 8) :
    placeBit 7 bit b = place 7 (if b then 1#8 <<< bit else 0#8) := by
  cases b <;> interval_cases bit <;> rfl

@[simp] theorem recSeconds_mkWord0 (x : Second) (t : Byte) (i f : Bool) : recSeconds (mkWord0 x t i f) = x := by
  simp (disch := omega) only [recSeconds, mkWord0, placeBit_eq, field_or, field_place, field_place_above, BitVec.or_zero]

@[simp] theorem recTag_mkWord0 (x : Second) (t : Byte) (i f : Bool) : recTag (mkWord0 x t i f) = t := by
  simp (disch := omega) only [recTag, mkWord0, placeBit_eq, field_or, field_place, field_place_above,
    field_place_below, BitVec.or_zero, BitVec.zero_or]

theorem flags_mkWord0 (x : Second) (t : Byte) (i f : Bool) :
    field (mkWord0 x t i f) 7 8 = (if i then 1#8 else 0#8) ||| (if f then 2#8 else 0#8) := by
  simp (disch := omega) only [mkWord0, placeBit_eq, field_or, field_place, field_place_below, BitVec.zero_or]
  rfl

@[simp] theorem recInserted_mkWord0 (x : Second) (t : Byte) (i f : Bool) : recInserted (mkWord0 x t i f) = i := by
  rw [recInserted, flags_mkWord0]
  cases i <;> cases f <;> rfl

@[simp] theorem recFold_mkWord0 (x : Second) (t : Byte) (i f : Bool) : recFold (mkWord0 x t i f) = f := by
  rw [recFold, flags_mkWord0]
  cases i <;> cases f <;> rfl

theorem fields_mkWord1 (n f : Nat) (w : BitVec 16) :
    field (mkWord1 n f w) 3 32 = BitVec.ofNat 32 n ∧ field (mkWord1 n f w) 5 16 = BitVec.ofNat 16 f ∧
      field (mkWord1 n f w) 7 16 = w := by
  simp (disch := omega) only [mkWord1, field_or, field_place, field_place_above, field_place_below, BitVec.or_zero,
    BitVec.zero_or, and_self]

/-- A word 1 is known by its three fields. -/
theorem word1_ext {a b : Word} (hn : field a 3 32 = field b 3 32) (hf : field a 5 16 = field b 5 16)
    (hw : field a 7 16 = field b 7 16) : a = b := by
  have bit {last width i : Nat} (h : field a last width = field b last width) (hi : i < width) :
      a.getLsbD (8 * (7 - last) + i) = b.getLsbD (8 * (7 - last) + i) := by
    have := congrArg (·.getLsbD i) h
    simpa [field, hi] using this
  apply BitVec.eq_of_getLsbD_eq
  intro i hi
  rcases Nat.lt_or_ge i 16 with h16 | h16
  · simpa using bit hw h16
  · rcases Nat.lt_or_ge i 32 with h32 | h32
    · simpa [show 16 + (i - 16) = i by omega] using bit hf (i := i - 16) (by omega)
    · simpa [show 32 + (i - 32) = i by omega] using bit hn (i := i - 32) (by omega)

/-- A word 1 is made of its three fields (section 11.3). -/
theorem mkWord1_fields (w : Word) : mkWord1 (recNanos w) (recFraction w) (recWriter w) = w := by
  obtain ⟨hn, hf, hw⟩ := fields_mkWord1 (recNanos w) (recFraction w) (recWriter w)
  refine word1_ext (hn.trans ?_) (hf.trans ?_) hw
  · rw [recNanos, BitVec.ofNat_toNat, BitVec.setWidth_eq]
  · rw [recFraction, BitVec.ofNat_toNat, BitVec.setWidth_eq]

/-- A byte shifted into a word becomes its last, and the first leaves. -/
theorem wordBytes_push (w : Word) (b : Byte) : wordBytes ((w <<< 8) ||| b.setWidth 64) = (wordBytes w).tail ++ [b] := by
  have hlast : wordByte ((w <<< 8) ||| b.setWidth 64) 7 = b := by
    apply BitVec.eq_of_getLsbD_eq
    intro i hi
    have h64 : i < 64 := by omega
    simp [wordByte, hi, h64]
  have hnext (i : Nat) (h : i < 7) : wordByte ((w <<< 8) ||| b.setWidth 64) i = wordByte w (i + 1) := by
    apply BitVec.eq_of_getLsbD_eq
    intro j hj
    have hk : 8 * (7 - i) + j - 8 = 8 * (7 - (i + 1)) + j := by omega
    have hlt : 8 * (7 - i) + j < 64 := by omega
    have hge : ¬ 8 * (7 - i) + j < 8 := by omega
    have hb : b.getLsbD (8 * (7 - i) + j) = false := BitVec.getLsbD_of_ge _ _ (by omega)
    simp only [wordByte, BitVec.getLsbD_extractLsb', BitVec.getLsbD_or, BitVec.getLsbD_shiftLeft,
      BitVec.getLsbD_setWidth, hb, hk, hlt, hge]
    simp
  show [_, _, _, _, _, _, _, _] = [_, _, _, _, _, _, _, _]
  rw [hnext 0, hnext 1, hnext 2, hnext 3, hnext 4, hnext 5, hnext 6, hlast] <;> omega

/-- Bytes shifted into a word push out as many at its front. -/
theorem wordBytes_foldl (d : List Byte) (w : Word) :
    wordBytes (d.foldl (fun acc b => (acc <<< 8) ||| b.setWidth 64) w) = (wordBytes w ++ d).drop d.length := by
  induction d generalizing w with
  | nil => simp
  | cons b d ih =>
    have hl : (wordBytes w).tail ++ [b] ++ d = (wordBytes w ++ b :: d).drop 1 := by
      rw [List.drop_append_of_le_length (by simp)]
      simp
    rw [List.foldl_cons, ih, wordBytes_push, hl, List.drop_drop, List.length_cons, Nat.add_comm]

/-- Eight bytes are the bytes of the word they spell. -/
theorem wordBytes_bytesWord {d : List Byte} (h : d.length = 8) : wordBytes (bytesWord d) = d := by
  have h8 : (wordBytes 0#64).length = d.length := by simp [h]
  rw [bytesWord, wordBytes_foldl, List.drop_left' h8]

end Sys2Proof.Machine
end

section
/-! PROOFS. The assertion of RESET: the held access is answered, and the work in flight abandoned (R52, R170, R182). -/

namespace Sys2Proof.Machine

section AbandonedFields

variable (s : State)

@[simp] theorem abandonWork_resetAsserted : (abandonWork s).resetAsserted = true := by simp [abandonWork, emptyLatches]
@[simp] theorem abandonWork_path : (abandonWork s).path = { s.path with
    toIssue := [], stale := s.path.outstanding.isSome, latches := Vector.replicate 16 none } := by
  simp [abandonWork, emptyLatches]
@[simp] theorem abandonWork_list : (abandonWork s).list = { s.list with
    claims := [], coming := [], requests := [], sending := [], queries := [] } := by simp [abandonWork, emptyLatches]
@[simp] theorem abandonWork_intake : (abandonWork s).intake = { s.intake with qualifier := none } := by
  simp [abandonWork, emptyLatches]
@[simp] theorem abandonWork_election : (abandonWork s).election =
    { s.election with run := none, runPending := false } := by simp [abandonWork, emptyLatches]
@[simp] theorem abandonWork_patcher : (abandonWork s).patcher =
    { s.patcher with judgement := none, waiting := [] } := by simp [abandonWork, emptyLatches]
@[simp] theorem abandonWork_wires : (abandonWork s).wires = Wires.empty := by simp [abandonWork, emptyLatches]
@[simp] theorem abandonWork_straps : (abandonWork s).straps = s.straps := by simp [abandonWork, emptyLatches]
@[simp] theorem abandonWork_counter : (abandonWork s).counter = s.counter := by simp [abandonWork, emptyLatches]
@[simp] theorem abandonWork_card : (abandonWork s).card = s.card := by simp [abandonWork, emptyLatches]
@[simp] theorem abandonWork_answers : (abandonWork s).answers = s.answers := by simp [abandonWork, emptyLatches]
@[simp] theorem abandonWork_pending : (abandonWork s).pending = s.pending := by simp [abandonWork, emptyLatches]

end AbandonedFields

/-- The answer RESET gives the held access, if there is one (R170). -/
def heldAnswer (s : State) : List SysAnswer :=
  match s.path.held with
  | none => []
  | some h => [{ master := h.access.master, ok := false, data := zeroData h.access }]

/-- The held access is answered ERROR with zero data, which frees the unit, before the work is abandoned. -/
theorem assertReset_abandons {s : State} (h : s.resetAsserted = false) : assertReset s =
    abandonWork ((s.setPath { s.path with held := none }).setAnswers (s.answers ++ heldAnswer s)) := by
  rw [assertReset_eq h, heldAnswer]
  cases hh : s.path.held with
  | none =>
    have hp : ({ s.path with held := none } : PathUnit) = s.path := by rw [← hh]
    simp [hp]
  | some x => simp only [answerError_eq, State.answered, State.setPath_answers]

/-- Once the work is abandoned, the answer to a memory access issued before is discarded, and nothing follows it (R170). -/
theorem exec_memoryAnswer_abandoned {s : State} (ho : s.path.outstanding ≠ none) (ok : Bool) (d : List Byte) :
    exec (.memoryAnswer ok d) (abandonWork s) = .next ((abandonWork s).setPath
      { (abandonWork s).path with outstanding := none, stale := false }) := by
  obtain ⟨x, hx⟩ := Option.ne_none_iff_exists'.mp ho
  have hm : memoryAnswer ok d (abandonWork s) = (abandonWork s).setPath
      { (abandonWork s).path with outstanding := none, stale := false } := by
    simp [memoryAnswer, hx, issueNext]
  rw [exec, execMemoryAnswer, hm, serve_reset]
  exact abandonWork_resetAsserted s

/-- Settles O4: the held access, if any, is answered ERROR, and then all work in flight is abandoned. -/
theorem resetAssertAbandonsWorkInFlight : Obligations.ResetAssertAbandonsWorkInFlight := by
  intro s
  refine ⟨fun hr => by simp [exec, execResetAssert, assertReset, hr], fun hr => ⟨assertReset s, rfl, ?_⟩⟩
  rw [assertReset_abandons hr]
  have late (ho : s.path.outstanding ≠ none) := exec_memoryAnswer_abandoned
    (s := (s.setPath { s.path with held := none }).setAnswers (s.answers ++ heldAnswer s)) ho
  exact ⟨by simp, by simp [interruptAsserted], by rw [abandonWork_answers]; rfl, by simpa using late⟩

end Sys2Proof.Machine
end

section
/-! PROOFS. The four checks of section 8.3 in the words of the statements, and what a refusal does (R153 to R169). -/

namespace Sys2Proof.Machine

/-! ## Windows, views and shapes -/

/-- The window of a region offset and the range it lies in, case by case (R156). -/
theorem windowOf_cases (o : Nat) :
    (windowOf o = .config ∧ o ≤ 0x03FF) ∨ (windowOf o = .intake ∧ 0x0800 ≤ o ∧ o ≤ 0x08FF) ∨
      (windowOf o = .status ∧ 0x1000 ≤ o ∧ o ≤ 0x1FFF) ∨ (windowOf o = .announce ∧ 0x2000 ≤ o ∧ o ≤ 0x23FF) ∨
      (windowOf o = .views ∧ 0x8000 ≤ o ∧ o ≤ 0xEFFF) ∨
      (windowOf o = .unassigned ∧ ((0x0400 ≤ o ∧ o ≤ 0x07FF) ∨ (0x0900 ≤ o ∧ o ≤ 0x0FFF) ∨
        (0x2400 ≤ o ∧ o ≤ 0x7FFF) ∨ 0xF000 ≤ o)) := by
  unfold windowOf
  split
  · exact .inl ⟨rfl, ‹_›⟩
  split
  · exact .inr (.inl ⟨rfl, ‹_›⟩)
  split
  · exact .inr (.inr (.inl ⟨rfl, ‹_›⟩))
  split
  · exact .inr (.inr (.inr (.inl ⟨rfl, ‹_›⟩)))
  split
  · exact .inr (.inr (.inr (.inr (.inl ⟨rfl, ‹_›⟩))))
  · exact .inr (.inr (.inr (.inr (.inr ⟨rfl, by omega⟩))))

/-- Within the time views the view number is the offset's distance in windows of 4 KiB (R30). -/
theorem viewOf_val {o : Nat} (h : o ≤ 0xEFFF) : (viewOf o).val = (o - 0x8000) / 0x1000 := by
  simp only [viewOf, Fin.ofNat]
  omega

theorem recordOf_eq_zero (o : Nat) : recordOf o = 0#8 ↔ o / 0x10 % 0x100 = 0 := by
  rw [recordOf, ← BitVec.toNat_inj, BitVec.toNat_ofNat]
  rfl

theorem isEight_iff (sh : Shape) : isEight sh = true ↔ sh = .beat .eight ∨ sh = .burst 0 := by
  unfold isEight
  split <;> simp_all

theorem viewShapeOk_iff (a : Access) : viewShapeOk a = true ↔
    ((a.shape = .beat .eight ∨ a.shape = .burst 0) ∧ a.addr.toNat % 8 = 0) ∨
      (a.shape = .burst 1 ∧ a.addr.toNat % 16 = 0) := by
  simp [viewShapeOk, isEight_iff]

theorem plainShapeOk_iff (a : Access) : plainShapeOk a = true ↔
    ((a.shape = .beat .eight ∨ ∃ k, a.shape = .burst k) ∧ a.addr.toNat % 8 = 0) ∨
      (a.shape = .beat .four ∧ a.addr.toNat % 4 = 0) := by
  unfold plainShapeOk
  split <;> simp_all

theorem regionOff_of_le {a : Access} {base : Nat} (h : base ≤ a.addr.toNat) :
    regionOff a base = a.addr.toNat - base := by
  rw [regionOff, if_neg (by omega)]

theorem shape_bytes_pos (sh : Shape) : 0 < sh.bytes := by
  rcases sh with n | m
  · cases n <;> simp [Shape.bytes, BeatSize.bytes]
  · simp [Shape.bytes]

/-! ## The four checks in the words of the statement (R158 to R163) -/

/-- R159: an unassigned offset, the view of a zone that is not configured, or a write of the status page other than at the
command word. -/
def BadAddress (s : State) (a : Access) (o : Nat) : Prop :=
  (0x0400 ≤ o ∧ o ≤ 0x07FF) ∨ (0x0900 ≤ o ∧ o ≤ 0x0FFF) ∨ (0x2400 ≤ o ∧ o ≤ 0x7FFF) ∨ 0xF000 ≤ o ∨
    ((0x8000 ≤ o ∧ o ≤ 0xEFFF) ∧ 2 ≤ (o - 0x8000) / 0x1000 ∧ (o - 0x8000) / 0x1000 ≤ 5 ∧
      s.status.config.glob.zoneCount.toNat ≤ (o - 0x8000) / 0x1000 - 2) ∨
    (a.dir = .write ∧ (0x1000 ≤ o ∧ o ≤ 0x1FFF) ∧ o ≠ 0x1FF8)

/-- R160, R161: a shape accepted in its window, the whole access inside it. -/
def GoodShape (a : Access) (o : Nat) : Prop :=
  let last := o + a.shape.bytes - 1
  let eight := a.shape = .beat .eight ∨ a.shape = .burst 0
  let status := 0x1000 ≤ o ∧ o ≤ 0x1FFF
  let views := 0x8000 ≤ o ∧ o ≤ 0xEFFF
  let inside := last ≤ 0x03FF ∨ (0x0800 ≤ o ∧ last ≤ 0x08FF) ∨ (status ∧ last ≤ 0x1FFF) ∨ (0x2000 ≤ o ∧ last ≤ 0x23FF)
  (views → (eight ∧ o % 8 = 0) ∨ (a.shape = .burst 1 ∧ o % 16 = 0)) ∧
    (¬ views → inside ∧ (a.dir = .write ∧ status → eight) ∧
      (((a.shape = .beat .eight ∨ ∃ k, a.shape = .burst k) ∧ o % 8 = 0) ∨ (a.shape = .beat .four ∧ o % 4 = 0)))

/-- R162: a write by another master than the one it belongs to. -/
def Foreign (s : State) (a : Access) (o : Nat) : Prop :=
  ((o ≤ 0x03FF ∨ (0x1000 ≤ o ∧ o ≤ 0x1FFF) ∨ (0x2000 ≤ o ∧ o ≤ 0x23FF)) ∧ a.master ≠ s.straps.control) ∨
    (0x0800 ≤ o ∧ o ≤ 0x08FF ∧ ∃ n : SourceNo, o ≤ 0x081F + n.val * 0x20 ∧
      0x0800 + n.val * 0x20 ≤ o + a.shape.bytes - 1 ∧ a.master ≠ s.status.config.sources[n].owner) ∨
    ((0x8000 ≤ o ∧ o ≤ 0xEFFF) ∧ o / 0x10 % 0x100 = 0 ∧
      ¬ (a.master = s.status.config.glob.clockMaster ∧ (o - 0x8000) / 0x1000 = 0))

section Checks

variable {s : State} {a : Access} {o : Nat}

/-- The address step refuses what R159 names. -/
theorem addressStep_bad (h : BadAddress s a o) : addressStep s a o = some .badAddress := by
  unfold BadAddress at h
  rcases windowOf_cases o with ⟨w, r⟩ | ⟨w, r⟩ | ⟨w, r⟩ | ⟨w, r⟩ | ⟨w, r⟩ | ⟨w, r⟩
  · omega
  · omega
  · have hw : a.dir = .write ∧ o ≠ 0x1FF8 := by
      rcases h with h | h | h | h | h | ⟨hd, -, hc⟩
      iterate 5 omega
      exact ⟨hd, hc⟩
    simp [addressStep, w, hw, commandOffset]
  · omega
  · have hz : 2 ≤ (viewOf o).val ∧ (viewOf o).val ≤ 5 ∧ ¬ (viewOf o).val - 2 < zoneCount s := by
      rw [viewOf_val r.2, zoneCount]
      omega
    simp only [addressStep, w, if_pos hz]
  · simp only [addressStep, w]

/-- The address step refuses nothing else. -/
theorem addressStep_good (h : ¬ BadAddress s a o) : addressStep s a o = none := by
  unfold BadAddress at h
  rcases windowOf_cases o with ⟨w, r⟩ | ⟨w, r⟩ | ⟨w, r⟩ | ⟨w, r⟩ | ⟨w, r⟩ | ⟨w, r⟩
  · simp only [addressStep, w]
  · simp only [addressStep, w]
  · have hw : ¬ (a.dir = .write ∧ o ≠ commandOffset) := fun ⟨hd, hc⟩ =>
      h (.inr (.inr (.inr (.inr (.inr ⟨hd, r, hc⟩)))))
    simp only [addressStep, w, if_neg hw]
  · simp only [addressStep, w]
  · have hz : ¬ (2 ≤ (viewOf o).val ∧ (viewOf o).val ≤ 5 ∧ ¬ (viewOf o).val - 2 < zoneCount s) := by
      rw [viewOf_val r.2, zoneCount]
      omega
    simp only [addressStep, w, if_neg hz]
  · omega

/-- The whole access lies in one of the windows other than the time views (R161). -/
def Inside (a : Access) (o : Nat) : Prop :=
  let last := o + a.shape.bytes - 1
  last ≤ 0x03FF ∨ (0x0800 ≤ o ∧ last ≤ 0x08FF) ∨ ((0x1000 ≤ o ∧ o ≤ 0x1FFF) ∧ last ≤ 0x1FFF) ∨
    (0x2000 ≤ o ∧ last ≤ 0x23FF)

theorem goodShape_views (h : 0x8000 ≤ o ∧ o ≤ 0xEFFF) : GoodShape a o ↔
    ((a.shape = .beat .eight ∨ a.shape = .burst 0) ∧ o % 8 = 0) ∨ (a.shape = .burst 1 ∧ o % 16 = 0) :=
  ⟨fun g => g.1 h, fun g => ⟨fun _ => g, fun n => absurd h n⟩⟩

theorem goodShape_plain (h : ¬ (0x8000 ≤ o ∧ o ≤ 0xEFFF)) : GoodShape a o ↔ Inside a o ∧
    (a.dir = .write ∧ (0x1000 ≤ o ∧ o ≤ 0x1FFF) → a.shape = .beat .eight ∨ a.shape = .burst 0) ∧
    (((a.shape = .beat .eight ∨ ∃ k, a.shape = .burst k) ∧ o % 8 = 0) ∨ (a.shape = .beat .four ∧ o % 4 = 0)) :=
  ⟨fun g => g.2 h, fun g => ⟨fun n => absurd n h, fun _ => g⟩⟩

/-- Lying in one of these windows is lying in the window of the offset (R156). -/
theorem inside_iff {w : Window} (hw : windowOf o = w) (hv : w ≠ .views) (hu : w ≠ .unassigned) :
    Inside a o ↔ w.range.1 ≤ o ∧ o + a.shape.bytes - 1 ≤ w.range.2 := by
  have hpos := shape_bytes_pos a.shape
  unfold Inside
  rcases windowOf_cases o with ⟨h, r⟩ | ⟨h, r⟩ | ⟨h, r⟩ | ⟨h, r⟩ | ⟨h, -⟩ | ⟨h, -⟩
  all_goals obtain rfl := h.symm.trans hw
  case inl => dsimp only [Window.range]; omega
  case inr.inl => dsimp only [Window.range]; omega
  case inr.inr.inl => dsimp only [Window.range]; omega
  case inr.inr.inr.inl => dsimp only [Window.range]; omega
  case inr.inr.inr.inr.inl => exact absurd rfl hv
  case inr.inr.inr.inr.inr => exact absurd rfl hu

/-- In a window that is neither the time views nor the status page. -/
theorem goodShape_quiet {w : Window} (hw : windowOf o = w) (hv : w ≠ .views) (hu : w ≠ .unassigned)
    (hs : ¬ (0x1000 ≤ o ∧ o ≤ 0x1FFF)) : GoodShape a o ↔
    (((a.shape = .beat .eight ∨ ∃ k, a.shape = .burst k) ∧ o % 8 = 0) ∨ (a.shape = .beat .four ∧ o % 4 = 0)) ∧
      w.range.1 ≤ o ∧ o + a.shape.bytes - 1 ≤ w.range.2 := by
  rw [goodShape_plain fun h => hv (hw.symm.trans ((windowOf_eq_views o).mpr h)), inside_iff hw hv hu]
  exact ⟨fun ⟨x, _, y⟩ => ⟨y, x⟩, fun ⟨y, x⟩ => ⟨x, fun g => absurd g.2 hs, y⟩⟩

/-- On the status page a write comes in one beat of 8 bytes (R161). -/
theorem goodShape_status (h : 0x1000 ≤ o ∧ o ≤ 0x1FFF) : GoodShape a o ↔
    ((((a.shape = .beat .eight ∨ ∃ k, a.shape = .burst k) ∧ o % 8 = 0) ∨ (a.shape = .beat .four ∧ o % 4 = 0)) ∧
      0x1000 ≤ o ∧ o + a.shape.bytes - 1 ≤ 0x1FFF) ∧
      (a.dir = .read ∨ a.shape = .beat .eight ∨ a.shape = .burst 0) := by
  have hw : windowOf o = .status := by
    rcases windowOf_cases o with ⟨w, r⟩ | ⟨w, r⟩ | ⟨w, r⟩ | ⟨w, r⟩ | ⟨w, r⟩ | ⟨w, r⟩
    case inr.inr.inl => exact w
    all_goals omega
  rw [goodShape_plain (by omega), inside_iff hw (by decide) (by decide)]
  cases hd : a.dir with
  | read => simp [and_comm, Window.range]
  | write =>
    exact ⟨fun ⟨x, z, y⟩ => ⟨⟨y, x⟩, .inr (z ⟨rfl, h⟩)⟩,
      fun ⟨⟨y, x⟩, z⟩ => ⟨x, fun _ => z.resolve_left (by simp), y⟩⟩

theorem staysInWindow_iff (ha : a.addr.toNat = regionBase s + o) (w : Window) :
    staysInWindow (regionBase s) a w = true ↔ w.range.1 ≤ o ∧ o + a.shape.bytes - 1 ≤ w.range.2 := by
  have hpos := shape_bytes_pos a.shape
  rw [staysInWindow, accessLen, decide_eq_true_iff]
  omega

/-- The region begins at a multiple of 64 KiB, so an address is aligned as its offset is (R153). -/
theorem addr_aligned (ha : a.addr.toNat = regionBase s + o) :
    a.addr.toNat % 4 = o % 4 ∧ a.addr.toNat % 8 = o % 8 ∧ a.addr.toNat % 16 = o % 16 := by
  rw [ha, regionBase]
  omega

/-- In an assigned window the shape step is the statement's condition. -/
theorem shapeStep_eq_none (hb : ¬ BadAddress s a o) (ha : a.addr.toNat = regionBase s + o) :
    shapeStep s a o = none ↔ GoodShape a o := by
  obtain ⟨e4, e8, e16⟩ := addr_aligned ha
  rcases windowOf_cases o with ⟨w, r⟩ | ⟨w, r⟩ | ⟨w, r⟩ | ⟨w, r⟩ | ⟨w, r⟩ | ⟨w, r⟩
  all_goals simp only [shapeStep, w, ite_eq_left_iff, reduceCtorEq, imp_false, not_not, Bool.and_eq_true,
    staysInWindow_iff ha, Bool.or_eq_true, plainShapeOk_iff, viewShapeOk_iff, isEight_iff, e8, e4, e16, beq_iff_eq]
  case inl => exact (goodShape_quiet w (by decide) (by decide) (by omega)).symm
  case inr.inl => exact (goodShape_quiet w (by decide) (by decide) (by omega)).symm
  case inr.inr.inl => exact (goodShape_status r).symm
  case inr.inr.inr.inl => exact (goodShape_quiet w (by decide) (by decide) (by omega)).symm
  case inr.inr.inr.inr.inl => exact (goodShape_views r).symm
  case inr.inr.inr.inr.inr =>
    exfalso
    unfold BadAddress at hb
    omega

theorem shapeStep_bad (hb : ¬ BadAddress s a o) (ha : a.addr.toNat = regionBase s + o) (h : ¬ GoodShape a o) :
    shapeStep s a o = some .badSize := by
  have two : shapeStep s a o = none ∨ shapeStep s a o = some .badSize := by
    unfold shapeStep
    exact ite_eq_or_eq _ _ _
  exact two.resolve_left (mt (shapeStep_eq_none hb ha).mp h)

theorem coversSlot_iff (n : SourceNo) (ha : a.addr.toNat = regionBase s + o) :
    coversSlot (regionBase s) a n = true ↔
      o ≤ 0x081F + n.val * 0x20 ∧ 0x0800 + n.val * 0x20 ≤ o + a.shape.bytes - 1 := by
  have hpos := shape_bytes_pos a.shape
  rw [coversSlot, touches, accessLen, decide_eq_true_iff]
  omega

/-- The master owns the slots that hold a byte of the write (R93, R162). -/
theorem ownsSlots_iff (ha : a.addr.toNat = regionBase s + o) : ownsSlots s a = true ↔
    ∀ n : SourceNo, o ≤ 0x081F + n.val * 0x20 → 0x0800 + n.val * 0x20 ≤ o + a.shape.bytes - 1 →
      a.master = s.status.config.sources[n].owner := by
  simp only [ownsSlots, List.all_eq_true, List.mem_finRange, forall_const, Bool.or_eq_true, Bool.not_eq_true',
    ← Bool.not_eq_true, coversSlot_iff _ ha, beq_iff_eq, eq_comm (b := a.master)]
  exact forall_congr' fun n => by tauto

/-- A foreign master's write is refused first (R162). -/
theorem ownershipStep_foreign (hw : a.dir = .write) (ha : a.addr.toNat = regionBase s + o) (h : Foreign s a o) :
    ownershipStep s a o = some .notOwner := by
  unfold Foreign at h
  rcases windowOf_cases o with ⟨w, r⟩ | ⟨w, r⟩ | ⟨w, r⟩ | ⟨w, r⟩ | ⟨w, r⟩ | ⟨w, r⟩
  all_goals simp only [ownershipStep, hw, w]
  case inr.inl =>
    obtain ⟨n, h1, h2, h3⟩ : ∃ n : SourceNo, o ≤ 0x081F + n.val * 0x20 ∧
        0x0800 + n.val * 0x20 ≤ o + a.shape.bytes - 1 ∧ a.master ≠ s.status.config.sources[n].owner := by
      rcases h with ⟨h, -⟩ | ⟨-, -, h⟩ | ⟨h, -⟩
      · omega
      · exact h
      · omega
    rw [if_neg fun hc => h3 ((ownsSlots_iff ha).mp hc n h1 h2)]
  case inr.inr.inr.inr.inl =>
    have hv : recordOf o = 0#8 ∧ ¬ (a.master = s.status.config.glob.clockMaster ∧ viewOf o = 0) := by
      rcases h with ⟨h, -⟩ | ⟨h1, h2, -⟩ | ⟨-, h1, h2⟩
      · omega
      · omega
      · rw [recordOf_eq_zero, ← Fin.val_eq_zero_iff, viewOf_val r.2]
        exact ⟨h1, h2⟩
    rw [if_pos hv]
  case inr.inr.inr.inr.inr => omega
  all_goals
    have hm : a.master ≠ s.straps.control := by
      rcases h with ⟨-, h⟩ | ⟨h1, h2, -⟩ | ⟨h, -⟩
      · exact h
      · omega
      · omega
    simp [hm]

/-- A write by the master it belongs to is refused at a global or source byte alone (R162). -/
theorem ownershipStep_native (hw : a.dir = .write) (ha : a.addr.toNat = regionBase s + o) (h : ¬ Foreign s a o) :
    ownershipStep s a o = if o ≤ 0x01FF then some .configLocked else none := by
  unfold Foreign at h
  push Not at h
  obtain ⟨h1, h2, h3⟩ := h
  rcases windowOf_cases o with ⟨w, r⟩ | ⟨w, r⟩ | ⟨w, r⟩ | ⟨w, r⟩ | ⟨w, r⟩ | ⟨w, r⟩
  all_goals simp only [ownershipStep, hw, w]
  case inl =>
    have hpos := shape_bytes_pos a.shape
    have ht : touches a (regionBase s) 0x0000 0x01FF = true ↔ o ≤ 0x01FF := by
      rw [touches, accessLen, decide_eq_true_iff]
      omega
    rw [if_neg (not_not.mpr (h1 (.inl r)))]
    simp only [ht]
  case inr.inl =>
    have ho : ownsSlots s a = true := (ownsSlots_iff ha).mpr (h2 r.1 r.2)
    rw [if_pos ho, if_neg (by omega)]
  case inr.inr.inl => rw [if_pos (h1 (.inr (.inl r))), if_neg (by omega)]
  case inr.inr.inr.inl => rw [if_pos (h1 (.inr (.inr r))), if_neg (by omega)]
  case inr.inr.inr.inr.inl =>
    have hv : ¬ (recordOf o = 0#8 ∧ ¬ (a.master = s.status.config.glob.clockMaster ∧ viewOf o = 0)) := by
      rw [recordOf_eq_zero, ← Fin.val_eq_zero_iff, viewOf_val r.2, not_and, not_not]
      exact h3 r
    rw [if_neg hv, if_neg (by omega)]
  case inr.inr.inr.inr.inr => rw [if_neg (by omega)]

/-- View 6 is read-only (R163). -/
theorem viewWriteStep_viewSix (hw : a.dir = .write) (hv : 0x8000 ≤ o ∧ o ≤ 0xEFFF) (h : (o - 0x8000) / 0x1000 = 6) :
    viewWriteStep a o = some .viewReadOnly := by
  have h6 : viewOf o = 6 := Fin.ext ((viewOf_val hv.2).trans h)
  rw [viewWriteStep, if_pos ⟨hw, (windowOf_eq_views o).mpr hv⟩, if_pos h6]

/-- One word alone cannot be written through views 1 to 5 (R163). -/
theorem viewWriteStep_split (hw : a.dir = .write) (hv : 0x8000 ≤ o ∧ o ≤ 0xEFFF) (h1 : 1 ≤ (o - 0x8000) / 0x1000)
    (h5 : (o - 0x8000) / 0x1000 ≤ 5) (h8 : a.shape = .beat .eight ∨ a.shape = .burst 0) :
    viewWriteStep a o = some .splitWrite := by
  have hval := viewOf_val hv.2
  have h6 : viewOf o ≠ 6 := fun h => by
    rw [h] at hval
    exact absurd hval (by simp; omega)
  have h0 : viewOf o ≠ 0 := fun h => by
    rw [h] at hval
    exact absurd hval (by simp; omega)
  rw [viewWriteStep, if_pos ⟨hw, (windowOf_eq_views o).mpr hv⟩, if_neg h6, if_pos ⟨h0, (isEight_iff _).mpr h8⟩]

/-- The four steps at the region offset of an access that begins in the region (R158). -/
theorem checkAccess_eq (ha : a.addr.toNat = regionBase s + o) : checkAccess s a =
    (addressStep s a o <|> shapeStep s a o <|> ownershipStep s a o <|> viewWriteStep a o) := by
  have ho : regionOff a (regionBase s) = o := by rw [regionOff_of_le (by omega)]; omega
  unfold checkAccess
  rw [ho]

/-- The first of the four steps that refuses names the refusal (R158), in the statement's words. -/
theorem checkAccess_refusals (ha : a.addr.toNat = regionBase s + o) :
    (BadAddress s a o → checkAccess s a = some .badAddress) ∧
    (¬ BadAddress s a o → ¬ GoodShape a o → checkAccess s a = some .badSize) ∧
    (¬ BadAddress s a o → GoodShape a o → a.dir = .write →
      (Foreign s a o → checkAccess s a = some .notOwner) ∧
      (¬ Foreign s a o → o ≤ 0x01FF → checkAccess s a = some .configLocked) ∧
      (¬ Foreign s a o → 0x8000 ≤ o ∧ o ≤ 0xEFFF → (o - 0x8000) / 0x1000 = 6 →
        checkAccess s a = some .viewReadOnly) ∧
      (¬ Foreign s a o → 0x8000 ≤ o ∧ o ≤ 0xEFFF → 1 ≤ (o - 0x8000) / 0x1000 → (o - 0x8000) / 0x1000 ≤ 5 →
        a.shape = .beat .eight ∨ a.shape = .burst 0 → checkAccess s a = some .splitWrite)) := by
  rw [checkAccess_eq ha]
  refine ⟨fun hb => ?_, fun hb hs => ?_, fun hb hs hw => ?_⟩
  · rw [addressStep_bad hb]; rfl
  · rw [addressStep_good hb, shapeStep_bad hb ha hs]; rfl
  · rw [addressStep_good hb, (shapeStep_eq_none hb ha).mpr hs]
    refine ⟨fun hf => ?_, fun hf hl => ?_, fun hf hv h6 => ?_, fun hf hv h1 h5 h8 => ?_⟩
    · rw [ownershipStep_foreign hw ha hf]; rfl
    · rw [ownershipStep_native hw ha hf, if_pos hl]; rfl
    · rw [ownershipStep_native hw ha hf, if_neg (by omega), viewWriteStep_viewSix hw hv h6]; rfl
    · rw [ownershipStep_native hw ha hf, if_neg (by omega), viewWriteStep_split hw hv h1 h5 h8]; rfl

end Checks

/-! ## What a refusal does -/

/-- A command whose access a check refuses leaves the state of that refusal (R164, R169). -/
theorem exec_refused {c : Instr} {a : Access} {s : State} {kind : FaultKind} (hr : Ready s) (hc : accessOf s c = some a)
    (hi : isChecked s a = true) (hk : checkAccess s a = some kind) : exec c s = .next (s.refusedWith kind a) := by
  rw [exec_access hc, offer_ready _ hr, takeAccess, if_pos hi, hk, ← refuse_eq _ _ hr.free]

/-- While the part is ACTIVE every access of the region is checked (R158). -/
theorem isChecked_of_active {a : Access} {s : State} (hp : s.status.part = .active)
    (h : inRegion a (regionBase s) = true) : isChecked s a = true := by simp [isChecked, h, hp]

/-- An access that begins below the region has the region offset 0, and its shape refuses it (R153, R161). -/
theorem checkAccess_below {a : Access} {s : State} (h : a.addr.toNat < regionBase s) :
    checkAccess s a = some .badSize := by
  have ho : regionOff a (regionBase s) = 0 := if_pos h
  have hw : windowOf 0 = .config := rfl
  have hstay : staysInWindow (regionBase s) a .config = false := by
    rw [staysInWindow, decide_eq_false_iff_not, Window.range]
    omega
  unfold checkAccess
  dsimp only
  rw [ho]
  simp [addressStep, shapeStep, hw, hstay]

/-- Settles O13: the four steps in order, each refusal recorded and answered in the same way. -/
theorem refusedAccessIsRecordedAndAnswered : Obligations.RefusedAccessIsRecordedAndAnswered := by
  refine ⟨fun c a s kind hr hc hi hk => exec_refused hr hc hi hk, fun c a s hr hc hp => ?_⟩
  have refuses {kind : FaultKind} (hi : inRegion a (regionBase s) = true) (hk : checkAccess s a = some kind) :
      exec c s = .next (s.refusedWith kind a) := exec_refused hr hc (isChecked_of_active hp hi) hk
  have region : inRegion a (regionBase s) = true ↔
      a.addr.toNat < regionBase s + 0x10000 ∧ regionBase s < a.addr.toNat + a.shape.bytes := by
    rw [inRegion, touches, accessLen, decide_eq_true_iff]
    omega
  have hpos := shape_bytes_pos a.shape
  refine ⟨fun h1 h2 => refuses (region.mpr ⟨Nat.lt_of_lt_of_le h1 (Nat.le_add_right _ _), h2⟩) (checkAccess_below h1),
    fun h1 h2 => ?_⟩
  have hi := region.mpr ⟨h2, Nat.lt_of_le_of_lt h1 (Nat.lt_add_of_pos_right hpos)⟩
  obtain ⟨bad, shape, write⟩ := checkAccess_refusals (s := s) (Nat.add_sub_of_le h1).symm
  refine ⟨fun hb => refuses hi (bad hb), fun hb hs => refuses hi (shape hb hs), fun hb hs hw => ?_⟩
  obtain ⟨foreign, locked, six, split⟩ := write hb hs hw
  exact ⟨fun hf => refuses hi (foreign hf), fun hf hl => refuses hi (locked hf hl),
    fun hf hv h6 => refuses hi (six hf hv h6), fun hf hv h1 h5 h8 => refuses hi (split hf hv h1 h5 h8)⟩

end Sys2Proof.Machine
end

section
/-! SUPPORT. Accesses to the time views: where they lie, that they are accepted, memory's answer to a held access, and the
answers the Path Unit gives (R30 to R33, R43 to R46, R152, R155, R160). -/

namespace Sys2Proof.Machine

/-! ## Answers and latches -/

/-- A read is answered with as many bytes as it asked for. -/
theorem answer_read {a : Access} {d : List Byte} {s : State} (hd : a.dir = .read) (hh : s.path.held = none)
    (hl : d.length = a.shape.bytes) : answer a true d s = s.answered a.master true d := by
  have hp : ({ s.path with held := none } : PathUnit) = s.path := by rw [← hh]
  simp only [answer, hd, fit_self hl, hp]
  rfl

/-- A write is answered with no data. -/
theorem answer_write {a : Access} {ok : Bool} {d : List Byte} {s : State} (hd : a.dir = .write)
    (hh : s.path.held = none) : answer a ok d s = s.answered a.master ok [] := by
  have hp : ({ s.path with held := none } : PathUnit) = s.path := by rw [← hh]
  simp only [answer, hd, hp]
  rfl

@[simp] theorem setLatch_setLatch (m : Master) (l l' : Option Latch) (s : State) :
    setLatch m l' (setLatch m l s) = setLatch m l' s := by
  simp [setLatch]

@[simp] theorem setLatch_list (m : Master) (l : Option Latch) (s : State) : (setLatch m l s).list = s.list := rfl

theorem Ready.setLatch {s : State} (h : Ready s) (m : Master) (l : Option Latch) : Ready (setLatch m l s) :=
  ⟨h.running, h.free, h.quiet, h.fresh, h.issued, h.alone⟩

/-! ## Memory's answer to a held access -/

section Held

variable {s : State} (a x : Access) (j : Job) (d : List Byte)

/-- Memory's OK goes to the job of the held access (R155, R165). -/
theorem exec_memoryOk (h : Ready s) : exec (.memoryAnswer true d) (s.waitingFor a j x) =
    .next (serve (memoryOk { access := a, job := j } (fit x.shape.bytes d) (hold a j s))) := by
  have hp : s.setPath { s.path with held := some { access := a, job := j }, outstanding := none } = hold a j s := by
    rw [hold, ← h.quiet]
  rw [exec, execMemoryAnswer, memoryAnswer_ok h.fresh, hp]

/-- Memory's ERROR leaves no claim to abandon, but for an announcement read (R135, R155). -/
theorem memoryError_eq {a : Access} {j : Job} {s : State} (hj : ∀ sm bs w sn, j ≠ .announce sm bs w sn) :
    memoryError { access := a, job := j } s = answerError a (s.setPath { s.path with toIssue := [] }) := by
  cases j with
  | announce => exact absurd rfl (hj _ _ _ _)
  | _ => rfl

/-- Memory's ERROR is answered with zero data, and nothing else is left of the access (R155). -/
theorem exec_memoryError (h : Ready s) (hj : ∀ sm bs w sn, j ≠ .announce sm bs w sn) :
    exec (.memoryAnswer false d) (s.waitingFor a j x) = .next (s.answered a.master false (zeroData a)) := by
  have hp : ({ s.path with held := none, outstanding := none, toIssue := [] } : PathUnit) = s.path := by
    conv_rhs => rw [h.path]
    simp only [h.fresh]
  have he : memoryAnswer false d (s.waitingFor a j x) = s.answered a.master false (zeroData a) := by
    rw [memoryAnswer_error h.fresh, memoryError_eq hj]
    simp only [answerError_eq, State.setPath_path, State.setPath_setPath, hp, State.setPath_self]
  rw [exec, execMemoryAnswer, he, serve_nil (s := s.answered a.master false (zeroData a)) h.alone]

/-- A write that memory has taken is answered OK, where no block takes it (R31, R166). -/
theorem exec_memoryOk_write (h : Ready s) (hd : a.dir = .write) (hj : j = .relay ∨ j = .store .none) :
    exec (.memoryAnswer true d) (s.waitingFor a j x) = .next (s.answered a.master true []) := by
  have ha : memoryOk { access := a, job := j } (fit x.shape.bytes d) (hold a j s) = s.answered a.master true [] := by
    rw [← answer_write (ok := true) (d := fit x.shape.bytes d) hd h.free]
    rcases hj with rfl | rfl <;> rfl
  rw [exec_memoryOk _ _ _ _ h, ha, serve_nil (s := s.answered a.master true []) h.alone]

end Held

/-! ## Lookups of the Scale Converter -/

/-- A lookup claim of the Scale Converter that is alone at the list is answered from the whole schedule (R10, R16). -/
theorem exec_converterLookup {s : State} (h : ListFree s) : exec .lookupClaim (ask (.lookup .converter) s) =
    .next (serve (converterLookup s.list.sched s)) := by
  obtain ⟨hc, hr, hq⟩ := h
  have hn : nextQuery (ask (.lookup .converter) s) = some (.lookup .converter) := by simp [nextQuery, ask, hc, hr, hq]
  have hl : ({ s.list with queries := [] } : ChangeList) = s.list := by rw [← hq]
  have hp : popQuery (ask (.lookup .converter) s) = s := by simp [popQuery, ask, hq, hl]
  rw [exec, execLookupClaim, takeLookup, hn]
  simp only [hp]
  rfl

/-! ## Accesses to the time views -/

/-- Where a part of a record begins. -/
def RecordPart.start : RecordPart → Nat
  | .word0 => 0
  | .word1 => 8
  | .both => 0

/-- The shape that asks for a part of a record (R160). -/
def RecordPart.shape : RecordPart → Shape
  | .word0 => .beat .eight
  | .word1 => .beat .eight
  | .both => .burst 1

/-- The region offset of a part of a record in a view (R30). -/
def viewOffset (v : Fin 7) (r : BitVec 8) (p : RecordPart) : Nat := 0x8000 + v.val * 0x1000 + r.toNat * 0x10 + p.start

section ViewOffset

variable (v : Fin 7) (r : BitVec 8) (p : RecordPart)

theorem viewOffset_range : 0x8000 ≤ viewOffset v r p ∧ viewOffset v r p ≤ 0xEFFF := by
  have := r.isLt
  cases p <;> simp only [viewOffset, RecordPart.start] <;> omega

theorem viewOffset_view : (viewOffset v r p - 0x8000) / 0x1000 = v.val := by
  have := r.isLt
  cases p <;> simp only [viewOffset, RecordPart.start] <;> omega

theorem viewOffset_record : viewOffset v r p / 0x10 % 0x100 = r.toNat := by
  have := r.isLt
  cases p <;> simp only [viewOffset, RecordPart.start] <;> omega

theorem viewOffset_start : viewOffset v r p % 16 = p.start := by
  cases p <;> simp only [viewOffset, RecordPart.start] <;> omega

theorem viewOf_viewOffset : viewOf (viewOffset v r p) = v :=
  Fin.ext ((viewOf_val (viewOffset_range v r p).2).trans (viewOffset_view v r p))

theorem recordOf_viewOffset : recordOf (viewOffset v r p) = r := by
  rw [recordOf, ← BitVec.toNat_inj, BitVec.toNat_ofNat]
  exact viewOffset_record v r p

theorem windowOf_viewOffset : windowOf (viewOffset v r p) = .views := (windowOf_eq_views _).mpr (viewOffset_range v r p)

theorem viewOffset_toNat : (BitVec.ofNat 16 (viewOffset v r p)).toNat = viewOffset v r p := by
  have := viewOffset_range v r p
  rw [BitVec.toNat_ofNat]
  omega

variable {v r p}

theorem partOf_viewOffset {a : Access} (h : a.shape = p.shape) : partOf a (viewOffset v r p) = p := by
  rw [partOf, viewOffset_start, h]
  cases p <;> rfl

theorem goodShape_viewOffset {a : Access} (h : a.shape = p.shape) : GoodShape a (viewOffset v r p) := by
  have hs := viewOffset_start v r p
  rw [goodShape_views (viewOffset_range v r p), h]
  cases p with
  | word0 => exact .inl ⟨.inl rfl, by rw [RecordPart.start] at hs; omega⟩
  | word1 => exact .inl ⟨.inl rfl, by rw [RecordPart.start] at hs; omega⟩
  | both => exact .inr ⟨rfl, hs⟩

/-- The view of a configured zone, or of no zone, is assigned (R159). -/
theorem not_badAddress_viewOffset {s : State} (a : Access) (hz : 2 ≤ v.val → v.val ≤ 5 → v.val - 2 < zoneCount s) :
    ¬ BadAddress s a (viewOffset v r p) := by
  have hr := viewOffset_range v r p
  have hv := viewOffset_view v r p
  rw [zoneCount] at hz
  unfold BadAddress
  omega

end ViewOffset

section ViewAccess

variable {s : State} {v : Fin 7} {r : BitVec 8} {p : RecordPart} {m : Master} {dir : Dir} {d : List Byte}

theorem regionAccess_addr (s : State) (m : Master) (off : Offset) (dir : Dir) (sh : Shape) (d : List Byte) :
    (regionAccess s m off dir sh d).addr.toNat = regionBase s + off.toNat := by
  have := s.straps.page.isLt
  simp only [regionAccess, systemAddress, regionBase, BitVec.toNat_ofNat]
  omega

/-- An access to a part of a record in a view. -/
def viewAccess (s : State) (m : Master) (v : Fin 7) (r : BitVec 8) (p : RecordPart) (dir : Dir) (d : List Byte) : Access :=
  regionAccess s m (BitVec.ofNat 16 (viewOffset v r p)) dir p.shape d

theorem viewAccess_addr : (viewAccess s m v r p dir d).addr.toNat = regionBase s + viewOffset v r p := by
  rw [viewAccess, regionAccess_addr, viewOffset_toNat]

theorem regionOff_viewAccess : regionOff (viewAccess s m v r p dir d) (regionBase s) = viewOffset v r p := by
  rw [regionOff_of_le (by rw [viewAccess_addr]; omega), viewAccess_addr]
  omega

/-- The accesses to a view that the four checks accept: a read of a view that is assigned, and a write through a writable
view of a record other than the live one, through views 1 to 5 of both words (R159 to R163). -/
theorem checkAccess_viewAccess (hz : 2 ≤ v.val → v.val ≤ 5 → v.val - 2 < zoneCount s)
    (hw : dir = .write → r ≠ 0#8 ∧ v ≠ 6 ∧ (v ≠ 0 → p = .both)) : checkAccess s (viewAccess s m v r p dir d) = none := by
  have ha := viewAccess_addr (s := s) (m := m) (v := v) (r := r) (p := p) (dir := dir) (d := d)
  have hb := not_badAddress_viewOffset (r := r) (p := p) (viewAccess s m v r p dir d) hz
  have hg : GoodShape (viewAccess s m v r p dir d) (viewOffset v r p) := goodShape_viewOffset rfl
  have ho : ownershipStep s (viewAccess s m v r p dir d) (viewOffset v r p) = none := by
    cases dir with
    | read => rfl
    | write =>
      have hr : ¬ (r = 0#8 ∧ ¬ (m = s.status.config.glob.clockMaster ∧ v = 0)) := fun h => (hw rfl).1 h.1
      simp only [ownershipStep, viewAccess, regionAccess, windowOf_viewOffset, recordOf_viewOffset, viewOf_viewOffset]
      exact if_neg hr
  have hv : viewWriteStep (viewAccess s m v r p dir d) (viewOffset v r p) = none := by
    cases dir with
    | read => simp [viewWriteStep, viewAccess, regionAccess]
    | write =>
      obtain ⟨-, h6, h0⟩ := hw rfl
      have hs : ¬ (v ≠ 0 ∧ isEight p.shape = true) := fun ⟨hv, h8⟩ => by
        rw [h0 hv] at h8
        cases h8
      simp only [viewWriteStep, viewAccess, regionAccess, windowOf_viewOffset, viewOf_viewOffset, and_self, if_true,
        if_neg h6, if_neg hs]
  rw [checkAccess_eq ha, addressStep_good hb, (shapeStep_eq_none hb ha).mpr hg, ho, hv]
  rfl

/-- A checked access that no step refuses is carried out (R158, R165). -/
theorem takeAccess_accepted {a : Access} {s : State} (hi : isChecked s a = true) (hk : checkAccess s a = none) :
    takeAccess a s = carryOut a s := by
  rw [takeAccess, if_pos hi, hk]

/-- What carrying out an access to the time views is (R165). -/
theorem carryOut_views {a : Access} {s : State} {off : Nat} (ho : regionOff a (regionBase s) = off)
    (hw : windowOf off = .views) : carryOut a s = match a.dir with
      | .read => timeViewRead a off s
      | .write => timeViewWrite a off s := by
  subst ho
  simp only [carryOut, hw]
  cases a.dir <;> rfl

/-- An access to the view of a configured zone, or of no zone, lies in the region. -/
theorem inRegion_viewAccess : inRegion (viewAccess s m v r p dir d) (regionBase s) = true := by
  have := viewOffset_range v r p
  have := shape_bytes_pos p.shape
  have hs : (viewAccess s m v r p dir d).shape = p.shape := rfl
  rw [inRegion, touches, accessLen, decide_eq_true_iff, viewAccess_addr, hs]
  omega

/-- An accepted access to a view is carried out (R165). -/
theorem exec_viewAccess {c : Instr} (h : Ready s) (hp : s.status.part = .active)
    (hc : accessOf s c = some (viewAccess s m v r p dir d)) (hz : 2 ≤ v.val → v.val ≤ 5 → v.val - 2 < zoneCount s)
    (hw : dir = .write → r ≠ 0#8 ∧ v ≠ 6 ∧ (v ≠ 0 → p = .both)) :
    exec c s = .next (carryOut (viewAccess s m v r p dir d) s) := by
  rw [exec_access hc, offer_ready _ h,
    takeAccess_accepted (isChecked_of_active hp inRegion_viewAccess) (checkAccess_viewAccess hz hw)]

theorem carryOut_viewRead : carryOut (viewAccess s m v r p .read d) s =
    timeViewRead (viewAccess s m v r p .read d) (viewOffset v r p) s :=
  carryOut_views regionOff_viewAccess (windowOf_viewOffset v r p)

theorem carryOut_viewWrite : carryOut (viewAccess s m v r p .write d) s =
    timeViewWrite (viewAccess s m v r p .write d) (viewOffset v r p) s :=
  carryOut_views regionOff_viewAccess (windowOf_viewOffset v r p)

end ViewAccess

end Sys2Proof.Machine
end

section
/-! PROOFS. Reads through the time views: the latch, memory's answer, the lookup, and the record returned through view 0
(R31 to R33, R43 to R46). -/

namespace Sys2Proof.Machine

/-! ## The answer of a time-view read -/

/-- The state after a read of a part of a record is answered with words of it: word 0 fills the master's latch with word 1,
and the latch is empty after the others (R32 step 5, R44 to R46). -/
def State.shown (s : State) (m : Master) (v : Fin 7) (r : BitVec 8) (p : RecordPart) (w0 w1 : Word) : State :=
  match p with
  | .word0 => (setLatch m (some { record := r, view := v, word1 := w1 }) s).answered m true (wordBytes w0)
  | .word1 => (setLatch m none s).answered m true (wordBytes w1)
  | .both => (setLatch m none s).answered m true (wordBytes w0 ++ wordBytes w1)

theorem State.shown_card (s : State) (m : Master) (v : Fin 7) (r : BitVec 8) (p : RecordPart) (w0 w1 : Word) :
    (s.shown m v r p w0 w1).card = s.card := by
  cases p <;> rfl

/-- The latch holds no word 1 that answers this read (R45). -/
def LatchMiss (s : State) (m : Master) (v : Fin 7) (r : BitVec 8) (p : RecordPart) : Prop :=
  p = .word1 → ∀ l, s.path.latches[m.toFin] = some l → ¬ (l.record = r ∧ l.view = v)

section Reads

variable {s : State} {m : Master} {v : Fin 7} {r : BitVec 8} {p : RecordPart}

/-- A read of a part of a record in a view. -/
def viewRead (s : State) (m : Master) (v : Fin 7) (r : BitVec 8) (p : RecordPart) : Access := viewAccess s m v r p .read []

/-- The words that answer a held read, and the latch they leave. -/
theorem finishTimeRead_held (h : s.path.held = none) (j : Job) (w : Word × Word) :
    finishTimeRead (viewRead s m v r p) v r p w (hold (viewRead s m v r p) j (setLatch m none s)) =
      s.shown m v r p w.1 w.2 := by
  have hs (l : Option Latch) (u : State) (hu : u.path.held = none) : (setLatch m l u).path.held = none := hu
  cases p with
  | word0 =>
    calc
      _ = answer (viewRead s m v r .word0) true (wordBytes w.1)
            (setLatch m (some { record := r, view := v, word1 := w.2 }) (setLatch m none s)) := rfl
      _ = answer (viewRead s m v r .word0) true (wordBytes w.1)
            (setLatch m (some { record := r, view := v, word1 := w.2 }) s) := by rw [setLatch_setLatch]
      _ = _ := answer_read rfl (hs _ _ h) (wordBytes_length _)
  | word1 => exact answer_read (a := viewRead s m v r .word1) rfl (hs none s h) (wordBytes_length _)
  | both =>
    have hl : (wordBytes w.1 ++ wordBytes w.2).length = 16 := by
      rw [List.length_append, wordBytes_length, wordBytes_length]
    exact answer_read (a := viewRead s m v r .both) rfl (hs none s h) hl

/-- The latch answers the word-1 read of its own record and view (R45). -/
theorem latchedWord1_viewRead : latchedWord1 s (viewRead s m v r p) (viewOffset v r p) =
    match s.path.latches[m.toFin] with
    | none => none
    | some l => if p = .word1 ∧ l.record = r ∧ l.view = v then some l.word1 else none := by
  unfold latchedWord1
  rw [partOf_viewOffset (a := viewRead s m v r p) rfl, recordOf_viewOffset, viewOf_viewOffset]
  rfl

/-- A read that no latch answers goes to memory, with the latch emptied (R32 step 1, R46). -/
theorem exec_timeViewRead (h : Ready s) (hp : s.status.part = .active)
    (hz : 2 ≤ v.val → v.val ≤ 5 → v.val - 2 < zoneCount s) (hl : LatchMiss s m v r p) :
    exec (.timeViewRead m (BitVec.ofNat 16 (viewOffset v r p)) p.shape) s = .next
      ((setLatch m none s).waitingFor (viewRead s m v r p) (.timeRead v r p) (recordRead s m r)) := by
  have hlatch : latchedWord1 s (viewRead s m v r p) (viewOffset v r p) = none := by
    rw [latchedWord1_viewRead]
    split
    · rfl
    · rename_i l hs
      exact if_neg fun ⟨h1, h2⟩ => hl h1 l hs h2
  rw [exec_viewAccess (v := v) (r := r) (p := p) (dir := .read) (d := []) h hp rfl hz (fun hw => nomatch hw),
    carryOut_viewRead]
  change Host.Outcome.next (timeViewRead (viewRead s m v r p) (viewOffset v r p) s) = _
  unfold timeViewRead
  rw [hlatch, partOf_viewOffset (a := viewRead s m v r p) rfl, recordOf_viewOffset, viewOf_viewOffset]
  exact congrArg _ (holdAndIssue_one (s := setLatch m none s) h.quiet h.issued)

/-- A word-1 read that the latch answers ends with the latch emptied (R45). -/
theorem exec_timeViewRead_latched (h : Ready s) (hp : s.status.part = .active)
    (hz : 2 ≤ v.val → v.val ≤ 5 → v.val - 2 < zoneCount s) {w : Word}
    (hl : s.path.latches[m.toFin] = some { record := r, view := v, word1 := w }) :
    exec (.timeViewRead m (BitVec.ofNat 16 (viewOffset v r .word1)) (.beat .eight)) s =
      .next ((setLatch m none s).answered m true (wordBytes w)) := by
  have hlatch : latchedWord1 s (viewRead s m v r .word1) (viewOffset v r .word1) = some w := by
    rw [latchedWord1_viewRead, hl]
    exact if_pos ⟨rfl, rfl, rfl⟩
  rw [exec_viewAccess (v := v) (r := r) (p := .word1) (dir := .read) (d := []) h hp rfl hz (fun hw => nomatch hw),
    carryOut_viewRead]
  change Host.Outcome.next (timeViewRead (viewRead s m v r .word1) (viewOffset v r .word1) s) = _
  unfold timeViewRead
  rw [hlatch]
  exact congrArg _ (answer_read (a := viewRead s m v r .word1) (s := setLatch m none s) rfl h.free (wordBytes_length _))

/-- Memory's ERROR to a read of a view (R44, R155). -/
theorem exec_viewRead_error (h : Ready s) (d : List Byte) :
    exec (.memoryAnswer false d) ((setLatch m none s).waitingFor (viewRead s m v r p) (.timeRead v r p)
      (recordRead s m r)) = .next ((setLatch m none s).answered m false (List.replicate p.shape.bytes 0#8)) :=
  exec_memoryError _ _ _ _ (h.setLatch m none) fun _ _ _ _ hj => nomatch hj

/-- The state while the lookup of a converted read is awaited (R32 step 3). -/
def State.converting (s : State) (m : Master) (v : Fin 7) (r : BitVec 8) (p : RecordPart) (w0 w1 : Word) : State :=
  ask (.lookup .converter) (hold (viewRead s m v r p) (.timeConvert v r p w0 w1) (setLatch m none s))

/-- Memory's OK to a read of a view: the record as stored through view 0; through the others one lookup, or none where the
record is not converted (R31 to R33). -/
theorem exec_viewRead_ok (h : Ready s) (w0 w1 : Word) :
    exec (.memoryAnswer true (wordBytes w0 ++ wordBytes w1)) ((setLatch m none s).waitingFor (viewRead s m v r p)
      (.timeRead v r p) (recordRead s m r)) = .next (
        if v = 0 then s.shown m v r p w0 w1
        else if needsLookup s.status.config.glob.smearEnable v w0 w1 then s.converting m v r p w0 w1
        else s.shown m v r p (unconvertedWord0 w0) w1) := by
  have hd : fit (recordRead s m r).shape.bytes (wordBytes w0 ++ wordBytes w1) = wordBytes w0 ++ wordBytes w1 :=
    fit_self (by rw [List.length_append, wordBytes_length, wordBytes_length]; rfl)
  have h0 : bytesWord ((wordBytes w0 ++ wordBytes w1).take 8) = w0 := by
    rw [List.take_left' (wordBytes_length w0), bytesWord_wordBytes]
  have h1 : bytesWord (((wordBytes w0 ++ wordBytes w1).drop 8).take 8) = w1 := by
    rw [List.drop_left' (wordBytes_length w0), List.take_of_length_le (by simp), bytesWord_wordBytes]
  have hk : memoryOk { access := viewRead s m v r p, job := .timeRead v r p } (wordBytes w0 ++ wordBytes w1)
      (hold (viewRead s m v r p) (.timeRead v r p) (setLatch m none s)) =
        if v = 0 then s.shown m v r p w0 w1
        else if needsLookup s.status.config.glob.smearEnable v w0 w1 then s.converting m v r p w0 w1
        else s.shown m v r p (unconvertedWord0 w0) w1 := by
    simp only [memoryOk, timeReadAnswered, h0, h1, finishTimeRead_held h.free]
    rfl
  rw [exec_memoryOk _ _ _ _ (h.setLatch m none), hd, hk, serve_nil]
  split
  · exact (State.shown_card ..).trans h.alone
  · split
    · exact h.alone
    · exact (State.shown_card ..).trans h.alone

/-- The lookup answer of a converted read (R32 steps 4 and 5). -/
theorem exec_lookup_converting (h : Ready s) (hl : ListFree s) (w0 w1 : Word) :
    exec .lookupClaim (s.converting m v r p w0 w1) = .next (s.shown m v r p
      (convertRead s.status.config.glob.smearExponent.toNat s.list.sched v w0 w1).1
      (convertRead s.status.config.glob.smearExponent.toNat s.list.sched v w0 w1).2) := by
  have hlook := exec_converterLookup
    (s := hold (viewRead s m v r p) (.timeConvert v r p w0 w1) (setLatch m none s)) hl
  refine hlook.trans ?_
  have hf : converterLookup s.list.sched (hold (viewRead s m v r p) (.timeConvert v r p w0 w1) (setLatch m none s)) =
      s.shown m v r p (convertRead s.status.config.glob.smearExponent.toNat s.list.sched v w0 w1).1
        (convertRead s.status.config.glob.smearExponent.toNat s.list.sched v w0 w1).2 :=
    finishTimeRead_held h.free _ _
  simp only [hold_list, setLatch_list]
  rw [hf, serve_nil ((State.shown_card ..).trans h.alone)]

end Reads

/-- Settles O33: the latch of the same record and view answers the word-1 read. -/
theorem matchingLatchAnswersTheWordOneRead : Obligations.MatchingLatchAnswersTheWordOneRead :=
  fun _ _ _ _ _ h hp hz hl => exec_timeViewRead_latched h hp (fun h2 h5 => hz ⟨h2, h5⟩) hl

/-- Settles O32: through view 0 a read is memory's answer, with the latch of a read of word 0 filled. -/
theorem viewZeroReadsReturnMemory : Obligations.ViewZeroReadsReturnMemory := by
  intro m r d s h hp hd
  have hd0 : (d.take 8).length = 8 := by rw [List.length_take]; omega
  have hd1 : (d.drop 8).length = 8 := by rw [List.length_drop]; omega
  have hb : wordBytes (bytesWord (d.take 8)) ++ wordBytes (bytesWord (d.drop 8)) = d := by
    rw [wordBytes_bytesWord hd0, wordBytes_bytesWord hd1, List.take_append_drop]
  have reads (p : RecordPart) (hl : LatchMiss s m 0 r p) : ∃ t,
      exec (.timeViewRead m (BitVec.ofNat 16 (viewOffset 0 r p)) p.shape) s = .next t ∧
      t.path.outstanding = some (recordRead s m r) ∧
      exec (.memoryAnswer true d) t = .next (s.shown m 0 r p (bytesWord (d.take 8)) (bytesWord (d.drop 8))) ∧
      exec (.memoryAnswer false d) t =
        .next ((setLatch m none s).answered m false (List.replicate p.shape.bytes 0#8)) := by
    refine ⟨_, exec_timeViewRead h hp (fun h2 => absurd h2 (by simp)) hl, rfl, ?_, exec_viewRead_error h d⟩
    have hk := exec_viewRead_ok (m := m) (v := 0) (r := r) (p := p) h (bytesWord (d.take 8)) (bytesWord (d.drop 8))
    rwa [hb, if_pos rfl] at hk
  have r0 := reads .word0 fun hc => nomatch hc
  have r2 := reads .both fun hc => nomatch hc
  have r1 (hl : LatchMiss s m 0 r .word1) := reads .word1 hl
  simp only [State.shown, wordBytes_bytesWord hd0, wordBytes_bytesWord hd1, List.take_append_drop] at r0 r1 r2
  have hbase : 0x8000 + (0 : Fin 7).val * 0x1000 + r.toNat * 0x10 = 0x8000 + r.toNat * 0x10 := by simp
  simp only [viewOffset, RecordPart.start, hbase] at r0 r1 r2
  exact ⟨r0, r2, fun hl => r1 fun _ => hl⟩

end Sys2Proof.Machine
end

section
/-! PROOFS. Conversion through the views 1 to 5: which second a result comes from, read by read and write by write (R29, R32
to R37, R47 to R51). -/

namespace Sys2Proof.Machine

/-! ## The seconds that give a result -/

/-- A second at or above the floor end that gives the triple in this view (R35, R50). -/
def Found (sched : Schedule) (v : Fin 7) (t : Triple) (x : Nat) : Prop :=
  sched.base.floorEnd ≤ x ∧ x < 2 ^ 48 ∧ rawResult sched v x = t

/-- An offset in effect is the base offset or the new offset of an entry (R11). -/
theorem offsetAt_mem (sched : Schedule) (sc : Scale) (x : Nat) : offsetAt sched sc x ∈ offsetsOf sched sc := by
  unfold offsetAt offsetsOf
  split
  · rename_i e he
    have hm := List.mem_of_getLast? he
    simp only [List.mem_filter, Bool.and_eq_true] at hm
    obtain ⟨hm, hs, -⟩ := hm
    exact List.mem_cons_of_mem _ (List.mem_map_of_mem (List.mem_filter.mpr ⟨hm, hs⟩))
  · exact List.mem_cons_self

/-- The inverse search looks at every second that gives the triple (log entry 14). -/
theorem mem_candidates (sched : Schedule) (v : Fin 7) (x : Nat) : (x : Int) ∈ candidates sched v (rawResult sched v x) := by
  unfold candidates rawResult
  dsimp only
  split
  · exact List.mem_map.mpr ⟨_, offsetAt_mem sched .civil x, by dsimp only; omega⟩
  · rename_i k _
    exact List.mem_flatMap.mpr ⟨_, offsetAt_mem sched .civil x,
      List.mem_map.mpr ⟨_, offsetAt_mem sched (.zone k) x, by dsimp only; omega⟩⟩

/-- The test of a candidate, in seconds (R50). -/
theorem gives_iff {sched : Schedule} {v : Fin 7} {t : Triple} {y : Int} :
    gives sched v t y = true ↔ ∃ x : Nat, y = x ∧ Found sched v t x := by
  have hmax : Config.maxSecond = 2 ^ 48 - 1 := rfl
  simp only [gives, Bool.and_eq_true, decide_eq_true_eq, beq_iff_eq, Found]
  constructor
  · rintro ⟨⟨h0, hm, hf⟩, hr⟩
    exact ⟨y.toNat, by omega, by omega, by omega, hr⟩
  · rintro ⟨x, rfl, hf, hm, hr⟩
    exact ⟨⟨by omega, by omega, by omega⟩, hr⟩

/-- Folding the smaller of two over a list gives its minimum. -/
theorem foldl_minOption (l : List Nat) : l.foldl minOption none = l.min? := by
  have hs (l : List Nat) (a : Nat) : l.foldl minOption (some a) = some (l.foldl min a) := by
    induction l generalizing a with
    | nil => rfl
    | cons b l ih => exact ih (min a b)
  cases l with
  | nil => rfl
  | cons a l => exact hs l a

theorem mem_giving {sched : Schedule} {v : Fin 7} {t : Triple} {x : Nat} :
    x ∈ ((candidates sched v t).filter (gives sched v t)).map Int.toNat ↔ Found sched v t x := by
  simp only [List.mem_map, List.mem_filter, gives_iff]
  constructor
  · rintro ⟨_, ⟨-, z, rfl, hz⟩, rfl⟩
    exact hz
  · intro h
    obtain ⟨-, -, rfl⟩ := id h
    exact ⟨x, ⟨mem_candidates sched v x, x, rfl, h⟩, rfl⟩

/-- The search finds the least second that gives the triple (R50). -/
theorem firstGiving_eq_some {sched : Schedule} {v : Fin 7} {t : Triple} {x : Nat} :
    firstGiving sched v t = some x ↔ Found sched v t x ∧ ∀ z, Found sched v t z → x ≤ z := by
  rw [firstGiving, foldl_minOption, List.min?_eq_some_iff]
  simp only [mem_giving]

/-- The search fails when no second gives the triple (R51). -/
theorem firstGiving_eq_none {sched : Schedule} {v : Fin 7} {t : Triple} :
    firstGiving sched v t = none ↔ ∀ x, ¬ Found sched v t x := by
  rw [firstGiving, foldl_minOption, List.min?_eq_none_iff, List.eq_nil_iff_forall_not_mem]
  simp only [mem_giving]

/-! ## Reads -/

/-- A second whose result a converted read shows: the result fits, the second is at or above the floor end, and no earlier
one gives the same (R33, R35). -/
def Shown (sched : Schedule) (v : Fin 7) (second : Nat) : Prop :=
  (rawResult sched v second).seconds ≥ 0 ∧ (rawResult sched v second).seconds < 2 ^ 48 ∧ sched.base.floorEnd ≤ second ∧
    ∀ earlier, sched.base.floorEnd ≤ earlier → earlier < second → rawResult sched v earlier ≠ rawResult sched v second

/-- Word 0 of a result in a view (R34, R36). -/
def resultWord0 (v : Fin 7) (t : Triple) : Word := mkWord0 (BitVec.ofInt 48 t.seconds) (viewTag v) t.inserted t.fold

theorem secondsFit_iff (x : Int) : secondsFit x = true ↔ 0 ≤ x ∧ x < 2 ^ 48 := by
  have hmax : Config.maxSecond = 2 ^ 48 - 1 := rfl
  simp only [secondsFit, decide_eq_true_eq]
  omega

/-- A shown second is converted (R34, R36, R37). -/
theorem convertPlain_shown {sched : Schedule} {v : Fin 7} {x : Second} (h : Shown sched v x.toNat) :
    convertPlain sched v x = some (resultWord0 v (rawResult sched v x.toNat)) := by
  obtain ⟨h0, hm, hf, he⟩ := h
  have hfit := (secondsFit_iff _).mpr ⟨h0, hm⟩
  have hg : firstGiving sched v (rawResult sched v x.toNat) = some x.toNat :=
    firstGiving_eq_some.mpr ⟨⟨hf, x.isLt, rfl⟩, fun z ⟨hz, _, hr⟩ => Nat.le_of_not_lt fun hlt => he z hz hlt hr⟩
  unfold convertPlain
  rw [if_neg (by omega)]
  simp only [hfit, hg, Bool.not_true, Bool.false_eq_true, if_false, Nat.lt_irrefl]
  rfl

/-- Every other second shows nothing: an earlier one gives the same result, or the result cannot be held (R33, R35). -/
theorem convertPlain_hidden {sched : Schedule} {v : Fin 7} {x : Second} (h : ¬ Shown sched v x.toNat) :
    convertPlain sched v x = none := by
  unfold convertPlain
  split
  · rfl
  rename_i hf
  dsimp only
  split
  · rfl
  rename_i hfit
  simp only [Bool.not_eq_true', Bool.not_eq_false, secondsFit_iff] at hfit
  have hself : Found sched v (rawResult sched v x.toNat) x.toNat := ⟨by omega, x.isLt, rfl⟩
  have hearly : ∃ z, sched.base.floorEnd ≤ z ∧ z < x.toNat ∧ rawResult sched v z = rawResult sched v x.toNat := by
    by_contra hc
    exact h ⟨hfit.1, hfit.2, by omega, fun z hz hlt hr => hc ⟨z, hz, hlt, hr⟩⟩
  obtain ⟨z, hz, hlt, hr⟩ := hearly
  cases hg : firstGiving sched v (rawResult sched v x.toNat) with
  | none => exact absurd hself (firstGiving_eq_none.mp hg _)
  | some y =>
    have hy := (firstGiving_eq_some.mp hg).2 z ⟨hz, by omega, hr⟩
    exact if_pos (by omega)

/-- What a second shows, when it shows anything. -/
theorem convertPlain_eq_some {sched : Schedule} {v : Fin 7} {x : Second} {w : Word} (h : convertPlain sched v x = some w) :
    Shown sched v x.toNat ∧ w = resultWord0 v (rawResult sched v x.toNat) := by
  by_cases hs : Shown sched v x.toNat
  · rw [convertPlain_shown hs] at h
    exact ⟨hs, (Option.some.inj h).symm⟩
  · rw [convertPlain_hidden hs] at h
    cases h

/-- The result of a shown second can be read off its word 0. -/
theorem triple_resultWord0 {v : Fin 7} {t : Triple} (h0 : 0 ≤ t.seconds) (hm : t.seconds < 2 ^ 48) :
    writtenTriple (resultWord0 v t) = t := by
  have hs : ((BitVec.ofInt 48 t.seconds).toNat : Int) = t.seconds := by
    rw [BitVec.toNat_ofInt]
    omega
  simp only [writtenTriple, resultWord0, recSeconds_mkWord0, recInserted_mkWord0, recFold_mkWord0, hs]

/-- Of two seconds with one result the later shows none (R35). -/
theorem convertPlain_injective {sched : Schedule} {v : Fin 7} {x y : Second} {w : Word}
    (hx : convertPlain sched v x = some w) (hy : convertPlain sched v y = some w) : x = y := by
  obtain ⟨⟨hx0, hxm, hxf, hxe⟩, hwx⟩ := convertPlain_eq_some hx
  obtain ⟨⟨hy0, hym, hyf, hye⟩, hwy⟩ := convertPlain_eq_some hy
  have hr : rawResult sched v x.toNat = rawResult sched v y.toNat := by
    rw [← triple_resultWord0 (v := v) hx0 hxm, ← triple_resultWord0 (v := v) hy0 hym, ← hwx, ← hwy]
  refine BitVec.eq_of_toNat_eq ?_
  rcases Nat.lt_trichotomy x.toNat y.toNat with h | h | h
  · exact absurd hr (hye _ hxf h)
  · exact h
  · exact absurd hr.symm (hxe _ hyf h)

/-- The least second that gives a written triple shows that triple (R35, R50). -/
theorem convertPlain_first {sched : Schedule} {v : Fin 7} {w0 : Word} {x : Nat}
    (h : Found sched v (writtenTriple w0) x) (hleast : ∀ z, Found sched v (writtenTriple w0) z → x ≤ z) :
    convertPlain sched v (BitVec.ofNat 48 x) =
      some (mkWord0 (recSeconds w0) (viewTag v) (recInserted w0) (recFold w0)) := by
  obtain ⟨hf, hm, hr⟩ := h
  have hxn : (BitVec.ofNat 48 x).toNat = x := by rw [BitVec.toNat_ofNat, Nat.mod_eq_of_lt hm]
  have hlt := (recSeconds w0).isLt
  have hshown : Shown sched v (BitVec.ofNat 48 x).toNat := by
    rw [hxn]
    refine ⟨?_, ?_, hf, fun z hz hzx hzr => ?_⟩
    · rw [hr]; exact Int.natCast_nonneg _
    · rw [hr]; simp only [writtenTriple]; omega
    · exact absurd (hleast z ⟨hz, by omega, hzr.trans hr⟩) (by omega)
  rw [convertPlain_shown hshown, hxn, hr]
  simp only [resultWord0, writtenTriple, BitVec.ofInt_natCast, BitVec.ofNat_toNat, BitVec.setWidth_eq]

/-- What inverse conversion stores is the least second that gives the written triple (R50). -/
theorem convertWrite_eq_ok {sched : Schedule} {v : Fin 7} {w0 stored : Word} (h : convertWrite sched v w0 = .ok stored) :
    ∃ x, Found sched v (writtenTriple w0) x ∧ (∀ z, Found sched v (writtenTriple w0) z → x ≤ z) ∧
      stored = mkWord0 (BitVec.ofNat 48 x) tagUniform false false := by
  unfold convertWrite at h
  dsimp only at h
  split at h
  · rename_i x hx
    obtain ⟨hf, hleast⟩ := firstGiving_eq_some.mp hx
    exact ⟨x, hf, hleast, (Except.ok.inj h).symm⟩
  · split at h <;> cases h

/-- Settles O37: no result is shown for two seconds, and the second a write stores shows the written triple. -/
theorem writableViewsAreOneToOne : Obligations.WritableViewsAreOneToOne := by
  refine ⟨fun sched v x y w hx hy => convertPlain_injective hx hy, fun sched v w0 w1 stored hform hw => ?_⟩
  obtain ⟨x, hf, hleast, rfl⟩ := convertWrite_eq_ok hw
  have htag : recTag w0 = viewTag v := by
    simp only [writtenFormOk, Bool.and_eq_true, beq_iff_eq] at hform
    exact hform.1.1
  rw [recSeconds_mkWord0, htag]
  exact convertPlain_first hf hleast

end Sys2Proof.Machine
end

section
/-! PROOFS. Converted reads: one lookup, and the converted record or the stored one with UNCONVERTED (R29, R32 to R37, R44 to
R46). -/

namespace Sys2Proof.Machine

/-- The record a converted read returns of a shown second, and of one that is not (R32 step 4, R33). -/
theorem convertRead_plain {k : Nat} {sched : Schedule} {v : Fin 7} {w0 w1 : Word} (hv : v ≠ 6) :
    (Shown sched v (recSeconds w0).toNat → convertRead k sched v w0 w1 =
      (resultWord0 v (rawResult sched v (recSeconds w0).toNat), w1)) ∧
    (¬ Shown sched v (recSeconds w0).toNat → convertRead k sched v w0 w1 = (unconvertedWord0 w0, w1)) := by
  unfold convertRead
  rw [if_neg hv]
  exact ⟨fun h => by rw [convertPlain_shown h]; rfl, fun h => by rw [convertPlain_hidden h]; rfl⟩

/-- The three forms of a read that memory answers, as the statements write them. -/
theorem readForm {s : State} {m : Master} {v : Fin 7} {r : BitVec 8} {j : Nat} {sh : Shape}
    (h : (j = 0 ∧ sh = .burst 1) ∨ (j = 0 ∧ sh = .beat .eight) ∨
      (j = 8 ∧ sh = .beat .eight ∧ ∀ l, s.path.latches[m.toFin] = some l → ¬ (l.record = r ∧ l.view = v))) :
    ∃ p : RecordPart, j = p.start ∧ sh = p.shape ∧ LatchMiss s m v r p := by
  rcases h with ⟨rfl, rfl⟩ | ⟨rfl, rfl⟩ | ⟨rfl, rfl, hl⟩
  · exact ⟨.both, rfl, rfl, fun hc => nomatch hc⟩
  · exact ⟨.word0, rfl, rfl, fun hc => nomatch hc⟩
  · exact ⟨.word1, rfl, rfl, fun _ => hl⟩

/-- The answer of a read by its shape and place, as the statements write it. -/
theorem State.shown_eq (s : State) (m : Master) (v : Fin 7) (r : BitVec 8) (p : RecordPart) (w0 w1 : Word) :
    s.shown m v r p w0 w1 =
      if p.shape = .burst 1 then (setLatch m none s).answered m true (wordBytes w0 ++ wordBytes w1)
      else if p.start = 0 then
        (setLatch m (some { record := r, view := v, word1 := w1 }) s).answered m true (wordBytes w0)
      else (setLatch m none s).answered m true (wordBytes w1) := by
  cases p <;> rfl

theorem needsLookup_eq_true {smear : Bool} {v : Fin 7} {w0 w1 : Word} : needsLookup smear v w0 w1 = true ↔
    (field w0 6 8 = 0#8 ∧ (field w1 3 32).toNat ≤ 999999999) ∧ (v = 6 → smear = true) := by
  simp only [needsLookup, convertible, Bool.and_eq_true, Bool.or_eq_true, beq_iff_eq, bne_iff_ne, decide_eq_true_eq,
    imp_iff_not_or]
  rfl

/-- A converted read from its offer to memory's answer: on ERROR zero data; on OK a lookup, or the record as stored with
UNCONVERTED set (R32, R33, R44, R155). -/
theorem converted_read {s : State} {m : Master} {v : Fin 7} {r : BitVec 8} {p : RecordPart} (h : Ready s)
    (hp : s.status.part = .active) (hv : v ≠ 0) (hz : 2 ≤ v.val → v.val ≤ 5 → v.val - 2 < zoneCount s)
    (hl : LatchMiss s m v r p) (w0 w1 : Word) : ∃ t,
    exec (.timeViewRead m (BitVec.ofNat 16 (viewOffset v r p)) p.shape) s = .next t ∧
    (∀ d, exec (.memoryAnswer false d) t =
      .next ((setLatch m none s).answered m false (List.replicate p.shape.bytes 0#8))) ∧
    exec (.memoryAnswer true (wordBytes w0 ++ wordBytes w1)) t = .next (
      if needsLookup s.status.config.glob.smearEnable v w0 w1 then s.converting m v r p w0 w1
      else s.shown m v r p (unconvertedWord0 w0) w1) := by
  refine ⟨_, exec_timeViewRead h hp hz hl, exec_viewRead_error h, ?_⟩
  have hk := exec_viewRead_ok (m := m) (v := v) (r := r) (p := p) h w0 w1
  rwa [if_neg hv] at hk

/-- Settles O34: the lookup's answer shows a result at its first second alone. -/
theorem convertedReadShowsEachResultOnce : Obligations.ConvertedReadShowsEachResultOnce := by
  intro m v r w0 w1 j sh s h hl hp hv1 hv5 hz hform
  obtain ⟨p, rfl, rfl, hmiss⟩ := readForm hform
  have hv0 : v ≠ 0 := fun hc => by subst hc; exact absurd hv1 (by simp)
  have hv6 : v ≠ 6 := fun hc => by subst hc; exact absurd hv5 (by simp)
  obtain ⟨t, ht, herr, hok⟩ := converted_read h hp hv0 (fun h2 _ => hz h2) hmiss w0 w1
  have hn : needsLookup s.status.config.glob.smearEnable v w0 w1 = true ↔
      field w0 6 8 = 0#8 ∧ (field w1 3 32).toNat ≤ 999999999 := by
    rw [needsLookup_eq_true]
    exact and_iff_left fun hc => absurd hc hv6
  refine ⟨t, _, ht, herr, hok, fun hc => ?_, fun htag hnan => ?_⟩
  · rw [if_neg (by rw [hn]; rintro ⟨h1, h2⟩; rcases hc with hc | hc; exacts [hc h1, by omega])]
    exact State.shown_eq ..
  · rw [if_pos (hn.mpr ⟨htag, hnan⟩)]
    obtain ⟨hshown, hhidden⟩ := convertRead_plain (k := s.status.config.glob.smearExponent.toNat)
      (sched := s.list.sched) (w0 := w0) (w1 := w1) hv6
    refine ⟨rfl, fun hs => ?_, fun hs => ?_⟩
    · rw [exec_lookup_converting h hl, hshown hs, State.shown_eq]
      rfl
    · rw [exec_lookup_converting h hl, hhidden hs, State.shown_eq]
      rfl

end Sys2Proof.Machine
end

section
/-! PROOFS. Writes through the time views: view 0 stores the record as written, the converted views store the uniform second
or refuse (R31, R46 to R51, R57). -/

namespace Sys2Proof.Machine

section Writes

variable {s : State} {m : Master} {v : Fin 7} {r : BitVec 8} {p : RecordPart} {d : List Byte}

/-- An access whose data have its length goes to memory as it came. -/
theorem carried_write {a : Access} (hd : a.dir = .write) (hl : a.data.length = a.shape.bytes) : carried a = a := by
  simp only [carried, hd, accessBytes, accessLen, fit_self hl]
  rw [← hd]

/-- A write of a record other than the live one is none (R57). -/
theorem isLiveWrite_other (a : Access) (hr : r ≠ 0#8) : isLiveWrite a (viewOffset v r p) = false := by
  rw [isLiveWrite, recordOf_viewOffset, beq_eq_false_iff_ne.mpr hr]
  rfl

/-- The write of memory is held with the latch emptied (R31, R46). -/
theorem exec_view0Write (h : Ready s) (hp : s.status.part = .active) (hr : r ≠ 0#8) (hl : d.length = p.shape.bytes) :
    exec (.view0Write m (BitVec.ofNat 16 (viewOffset 0 r p)) p.shape d) s = .next ((setLatch m none s).waitingFor
      (viewAccess s m 0 r p .write d) (.store .none) (viewAccess s m 0 r p .write d)) := by
  rw [exec_viewAccess (v := 0) (r := r) (p := p) (dir := .write) (d := d) h hp rfl (fun h2 => absurd h2 (by simp))
    (fun _ => ⟨hr, by decide, fun hc => absurd rfl hc⟩), carryOut_viewWrite, timeViewWrite, viewOf_viewOffset]
  dsimp only
  rw [if_pos rfl, isLiveWrite_other _ hr, carried_write (a := viewAccess s m 0 r p .write d) rfl hl]
  exact congrArg _ (holdAndIssue_one (s := setLatch m none s) h.quiet h.issued)

/-- Settles O35: the write goes to memory as it came, and its answer is relayed. -/
theorem viewZeroWriteIsStoredAsWritten : Obligations.ViewZeroWriteIsStoredAsWritten := by
  intro m r off sh d s h hp hr hl hform
  have hp' : ∃ p : RecordPart, off = BitVec.ofNat 16 (viewOffset 0 r p) ∧ sh = p.shape := by
    have place {p : RecordPart} (ho : off.toNat = viewOffset 0 r p) : off = BitVec.ofNat 16 (viewOffset 0 r p) :=
      BitVec.eq_of_toNat_eq (ho.trans (viewOffset_toNat 0 r p).symm)
    rcases hform with ⟨ho, rfl | rfl⟩ | ⟨ho, rfl⟩
    · exact ⟨.word0, place (by rw [ho]; simp [viewOffset, RecordPart.start]), rfl⟩
    · exact ⟨.both, place (by rw [ho]; simp [viewOffset, RecordPart.start]), rfl⟩
    · exact ⟨.word1, place (by rw [ho]; simp [viewOffset, RecordPart.start]; omega), rfl⟩
  obtain ⟨p, rfl, rfl⟩ := hp'
  exact ⟨_, exec_view0Write h hp hr hl, rfl,
    fun x => exec_memoryOk_write _ _ _ x (h.setLatch m none) rfl (.inr rfl),
    fun x => exec_memoryError _ _ _ x (h.setLatch m none) fun _ _ _ _ hj => nomatch hj⟩

/-! ## Converted writes -/

/-- A write of both words of a record through a view. -/
def viewWrite (s : State) (m : Master) (v : Fin 7) (r : BitVec 8) (w0 w1 : Word) : Access :=
  viewAccess s m v r .both .write (wordBytes w0 ++ wordBytes w1)

theorem viewWrite_words (s : State) (m : Master) (v : Fin 7) (r : BitVec 8) (w0 w1 : Word) :
    firstWord (viewWrite s m v r w0 w1) = w0 ∧ secondWord (viewWrite s m v r w0 w1) = w1 := by
  have hl : (wordBytes w0 ++ wordBytes w1).length = 16 := by
    rw [List.length_append, wordBytes_length, wordBytes_length]
  have hb : accessBytes (viewWrite s m v r w0 w1) = wordBytes w0 ++ wordBytes w1 := fit_self hl
  rw [firstWord, secondWord, hb, List.take_left' (wordBytes_length w0), List.drop_left' (wordBytes_length w0),
    List.take_of_length_le (by simp), bytesWord_wordBytes, bytesWord_wordBytes]
  exact ⟨rfl, rfl⟩

/-- The state while a record is being stored, the writer's latch emptied (R46, R47). -/
def State.storing (s : State) (m : Master) (v : Fin 7) (r : BitVec 8) (w0 w1 w : Word) : State :=
  (setLatch m none s).waitingFor (viewWrite s m v r w0 w1) .relay (recordWrite s m r w w1)

/-- A refusal of an access to the views empties the latch whether or not it was emptied before, and frees the unit
whatever it held. -/
theorem refuse_emptied (kind : FaultKind) {a : Access} (hw : windowOf (regionOff a (regionBase s)) = .views)
    (x : Option Held) :
    refuse kind a ((setLatch a.master none s).setPath { (setLatch a.master none s).path with held := x }) =
      refuse kind a s := by
  have hb : regionBase ((setLatch a.master none s).setPath { (setLatch a.master none s).path with held := x }) =
      regionBase s := rfl
  unfold refuse
  dsimp only
  rw [hb, if_pos hw, if_pos hw]
  cases hf : s.path.fault <;> simp [recordFault, hf, answerError_eq, setLatch, raise, State.answered] <;> rfl

theorem refuse_viewWrite (kind : FaultKind) (w0 w1 : Word) (x : Option Held) (h : s.path.held = none) :
    refuse kind (viewWrite s m v r w0 w1)
        ((setLatch m none s).setPath { (setLatch m none s).path with held := x }) =
      s.refusedWith kind (viewWrite s m v r w0 w1) := by
  have hw : windowOf (regionOff (viewWrite s m v r w0 w1) (regionBase s)) = .views := by
    rw [viewWrite, regionOff_viewAccess, windowOf_viewOffset]
  exact (refuse_emptied kind hw x).trans (refuse_eq kind _ h)

/-- A write through views 1 to 5 by its words: stored as written, looked up, or refused for its form (R47 to R49). -/
theorem timeViewWrite_converted (h : Ready s) (hv0 : v ≠ 0) (w0 w1 : Word) :
    timeViewWrite (viewWrite s m v r w0 w1) (viewOffset v r .both) s =
      if recUnconverted w0 then s.storing m v r w0 w1 w0
      else if writtenFormOk v w0 w1 then
        ask (.lookup .converter) (hold (viewWrite s m v r w0 w1) (.timeInvert v r w0 w1) (setLatch m none s))
      else s.refusedWith .nonexistentTime (viewWrite s m v r w0 w1) := by
  have hm : (viewWrite s m v r w0 w1).master = m := rfl
  obtain ⟨h0, h1⟩ := viewWrite_words s m v r w0 w1
  have hstore : holdAndIssue (viewWrite s m v r w0 w1) .relay [recordWrite (setLatch m none s) m r w0 w1]
      (setLatch m none s) = s.storing m v r w0 w1 w0 := holdAndIssue_one (s := setLatch m none s) h.quiet h.issued
  have hrefuse : refuse .nonexistentTime (viewWrite s m v r w0 w1) (setLatch m none s) =
      s.refusedWith .nonexistentTime (viewWrite s m v r w0 w1) := refuse_viewWrite _ w0 w1 s.path.held h.free
  unfold timeViewWrite
  dsimp only
  rw [viewOf_viewOffset, recordOf_viewOffset, if_neg hv0, h0, h1, hm, ← hstore, ← hrefuse]
  rfl

theorem exec_convertedViewWrite (h : Ready s) (hp : s.status.part = .active) (hr : r ≠ 0#8) (hv0 : v ≠ 0) (hv6 : v ≠ 6)
    (hz : 2 ≤ v.val → v.val ≤ 5 → v.val - 2 < zoneCount s) (w0 w1 : Word) :
    exec (.convertedViewWrite m (BitVec.ofNat 16 (viewOffset v r .both)) (.burst 1) (wordBytes w0 ++ wordBytes w1)) s =
      .next (if recUnconverted w0 then s.storing m v r w0 w1 w0
        else if writtenFormOk v w0 w1 then
          ask (.lookup .converter) (hold (viewWrite s m v r w0 w1) (.timeInvert v r w0 w1) (setLatch m none s))
        else s.refusedWith .nonexistentTime (viewWrite s m v r w0 w1)) := by
  rw [exec_viewAccess (v := v) (r := r) (p := .both) (dir := .write) (d := wordBytes w0 ++ wordBytes w1) h hp rfl hz
    (fun _ => ⟨hr, hv6, fun _ => rfl⟩), carryOut_viewWrite, ← timeViewWrite_converted h hv0 w0 w1]
  rfl

/-- The lookup answer of a converted write (R47, R50, R51). -/
theorem exec_lookup_inverting (h : Ready s) (hl : ListFree s) (w0 w1 : Word) :
    exec .lookupClaim (ask (.lookup .converter) (hold (viewWrite s m v r w0 w1) (.timeInvert v r w0 w1)
      (setLatch m none s))) = .next (match convertWrite s.list.sched v w0 with
        | .ok stored => s.storing m v r w0 w1 stored
        | .error kind => s.refusedWith kind (viewWrite s m v r w0 w1)) := by
  have hlook := exec_converterLookup
    (s := hold (viewWrite s m v r w0 w1) (.timeInvert v r w0 w1) (setLatch m none s)) hl
  refine hlook.trans ?_
  have hc : converterLookup s.list.sched (hold (viewWrite s m v r w0 w1) (.timeInvert v r w0 w1) (setLatch m none s)) =
      match convertWrite s.list.sched v w0 with
        | .ok stored => s.storing m v r w0 w1 stored
        | .error kind => s.refusedWith kind (viewWrite s m v r w0 w1) := by
    simp only [converterLookup, hold_path]
    cases convertWrite s.list.sched v w0 with
    | ok stored =>
      exact holdAndIssue_one (s := hold (viewWrite s m v r w0 w1) (.timeInvert v r w0 w1) (setLatch m none s))
        h.quiet h.issued
    | error kind => exact refuse_viewWrite kind w0 w1 _ h.free
  simp only [hold_list, setLatch_list]
  rw [hc, serve_nil]
  split
  · exact h.alone
  · exact h.alone

/-- Memory's answer to a record being stored is relayed (R47). -/
theorem exec_storing (h : Ready s) (w0 w1 w : Word) :
    (s.storing m v r w0 w1 w).path.outstanding = some (recordWrite s m r w w1) ∧
    (∀ x, exec (.memoryAnswer true x) (s.storing m v r w0 w1 w) = .next ((setLatch m none s).answered m true [])) ∧
    (∀ x, exec (.memoryAnswer false x) (s.storing m v r w0 w1 w) = .next ((setLatch m none s).answered m false [])) :=
  ⟨rfl, fun x => exec_memoryOk_write _ _ _ x (h.setLatch m none) rfl (.inl rfl),
    fun x => exec_memoryError _ _ _ x (h.setLatch m none) fun _ _ _ _ hj => nomatch hj⟩

end Writes

/-- The outcome of inverse conversion: the least second that gives the triple, or one of two refusals (R50, R51). -/
theorem convertWrite_eq (sched : Schedule) (v : Fin 7) (w0 : Word) :
    (∀ x, Found sched v (writtenTriple w0) x → (∀ z, Found sched v (writtenTriple w0) z → x ≤ z) →
      convertWrite sched v w0 = .ok (mkWord0 (BitVec.ofNat 48 x) tagUniform false false)) ∧
    ((∀ x, ¬ Found sched v (writtenTriple w0) x) → convertWrite sched v w0 = .error
      (if (writtenTriple w0).seconds < (rawResult sched v sched.base.floorEnd).seconds then .outOfRangeTime
        else .nonexistentTime)) := by
  unfold convertWrite
  dsimp only
  refine ⟨fun x hx hleast => ?_, fun hnone => ?_⟩
  · rw [firstGiving_eq_some.mpr ⟨hx, hleast⟩]
  · rw [firstGiving_eq_none.mpr hnone]
    exact (apply_ite Except.error _ _ _).symm

theorem writtenFormOk_iff {v : Fin 7} {w0 w1 : Word} : writtenFormOk v w0 w1 = true ↔
    field w0 6 8 = BitVec.ofNat 8 v.val ∧ (field w1 3 32).toNat ≤ 999999999 ∧
      ¬ (v.val = 1 ∧ (field w0 7 8).getLsbD 1 = true) := by
  have h1 : v = 1 ↔ v.val = 1 := Fin.ext_iff
  simp only [writtenFormOk, Bool.and_eq_true, beq_iff_eq, decide_eq_true_eq, Bool.not_eq_true', Bool.and_eq_false_iff,
    beq_eq_false_iff_ne, ne_eq, h1, and_assoc, not_and_or, Bool.not_eq_true]
  rfl

/-- Settles O36: by the words of the write, and for a well-formed one by the answer of its lookup. -/
theorem convertedWriteStoresTheUniformSecond : Obligations.ConvertedWriteStoresTheUniformSecond := by
  intro m v r w0 w1 s h hl hp hv1 hv5 hr hz
  have hv0 : v ≠ 0 := fun hc => by subst hc; exact absurd hv1 (by simp)
  have hv6 : v ≠ 6 := fun hc => by subst hc; exact absurd hv5 (by simp)
  have he := exec_convertedViewWrite (m := m) h hp hr hv0 hv6 (fun h2 _ => hz h2) w0 w1
  refine ⟨fun (hu : recUnconverted w0 = true) => ⟨s.storing m v r w0 w1 w0, he.trans ?_, exec_storing h w0 w1 w0⟩,
    fun (hu : recUnconverted w0 = false) hf => he.trans ?_, fun (hu : recUnconverted w0 = false) hf => ?_⟩
  · rw [if_pos hu]
  · rw [if_neg (Bool.eq_false_iff.mp hu), if_neg (mt writtenFormOk_iff.mp hf)]
    rfl
  · rw [if_neg (Bool.eq_false_iff.mp hu), if_pos (writtenFormOk_iff.mpr hf)] at he
    obtain ⟨hfound, hnone⟩ := convertWrite_eq s.list.sched v w0
    refine ⟨_, he, h.quiet, rfl, fun x hx hleast =>
      ⟨s.storing m v r w0 w1 (mkWord0 (BitVec.ofNat 48 x) tagUniform false false),
        (exec_lookup_inverting h hl w0 w1).trans ?_, exec_storing h w0 w1 _⟩, fun hx => ?_⟩
    · rw [hfound x hx hleast]
    · refine (exec_lookup_inverting h hl w0 w1).trans ?_
      rw [hnone hx]
      rfl

end Sys2Proof.Machine
end

section
/-! PROOFS. Smeared civil: the smear amount, and a view-6 read as a shift of the old civil instant (R33, R39 to R42). -/

namespace Sys2Proof.Machine

/-! ## The smear amount (R40) -/

theorem smearAmount_eq (k : Nat) (b x n f : Int) :
    smearAmount k b x n f = (((x - (b - 2 ^ k)) * 1000000000 + n) * 65536 + f) / 2 ^ k := rfl

theorem smearAmount_nonneg {k : Nat} {b x n f : Int} (hn : 0 ≤ n) (hf : 0 ≤ f) (hx : b - 2 ^ k ≤ x) :
    0 ≤ smearAmount k b x n f := by
  rw [smearAmount_eq]
  exact Int.ediv_nonneg (by omega) (by positivity)

/-- Before the boundary fewer than 2^k seconds of the window have passed, so the amount is below one second. -/
theorem smearAmount_lt {k : Nat} {b x n f : Int} (hn : n < 1000000000) (hf : f < 65536) (hx : x < b) :
    smearAmount k b x n f < 65536000000000 := by
  rw [smearAmount_eq]
  exact Int.ediv_lt_of_lt_mul (by positivity) (by omega)

/-- A later instant has passed at least as much of the window. -/
theorem smearAmount_mono {k : Nat} {b x n f x' n' f' : Int} (hn : n < 1000000000) (hf : f < 65536) (hn' : 0 ≤ n')
    (hf' : 0 ≤ f') (h : (x, n, f) = (x', n', f') ∨ x < x' ∨ (x = x' ∧ (n < n' ∨ (n = n' ∧ f < f')))) :
    smearAmount k b x n f ≤ smearAmount k b x' n' f' := by
  rw [smearAmount_eq, smearAmount_eq]
  refine Int.ediv_le_ediv (by positivity) ?_
  rw [Prod.mk.injEq, Prod.mk.injEq] at h
  omega

/-! ## The instant shown (R39, R41) -/

/-- How far the smear moves an instant: back before an insertion, forward before a deletion, nowhere outside the window. -/
def smearShift (k : Nat) (sched : Schedule) (second nanos fraction : Nat) : Int :=
  match sched.entries.find? fun e => e.scale == .civil && decide (second < e.boundary.toNat) with
  | none => 0
  | some e =>
    let amount := smearAmount k e.boundary.toNat second nanos fraction
    if (second : Int) < e.boundary.toNat - 2 ^ k then 0 else if e.kind = .leap .delete then amount else - amount

/-- The old civil instant of a record, in fraction units (R28, R41). -/
def civilInstant (sched : Schedule) (w0 w1 : Word) : Int :=
  (((recSeconds w0).toNat - offsetAt sched .civil (recSeconds w0).toNat) * 1000000000 + recNanos w1) * 65536 +
    recFraction w1

/-- The instant a view-6 read shows. -/
def smearedInstant (k : Nat) (sched : Schedule) (w0 w1 : Word) : Int :=
  civilInstant sched w0 w1 + smearShift k sched (recSeconds w0).toNat (recNanos w1) (recFraction w1)

/-- The two words that show an instant, with the writer tag of a stored word 1. -/
def instantWords (u : Int) (w1 : Word) : Word × Word :=
  (mkWord0 (BitVec.ofInt 48 (u / 65536000000000)) (viewTag 6) false false,
    mkWord1 (u % 65536000000000 / 65536).toNat (u % 65536).toNat (recWriter w1))

/-- The words of an instant whose seconds fit, and nothing otherwise (R33, R41). -/
def fittingWords (u : Int) (w1 : Word) : Option (Word × Word) :=
  if secondsFit (u / 65536000000000) then some (instantWords u w1) else none

theorem recFraction_lt (w1 : Word) : recFraction w1 < 65536 := (field w1 5 16).isLt

/-- The instant of a record gives back its seconds and its word 1. -/
theorem fittingWords_plain {old : Int} {w1 : Word} (hn : recNanos w1 ≤ 999999999) :
    fittingWords ((old * 1000000000 + recNanos w1) * 65536 + recFraction w1) w1 =
      if secondsFit old then some (mkWord0 (BitVec.ofInt 48 old) (viewTag 6) false false, w1) else none := by
  have hf := recFraction_lt w1
  have h1 : ((old * 1000000000 + recNanos w1) * 65536 + recFraction w1) / 65536000000000 = old := by omega
  have h2 : (((old * 1000000000 + recNanos w1) * 65536 + recFraction w1) % 65536000000000 / 65536).toNat =
      recNanos w1 := by omega
  have h3 : (((old * 1000000000 + recNanos w1) * 65536 + recFraction w1) % 65536).toNat = recFraction w1 := by omega
  rw [fittingWords, instantWords, h1, h2, h3, mkWord1_fields]

/-- At or above the floor end a view-6 read shows the smeared instant, when its seconds fit (R33, R39 to R41). -/
theorem convertSmeared_above {k : Nat} {sched : Schedule} {w0 w1 : Word} (hn : recNanos w1 ≤ 999999999)
    (hf : sched.base.floorEnd ≤ (recSeconds w0).toNat) :
    convertSmeared k sched w0 w1 = fittingWords (smearedInstant k sched w0 w1) w1 := by
  have hplain := fittingWords_plain (old := (recSeconds w0).toNat - offsetAt sched .civil (recSeconds w0).toNat) hn
  have hlow : ¬ (recSeconds w0).toNat < sched.base.floorEnd := by omega
  unfold convertSmeared smearedInstant smearShift
  simp only [if_neg hlow]
  change _ = fittingWords (_ + match nextCivil sched (recSeconds w0).toNat with | none => _ | some e => _) _
  cases nextCivil sched (recSeconds w0).toNat with
  | none =>
    rw [Int.add_zero]
    exact hplain.symm
  | some e =>
    dsimp only
    by_cases hw : ((recSeconds w0).toNat : Int) < e.boundary.toNat - 2 ^ k
    · rw [if_pos hw, if_pos hw, Int.add_zero]
      exact hplain.symm
    · rw [if_neg hw, if_neg hw]
      split
      · rfl
      · rw [← Int.sub_eq_add_neg]
        rfl

theorem convertSmeared_below {k : Nat} {sched : Schedule} {w0 w1 : Word}
    (hf : (recSeconds w0).toNat < sched.base.floorEnd) : convertSmeared k sched w0 w1 = none := by
  unfold convertSmeared
  exact if_pos hf

/-- A record whose instant can be shown: its second is at or above the floor end, and the shifted seconds fit. -/
def InstantShown (k : Nat) (sched : Schedule) (w0 w1 : Word) : Prop :=
  sched.base.floorEnd ≤ (recSeconds w0).toNat ∧ 0 ≤ smearedInstant k sched w0 w1 ∧
    smearedInstant k sched w0 w1 < 2 ^ 48 * 65536000000000

/-- The record a view-6 read returns on its lookup answer (R32 step 4, R33). -/
theorem convertRead_smeared {k : Nat} {sched : Schedule} {w0 w1 : Word} (hn : recNanos w1 ≤ 999999999) :
    (InstantShown k sched w0 w1 →
      convertRead k sched 6 w0 w1 = instantWords (smearedInstant k sched w0 w1) w1) ∧
    (¬ InstantShown k sched w0 w1 → convertRead k sched 6 w0 w1 = (unconvertedWord0 w0, w1)) := by
  have hfit : secondsFit (smearedInstant k sched w0 w1 / 65536000000000) = true ↔
      0 ≤ smearedInstant k sched w0 w1 ∧ smearedInstant k sched w0 w1 < 2 ^ 48 * 65536000000000 := by
    rw [secondsFit_iff]
    omega
  unfold convertRead
  rw [if_pos rfl]
  refine ⟨fun ⟨hf, hs⟩ => ?_, fun h => ?_⟩
  · rw [convertSmeared_above hn hf, fittingWords, if_pos (hfit.mpr hs)]
    rfl
  · by_cases hf : sched.base.floorEnd ≤ (recSeconds w0).toNat
    · rw [convertSmeared_above hn hf, fittingWords, if_neg fun hc => h ⟨hf, hfit.mp hc⟩]
      rfl
    · rw [convertSmeared_below (Nat.lt_of_not_le hf)]
      rfl

/-- What the two words of an instant hold (section 11.3). -/
theorem instantWords_fields {u : Int} (h0 : 0 ≤ u) (hm : u < 2 ^ 48 * 65536000000000) (w1 : Word) :
    ((field (instantWords u w1).1 5 48).toNat : Int) = u / 65536000000000 ∧
    ((field (instantWords u w1).2 3 32).toNat : Int) = u % 65536000000000 / 65536 ∧
    ((field (instantWords u w1).2 5 16).toNat : Int) = u % 65536 ∧
    field (instantWords u w1).1 6 8 = 6#8 ∧ field (instantWords u w1).1 7 8 = 0#8 ∧
    field (instantWords u w1).2 7 16 = field w1 7 16 := by
  obtain ⟨hn, hf, hw⟩ := fields_mkWord1 (u % 65536000000000 / 65536).toNat (u % 65536).toNat (recWriter w1)
  refine ⟨?_, ?_, ?_, recTag_mkWord0 .., flags_mkWord0 .., hw⟩
  · have hs : field (instantWords u w1).1 5 48 = BitVec.ofInt 48 (u / 65536000000000) := recSeconds_mkWord0 ..
    rw [hs, BitVec.toNat_ofInt]
    omega
  · rw [instantWords, hn, BitVec.toNat_ofNat]
    omega
  · rw [instantWords, hf, BitVec.toNat_ofNat]
    omega

/-- Settles O38: the amount is monotone and below a second, and the lookup's answer shows the instant shifted by it. -/
theorem smearedReadShiftsTheInstant : Obligations.SmearedReadShiftsTheInstant := by
  refine ⟨fun k b x n f x' n' f' hn0 hn hf0 hf hn0' _ hf0' _ hx hb =>
    ⟨smearAmount_nonneg hn0 hf0 hx, smearAmount_lt hn hf hb, smearAmount_mono hn hf hn0' hf0'⟩, ?_⟩
  intro m r w0 w1 j sh s h hl hp htag hnan hform
  obtain ⟨p, rfl, rfl, hmiss⟩ := readForm hform
  obtain ⟨t, ht, herr, hok⟩ := converted_read (v := 6) h hp (by decide) (fun _ h5 => absurd h5 (by decide)) hmiss w0 w1
  have hn : needsLookup s.status.config.glob.smearEnable 6 w0 w1 = true ↔
      s.status.config.glob.smearEnable = true := by
    rw [needsLookup_eq_true, and_iff_right ⟨htag, hnan⟩]
    exact forall_prop_of_true rfl
  obtain ⟨hshown, hhidden⟩ := convertRead_smeared (k := s.status.config.glob.smearExponent.toNat)
    (sched := s.list.sched) (w0 := w0) (w1 := w1) hnan
  refine ⟨t, _, ht, herr, hok, fun hc => ?_, fun hc => ?_⟩
  · rw [if_neg (by rw [hn, hc]; simp)]
    exact State.shown_eq ..
  · rw [if_pos (hn.mpr hc)]
    refine ⟨rfl, fun hs => ⟨_, _, ?_, instantWords_fields hs.2.1 hs.2.2 w1⟩, fun hs => ?_⟩
    · rw [exec_lookup_converting h hl, hshown hs, State.shown_eq]
      rfl
    · rw [exec_lookup_converting h hl, hhidden hs, State.shown_eq]
      rfl

end Sys2Proof.Machine
end

section
/-! PROOFS. One step; marks, window expiries and RESET at the Second Supervisor (R54 to R66, R71). -/

namespace Sys2Proof.Machine

/-! ## One step, and the part while RESET is asserted -/

/-- Settles O1: the front command runs on the rest of the queue, and on an empty queue one cycle passes. -/
theorem stepRunsTheFrontCommand : Obligations.StepRunsTheFrontCommand := by
  refine ⟨fun _ _ _ => rfl, fun s h => ?_⟩
  simp only [step, h]
  rfl

/-- No record is taken where the qualifier cannot take one (R98). -/
theorem qualifierTake_of_not_canTake {s : State} (h : canTake s = false) : qualifierTake s = s := by
  have hone : takeRecord s = s := by simp [takeRecord, h]
  have hall (n : Nat) : takeRecords n s = s := by
    induction n with
    | zero => rfl
    | succ n ih => rw [takeRecords, hone, ih]
  exact hall _

/-- Settles O5: marks and expiries only let their cycles pass, the qualifier cannot take, and the unit is not free. -/
theorem nothingIsTakenWhileResetIsAsserted : Obligations.NothingIsTakenWhileResetIsAsserted := by
  intro s h
  refine ⟨fun e => ?_, fun e => ?_, ?_, fun c a hc => ?_⟩
  · simp [exec, execSecondMark, mark, advanceCounter_eq, h]
  · simp [exec, execWindowExpiry, windowExpiry, advanceCounter_eq, h]
  · have hcan : canTake s = false := by simp [canTake, isActive, h]
    exact congrArg _ (qualifierTake_of_not_canTake hcan)
  · have hbusy : pathFree (s.setCard (s.card ++ [a])) = false := by simp [pathFree, h]
    rw [exec_access hc, offer, serve_busy hbusy]

/-! ## A change of S by the supervisor -/

@[simp] theorem State.elapsed_zero (s : State) : s.elapsed 0#32 = s := by simp [State.elapsed]

@[simp] theorem State.elapsed_tol (s : State) (e : Count) : (s.elapsed e).tol = s.tol := by simp [State.tol]

@[simp] theorem State.elapsed_nextSecond (s : State) (e : Count) : (s.elapsed e).nextSecond = s.nextSecond := by
  simp [State.nextSecond]

@[simp] theorem State.moved_sup (s : State) (new : Supervisor) (es : List Event) : (s.moved new es).sup = new := rfl

/-- A move by way of another supervisor that holds the same second. -/
theorem setSup_moved {s : State} {mid : Supervisor} (h : mid.s = s.sup.s) (new : Supervisor) (es : List Event) :
    (s.setSup mid).moved new es = s.moved new es := by
  simp [State.moved, h]

/-- A supervisor that keeps S hands nothing on. -/
theorem moved_of_same_second {s : State} {new : Supervisor} (h : new.s = s.sup.s) (es : List Event) :
    s.moved new es = raise es (s.setSup new) := by
  simp [State.moved, raise, handOn, h, State.setList, State.setWires, State.setSup]

/-- A supervisor updated in what is not S. -/
theorem setSup_eq_moved {s : State} (new : Supervisor) (h : new.s = s.sup.s) : s.setSup new = s.moved new [] := by
  rw [moved_of_same_second h, raise_nil]

/-! ## What a judged mark and an expiry leave -/

/-- A move of the supervisor by which S is set last, with the events it raises. -/
theorem raise_changeS_moved {s : State} (new : Supervisor) (es : List Event) :
    raise es (changeS new.s (s.setSup { new with s := s.sup.s })) = s.moved new es := by
  rw [changeS_moved (new := new) rfl rfl, raise_moved, List.nil_append]

/-- The supervisor after the first mark in ACQUIRING (R59). -/
def State.lockedAt (s : State) (x : Count) : Supervisor :=
  { s.sup with s := s.nextSecond, timeBase := .locked, p := x, missed := 0#16, stray := .none, disagree := 0 }

theorem acquiringLock_eq (x : Count) (s : State) : acquiringLock x s = s.moved (s.lockedAt x) [.timebaseChange] :=
  raise_changeS_moved (s.lockedAt x) _

/-- The supervisor after a mark inside the window (R61). -/
def State.marked (s : State) (x : Count) : Supervisor :=
  { s.sup with
    s := s.nextSecond, timeBase := .locked, p := x, missed := 0#16, stray := .none
    holdover := if s.sup.timeBase = .flywheel then false else s.sup.holdover }

theorem inWindowMark_eq (x : Count) (s : State) : inWindowMark x s =
    s.moved (s.marked x) (if s.sup.timeBase = .flywheel then [.timebaseChange] else []) := by
  rw [← raise_changeS_moved]
  unfold inWindowMark State.marked
  dsimp only
  split
  · rfl
  · exact (raise_nil _).symm

/-- The supervisor after the third stray of a run (R66). -/
def State.reAnchored (s : State) (x : Count) : Supervisor :=
  { s.sup with
    s := if (x - s.sup.p).toNat < 50000000 then s.sup.s else s.nextSecond
    timeBase := .locked, p := x, missed := 0#16, stray := .none, holdover := false }

theorem reAnchor_eq (x : Count) (s : State) : reAnchor x s = s.moved (s.reAnchored x) [.timebaseChange] := by
  have hd : distance x s.sup.p < Config.nominalCount / 2 ↔ (x - s.sup.p).toNat < 50000000 := Iff.rfl
  unfold reAnchor
  dsimp only
  by_cases h : (x - s.sup.p).toNat < 50000000
  · rw [if_pos (hd.mpr h), moved_of_same_second (if_pos h)]
    simp only [State.reAnchored, if_pos h]
  · have hs : (s.reAnchored x).s = s.nextSecond := if_neg h
    rw [if_neg (mt hd.mp h), ← raise_changeS_moved, hs]
    rfl

/-- The stray run after one more stray at `x`; none where this is the third of the run (R65, R66). -/
def nextStray (tol : Nat) (x : Count) : StrayRun → Option StrayRun
  | .none => some (.one x)
  | .one last => some (if nearNominal tol (distance x last) then .two x else .one x)
  | .two last => if nearNominal tol (distance x last) then none else some (.one x)

/-- A stray lengthens or restarts the run, or re-anchors. -/
theorem strayMark_eq (x : Count) (s : State) : strayMark x s = match nextStray s.tol x s.sup.stray with
    | some r => s.setSup { s.sup with stray := r }
    | none => s.moved (s.reAnchored x) [.timebaseChange] := by
  cases h : s.sup.stray with
  | none => rw [strayMark_none x h]; rfl
  | one last => rw [strayMark_one x h]; rfl
  | two last =>
    rw [strayMark_two x h, tolerance_eq, nextStray, reAnchor_eq]
    split <;> rfl

/-- The missed count raised by one stays at its greatest value (R63). -/
theorem raiseMissed_eq (m : BitVec 16) : raiseMissed m = if m = 65535#16 then 65535#16 else m + 1#16 := by
  unfold raiseMissed
  split
  · assumption
  · rfl

/-- The missed count after an expiry (R63). -/
def State.missedNext (s : State) : BitVec 16 :=
  if s.sup.timeBase = .flywheel then raiseMissed s.sup.missed else 1#16

/-- The expiry reports long holdover: the missed count comes to the limit, and none is reported yet (R63). -/
def State.reportsHoldover (s : State) : Bool :=
  decide (s.missedNext = s.status.config.glob.holdoverLimit ∧ s.sup.holdover = false)

/-- The supervisor after a substitute mark (R62, R63). -/
def State.substituted (s : State) : Supervisor :=
  { s.sup with
    s := s.nextSecond, timeBase := .flywheel, p := s.sup.p + 100000000#32, missed := s.missedNext
    holdover := s.sup.holdover || s.reportsHoldover }

/-- The events a substitute mark raises (R62, R63). -/
def State.substituteEvents (s : State) : List Event :=
  (if s.sup.timeBase = .locked then [.timebaseChange] else []) ++ (if s.reportsHoldover then [.longHoldover] else [])

theorem substituteMark_eq (s : State) : substituteMark s = s.moved s.substituted s.substituteEvents := by
  rw [← raise_changeS_moved, State.substituteEvents]
  simp only [State.reportsHoldover, decide_eq_true_eq]
  rfl

/-! ## Marks and expiries, cycles included -/

/-- The state whose mark is judged: the cycles have passed and the mark is captured (R54). -/
def State.withMark (s : State) (e : Count) : State := (s.elapsed e).setSup (s.captured (s.counter + e))

section Marks

variable {s : State} (e : Count)

/-- A move after a mark is captured, by the supervisor it leaves. -/
theorem withMark_moved (new : Supervisor) (es : List Event) :
    (s.withMark e).moved new es = (s.elapsed e).moved new es := setSup_moved (by simp) new es

@[simp] theorem withMark_sup : (s.withMark e).sup = s.captured (s.counter + e) := rfl

@[simp] theorem withMark_tol : (s.withMark e).tol = s.tol := State.elapsed_tol s e

@[simp] theorem withMark_nextSecond : (s.withMark e).nextSecond = s.nextSecond := rfl

/-- A mark inside the window (R61). -/
theorem exec_mark_inside (h : s.resetAsserted = false) (ht : s.sup.timeBase = .locked ∨ s.sup.timeBase = .flywheel)
    (hin : inWindow s (s.counter + e) = true) : exec (.secondMark e) s = .next ((s.elapsed e).moved
      ((s.withMark e).marked (s.counter + e)) (if s.sup.timeBase = .flywheel then [.timebaseChange] else [])) := by
  have hw : inWindow (s.withMark e) (s.counter + e) = true := by
    rw [inWindow_iff, withMark_tol]
    exact (inWindow_iff _ _).mp hin
  rw [exec_secondMark e h, ← withMark_moved]
  exact congrArg _ ((judgeMark_window (s := s.withMark e) _ ht).trans ((if_pos hw).trans (inWindowMark_eq _ _)))

/-- A mark outside the window (R65, R66). -/
theorem exec_mark_outside (h : s.resetAsserted = false) (ht : s.sup.timeBase = .locked ∨ s.sup.timeBase = .flywheel)
    (hout : ¬ inWindow s (s.counter + e) = true) : exec (.secondMark e) s = .next (
      match nextStray s.tol (s.counter + e) s.sup.stray with
      | some r => (s.elapsed e).setSup { s.captured (s.counter + e) with stray := r }
      | none => (s.elapsed e).moved ((s.withMark e).reAnchored (s.counter + e)) [.timebaseChange]) := by
  have hw : ¬ inWindow (s.withMark e) (s.counter + e) = true := by
    rw [inWindow_iff, withMark_tol]
    exact mt (inWindow_iff _ _).mpr hout
  rw [exec_secondMark e h, ← withMark_moved]
  have hj := (judgeMark_window (s := s.withMark e) _ ht).trans ((if_neg hw).trans (strayMark_eq _ _))
  refine congrArg _ (hj.trans ?_)
  rw [withMark_tol]
  rfl

/-- An expiry with no window, or before the window has ended (R60). -/
theorem exec_expiry_idle (h : s.resetAsserted = false) (hw : windowOver (s.elapsed e) = false) :
    exec (.windowExpiry e) s = .next (s.elapsed e) := by
  rw [exec_windowExpiry e h, hw]
  rfl

/-- An expiry when the window has ended (R62, R63). -/
theorem exec_expiry_over (h : s.resetAsserted = false) (hw : windowOver (s.elapsed e) = true) :
    exec (.windowExpiry e) s = .next ((s.elapsed e).moved s.substituted s.substituteEvents) := by
  have hm : (s.elapsed e).missedNext = s.missedNext := by simp [State.missedNext]
  have hr : (s.elapsed e).reportsHoldover = s.reportsHoldover := by simp [State.reportsHoldover, hm]
  have hs : (s.elapsed e).substituted = s.substituted := by simp [State.substituted, hm, hr]
  have he : (s.elapsed e).substituteEvents = s.substituteEvents := by simp [State.substituteEvents, hr]
  rw [exec_windowExpiry e h, hw, substituteMark_eq, hs, he]
  rfl

theorem windowOver_elapsed : windowOver (s.elapsed e) = true ↔
    hasWindow s.sup.timeBase = true ∧ 100000000 + s.tol + 1 ≤ (s.counter + e - s.sup.p).toNat := by
  rw [windowOver_eq]
  simp

theorem hasWindow_iff (t : TimeBase) : hasWindow t = true ↔ t = .locked ∨ t = .flywheel := by
  cases t <;> simp [hasWindow]

end Marks

/-! ## The statements -/

/-- Settles O6: in UNSET the captured mark is not judged, in ACQUIRING it locks the time base. -/
theorem markBeforeLockIsCapturedAndLocks : Obligations.MarkBeforeLockIsCapturedAndLocks := by
  refine fun e s h => ⟨fun ht => ?_, fun ht => ?_⟩
  · rw [exec_secondMark e h]
    simp only [judgeMark, State.setSup_sup, State.captured_timeBase, ht]
  · have hj : judgeMark (s.counter + e) (s.withMark e) = acquiringLock (s.counter + e) (s.withMark e) := by
      simp only [judgeMark, withMark_sup, State.captured_timeBase, ht]
    rw [exec_secondMark e h]
    exact congrArg _ (hj.trans ((acquiringLock_eq _ _).trans (withMark_moved e _ _)))

/-- Settles O7: the mark inside the window, by the state of the time base. -/
theorem inWindowMarkAdvancesTheSecond : Obligations.InWindowMarkAdvancesTheSecond := by
  intro e s h hlo hhi
  have hin : inWindow s (s.counter + e) = true := (inWindow_iff _ _).mpr ⟨hlo, hhi⟩
  refine ⟨fun ht => ?_, fun ht => ?_⟩
  · rw [exec_mark_inside e h (.inl ht) hin]
    simp [State.marked, ht]
  · rw [exec_mark_inside e h (.inr ht) hin]
    simp [State.marked, ht]

/-- Settles O8: the stray after none, after one and after two, near to the last or not. -/
theorem strayMarksReAnchorAtTheThird : Obligations.StrayMarksReAnchorAtTheThird := by
  intro e s h ht hout x near strays
  have hmark := exec_mark_outside e h ht (mt (inWindow_iff _ _).mp hout)
  have hnear (last : Count) : nearNominal s.tol (distance x last) = true ↔ near last := decide_eq_true_iff
  refine ⟨fun hr => ?_, fun last hr => ⟨fun hn => ?_, fun hn => ?_⟩,
    fun last hr => ⟨fun hn => ?_, fun hn => ?_⟩⟩
  · rw [hr] at hmark
    exact hmark
  · rw [hr, nextStray, if_pos ((hnear last).mpr hn)] at hmark
    exact hmark
  · rw [hr, nextStray, if_neg (mt (hnear last).mp hn)] at hmark
    exact hmark
  · rw [hr, nextStray, if_neg (mt (hnear last).mp hn)] at hmark
    exact hmark
  · rw [hr, nextStray, if_pos ((hnear last).mpr hn)] at hmark
    exact hmark

/-- Settles O9: the expiry by the state of the time base and the end of the window. -/
theorem windowExpiryMakesASubstituteMark : Obligations.WindowExpiryMakesASubstituteMark := by
  intro e s h x ended reports raised
  have hover : windowOver (s.elapsed e) = true ↔ hasWindow s.sup.timeBase = true ∧ ended := windowOver_elapsed e
  refine ⟨fun hc => ?_, fun ht he => ?_, fun ht he => ?_⟩
  · refine exec_expiry_idle e h (Bool.eq_false_iff.mpr fun hw => ?_)
    obtain ⟨hwin, he⟩ := hover.mp hw
    rcases hc with ht | ht | hn
    · rw [ht] at hwin; cases hwin
    · rw [ht] at hwin; cases hwin
    · exact hn he
  · have hm : s.missedNext = 1#16 := by simp [State.missedNext, ht]
    rw [exec_expiry_over e h (hover.mpr ⟨(hasWindow_iff _).mpr (.inl ht), he⟩)]
    simp only [State.substituted, State.substituteEvents, State.reportsHoldover, hm, ht, if_true, decide_eq_true_eq]
    rfl
  · have hm : s.missedNext = raised := by rw [State.missedNext, if_pos ht, raiseMissed_eq]
    rw [exec_expiry_over e h (hover.mpr ⟨(hasWindow_iff _).mpr (.inr ht), he⟩)]
    simp only [State.substituted, State.substituteEvents, State.reportsHoldover, hm, ht, decide_eq_true_eq]
    rfl

/-! ## A late mark and the expiry (R64) -/

@[simp] theorem State.moved_resetAsserted (s : State) (new : Supervisor) (es : List Event) :
    (s.moved new es).resetAsserted = s.resetAsserted := rfl
@[simp] theorem State.moved_counter (s : State) (new : Supervisor) (es : List Event) :
    (s.moved new es).counter = s.counter := rfl
@[simp] theorem State.moved_tol (s : State) (new : Supervisor) (es : List Event) : (s.moved new es).tol = s.tol := rfl
@[simp] theorem State.setSup_tol (s : State) (new : Supervisor) : (s.setSup new).tol = s.tol := rfl

theorem tol_le (s : State) : s.tol ≤ 10000000 := Nat.min_le_right _ _

/-- The distance from an anchor moved by N. -/
theorem distance_moved_anchor {x p : Count} (h : 100000000 ≤ (x - p).toNat) :
    (x - (p + 100000000#32)).toNat = (x - p).toNat - 100000000 := by
  rw [← BitVec.sub_sub, BitVec.toNat_sub_of_le (by rw [BitVec.le_def]; exact h)]
  rfl

@[simp] theorem State.moved_list (s : State) (new : Supervisor) (es : List Event) : (s.moved new es).list =
    { s.list with coming := s.list.coming ++ handOn s.sup.s new.s } := rfl

@[simp] theorem handOn_self (x : Second) : handOn x x = [] := if_pos rfl

/-- The state after the expiry, before a late mark. -/
def State.expired (s : State) (e : Count) : State := (s.elapsed e).moved s.substituted s.substituteEvents

@[simp] theorem State.expired_sup (s : State) (e : Count) : (s.expired e).sup = s.substituted := rfl

/-- A captured mark and a stray run stay as they are at an expiry (R62). -/
theorem substituted_of_stray {s t : State} {x : Count} {r : StrayRun} (hsup : t.sup = { s.captured x with stray := r })
    (hstatus : t.status = s.status) :
    t.substituted = { s.substituted with previous := s.sup.present, present := some x, stray := r } := by
  have hm : t.missedNext = s.missedNext := by simp only [State.missedNext, hsup]; rfl
  have hr : t.reportsHoldover = s.reportsHoldover := by simp only [State.reportsHoldover, hm, hsup, hstatus]; rfl
  have hn : t.nextSecond = s.nextSecond := by simp only [State.nextSecond, hsup]; rfl
  simp only [State.substituted, hm, hr, hn, hsup]
  rfl

section LateMark

variable {s : State}

/-- The supervisor after a late mark that re-anchors, in either order with the expiry: S is advanced once. -/
def State.relocked (s : State) (x : Count) : Supervisor :=
  { s.captured x with
    s := s.nextSecond, timeBase := .locked, p := x, missed := 0#16, stray := .none, holdover := false }

variable {e : Count} (hlo : 100000000 + s.tol + 1 ≤ (s.counter + e - s.sup.p).toNat)
  (hhi : (s.counter + e - s.sup.p).toNat < 150000000)

include hlo hhi

/-- After the expiry the late mark lies less than half a second after P. -/
theorem late_of_expired : (s.counter + e - s.substituted.p).toNat = (s.counter + e - s.sup.p).toNat - 100000000 ∧
    (s.counter + e - s.substituted.p).toNat < 50000000 := by
  have hp : (s.counter + e - s.substituted.p).toNat = (s.counter + e - s.sup.p).toNat - 100000000 :=
    distance_moved_anchor (by omega)
  omega

/-- The late mark lies outside the window, before the expiry and after it. -/
theorem late_outside : ¬ inWindow s (s.counter + e) = true ∧ ¬ inWindow (s.expired e) (s.counter + e) = true := by
  have htol := tol_le s
  have hp := late_of_expired hlo hhi
  have ht : (s.expired e).tol = s.tol := State.elapsed_tol s e
  rw [inWindow_iff, inWindow_iff, ht, State.expired_sup]
  omega

/-- The mark judged first advances S itself (R66). -/
theorem reAnchored_late : (s.withMark e).reAnchored (s.counter + e) = s.relocked (s.counter + e) := by
  have hfar : ¬ (s.counter + e - (s.withMark e).sup.p).toNat < 50000000 := by
    rw [withMark_sup, State.captured_p]
    omega
  rw [State.reAnchored, if_neg hfar]
  rfl

/-- The mark judged after the expiry keeps the S that the expiry has advanced (R66). -/
theorem reAnchored_expired : ((s.expired e).withMark 0#32).reAnchored (s.counter + e) = s.relocked (s.counter + e) := by
  have hnear : (s.counter + e - ((s.expired e).withMark 0#32).sup.p).toNat < 50000000 := (late_of_expired hlo hhi).2
  rw [State.reAnchored, if_pos hnear]
  have hc : (s.expired e).counter + 0#32 = s.counter + e := BitVec.add_zero _
  simp only [withMark_sup, hc]
  rfl

end LateMark

/-- Settles O10: a mark that only lengthens or restarts the stray run leaves the second to the expiry, and one that
re-anchors advances S exactly when no expiry has. -/
theorem markAndExpiryAgreeInEitherOrder : Obligations.MarkAndExpiryAgreeInEitherOrder := by
  intro e s h ht hlo hhi
  obtain ⟨hout, houtx⟩ := late_outside hlo hhi
  have hwin : hasWindow s.sup.timeBase = true := (hasWindow_iff _).mpr ht
  have hmark := exec_mark_outside e h ht hout
  have hexpiry := exec_expiry_over e h ((windowOver_elapsed e).mpr ⟨hwin, hlo⟩)
  have hcount : (s.expired e).counter + 0#32 = s.counter + e := BitVec.add_zero _
  have htol : (s.expired e).tol = s.tol := State.elapsed_tol s e
  have hlate := exec_mark_outside (s := s.expired e) 0#32 (by simp [State.expired, h]) (.inr rfl) (by rwa [hcount])
  rw [State.elapsed_zero, htol, hcount, reAnchored_expired hlo hhi] at hlate
  rw [reAnchored_late hlo hhi] at hmark
  have hstray : (s.expired e).sup.stray = s.sup.stray := rfl
  rw [hstray] at hlate
  cases hn : nextStray s.tol (s.counter + e) s.sup.stray with
  | some r =>
    rw [hn] at hmark hlate
    have hsub : ((s.elapsed e).setSup { s.captured (s.counter + e) with stray := r }).substituted =
        { s.substituted with previous := s.sup.present, present := some (s.counter + e), stray := r } :=
      substituted_of_stray rfl (State.elapsed_status s e)
    refine ⟨_, _, _, _, hmark, exec_expiry_over 0#32 (by simp [h]) ?_, hexpiry, hlate, hsub, ?_⟩
    · rw [windowOver_elapsed]
      exact ⟨hwin, by simpa using hlo⟩
    · rw [hsub]
      simp [State.expired]
  | none =>
    rw [hn] at hmark hlate
    refine ⟨_, _, _, _, hmark, exec_expiry_idle 0#32 (by simp [h]) ?_, hexpiry, hlate, ?_, ?_⟩
    · rw [Bool.eq_false_iff, ne_eq, windowOver_elapsed]
      simp [State.relocked]
    · rw [State.elapsed_zero]
      rfl
    · have hs : s.substituted.s = (s.relocked (s.counter + e)).s := rfl
      simp [State.expired, hs]

end Sys2Proof.Machine
end

section
/-! PROOFS. The commands RESYNC-NOW and CLEAR-FAULT (R69, R180, R194). -/

namespace Sys2Proof.Machine

/-- RESYNC-NOW taken for a held access, which is answered (R69, R180). -/
theorem takeCommand_resyncNow {s : State} (h : s.path.held = none) {a : Access} (hd : a.dir = .write)
    (arg : BitVec 56) :
    takeCommand a (commandWord 4#8 arg) (s.holding a (.command (commandWord 4#8 arg))) =
      ((s.setSup { s.sup with resyncPending := true }).took (commandWord 4#8 arg)).answered a.master true [] := by
  have hfree : ({ s.path with held := none } : PathUnit) = s.path := by rw [← h]
  obtain ⟨-, -, -, hcmd, -⟩ := commandOf_commandWord arg
  rw [takeCommand, hcmd]
  simp only [answer, hd, takeResyncNow, State.holding, State.setStatus_path, State.setSup_path, State.setPath_path,
    hfree]
  rfl

/-- CLEAR-FAULT taken for a held access, which is answered (R194). -/
theorem takeCommand_clearFault {s : State} (h : s.path.held = none) {a : Access} (hd : a.dir = .write)
    (arg : BitVec 56) :
    takeCommand a (commandWord 5#8 arg) (s.holding a (.command (commandWord 5#8 arg))) =
      ((s.setPath { s.path with fault := none, secondFault := false }).took (commandWord 5#8 arg)).answered
        a.master true [] := by
  obtain ⟨-, -, -, -, hcmd⟩ := commandOf_commandWord arg
  rw [takeCommand, hcmd]
  simp only [answer, hd, takeClearFault, State.holding, State.setPath_path, ← h]
  rfl

/-- Settles O27: both commands are carried to memory and act on its OK; RESYNC-NOW is refused while TRANSPARENT. -/
theorem resyncNowAndClearFaultAct : Obligations.ResyncNowAndClearFaultAct := by
  intro m sh arg d s h h8 hm
  obtain ⟨-, -, -, hresync, hclear⟩ := commandOf_commandWord arg
  refine ⟨fun hp => exec_command_refused h h8 hm rfl (by rw [hresync, hp]; rfl), fun hp => ?_, ?_⟩
  · refine ⟨_, exec_command_allowed h h8 hm rfl (by rw [hresync, hp]; rfl), rfl, exec_command_error h _ d, ?_⟩
    rw [exec_command_ok h, takeCommand_resyncNow h.free rfl]
    rfl
  · refine ⟨_, exec_command_allowed h h8 hm rfl (by rw [hclear]; rfl), rfl, exec_command_error h _ d, ?_⟩
    rw [exec_command_ok h, takeCommand_clearFault h.free rfl]
    rfl

end Sys2Proof.Machine
end

section
/-! PROOFS. Live writes: the write of record 0 through view 0 by the clock master, and what the supervisor makes of its
second (R57 to R59, R67 to R69, R98). -/

namespace Sys2Proof.Machine

/-! ## The supervisor takes a live write -/

section LiveWrite

variable {s : State} {w : Second}

/-- In UNSET a live write sets S and leaves ACQUIRING (R58). -/
theorem liveWrite_unset (ht : s.sup.timeBase = .unset) : liveWrite w s =
    s.moved { s.sup with resyncPending := false, s := w, timeBase := .acquiring } [.timebaseChange] := by
  rw [← raise_changeS_moved]
  simp only [liveWrite, ht]
  rfl

/-- In ACQUIRING it sets S (R59). -/
theorem liveWrite_acquiring (ht : s.sup.timeBase = .acquiring) : liveWrite w s =
    s.moved { s.sup with resyncPending := false, s := w } [] := by
  rw [← raise_changeS_moved, raise_nil]
  simp only [liveWrite, ht]

/-- In LOCKED and FLYWHEEL it is checked against S (R67). -/
theorem liveWrite_checked (ht : s.sup.timeBase = .locked ∨ s.sup.timeBase = .flywheel) : liveWrite w s =
    liveCheck s.sup.resyncPending w (s.setSup { s.sup with resyncPending := false }) := by
  rcases ht with ht | ht <;> simp only [liveWrite, ht]

/-- A resync moves S and clears the disagreement run (R68). -/
theorem resync_eq (w : Second) (s : State) :
    resync w s = s.moved { s.sup with s := w, disagree := 0 } [.timebaseChange] :=
  raise_changeS_moved { s.sup with s := w, disagree := 0 } _

/-- The second agrees with S (R67). -/
theorem liveCheck_agrees {pending : Bool} (hw : w = s.sup.s) :
    liveCheck pending w s = s.moved { s.sup with disagree := 0 } [] := 
  (if_pos hw).trans (setSup_eq_moved { s.sup with disagree := 0 } rfl)

/-- The second differs, and resync pending is set or the disagreement run comes to the resync count (R68, R69). -/
theorem liveCheck_resyncs {pending : Bool} (hw : w ≠ s.sup.s)
    (hc : pending = true ∨ s.sup.disagree + 1 = resyncCount s) :
    liveCheck pending w s = s.moved { s.sup with s := w, disagree := 0 } [.timebaseChange] := by
  rw [liveCheck, if_neg hw, ← resync_eq]
  rcases hc with hp | hc
  · rw [if_pos hp]
  · rw [if_pos hc, ite_self]

/-- The second differs, and the disagreement run grows (R67). -/
theorem liveCheck_differs (hw : w ≠ s.sup.s) (hc : s.sup.disagree + 1 ≠ resyncCount s) :
    liveCheck false w s = s.moved { s.sup with disagree := s.sup.disagree + 1 } [] := by
  rw [liveCheck, if_neg hw, if_neg Bool.false_ne_true, if_neg hc]
  exact setSup_eq_moved { s.sup with disagree := s.sup.disagree + 1 } rfl

end LiveWrite

/-! ## The answer of a live write -/

/-- The answer of an access, after work of the inner blocks or before it. -/
theorem answer_eq_outer {s t : State} (h : InnerFrame s t) (a : Access) (ok : Bool) (d : List Byte) :
    answer a ok d t = t.outer (answer a ok d s).path (answer a ok d s).answers s.card s.pending := by
  simp only [answer, State.outer, State.setAnswers_path, State.setPath_path, State.setAnswers_answers, ← h.path,
    ← h.answers, ← h.card, ← h.pending]
  rfl

/-- The takes of a moment and the answer of an access commute. -/
theorem answer_qualifierTake (a : Access) (ok : Bool) (d : List Byte) (s : State) :
    answer a ok d (qualifierTake s) = qualifierTake (answer a ok d s) := by
  rw [answer_eq_outer (qualifierTake_inner s), answer_eq_outer (InnerFrame.refl s), qualifierTake_outer]
  rfl

/-- A write held while the supervisor moves is answered. -/
theorem answer_moved_hold {s : State} (h : s.path.held = none) {a : Access} (hd : a.dir = .write) (j : Job)
    (new : Supervisor) (es : List Event) (d : List Byte) :
    answer a true d ((hold a j s).moved new es) = (s.moved new es).answered a.master true [] := by
  have hf : answer a true d ((hold a j s).moved new es) = answer a true d (s.moved new es) := by
    simp only [answer, hd]
    rfl
  rw [hf]
  exact answer_write (s := s.moved new es) hd h

section Live

variable {s : State} {p : RecordPart} {w : Word} {rest : List Byte}

/-- The live write: record 0 through view 0, by the clock master. -/
def liveAccess (s : State) (p : RecordPart) (w : Word) (rest : List Byte) : Access :=
  viewAccess s s.status.config.glob.clockMaster 0 0#8 p .write (wordBytes w ++ rest)

/-- The four checks accept it (R57, R162). -/
theorem checkAccess_liveAccess : checkAccess s (liveAccess s p w rest) = none := by
  have ha : (liveAccess s p w rest).addr.toNat = regionBase s + viewOffset 0 0#8 p := viewAccess_addr
  have hr := viewOffset_range 0 0#8 p
  have hv := viewOffset_view 0 0#8 p
  have hb := not_badAddress_viewOffset (v := 0) (r := 0#8) (p := p) (s := s) (liveAccess s p w rest)
    fun h2 => absurd h2 (by simp)
  have hg : GoodShape (liveAccess s p w rest) (viewOffset 0 0#8 p) := goodShape_viewOffset rfl
  have hf : ¬ Foreign s (liveAccess s p w rest) (viewOffset 0 0#8 p) := by
    rintro (⟨hc, -⟩ | ⟨-, hc, -⟩ | ⟨-, -, hc⟩)
    · omega
    · omega
    · exact hc ⟨rfl, hv⟩
  have ho : ownershipStep s (liveAccess s p w rest) (viewOffset 0 0#8 p) = none :=
    (ownershipStep_native rfl ha hf).trans (if_neg (by omega))
  have hw : viewWriteStep (liveAccess s p w rest) (viewOffset 0 0#8 p) = none := by
    simp [viewWriteStep, viewOf_viewOffset]
  rw [checkAccess_eq ha, addressStep_good hb, (shapeStep_eq_none hb ha).mpr hg, ho, hw]
  rfl

theorem liveAccess_firstWord (hl : (wordBytes w ++ rest).length = p.shape.bytes) :
    firstWord (liveAccess s p w rest) = w := by
  have hb : accessBytes (liveAccess s p w rest) = wordBytes w ++ rest := fit_self hl
  rw [firstWord, hb, List.take_left' (wordBytes_length w), bytesWord_wordBytes]

/-- A live write is carried to memory, its master's latch emptied (R31, R46, R57). -/
theorem exec_liveWrite (h : Ready s) (hp : s.status.part = .active) (hp0 : p ≠ .word1) (ht : recTag w = tagUniform)
    (hl : (wordBytes w ++ rest).length = p.shape.bytes) {c : Instr} (hc : accessOf s c = some (liveAccess s p w rest)) :
    exec c s = .next ((setLatch s.status.config.glob.clockMaster none s).waitingFor (liveAccess s p w rest)
      (.store .liveWrite) (liveAccess s p w rest)) := by
  have hlive : isLiveWrite (liveAccess s p w rest) (viewOffset 0 0#8 p) = true := by
    rw [isLiveWrite, recordOf_viewOffset, viewOffset_start, liveAccess_firstWord hl, ht]
    cases p with
    | word1 => exact absurd rfl hp0
    | word0 => rfl
    | both => rfl
  have htake : takeAccess (liveAccess s p w rest) s = carryOut (liveAccess s p w rest) s :=
    takeAccess_accepted (isChecked_of_active hp inRegion_viewAccess) checkAccess_liveAccess
  have hcarry : carryOut (liveAccess s p w rest) s = timeViewWrite (liveAccess s p w rest) (viewOffset 0 0#8 p) s :=
    carryOut_viewWrite
  rw [exec_access hc, offer_ready _ h, htake, hcarry, timeViewWrite, viewOf_viewOffset]
  dsimp only
  rw [if_pos rfl, hlive, carried_write (a := liveAccess s p w rest) rfl hl]
  exact congrArg _ (holdAndIssue_one (s := setLatch s.status.config.glob.clockMaster none s) h.quiet h.issued)

/-- Memory's OK hands the second of a live write to the supervisor, and the write is answered (R57, R166); where it
leaves UNSET the qualifier takes (R98). -/
theorem exec_liveWrite_ok {u : State} (h : Ready u) (hl : (wordBytes w ++ rest).length = p.shape.bytes) (d : List Byte)
    {new : Supervisor} {es : List Event}
    (hlive : ∀ j, liveWrite (recSeconds w) (hold (liveAccess s p w rest) j u) =
      (hold (liveAccess s p w rest) j u).moved new es) :
    exec (.memoryAnswer true d) (u.waitingFor (liveAccess s p w rest) (.store .liveWrite) (liveAccess s p w rest)) =
      .next (if u.sup.timeBase = .unset then
          qualifierTake ((u.moved new es).answered s.status.config.glob.clockMaster true [])
        else (u.moved new es).answered s.status.config.glob.clockMaster true []) := by
  have hans (j : Job) (x : List Byte) : answer (liveAccess s p w rest) true x ((hold (liveAccess s p w rest) j u).moved
      new es) = (u.moved new es).answered s.status.config.glob.clockMaster true [] :=
    answer_moved_hold h.free rfl j new es x
  have hsup (j : Job) : (hold (liveAccess s p w rest) j u).sup = u.sup := rfl
  have hcard : ((u.moved new es).answered s.status.config.glob.clockMaster true []).card = [] := h.alone
  rw [exec_memoryOk _ _ _ _ h]
  simp only [memoryOk, handOff, liveWriteTaken, liveAccess_firstWord hl, hlive, hsup]
  split
  · rw [answer_qualifierTake, hans, serve_nil ((qualifierTake_inner _).card.trans hcard)]
  · rw [hans, serve_nil hcard]

/-- In UNSET S is set, and the qualifier takes a record where one waits (R58, R98). -/
theorem exec_liveWrite_unset {u : State} (h : Ready u) (hl : (wordBytes w ++ rest).length = p.shape.bytes)
    (d : List Byte) (ht : u.sup.timeBase = .unset) :
    exec (.memoryAnswer true d) (u.waitingFor (liveAccess s p w rest) (.store .liveWrite) (liveAccess s p w rest)) =
      exec .qualifierTake ((u.moved { u.sup with resyncPending := false, s := recSeconds w, timeBase := .acquiring }
        [.timebaseChange]).answered s.status.config.glob.clockMaster true []) := by
  rw [exec_liveWrite_ok h hl d
    (new := { u.sup with resyncPending := false, s := recSeconds w, timeBase := .acquiring })
    fun _ => liveWrite_unset ht, if_pos ht]
  rfl

/-- In the other states the write is answered with the supervisor moved. -/
theorem exec_liveWrite_set {u : State} (h : Ready u) (hl : (wordBytes w ++ rest).length = p.shape.bytes)
    (d : List Byte) (ht : u.sup.timeBase ≠ .unset) {new : Supervisor} {es : List Event}
    (hlive : ∀ j, liveWrite (recSeconds w) (hold (liveAccess s p w rest) j u) =
      (hold (liveAccess s p w rest) j u).moved new es) :
    exec (.memoryAnswer true d) (u.waitingFor (liveAccess s p w rest) (.store .liveWrite) (liveAccess s p w rest)) =
      .next ((u.moved new es).answered s.status.config.glob.clockMaster true []) := by
  rw [exec_liveWrite_ok h hl d hlive, if_neg ht]

/-- In LOCKED and FLYWHEEL what the live check makes of the second is answered (R67). -/
theorem exec_liveWrite_checked {u : State} (h : Ready u) (hl : (wordBytes w ++ rest).length = p.shape.bytes)
    (d : List Byte) (ht : u.sup.timeBase = .locked ∨ u.sup.timeBase = .flywheel) {new : Supervisor} {es : List Event}
    (hcheck : ∀ j, liveCheck u.sup.resyncPending (recSeconds w) ((hold (liveAccess s p w rest) j u).setSup
        { u.sup with resyncPending := false }) =
      ((hold (liveAccess s p w rest) j u).setSup { u.sup with resyncPending := false }).moved new es) :
    exec (.memoryAnswer true d) (u.waitingFor (liveAccess s p w rest) (.store .liveWrite) (liveAccess s p w rest)) =
      .next ((u.moved new es).answered s.status.config.glob.clockMaster true []) := by
  refine exec_liveWrite_set h hl d (by rcases ht with ht | ht <;> simp [ht]) fun j => ?_
  rw [liveWrite_checked (s := hold (liveAccess s p w rest) j u) ht]
  exact (hcheck j).trans (setSup_moved rfl new es)

end Live

/-- Settles O11: the live write is carried to memory; on its OK the supervisor takes the second by the state of the time
base. -/
theorem liveWriteSetsOrChecksTheSecond : Obligations.LiveWriteSetsOrChecksTheSecond := by
  intro w sh rest d s h hp htag hform m a second s1 sup count
  obtain ⟨p, hp0, hl, ha⟩ : ∃ p : RecordPart, p ≠ .word1 ∧
      (wordBytes w ++ rest).length = p.shape.bytes ∧ a = liveAccess s p w rest := by
    rcases hform with ⟨rfl, rfl⟩ | ⟨rfl, hr⟩
    · exact ⟨.word0, by decide, by rw [List.append_nil, wordBytes_length]; rfl, rfl⟩
    · exact ⟨.both, by decide, by rw [List.length_append, wordBytes_length, hr]; rfl, rfl⟩
  have hr1 : Ready s1 := h.setLatch m none
  have hexec := exec_liveWrite (c := .view0Write m 0x8000#16 sh (wordBytes w ++ rest)) h hp hp0 htag hl
    (congrArg some ha)
  refine ⟨_, hexec, congrArg some ha.symm, rfl, ?_, fun ht => ?_, fun ht => ?_, fun ht => ⟨fun hw => ?_,
    fun hw hc => ?_, fun hw hn hc => ?_⟩⟩
  · exact exec_memoryError _ _ _ _ hr1 fun _ _ _ _ hj => nomatch hj
  · exact exec_liveWrite_unset hr1 hl d ht
  · have hne : s1.sup.timeBase ≠ .unset := fun hu => nomatch ht.symm.trans hu
    exact exec_liveWrite_set hr1 hl d hne fun j => liveWrite_acquiring ht
  · exact exec_liveWrite_checked hr1 hl d ht fun j => liveCheck_agrees hw
  · exact exec_liveWrite_checked hr1 hl d ht fun j => liveCheck_resyncs hw hc
  · refine exec_liveWrite_checked hr1 hl d ht fun j => ?_
    have hpending : s1.sup.resyncPending = false := hn
    rw [hpending]
    exact liveCheck_differs hw hc

end Sys2Proof.Machine
end

section
/-! SUPPORT. Words written as their fields in a row, areas read word by word, reads outside the time views, and snapshot
claims at the list (R10, R15, R16, R158 to R161, R185). -/

namespace Sys2Proof.Machine

/-! ## Words written as their fields in a row -/

/-- Fields in a row, widened to a word. -/
theorem setWidth_append_word {n k : Nat} (x : BitVec n) (y : BitVec k) :
    (x ++ y).setWidth 64 = (x.setWidth 64 <<< k) ||| y.setWidth 64 := by
  apply BitVec.eq_of_getLsbD_eq
  intro i hi
  by_cases hk : i < k
  · simp [BitVec.getLsbD_append, hi, hk]
  · have hy : y.getLsbD i = false := BitVec.getLsbD_of_ge _ _ (by omega)
    simp [BitVec.getLsbD_append, hi, hk, hy]

/-- A word is known by what it is widened to its own width. -/
theorem eq_of_setWidth_word {x y : Word} (h : x = y.setWidth 64) : x = y := h.trans (BitVec.setWidth_eq y)

/-- A bit of a byte is a placed byte. -/
theorem placeBit_eq_place (last bit : Nat) (b : Bool) (h : bit < 8) :
    placeBit last bit b = place last (if b then 1#8 <<< bit else 0#8) := by
  have hone : (1#8 <<< bit).setWidth 64 = 1#64 <<< bit := by interval_cases bit <;> rfl
  cases b
  · simp [placeBit, place]
  · rw [placeBit, if_pos rfl, place, if_pos rfl, hone, ← BitVec.shiftLeft_add, Nat.add_comm]

/-- Values placed in one field are joined there. -/
theorem place_or (last : Nat) {n : Nat} (x y : BitVec n) : place last x ||| place last y = place last (x ||| y) := by
  simp [place, BitVec.setWidth_or, BitVec.shiftLeft_or_distrib]

/-- Two signed fields are the two halves of a word. -/
theorem twoOffsets_eq (x y : Int) : twoOffsets x y = BitVec.ofInt 32 x ++ BitVec.ofInt 32 y := by
  apply eq_of_setWidth_word
  rw [setWidth_append_word]
  simp [twoOffsets, signed32, place]

/-- A second stands below 16 zero bits. -/
theorem place_second (x : Second) : place 7 x = 0#16 ++ x := by
  apply eq_of_setWidth_word
  rw [setWidth_append_word]
  simp [place]

/-! ## Areas read word by word -/

/-- An area read from a word's first byte on, whole words. -/
theorem areaBytes_words (area : Nat → Word) (i n : Nat) :
    areaBytes area (8 * i) (8 * n) = (List.range n).flatMap fun e => wordBytes (area (i + e)) := by
  induction n with
  | zero => rfl
  | succ n ih =>
    have hlast : (List.range 8).map (fun j => wordByte (area ((8 * i + (8 * n + j)) / 8)) ((8 * i + (8 * n + j)) % 8)) =
        wordBytes (area (i + n)) := by
      refine List.map_congr_left fun j hj => ?_
      have hj8 := List.mem_range.mp hj
      rw [show (8 * i + (8 * n + j)) / 8 = i + n by omega, show (8 * i + (8 * n + j)) % 8 = j by omega]
    rw [List.range_succ, List.flatMap_append, ← ih, areaBytes, Nat.mul_succ, List.range_add, List.map_append,
      List.map_map, List.flatMap_singleton, ← hlast]
    rfl

/-- One word of an area. -/
theorem areaBytes_word (area : Nat → Word) (i : Nat) : areaBytes area (8 * i) 8 = wordBytes (area i) := by
  rw [show 8 = 8 * 1 from rfl, areaBytes_words]
  simp

/-! ## Reads outside the time views -/

/-- A checked read of an assigned offset, in an accepted shape, is carried out (R158 to R161). -/
theorem takeAccess_read {s : State} {a : Access} {off : Nat} (ha : a.addr.toNat = regionBase s + off)
    (hd : a.dir = .read) (hc : isChecked s a = true) (hb : ¬ BadAddress s a off) (hg : GoodShape a off) :
    takeAccess a s = carryOut a s := by
  have ho : ownershipStep s a off = none := by simp [ownershipStep, hd]
  have hv : viewWriteStep a off = none := by simp [viewWriteStep, hd]
  refine takeAccess_accepted hc ?_
  rw [checkAccess_eq ha, addressStep_good hb, (shapeStep_eq_none hb ha).mpr hg, ho, hv]
  rfl

/-! ## Snapshot claims -/

theorem ListFree.of_list {s t : State} (h : ListFree s) (hc : t.list.claims = s.list.claims)
    (hr : t.list.requests = s.list.requests) (hq : t.list.queries = s.list.queries) : ListFree t := by
  obtain ⟨h1, h2, h3⟩ := h
  exact ⟨hc.trans h1, hr.trans h2, hq.trans h3⟩

/-- A snapshot claim that is alone at the list is answered from the whole schedule (R15, R16). -/
theorem exec_snapshotClaim {s : State} (h : ListFree s) (who : Asker) :
    exec .snapshotClaim (ask (.snapshot who) s) = .next (serve (deliverSnapshot who s.list.sched s)) := by
  obtain ⟨hc, hr, hq⟩ := h
  have hn : nextQuery (ask (.snapshot who) s) = some (.snapshot who) := by simp [nextQuery, ask, hc, hr, hq]
  have hl : ({ s.list with queries := [] } : ChangeList) = s.list := by rw [← hq]
  have hp : popQuery (ask (.snapshot who) s) = s := by simp [popQuery, ask, hq, hl]
  rw [exec, execSnapshotClaim, takeSnapshot, hn]
  simp only [hp]
  rfl

end Sys2Proof.Machine
end


section
/-! PROOFS. Reads of the summary, the base record and the entry images: answered at once while TRANSPARENT, and from one
snapshot while ACTIVE (R54, R56, R184 to R187, R197). -/

namespace Sys2Proof.Machine

/-! ## The codes and the words of the page -/

theorem PartState.code_eq (p : PartState) : p.code = if p == .active then 1#8 else 0#8 := by cases p <;> rfl

theorem TimeBase.code_eq (t : TimeBase) :
    t.code = BitVec.ofNat 8 ([TimeBase.unset, .acquiring, .locked, .flywheel].idxOf t) := by cases t <;> rfl

theorem presentedOffset_eq (sched : Schedule) (sc : Scale) : presentedOffset sched sc =
    (((sched.entries.filter fun e => e.state == .applied && e.scale == sc).getLast?).map (·.new)).getD
      (sched.base.offset sc) := by
  have hn : newestAppliedOf sc sched.entries =
      (sched.entries.filter fun e => e.state == .applied && e.scale == sc).getLast? := rfl
  rw [presentedOffset, hn]
  cases (sched.entries.filter fun e => e.state == .applied && e.scale == sc).getLast? <;> rfl

theorem floorEndField_eq (n : Nat) :
    floorEndField n = if n < 2 ^ 48 then BitVec.ofNat 48 n else Config.floorEndShown n := by
  have h : n ≤ Config.maxSecond ↔ n < 2 ^ 48 := by rw [Config.maxSecond]; omega
  simp only [floorEndField, h]

/-- Two flags in the low bits of a byte. -/
theorem placeBits_two (last : Nat) (a b : Bool) : placeBit last 0 a ||| placeBit last 1 b =
    place last (BitVec.ofNat 8 ((if a then 1 else 0) + (if b then 2 else 0))) := by
  rw [placeBit_eq_place _ _ _ (by omega), placeBit_eq_place _ _ _ (by omega), place_or]
  cases a <;> cases b <;> rfl

/-- Three flags in the low bits of a byte. -/
theorem placeBits_three (last : Nat) (a b c : Bool) :
    placeBit last 0 a ||| placeBit last 1 b ||| placeBit last 2 c =
      place last (BitVec.ofNat 8 ((if a then 1 else 0) + (if b then 2 else 0) + (if c then 4 else 0))) := by
  rw [placeBits_two, placeBit_eq_place _ _ _ (by omega), place_or]
  cases a <;> cases b <;> cases c <;> rfl

/-- The first word of the summary, by its bytes (section 11.7). -/
theorem summaryWord_state (sm : StatusSample) (sched : Schedule) :
    summaryWord sm sched 0 = sm.part.code ++ sm.configError.code ++ sm.configError.sourceByte ++ sm.straps.page ++
      (0#4 ++ sm.straps.control) ++ sm.sup.timeBase.code ++ (sm.lastWinner.elim 255#8 fun n => BitVec.ofNat 8 n.val) ++
      (if sm.disagree then 1#8 else 0#8) := by
  have hdis : placeBit 7 0 sm.disagree = place 7 (if sm.disagree then 1#8 else 0#8) := placeBit_eq 0 _ (by omega)
  apply eq_of_setWidth_word
  simp only [summaryWord, hdis, setWidth_append_word, BitVec.shiftLeft_or_distrib, ← BitVec.shiftLeft_add]
  cases sm.lastWinner <;> simp [place]

/-- Captures and missed count (R54, R186). -/
theorem summaryWord_captures (sm : StatusSample) (sched : Schedule) :
    summaryWord sm sched 3 = captureDifference sm.sup ++ sm.sup.missed ++
      BitVec.ofNat 8 ((if sm.sup.present.isSome then 1 else 0) + (if sm.sup.previous.isSome then 2 else 0)) ++ 0#8 := by
  apply eq_of_setWidth_word
  rw [summaryWord, BitVec.or_assoc, placeBits_two]
  simp only [setWidth_append_word, BitVec.shiftLeft_or_distrib, ← BitVec.shiftLeft_add]
  simp [place]

/-- The presented civil offset and the counts of the entries (R186). -/
theorem summaryWord_counts (sm : StatusSample) (sched : Schedule) :
    summaryWord sm sched 4 = BitVec.ofInt 16 (presentedOffset sched .civil) ++ countState .armed sched.entries ++
      countState .frozen sched.entries ++ countState .applied sched.entries ++ 0#24 := by
  apply eq_of_setWidth_word
  simp only [summaryWord, setWidth_append_word, BitVec.shiftLeft_or_distrib, ← BitVec.shiftLeft_add]
  simp [place]

/-- The present and the previous capture (R54). -/
theorem summaryWord_present (sm : StatusSample) (sched : Schedule) :
    summaryWord sm sched 2 = sm.sup.present.getD 0#32 ++ sm.sup.previous.getD 0#32 := by
  apply eq_of_setWidth_word
  rw [setWidth_append_word]
  simp [summaryWord, place]

/-- The base civil offset (R8). -/
theorem baseWord_civil (b : BaseRecord) : baseWord b 2 = BitVec.ofInt 16 b.civil ++ 0#48 := by
  apply eq_of_setWidth_word
  rw [setWidth_append_word]
  simp [baseWord, place]

/-- The first word of an entry image, by its bytes (R187). -/
theorem entryWord_state (e : Entry) : entryWord (some e) 0 =
    1#8 ++ BitVec.ofNat 8 e.scale.rank ++ e.kind.code ++ e.state.code ++
      BitVec.ofNat 8 ((if e.late then 1 else 0) + (if e.steppedOver then 2 else 0) + (if e.gridDated then 4 else 0)) ++
      BitVec.ofNat 8 e.origin.val ++ 0#16 := by
  have hword : entryWord (some e) 0 = place 0 1#8 ||| place 1 (BitVec.ofNat 8 e.scale.rank) ||| place 2 e.kind.code |||
      place 3 e.state.code ||| (placeBit 4 0 e.late ||| placeBit 4 1 e.steppedOver ||| placeBit 4 2 e.gridDated) |||
      place 5 (BitVec.ofNat 8 e.origin.val) := by
    simp only [← BitVec.or_assoc]
    rfl
  apply eq_of_setWidth_word
  rw [hword, placeBits_three]
  simp only [setWidth_append_word, BitVec.shiftLeft_or_distrib, ← BitVec.shiftLeft_add]
  simp [place]

/-! ## One read of a word of the summary, the base record or an entry image -/

/-- The words of the page that one snapshot gives (R185): summary, base record and entry images. -/
def ListWord (n : Nat) : Prop := n < 8 ∨ (16 ≤ n ∧ n < 21) ∨ (128 ≤ n ∧ n < 256)

/-- What the page shows of these words depends on the sample and the snapshot alone, so that a state may stand for the
answer moment. -/
def Shows (sm : StatusSample) (n : Nat) (word : Schedule → Word) : Prop :=
  ∀ (sched : Schedule) (u : State), pageWord (pageView sm sched u) n = word sched

/-- A read of one word of the status page. -/
def statusAccess (s : State) (m : Master) (n : Nat) : Access :=
  regionAccess s m (BitVec.ofNat 16 (0x1000 + 8 * n)) .read (.beat .eight) []

section StatusRead

variable {s : State} {m : Master} {n : Nat}

theorem ListWord.lt (h : ListWord n) : n < 256 := by unfold ListWord at h; omega

theorem ListWord.covered (h : ListWord n) : coversList (8 * n) 8 = true := by
  unfold ListWord at h
  simp only [coversList, coversRange, Bool.or_eq_true, decide_eq_true_eq]
  omega

/-- A read of these words clears nothing (R188, R191). -/
theorem ListWord.clears_nothing (h : ListWord n) (u : State) : clearRead (8 * n) 8 u = u := by
  unfold ListWord at h
  have he : coversEvents (8 * n) 8 = false := by
    simp only [coversEvents, coversRange, decide_eq_false_iff_not]
    omega
  have hf (k : SourceNo) : coversFlags (8 * n) 8 k = false := by
    simp only [coversFlags, coversRange, decide_eq_false_iff_not]
    omega
  have hs : mapSources (fun _ src => src) u.intake.sources = u.intake.sources := by
    ext k hk
    simp [mapSources]
  simp only [clearRead, he, hf, Bool.false_eq_true, if_false, hs]
  rfl

theorem statusAccess_addr (h : ListWord n) : (statusAccess s m n).addr.toNat = regionBase s + (0x1000 + 8 * n) := by
  have := h.lt
  rw [statusAccess, regionAccess_addr, BitVec.toNat_ofNat]
  omega

theorem regionOff_statusAccess (h : ListWord n) : regionOff (statusAccess s m n) (regionBase s) = 0x1000 + 8 * n := by
  have ha := statusAccess_addr (s := s) (m := m) h
  rw [regionOff_of_le (ha ▸ Nat.le_add_right _ _), ha]
  exact Nat.add_sub_cancel_left _ _

/-- A read of the page is checked and accepted in both part states (R157 to R161). -/
theorem takeAccess_statusAccess (h : ListWord n) :
    takeAccess (statusAccess s m n) s = statusRead (statusAccess s m n) (0x1000 + 8 * n) s := by
  have hlt := h.lt
  have ha := statusAccess_addr (s := s) (m := m) h
  have hlen : accessLen (statusAccess s m n) = 8 := rfl
  have hc : isChecked s (statusAccess s m n) = true := by
    simp only [isChecked, touchesStatus, inRegion, touches, ha, hlen, Bool.and_eq_true, Bool.or_eq_true,
      decide_eq_true_eq]
    exact ⟨by omega, .inr (by omega)⟩
  have hb : ¬ BadAddress s (statusAccess s m n) (0x1000 + 8 * n) := by
    rintro (hc | hc | hc | hc | hc | ⟨hd, -⟩)
    iterate 5 omega
    exact nomatch hd
  have hg : GoodShape (statusAccess s m n) (0x1000 + 8 * n) := by
    rw [goodShape_status (by omega)]
    have hbytes : (statusAccess s m n).shape.bytes = 8 := rfl
    exact ⟨⟨.inl ⟨.inl rfl, by omega⟩, by omega, by omega⟩, .inl rfl⟩
  rw [takeAccess_read ha rfl hc hb hg, carryOut, regionOff_statusAccess h]
  have hw : windowOf (0x1000 + 8 * n) = .status := by
    rw [windowOf, if_neg (by omega), if_neg (by omega), if_pos (by omega)]
  simp only [hw]
  rfl

/-- The answer of such a read, at whatever moment it is given, is the word of the sample and the snapshot. -/
theorem answerStatus_shows (h : ListWord n) {sm : StatusSample} {word : Schedule → Word} (hw : Shows sm n word)
    (sched : Schedule) {u : State} (hu : u.straps = s.straps) : answerStatus (statusAccess s m n) sm sched u =
      answer (statusAccess s m n) true (wordBytes (word sched)) u := by
  have hbase : regionBase u = regionBase s := by rw [regionBase, hu, regionBase]
  have hrel : regionOff (statusAccess s m n) (regionBase u) - 0x1000 = 8 * n := by
    rw [hbase, regionOff_statusAccess h]
    omega
  have hlen : accessLen (statusAccess s m n) = 8 := rfl
  unfold answerStatus
  dsimp only
  rw [hrel, hlen, h.clears_nothing, areaBytes_word, hw sched u]

/-- Given with the unit free, it is one answer more. -/
theorem answer_statusAccess (w : Word) {u : State} (hh : u.path.held = none) :
    answer (statusAccess s m n) true (wordBytes w) u = u.answered m true (wordBytes w) :=
  answer_read rfl hh (wordBytes_length _)

/-- While TRANSPARENT the read is answered at once (R185). -/
theorem exec_statusRead_transparent (hr : Ready s) (hp : s.status.part = .transparent) (h : ListWord n)
    {word : Schedule → Word} (hw : Shows (statusSample s) n word) :
    exec (.statusRead m (BitVec.ofNat 16 (0x1000 + 8 * n)) (.beat .eight)) s =
      .next (s.answered m true (wordBytes (word s.list.sched))) := by
  rw [exec_access (a := statusAccess s m n) rfl, offer_ready _ hr, takeAccess_statusAccess h, statusRead, hp,
    if_neg (fun hc => nomatch hc.1), answerStatus_shows h hw _ rfl,
    answer_statusAccess _ hr.free]

/-- While ACTIVE it is held with the sample of its arrival, and one snapshot is claimed (R185). -/
theorem exec_statusRead_active (hr : Ready s) (hp : s.status.part = .active) (h : ListWord n) :
    exec (.statusRead m (BitVec.ofNat 16 (0x1000 + 8 * n)) (.beat .eight)) s =
      .next (ask (.snapshot .statusPage) (hold (statusAccess s m n) (.status (statusSample s)) s)) := by
  have hrel : 0x1000 + 8 * n - 0x1000 = 8 * n := Nat.add_sub_cancel_left _ _
  have hlen : accessLen (statusAccess s m n) = 8 := rfl
  rw [exec_access (a := statusAccess s m n) rfl, offer_ready _ hr, takeAccess_statusAccess h, statusRead, hrel, hlen,
    if_pos ⟨hp, h.covered⟩]

/-- The snapshot answers it, whatever the supervisor holds by then (R56, R185). -/
theorem exec_snapshot_status (h : ListWord n) {sm : StatusSample} {word : Schedule → Word}
    (hw : Shows sm n word) {u : State} (hu : u.straps = s.straps) (hl : ListFree u) (hh : u.path.held = none)
    (hcard : u.card = []) :
    exec .snapshotClaim (ask (.snapshot .statusPage) (hold (statusAccess s m n) (.status sm) u)) =
      .next (u.answered m true (wordBytes (word u.list.sched))) := by
  have hd : deliverSnapshot .statusPage u.list.sched (hold (statusAccess s m n) (.status sm) u) =
      u.answered m true (wordBytes (word u.list.sched)) :=
    (answerStatus_shows h hw u.list.sched (u := hold (statusAccess s m n) (.status sm) u) hu).trans
      (answer_statusAccess _ hh)
  have hc : (u.answered m true (wordBytes (word u.list.sched))).card = [] := hcard
  rw [exec_snapshotClaim (s := hold (statusAccess s m n) (.status sm) u) hl, hold_list, hd, serve_nil hc]

end StatusRead

/-! ## The words in the statement's way of writing them -/

section Shown

variable {sm : StatusSample} {n : Nat} {word : Schedule → Word}

/-- A word of the summary (R186). -/
theorem shows_summary (hn : n < 8) (h : ∀ sched, summaryWord sm sched n = word sched) : Shows sm n word :=
  fun sched _ => (if_pos hn).trans (h sched)

/-- A word of the base record (R184). -/
theorem shows_base (hn : n < 5) (h : ∀ sched, baseWord sched.base n = word sched) : Shows sm (0x10 + n) word := by
  intro sched u
  unfold pageWord
  rw [if_neg (by omega), if_pos (by omega), Nat.add_sub_cancel_left]
  exact h sched

/-- A word of an entry image (R187). -/
theorem shows_image (i : Fin 32) (k : Fin 4) (h : ∀ sched, entryWord sched.entries[i.val]? k.val = word sched) :
    Shows sm (0x80 + 4 * i.val + k.val) word := by
  intro sched u
  have hi : (0x80 + 4 * i.val + k.val - 0x80) / 4 = i.val := by omega
  have hk : (0x80 + 4 * i.val + k.val) % 4 = k.val := by omega
  unfold pageWord
  rw [if_neg (by omega), if_neg (by omega), if_neg (by omega), if_neg (by omega), if_neg (by omega),
    if_pos (by omega), hi, hk]
  exact h sched

end Shown

theorem entryWord_offsets (e : Entry) : entryWord (some e) 2 = BitVec.ofInt 32 e.prior ++ BitVec.ofInt 32 e.new :=
  twoOffsets_eq _ _

/-- Settles O23: each word is what the page shows of the sample and the snapshot, answered at once while TRANSPARENT and
by the snapshot while ACTIVE. -/
theorem summaryReadPairsArrivalWithOneSnapshot : Obligations.SummaryReadPairsArrivalWithOneSnapshot := by
  intro m s hr hf shows bit code sup error timeBase difference count newest zone
  have show' {off n : Nat} {word : Schedule → Word} (ho : off = 0x1000 + 8 * n) (h : ListWord n)
      (hw : Shows (statusSample s) n word) : shows off word := by
    subst ho
    refine ⟨fun hp => exec_statusRead_transparent hr hp h hw, fun hp =>
      ⟨_, exec_statusRead_active hr hp h, hr.quiet, rfl, fun later sched => ?_⟩⟩
    exact exec_snapshot_status h hw (u := (s.setSup later).setList { s.list with sched := sched }) rfl
      (hf.of_list rfl rfl rfl) hr.free hr.alone
  have summary {off n : Nat} {word : Schedule → Word} (ho : off = 0x1000 + 8 * n) (hn : n < 8)
      (h : ∀ sched, summaryWord (statusSample s) sched n = word sched) : shows off word :=
    show' ho (.inl hn) (shows_summary hn h)
  have base {off n : Nat} {word : Schedule → Word} (ho : off = 0x1080 + 8 * n) (hn : n < 5)
      (h : ∀ sched, baseWord sched.base n = word sched) : shows off word :=
    show' (n := 0x10 + n) (by omega) (.inr (.inl (by omega))) (shows_base hn h)
  have herror : s.status.configError.code = code error.1 ∧ s.status.configError.sourceByte = code error.2 := by
    cases hc : s.status.configError <;> simp only [error, hc] <;> exact ⟨rfl, rfl⟩
  have hcivil (sched : Schedule) : presentedOffset sched .civil = newest sched .civil sched.base.civil :=
    presentedOffset_eq _ _
  have hzone (sched : Schedule) (k : ZoneNo) : BitVec.ofInt 32 (presentedOffset sched (.zone k)) = zone sched k :=
    congrArg _ (presentedOffset_eq _ _)
  clear_value shows
  refine ⟨summary (n := 0) rfl (by omega) fun sched => ?_,
    summary (n := 1) rfl (by omega) fun sched => place_second _,
    summary (n := 2) rfl (by omega) fun sched => summaryWord_present _ _,
    summary (n := 3) rfl (by omega) fun sched => ?_,
    summary (n := 4) rfl (by omega) fun sched => ?_,
    summary (n := 5) rfl (by omega) fun sched => ?_,
    summary (n := 6) rfl (by omega) fun sched => ?_,
    summary (n := 7) rfl (by omega) fun sched => rfl,
    base (n := 0) rfl (by omega) fun sched => place_second _,
    base (n := 1) rfl (by omega) fun sched => ?_,
    base (n := 2) rfl (by omega) fun sched => baseWord_civil _,
    base (n := 3) rfl (by omega) fun sched => twoOffsets_eq _ _,
    base (n := 4) rfl (by omega) fun sched => twoOffsets_eq _ _, fun i => ?_⟩
  · have hword : summaryWord (statusSample s) sched 0 = s.status.part.code ++ s.status.configError.code ++
        s.status.configError.sourceByte ++ s.straps.page ++ (0#4 ++ s.straps.control) ++ s.sup.timeBase.code ++
        (s.election.lastWinner.elim 255#8 fun n => BitVec.ofNat 8 n.val) ++
        (if s.election.disagree then 1#8 else 0#8) := summaryWord_state _ _
    rw [hword, PartState.code_eq, TimeBase.code_eq, herror.1, herror.2]
    cases hw : s.election.lastWinner <;> rfl
  · exact summaryWord_captures _ _
  · rw [summaryWord_counts, hcivil]
    rfl
  · exact (twoOffsets_eq _ _).trans (by rw [hzone, hzone])
  · exact (twoOffsets_eq _ _).trans (by rw [hzone, hzone])
  · exact (congrArg (place 7) (floorEndField_eq _)).trans (place_second _)
  · intro image scale kind state
    have image' (k : Fin 4) {word : Entry → Word} (hw : ∀ e, entryWord (some e) k.val = word e) :
        image k.val word := by
      refine show' (n := 0x80 + 4 * i.val + k.val) (by omega) (.inr (.inr (by omega)))
        (shows_image i k fun sched => ?_)
      cases sched.entries[i.val]? with
      | none => rfl
      | some e => exact hw e
    refine ⟨image' 0 fun e => ?_, image' 1 fun e => place_second _, image' 2 fun e => entryWord_offsets e,
      image' 3 fun e => rfl⟩
    have hscale : e.scale.rank = scale e := by simp only [scale]; cases e.scale <;> rfl
    have hkind : e.kind.code = code (kind e) := by
      simp only [kind]
      cases e.kind with
      | leap l => cases l <;> rfl
      | zoneShift => rfl
    have hstate : e.state.code = code (state e) := by simp only [state]; cases e.state <;> rfl
    refine (entryWord_state e).trans ?_
    rw [hscale, hkind, hstate]

end Sys2Proof.Machine
end


section
/-! PROOFS. Reads of the announcement blocks: one sample, one snapshot where a word needs it, and the blocks of memory,
whichever answers first (R70, R135 to R137, R142, R143). -/

namespace Sys2Proof.Machine

/-! ## The words and blocks an access covers -/

/-- The blocks of whole words `i` to `i + n - 1`, at most eight of them: one block, or two (R135 step 3). -/
theorem blocksTouched_words {i n : Nat} (hn : 0 < n) (h8 : n ≤ 8) : blocksTouched (8 * i) (8 * n) =
    if (i + n - 1) / 8 = i / 8 then [i / 8] else [i / 8, i / 8 + 1] := by
  have hfirst : (List.range (i / 8)).filter (fun p => decide (i / 8 ≤ p)) = [] := by
    rw [List.filter_eq_nil_iff]
    intro p hp
    have := List.mem_range.mp hp
    simp only [decide_eq_true_eq]
    omega
  have hlo : 8 * i / 64 = i / 8 := by omega
  have hhi : (8 * i + 8 * n - 1) / 64 = (i + n - 1) / 8 := by omega
  rw [blocksTouched, hlo, hhi]
  split
  · rename_i h
    rw [h, List.range_succ, List.filter_append, hfirst]
    simp
  · have h : (i + n - 1) / 8 = i / 8 + 1 := by omega
    rw [h, List.range_succ, List.range_succ, List.filter_append, List.filter_append, hfirst]
    simp

/-- A snapshot is needed when a word among words 0 to 4 is covered and patched (R135 step 2). -/
theorem needsSnapshot_words (sm : PatchSample) {i n : Nat} (hn : 0 < n) : needsSnapshot sm (8 * i) (8 * n) = true ↔
    ∃ j, i ≤ j ∧ j ≤ i + n - 1 ∧ j % 8 ≤ 4 ∧ isPatched (policyOfWord sm j) (j % 8) = true := by
  have hlo : 8 * i / 8 = i := by omega
  have hhi : (8 * i + 8 * n - 1) / 8 + 1 = i + n := by omega
  simp only [needsSnapshot, wordsCovered, hlo, hhi, List.any_eq_true, List.mem_filter, List.mem_range,
    decide_eq_true_eq, Bool.and_eq_true]
  constructor
  · rintro ⟨j, ⟨hj, hi⟩, h4, hp⟩
    exact ⟨j, hi, by omega, h4, hp⟩
  · rintro ⟨j, hi, hj, h4, hp⟩
    exact ⟨j, ⟨by omega, hi⟩, h4, hp⟩

/-- The policy sampled for a word is the active one of its port (R135). -/
theorem policyOfWord_patchSample (s : State) (j : Nat) :
    policyOfWord (patchSample s) j = s.patcher.ports[(Fin.ofNat 16 (j / 8) : PortNo)].active := by
  simp [policyOfWord, patchSample]

theorem areaBytes_length (area : Nat → Word) (off len : Nat) : (areaBytes area off len).length = len := by
  simp [areaBytes]

/-- The bytes of `n` words from word `i` on, each formed or taken from memory's bytes (R136, R137). -/
def formedBytes (sm : PatchSample) (i n : Nat) (blocks : List Byte) (sched : Schedule) : List Byte :=
  (List.range n).flatMap fun e =>
    if isPatched (policyOfWord sm (i + e)) ((i + e) % 8) then
      wordBytes (patchedWord sm (policyOfWord sm (i + e)) sched ((i + e) % 8))
    else (blocks.drop (8 * (i + e) - 64 * (i / 8))).take 8

/-- Memory's bytes hold every word that is not patched. -/
def Covers (sm : PatchSample) (i n : Nat) (blocks : List Byte) : Prop :=
  ∀ j, i ≤ j → j < i + n → isPatched (policyOfWord sm j) (j % 8) = false →
    8 * j - 64 * (i / 8) + 8 ≤ blocks.length

theorem announceBytes_words {sm : PatchSample} (sched : Schedule) {blocks : List Byte} {i n : Nat}
    (hl : Covers sm i n blocks) : announceBytes sm sched blocks (8 * i) (8 * n) = formedBytes sm i n blocks sched := by
  have hfirst : 8 * i / 64 = i / 8 := by omega
  rw [announceBytes, areaBytes_words, hfirst, formedBytes]
  refine List.flatMap_congr fun e he => ?_
  have hen := List.mem_range.mp he
  unfold formedWord
  dsimp only
  split
  · rfl
  · rename_i hp
    have := hl (i + e) (Nat.le_add_right _ _) (by omega) (Bool.eq_false_iff.mpr hp)
    refine wordBytes_bytesWord ?_
    rw [List.length_take, List.length_drop]
    omega

/-- Bytes after those that hold every word are not used. -/
theorem formedBytes_append {sm : PatchSample} {i n : Nat} {blocks : List Byte} (hl : Covers sm i n blocks)
    (more : List Byte) (sched : Schedule) :
    formedBytes sm i n (blocks ++ more) sched = formedBytes sm i n blocks sched := by
  refine List.flatMap_congr fun e he => ?_
  have hen := List.mem_range.mp he
  split
  · rfl
  · rename_i hp
    have := hl (i + e) (Nat.le_add_right _ _) (by omega) (Bool.eq_false_iff.mpr hp)
    rw [List.drop_append_of_le_length (by omega), List.take_append_of_le_length (by rw [List.length_drop]; omega)]

/-! ## The state while an announcement read is held -/

/-- The state while access `a` is held for its blocks: the sample, the bytes memory has answered, whether a snapshot is
awaited, the snapshot once answered, and the memory accesses unanswered and still to issue (R135). -/
def State.announcing (u : State) (a : Access) (sm : PatchSample) (blocks : List Byte) (awaiting : Bool)
    (snap : Option Schedule) (out : Option Access) (rest : List Access) : State :=
  u.setPath { u.path with
    held := some { access := a, job := .announce sm blocks awaiting snap }, outstanding := out, toIssue := rest }

section Announcing

variable {u : State} {a : Access} {sm : PatchSample} {blocks : List Byte} {awaiting : Bool} {snap : Option Schedule}

/-- Nothing is answered while a snapshot or memory's answer is awaited (R135 step 5). -/
theorem announceProgress_waits {out : Option Access} {rest : List Access} (h : awaiting = true ∨ out.isSome = true) :
    announceProgress (u.announcing a sm blocks awaiting snap out rest) =
      u.announcing a sm blocks awaiting snap out rest := by
  have hw : (awaiting || out.isSome || !rest.isEmpty) = true := by rcases h with h | h <;> simp [h]
  simp only [announceProgress, State.announcing, State.setPath_path, hw, if_true]

/-- With both answered the read is answered from sample, snapshot and blocks (R135 step 5). -/
theorem announceProgress_answers (h : Ready u) (hd : a.dir = .read) :
    announceProgress (u.announcing a sm blocks false snap none []) = u.answered a.master true
      (announceBytes sm (snap.getD u.list.sched) blocks (regionOff a (regionBase u) - 0x2000) (accessLen a)) := by
  have hfree : ({ u.path with held := none, outstanding := none, toIssue := [] } : PathUnit) = u.path := by
    conv_rhs => rw [h.path]
    simp only [h.fresh]
  have hlen (sched : Schedule) (off : Nat) :
      fit a.shape.bytes (announceBytes sm sched blocks off (accessLen a)) =
        announceBytes sm sched blocks off (accessLen a) := fit_self (areaBytes_length _ _ _)
  simp only [announceProgress, State.announcing, State.setPath_path, Option.isSome_none, List.isEmpty_nil,
    Bool.not_true, Bool.or_false, Bool.false_eq_true, if_false, answer, hd, State.setPath_list]
  rw [hlen, State.setPath_setPath, hfree, State.setPath_self]
  rfl

/-- Memory's answer joins the blocks, and the next block is asked for (R135 step 3). -/
theorem exec_memory_announcing (h : Ready u) (d : List Byte) (x : Access) (rest : List Access) :
    exec (.memoryAnswer true d) (u.announcing a sm blocks awaiting snap (some x) rest) = .next (serve (announceProgress
      (u.announcing a sm (blocks ++ fit x.shape.bytes d) awaiting snap rest.head? rest.tail))) := by
  have hstale := h.fresh
  rw [exec, execMemoryAnswer]
  cases rest <;>
    simp [memoryAnswer, State.announcing, hstale, memoryOk, hold, issueNext]

/-- The snapshot joins the held read (R135 step 2). -/
theorem exec_snapshot_announcing (hl : ListFree u) (out : Option Access) (rest : List Access) :
    exec .snapshotClaim (ask (.snapshot .patcher) (u.announcing a sm blocks awaiting snap out rest)) =
      .next (serve (announceProgress (u.announcing a sm blocks false (some u.list.sched) out rest))) :=
  exec_snapshotClaim (s := u.announcing a sm blocks awaiting snap out rest) hl .patcher

theorem serve_announcing (out : Option Access) (rest : List Access) :
    serve (u.announcing a sm blocks awaiting snap out rest) = u.announcing a sm blocks awaiting snap out rest :=
  serve_busy (by simp [pathFree, State.announcing])

/-- Memory's answer to a block that is not the last (R135 step 3). -/
theorem exec_memory_more (h : Ready u) {d : List Byte} {x : Access} (hd : d.length = x.shape.bytes) (y : Access) :
    exec (.memoryAnswer true d) (u.announcing a sm blocks awaiting snap (some x) [y]) =
      .next (u.announcing a sm (blocks ++ d) awaiting snap (some y) []) := by
  rw [exec_memory_announcing h, fit_self hd, List.head?_cons, announceProgress_waits (.inr rfl), serve_announcing]
  rfl

/-- Memory's last answer while the snapshot is awaited (R135). -/
theorem exec_memory_awaiting (h : Ready u) (d : List Byte) (x : Access) :
    exec (.memoryAnswer true d) (u.announcing a sm blocks true snap (some x) []) =
      .next (u.announcing a sm (blocks ++ fit x.shape.bytes d) true snap none []) := by
  rw [exec_memory_announcing h, announceProgress_waits (.inl rfl), serve_announcing]
  rfl

/-- Memory's last answer with no snapshot awaited: the read is answered (R135 step 5). -/
theorem exec_memory_last (h : Ready u) (hr : a.dir = .read) (d : List Byte) (x : Access) :
    exec (.memoryAnswer true d) (u.announcing a sm blocks false snap (some x) []) =
      .next (u.answered a.master true (announceBytes sm (snap.getD u.list.sched) (blocks ++ fit x.shape.bytes d)
        (regionOff a (regionBase u) - 0x2000) (accessLen a))) := by
  rw [exec_memory_announcing h]
  exact congrArg _ ((congrArg serve (announceProgress_answers h hr)).trans (serve_nil h.alone))

/-- The snapshot before memory has answered (R135, R143). -/
theorem exec_snapshot_first (hl : ListFree u) (x : Access) (rest : List Access) :
    exec .snapshotClaim (ask (.snapshot .patcher) (u.announcing a sm blocks awaiting snap (some x) rest)) =
      .next (u.announcing a sm blocks false (some u.list.sched) (some x) rest) := by
  rw [exec_snapshot_announcing hl, announceProgress_waits (.inr rfl), serve_announcing]

/-- The snapshot after memory has answered: the read is answered (R135 step 5). -/
theorem exec_snapshot_last (h : Ready u) (hl : ListFree u) (hr : a.dir = .read) :
    exec .snapshotClaim (ask (.snapshot .patcher) (u.announcing a sm blocks awaiting snap none [])) =
      .next (u.answered a.master true (announceBytes sm u.list.sched blocks
        (regionOff a (regionBase u) - 0x2000) (accessLen a))) := by
  rw [exec_snapshot_announcing hl]
  exact congrArg _ ((congrArg serve (announceProgress_answers h hr)).trans (serve_nil h.alone))

end Announcing

/-! ## The access and its arrival -/

/-- A read of the announcement blocks from word `i` of the window on. -/
def announceAccess (s : State) (m : Master) (i : Nat) (sh : Shape) : Access :=
  regionAccess s m (BitVec.ofNat 16 (0x2000 + i * 8)) .read sh []

/-- The memory read of block `b` (R135 step 3). -/
def blockRead (s : State) (m : Master) (b : Nat) : Access := memRead s m (0x2000 + b * 0x40) 7

section AnnounceRead

variable {s : State} {m : Master} {i n : Nat} {sh : Shape}

theorem announceAccess_addr (hi : i < 128) :
    (announceAccess s m i sh).addr.toNat = regionBase s + (0x2000 + i * 8) := by
  rw [announceAccess, regionAccess_addr, BitVec.toNat_ofNat]
  omega

/-- The access lies at its words from the start of the window, whatever has become of the rest of the state. -/
theorem announceAccess_rel (hi : i < 128) {u : State} (hu : u.straps = s.straps) :
    regionOff (announceAccess s m i sh) (regionBase u) - 0x2000 = 8 * i := by
  have hbase : regionBase u = regionBase s := by rw [regionBase, hu, regionBase]
  have ha := announceAccess_addr (s := s) (m := m) (sh := sh) hi
  rw [hbase, regionOff_of_le (ha ▸ Nat.le_add_right _ _), ha]
  omega

/-- A read of whole words within the window is accepted (R158 to R161). -/
theorem takeAccess_announceAccess (hp : s.status.part = .active) (hsh : sh = .beat .eight ∨ ∃ k, sh = .burst k)
    (hn : sh.bytes = 8 * n) (hi : i + n ≤ 128) :
    takeAccess (announceAccess s m i sh) s = announceRead (announceAccess s m i sh) (0x2000 + i * 8) s := by
  have hpos := shape_bytes_pos sh
  have hi' : i < 128 := by omega
  have ha := announceAccess_addr (s := s) (m := m) (sh := sh) hi'
  have hbytes : (announceAccess s m i sh).shape.bytes = 8 * n := hn
  have hlen : accessLen (announceAccess s m i sh) = 8 * n := hn
  have hw : windowOf (0x2000 + i * 8) = .announce := by
    rw [windowOf, if_neg (by omega), if_neg (by omega), if_neg (by omega), if_pos (by omega)]
  have hc : isChecked s (announceAccess s m i sh) = true := by
    refine isChecked_of_active hp ?_
    rw [inRegion, touches, decide_eq_true_iff, ha, hlen]
    omega
  have hb : ¬ BadAddress s (announceAccess s m i sh) (0x2000 + i * 8) := by
    rintro (hc | hc | hc | hc | hc | ⟨hd, -⟩)
    iterate 5 omega
    exact nomatch hd
  have hg : GoodShape (announceAccess s m i sh) (0x2000 + i * 8) := by
    rw [goodShape_quiet hw (by decide) (by decide) (by omega), hbytes, Window.range]
    exact ⟨.inl ⟨hsh, by omega⟩, by omega, by omega⟩
  have ho : regionOff (announceAccess s m i sh) (regionBase s) = 0x2000 + i * 8 := by
    rw [regionOff_of_le (ha ▸ Nat.le_add_right _ _), ha]
    exact Nat.add_sub_cancel_left _ _
  rw [takeAccess_read ha rfl hc hb hg, carryOut, ho, hw]
  rfl

/-- The read is held with its sample, its first block is asked for, and a snapshot is claimed where one is needed
(R135). -/
theorem exec_announceRead (h : Ready s) (hp : s.status.part = .active)
    (hsh : sh = .beat .eight ∨ ∃ k, sh = .burst k) (hn : sh.bytes = 8 * n) (h8 : n ≤ 8) (hi : i + n ≤ 128)
    {snap : Bool} (hsnap : needsSnapshot (patchSample s) (8 * i) (8 * n) = snap) :
    exec (.announcementBlockRead m (BitVec.ofNat 16 (0x2000 + i * 8)) sh) s =
      .next ((if snap then ask (.snapshot .patcher) s else s).announcing (announceAccess s m i sh) (patchSample s) []
        snap none (some (blockRead s m (i / 8)))
        (if (i + n - 1) / 8 = i / 8 then [] else [blockRead s m (i / 8 + 1)])) := by
  have hpos := shape_bytes_pos sh
  have hrel : 0x2000 + i * 8 - 0x2000 = 8 * i := by omega
  have hlen : accessLen (announceAccess s m i sh) = 8 * n := hn
  have hblocks : blockReads s m (8 * i) (8 * n) = blockRead s m (i / 8) ::
      (if (i + n - 1) / 8 = i / 8 then [] else [blockRead s m (i / 8 + 1)]) := by
    rw [blockReads, blocksTouched_words (by omega) h8]
    split <;> rfl
  have hissue (rest : List Access) : holdAndIssue (announceAccess s m i sh) (.announce (patchSample s) [] snap none)
      (blockRead s m (i / 8) :: rest) s = s.announcing (announceAccess s m i sh) (patchSample s) [] snap none
        (some (blockRead s m (i / 8))) rest := by
    simp [holdAndIssue, issue, issueNext, hold, State.announcing, h.quiet]
  have hm : (announceAccess s m i sh).master = m := rfl
  rw [exec_access (a := announceAccess s m i sh) rfl, offer_ready _ h, takeAccess_announceAccess hp hsh hn hi,
    announceRead, hrel, hlen, hsnap, hm, hblocks, hissue]
  cases snap <;> rfl

/-- The bytes the held read is answered with, whatever has become of the rest of the state (R136, R137). -/
theorem announceBytes_held (hn : sh.bytes = 8 * n) (hi : i < 128) {u : State} (hu : u.straps = s.straps)
    (sched : Schedule) {blocks : List Byte} (hl : Covers (patchSample s) i n blocks) :
    announceBytes (patchSample s) sched blocks (regionOff (announceAccess s m i sh) (regionBase u) - 0x2000)
      (accessLen (announceAccess s m i sh)) = formedBytes (patchSample s) i n blocks sched := by
  have hlen : accessLen (announceAccess s m i sh) = 8 * n := hn
  rw [announceAccess_rel hi hu, hlen, announceBytes_words _ hl]

end AnnounceRead

/-! ## The state with S, time base, policies and list become other -/

/-- The state with schedule, supervisor and ports replaced. -/
def State.changed (u : State) (sched : Schedule) (sup : Supervisor) (ports : PortPatcher) : State :=
  ((u.setList { u.list with sched := sched }).setSup sup).setPatcher ports

theorem Ready.changed {u : State} (h : Ready u) (sched : Schedule) (sup : Supervisor) (ports : PortPatcher) :
    Ready (u.changed sched sup ports) := ⟨h.running, h.free, h.quiet, h.fresh, h.issued, h.alone⟩

theorem Ready.ask {u : State} (h : Ready u) (q : Query) : Ready (ask q u) :=
  ⟨h.running, h.free, h.quiet, h.fresh, h.issued, h.alone⟩

theorem ListFree.changed {u : State} (h : ListFree u) (sched : Schedule) (sup : Supervisor) (ports : PortPatcher) :
    ListFree (u.changed sched sup ports) := h.of_list rfl rfl rfl

/-! ## One patched word -/

section OneWord

variable {s : State} {m : Master} {p : PortNo} {w : Fin 6}

/-- Word `w` of the block of port `p`, counted from the start of the window. -/
def wordNo (p : PortNo) (w : Fin 6) : Nat := p.val * 8 + w.val

theorem wordNo_lt (p : PortNo) (w : Fin 6) : wordNo p w + 1 ≤ 128 := by unfold wordNo; omega
theorem wordNo_mod (p : PortNo) (w : Fin 6) : wordNo p w % 8 = w.val := by unfold wordNo; omega
theorem wordNo_div (p : PortNo) (w : Fin 6) : wordNo p w / 8 = p.val := by unfold wordNo; omega

theorem policyOfWord_wordNo : policyOfWord (patchSample s) (wordNo p w) = s.patcher.ports[p].active := by
  have hport : (Fin.ofNat 16 (wordNo p w / 8) : PortNo) = p := by
    rw [wordNo_div]
    exact Fin.ext (Nat.mod_eq_of_lt p.isLt)
  rw [policyOfWord_patchSample]
  exact congrArg (fun q : PortNo => s.patcher.ports[q].active) hport

/-- The sampled policy patches the word (R136). -/
theorem isPatched_wordNo (he : s.patcher.ports[p].active.enabled = true)
    (hm : s.patcher.ports[p].active.mask.getLsbD w = true) :
    isPatched (policyOfWord (patchSample s) (wordNo p w)) (wordNo p w % 8) = true := by
  rw [policyOfWord_wordNo, wordNo_mod, isPatched, he, hm, decide_eq_true w.isLt]
  rfl

/-- Words 0 to 4 need a snapshot, word 5 does not (R135 step 2, R142). -/
theorem needsSnapshot_wordNo (hp : isPatched (policyOfWord (patchSample s) (wordNo p w)) (wordNo p w % 8) = true) :
    needsSnapshot (patchSample s) (8 * wordNo p w) (8 * 1) = decide (w.val ≤ 4) := by
  rw [Bool.eq_iff_iff, needsSnapshot_words _ (by omega), decide_eq_true_iff, ← wordNo_mod p w]
  constructor
  · rintro ⟨j, hlo, hhi, h4, -⟩
    obtain rfl : j = wordNo p w := by omega
    exact h4
  · exact fun h4 => ⟨_, le_rfl, by omega, h4, hp⟩

/-- The bytes of the one word, formed from the sample and the schedule given; memory's bytes are not used (R136). -/
theorem announceBytes_wordNo (hp : isPatched (policyOfWord (patchSample s) (wordNo p w)) (wordNo p w % 8) = true)
    {u : State} (hu : u.straps = s.straps) (sched : Schedule) (blocks : List Byte) :
    announceBytes (patchSample s) sched blocks
        (regionOff (announceAccess s m (wordNo p w) (.beat .eight)) (regionBase u) - 0x2000)
        (accessLen (announceAccess s m (wordNo p w) (.beat .eight))) =
      wordBytes (patchedWord (patchSample s) s.patcher.ports[p].active sched w) := by
  rw [announceBytes_held (n := 1) rfl (wordNo_lt p w) hu sched fun j hlo hhi hf => ?_]
  · rw [formedBytes, List.range_one, List.flatMap_singleton, Nat.add_zero, if_pos hp, policyOfWord_wordNo, wordNo_mod]
  · obtain rfl : j = wordNo p w := by omega
    rw [hp] at hf
    cases hf

end OneWord

/-! ## The last block of a burst -/

section Burst

variable {s : State} {m : Master} {i n : Nat} {sh : Shape} {bs last : List Byte}

/-- Memory's answer to the last block answers a read that needs no snapshot (R135 step 5). -/
theorem exec_lastBlock (h : Ready s) (hn : sh.bytes = 8 * n) (hi : i < 128) (hlast : last.length = 64)
    (hl : Covers (patchSample s) i n (bs ++ last)) (b : Nat) :
    exec (.memoryAnswer true last) (s.announcing (announceAccess s m i sh) (patchSample s) bs false none
      (some (blockRead s m b)) []) =
        .next (s.answered m true (formedBytes (patchSample s) i n (bs ++ last) s.list.sched)) := by
  have hfit : fit (blockRead s m b).shape.bytes last = last := fit_self hlast
  rw [exec_memory_last h rfl, hfit, announceBytes_held hn hi rfl _ hl]
  rfl

/-- With a snapshot awaited the snapshot answers it, whatever has become of the rest of the state (R135, R143). -/
theorem exec_lastBlock_snapshot (h : Ready s) (hf : ListFree s) (hn : sh.bytes = 8 * n) (hi : i < 128)
    (hlast : last.length = 64) (hl : Covers (patchSample s) i n (bs ++ last)) (b : Nat) :
    ∃ v, exec (.memoryAnswer true last) ((ask (.snapshot .patcher) s).announcing (announceAccess s m i sh)
        (patchSample s) bs true none (some (blockRead s m b)) []) = .next v ∧ v.answers = s.answers ∧
      ∀ sched sup ports, exec .snapshotClaim (v.changed sched sup ports) =
        .next ((s.changed sched sup ports).answered m true (formedBytes (patchSample s) i n (bs ++ last) sched)) := by
  have hfit : fit (blockRead s m b).shape.bytes last = last := fit_self hlast
  refine ⟨_, exec_memory_awaiting (h.ask _) _ _, rfl, fun sched sup ports => ?_⟩
  have hread : (announceAccess s m i sh).dir = .read := rfl
  have hans := exec_snapshot_last (sm := patchSample s) (blocks := bs ++ last) (awaiting := true) (snap := none)
    (h.changed sched sup ports) (hf.changed sched sup ports) hread
  rw [announceBytes_held (s := s) hn hi (u := s.changed sched sup ports) rfl _ hl] at hans
  rw [hfit]
  exact hans

end Burst

/-- Settles O30: a single patched word answered in either order, and bursts over one block or two. -/
theorem patchedWordIsFormedFromSampleAndSnapshot : Obligations.PatchedWordIsFormedFromSampleAndSnapshot := by
  refine ⟨fun m p w d s h hl hact he hm => ?_, ?_⟩
  · have hp := isPatched_wordNo he hm
    have hexec := exec_announceRead (m := m) (i := wordNo p w) (n := 1) h hact (.inl rfl) rfl (by omega) (wordNo_lt p w)
      (needsSnapshot_wordNo hp)
    have hoff : 0x2000 + wordNo p w * 8 = 0x2000 + p.val * 0x40 + w.val * 8 := by unfold wordNo; omega
    rw [Nat.add_sub_cancel, if_pos rfl, hoff] at hexec
    have bytes (u : State) (hu : u.straps = s.straps) (sched : Schedule) (blocks : List Byte) :
        (.next (u.answered m true (announceBytes (patchSample s) sched blocks
          (regionOff (announceAccess s m (wordNo p w) (.beat .eight)) (regionBase u) - 0x2000)
          (accessLen (announceAccess s m (wordNo p w) (.beat .eight))))) : Host.Outcome State Fault Refusal) =
        .next (u.answered m true (wordBytes (patchedWord (patchSample s) s.patcher.ports[p].active sched w))) := by
      rw [announceBytes_wordNo hp hu]
    refine ⟨_, hexec, fun h5 sched sup ports => ?_, fun h4 => ?_⟩
    · have hs : decide (w.val ≤ 4) = false := by simp [h5]
      rw [hs]
      exact (exec_memory_last (h.changed sched sup ports) rfl d _).trans (bytes (s.changed sched sup ports) rfl _ _)
    · have hs : decide (w.val ≤ 4) = true := by simp [h4]
      rw [hs]
      refine ⟨fun sched sup ports => ⟨_, exec_memory_awaiting ((h.ask _).changed sched sup ports) d _, rfl, ?_⟩,
        fun sched => ⟨_, exec_snapshot_first (u := s.setList { s.list with sched := sched }) (hl.of_list rfl rfl rfl)
          _ _, rfl, fun after sup ports => ?_⟩⟩
      · exact (exec_snapshot_last (h.changed sched sup ports) (hl.changed sched sup ports) rfl).trans
          (bytes (s.changed sched sup ports) rfl _ _)
      · exact (exec_memory_last (h.changed after sup ports) rfl d _).trans (bytes (s.changed after sup ports) rfl _ _)
  · intro m i k d d' s h hf hact hi hd hd' c policy patched block one snapshot word bytes
    have hbytes (sched : Schedule) : bytes sched = formedBytes (patchSample s) i (k.val + 1) (d ++ d') sched := by
      simp only [formedBytes, policyOfWord_patchSample]
      rfl
    have hsnapshot : needsSnapshot (patchSample s) (8 * i) (8 * (k.val + 1)) = true ↔ snapshot := by
      rw [needsSnapshot_words _ (Nat.succ_pos _)]
      simp only [policyOfWord_patchSample]
      rfl
    have hn : (Shape.burst k).bytes = 8 * (k.val + 1) := rfl
    have hexec := exec_announceRead (m := m) (i := i) h hact (.inr ⟨k, rfl⟩) hn (by omega) (by omega) rfl
    have hlastWord : i + (k.val + 1) - 1 = i + k.val := rfl
    rw [hlastWord] at hexec
    generalize needsSnapshot (patchSample s) (8 * i) (8 * (k.val + 1)) = snap at hexec hsnapshot
    by_cases hone : one
    · have hcover : Covers (patchSample s) i (k.val + 1) d := fun j hlo hhi _ => by
        have hone' : (i + k.val) / 8 = i / 8 := hone
        omega
      have hd1 (sched : Schedule) : bytes sched = formedBytes (patchSample s) i (k.val + 1) ([] ++ d) sched := by
        rw [hbytes, formedBytes_append hcover, List.nil_append]
      rw [if_pos hone] at hexec
      refine ⟨_, _, hexec, rfl, fun _ => rfl, fun hnot => absurd hone hnot, ?_⟩
      intro last
      have hlast : last = d := if_pos hone
      rw [hlast]
      refine ⟨fun hs => ?_, fun hs => ?_⟩
      · rw [hd1, Bool.eq_false_iff.mpr (mt hsnapshot.mp hs)]
        exact exec_lastBlock h hn (by omega) hd hcover _
      · simp only [hd1]
        rw [hsnapshot.mpr hs]
        exact exec_lastBlock_snapshot h hf hn (by omega) hd hcover _
    · have hcover : Covers (patchSample s) i (k.val + 1) (d ++ d') := fun j hlo hhi _ => by
        rw [List.length_append, hd, hd']
        omega
      have hready : Ready (if snap = true then ask (.snapshot .patcher) s else s) := by
        split
        · exact h.ask _
        · exact h
      have hans : (if snap = true then ask (.snapshot .patcher) s else s).answers = s.answers := by split <;> rfl
      rw [if_neg hone] at hexec
      refine ⟨_, _, hexec, rfl, fun h1 => absurd h1 hone, fun _ =>
        ⟨exec_memory_more hready hd _, hans, rfl⟩, ?_⟩
      intro last
      have hlast : last = d' := if_neg hone
      rw [hlast]
      refine ⟨fun hs => ?_, fun hs => ?_⟩
      · rw [hbytes, Bool.eq_false_iff.mpr (mt hsnapshot.mp hs)]
        exact exec_lastBlock h hn (by omega) hd' hcover _
      · simp only [hbytes]
        rw [hsnapshot.mpr hs]
        exact exec_lastBlock_snapshot h hf hn (by omega) hd' hcover _

end Sys2Proof.Machine
end

section
/-! PROOFS. A claim of one second commits entries at their boundary only (R74, R76, R81, R85). -/

namespace Sys2Proof.Machine

/-- Every pending entry lies above the list second, where the claim starts, so none lies below a new S one second on
(R74, R85). -/
theorem ListLaws.after_le_boundary {s : State} (h : ListLaws s) {c : SChange} (hb : c.before = s.list.listSecond)
    (hone : c.after.toNat = c.before.toNat + 1) {e : Entry} (he : e ∈ s.list.sched.entries) (hp : e.state ≠ .applied) :
    c.after.toNat ≤ e.boundary.toNat := by
  have habove := h.pendingAbove e he (bne_iff_ne.mpr hp)
  rw [← hb] at habove
  omega

section AtOrAbove

variable {c : SChange} {e : Entry}

/-- A pending entry at or above the new S is not LATE after the claim, and is committed only at its boundary (R76, R77). -/
theorem claimEntry_at_or_above (lead : Nat) (hp : e.state ≠ .applied) (hlate : e.late = false)
    (hle : c.after.toNat ≤ e.boundary.toNat) :
    (claimEntry lead c e).late = false ∧ ((claimEntry lead c e).state = .applied → e.boundary = c.after) := by
  obtain ⟨hcommit, hfreeze, -, hkeep⟩ := claimEntry_spec lead c e
  by_cases hc : Commits c e
  · have ⟨_, _, hge⟩ := hc
    rw [hcommit hc]
    exact ⟨decide_eq_false hle.not_gt, fun _ => BitVec.eq_of_toNat_eq (hge.antisymm hle)⟩
  · by_cases hf : Freezes lead c e
    · rw [hfreeze hf]
      exact ⟨hlate, nofun⟩
    · rw [hkeep hc hf fun ⟨_, happlied, _⟩ => hp happlied]
      exact ⟨hlate, fun happlied => absurd happlied hp⟩

/-- With every pending entry at or above the new S, a claim raises no LATE-COMMIT (R81). -/
theorem count_lateCommit_claimEvents (lead : Nat) {es : List Entry}
    (hle : ∀ e ∈ es, e.state ≠ .applied → c.after.toNat ≤ e.boundary.toNat) :
    (claimEvents lead c es).count .lateCommit = 0 := by
  obtain ⟨-, -, hlate, -⟩ := claimEvents_spec lead c es
  refine List.count_eq_zero.mpr fun hm => ?_
  obtain ⟨e, he, ⟨-, hp, -⟩, hlt⟩ := hlate.mp hm
  exact hlt.not_ge (hle e he hp)

end AtOrAbove

/-- Settles O40: a claim of one second leaves no pending entry below its new S, so what it commits it commits at its
boundary. -/
theorem oneSecondClaimCommitsNothingLate : Obligations.OneSecondClaimCommitsNothingLate := by
  intro c rest s hl _ hc hone
  obtain ⟨-, hb, -⟩ := hl.claims.before hc
  have hle : ∀ e ∈ s.list.sched.entries, e.state ≠ .applied → c.after.toNat ≤ e.boundary.toNat :=
    fun _ => hl.after_le_boundary hb hone
  obtain ⟨claims, coming, -, -, ht⟩ := exec_claim_cons hc
  let lead := s.status.config.glob.freezeLead.toNat
  have hes : (takeClaim c (s.setList { s.list with claims := claims, coming := coming })).list.sched.entries =
      s.list.sched.entries.map (claimEntry lead c) := claimEntries_eq _ c _
  refine ⟨hb, hle, _, ht, ?_, fun i e e' he he' hp => ?_⟩
  · calc (s.wires.events ++ claimEvents lead c s.list.sched.entries).count .lateCommit
      _ = s.wires.events.count .lateCommit + (claimEvents lead c s.list.sched.entries).count .lateCommit :=
        List.count_append
      _ = s.wires.events.count .lateCommit := by rw [count_lateCommit_claimEvents lead hle, Nat.add_zero]
  · have hmem := List.mem_of_getElem? he
    rw [hes, List.getElem?_map, he] at he'
    obtain rfl : claimEntry lead c e = e' := by simpa using he'
    exact claimEntry_at_or_above lead hp (hl.unflagged e hmem (bne_iff_ne.mpr hp)).1 (hle e hmem hp)

end Sys2Proof.Machine
end

section
/-! SUPPORT. What the laws of the intake see of a state: queues that shrink, the part state, the straps and the locked fields,
and the held access that is snooped; what each operation of the blocks leaves of them (R91, R96, R98, R162, R174). -/

namespace Sys2Proof.Machine

/-! ## What the queues can come to -/

/-- No queue grows and no DISABLED source leaves its state: what every operation on sources does, but for the closing of a
record and the release of the queues at ACTIVATE, DEACTIVATE and reset. -/
structure QueuesShrink (s t : State) : Prop where
  length : ∀ n : SourceNo, t.intake.sources[n].queue.length ≤ s.intake.sources[n].queue.length
  disabled : ∀ n : SourceNo, s.intake.sources[n].state = .disabled → t.intake.sources[n].state = .disabled

theorem QueuesShrink.refl (s : State) : QueuesShrink s s := ⟨fun _ => le_rfl, fun _ => id⟩

theorem QueuesShrink.trans {s t u : State} (h : QueuesShrink s t) (k : QueuesShrink t u) : QueuesShrink s u :=
  ⟨fun n => (k.length n).trans (h.length n), fun n => k.disabled n ∘ h.disabled n⟩

/-- An empty queue stays empty. -/
theorem QueuesShrink.empty {s t : State} (h : QueuesShrink s t) (n : SourceNo) (hq : s.intake.sources[n].queue = []) :
    t.intake.sources[n].queue = [] :=
  List.length_eq_zero_iff.mp (Nat.le_zero.mp ((h.length n).trans (congrArg List.length hq).le))

theorem QueuesShrink.of_sources {s t : State} (h : t.intake.sources = s.intake.sources) : QueuesShrink s t := by
  constructor <;> intro n <;> rw [h]
  exact id

theorem QueuesShrink.of_intake {s t : State} (h : t.intake = s.intake) : QueuesShrink s t :=
  .of_sources (congrArg Intake.sources h)

theorem AccessFrame.queuesShrink {s t : State} (h : AccessFrame s t) : QueuesShrink s t :=
  ⟨fun n => (congrArg List.length (h.queue n)).le, fun n => (h.sourceState n).trans⟩

/-- An update of one source that lengthens no queue and enables no source. -/
theorem updSource_shrinks {n : SourceNo} {f : Source → Source} (s : State)
    (hq : (f s.intake.sources[n]).queue.length ≤ s.intake.sources[n].queue.length)
    (hd : s.intake.sources[n].state = .disabled → (f s.intake.sources[n]).state = .disabled) :
    QueuesShrink s (updSource n f s) := by
  constructor <;> intro m <;> rw [updSource_source]
  · split
    · rename_i h
      rwa [h]
    · exact le_rfl
  · split
    · rename_i h
      rwa [h]
    · exact id

/-- The same update of every source. -/
theorem mapSources_shrinks {f : SourceNo → Source → Source} (s : State)
    (hq : ∀ n src, (f n src).queue.length ≤ src.queue.length)
    (hd : ∀ n src, src.state = .disabled → (f n src).state = .disabled) {q : Option Qualifying} {h : Option Second} :
    QueuesShrink s (s.setIntake { sources := mapSources f s.intake.sources, qualifier := q, civilHorizon := h }) := by
  constructor <;> intro n <;> rw [State.setIntake_intake, mapSources_get]
  · exact hq _ _
  · exact hd _ _

theorem dispose_shrinks (n : SourceNo) (o : DispositionOutcome) (q : BitVec 16) (a : Option ListAnswer) (s : State) :
    QueuesShrink s (dispose n o q a s) := updSource_shrinks s le_rfl id

theorem sourceFault_shrinks (n : SourceNo) (f : SourceFlag) (s : State) : QueuesShrink s (sourceFault n f s) :=
  (updSource_shrinks s (f := fun src => { src with flags := withFlag f src.flags }) le_rfl id).trans (.of_sources rfl)

theorem stageWrite_shrinks (n : SourceNo) (j : Nat) (b : Byte) (s : State) : QueuesShrink s (stageWrite n j b s) := by
  unfold stageWrite
  split
  · exact .refl s
  · exact updSource_shrinks s le_rfl id

theorem hear_shrinks (n : SourceNo) (a : Second) (s : State) : QueuesShrink s (hear n a s) := by
  have h : QueuesShrink s (updSource n (fun src => { src with
      lastHeard := some a
      state := if src.state = .waiting ∨ src.state = .silent then .listening else src.state }) s) :=
    updSource_shrinks s le_rfl fun hd => (if_neg (by rw [hd]; decide)).trans hd
  unfold hear
  dsimp only
  split
  · exact h.trans (.of_sources rfl)
  · exact h

theorem zoneSteps_shrinks (n : SourceNo) (q : BitVec 16) (a : Second) (c : Content) (s : State) :
    QueuesShrink s (zoneSteps n q a c s) := by
  have hc : QueuesShrink s (count n c false a s) := updSource_shrinks s le_rfl id
  unfold zoneSteps
  dsimp only
  split
  · exact (dispose_shrinks _ _ _ _ _).trans (.of_sources rfl)
  · refine hc.trans ?_
    generalize count n c false a s = u
    split
    · refine (updSource_shrinks (n := n) (f := fun src => { src with candidate := none }) u le_rfl id).trans ?_
      split <;> exact .of_sources rfl
    · exact (dispose_shrinks _ _ _ _ _).trans (.of_sources rfl)

theorem handleRecord_shrinks (n : SourceNo) (r : Record) (s : State) : QueuesShrink s (handleRecord n r s) := by
  unfold handleRecord
  dsimp only
  split
  · exact (sourceFault_shrinks _ _ _).trans (dispose_shrinks _ _ _ _ _)
  · exact ((hear_shrinks n _ s).trans (updSource_shrinks _ le_rfl id)).trans (dispose_shrinks _ _ _ _ _)
  · exact (hear_shrinks _ _ _).trans (.of_sources rfl)
  · exact (hear_shrinks _ _ _).trans (zoneSteps_shrinks _ _ _ _ _)

theorem takeRecord_shrinks (s : State) : QueuesShrink s (takeRecord s) := by
  unfold takeRecord
  split
  · split
    · exact .refl s
    · split
      · exact .refl s
      · rename_i r rest hq
        exact (updSource_shrinks s (by rw [hq]; exact Nat.le_succ _) id).trans (handleRecord_shrinks _ _ _)
  · exact .refl s

theorem qualifierTake_shrinks (s : State) : QueuesShrink s (qualifierTake s) := by
  have h (k : Nat) (s : State) : QueuesShrink s (takeRecords k s) := by
    induction k generalizing s with
    | zero => exact .refl s
    | succ k ih => exact (takeRecord_shrinks s).trans (ih _)
  exact h _ s

theorem leapCountSteps_shrinks (n : SourceNo) (q : BitVec 16) (a : Second) (c : LeapContent) (d : Bool) (s : State) :
    QueuesShrink s (leapCountSteps n q a c d s) := by
  have hc : QueuesShrink s (count n (.leap c) d a s) := updSource_shrinks s le_rfl id
  unfold leapCountSteps countLeap
  dsimp only
  split
  · exact dispose_shrinks _ _ _ _ _
  · refine hc.trans ?_
    generalize count n (.leap c) d a s = u
    have hd (o : DispositionOutcome) (p : Confirmed) :
        QueuesShrink u (dispose n o q none (updSource n (fun src => { src with confirmed := some p }) u)) :=
      (updSource_shrinks u le_rfl id).trans (dispose_shrinks _ _ _ _ _)
    split
    · split
      · exact hd _ _
      · exact (hd _ _).trans (.of_sources rfl)
    · exact dispose_shrinks _ _ _ _ _

theorem refuseRecord_shrinks (n : SourceNo) (q : BitVec 16) (f : SourceFlag) (s : State) :
    QueuesShrink s (refuseRecord n q f s) := (sourceFault_shrinks _ _ _).trans (dispose_shrinks _ _ _ _ _)

theorem leapSteps_shrinks (sched : Schedule) (n : SourceNo) (q : BitVec 16) (a : Second) (d : Int)
    (c : Option (LeapKind × Option Second)) (s : State) : QueuesShrink s (leapSteps sched n q a d c s) := by
  unfold leapSteps
  split
  · exact refuseRecord_shrinks _ _ _ _
  · split
    · exact leapCountSteps_shrinks _ _ _ _ _ _
    · unfold changeSteps
      extract_lets _ _ b
      split
      · exact refuseRecord_shrinks _ _ _ _
      · split
        · exact refuseRecord_shrinks _ _ _ _
        · exact leapCountSteps_shrinks _ _ _ _ _ _

theorem recordAnswer_shrinks (n : SourceNo) (q : BitVec 16) (a : ListAnswer) (s : State) :
    QueuesShrink s (recordAnswer n q a s) := by
  unfold recordAnswer
  split
  · exact dispose_shrinks _ _ _ _ _
  · exact (dispose_shrinks _ _ _ _ _).trans (.of_sources rfl)

/-! ## What the Election Unit and the Port Patcher leave of the Intake Unit -/

theorem startRun_intake (s : State) : (startRun s).intake = s.intake := by
  have h : (updateIndication s).intake = s.intake := by
    unfold updateIndication
    dsimp only
    split <;> rfl
  unfold startRun
  dsimp only
  split
  · exact h
  · split <;> exact h

theorem endRun_intake (s : State) : (endRun s).intake = s.intake := by
  unfold endRun
  dsimp only
  split
  · exact startRun_intake _
  · rfl

theorem takeTrigger_intake (s : State) : (takeTrigger s).intake = s.intake := by
  unfold takeTrigger
  split
  · exact startRun_intake s
  · rfl

theorem electionSnapshot_intake (sched : Schedule) (s : State) : (electionSnapshot sched s).intake = s.intake := by
  unfold electionSnapshot
  split
  · dsimp only
    split
    · exact endRun_intake _
    · exact endRun_intake _
    · rfl
  · rfl

theorem electionAnswer_intake (a : ListAnswer) (s : State) : (electionAnswer a s).intake = s.intake := by
  unfold electionAnswer
  split
  · split <;> exact endRun_intake _
  · rfl

theorem transferPorts_intake (ps : List PortNo) (s : State) : (transferPorts ps s).intake = s.intake := by
  unfold transferPorts
  induction ps generalizing s with
  | nil => rfl
  | cons p ps ih => exact ih _

theorem takeChangeOfS_intake (c : SChange) (s : State) : (takeChangeOfS c s).intake = s.intake := by
  unfold takeChangeOfS
  dsimp only
  split <;> exact transferPorts_intake _ _

theorem arriveChangeOfS_intake (c : SChange) (s : State) : (arriveChangeOfS c s).intake = s.intake := by
  unfold arriveChangeOfS
  split
  · rfl
  · exact takeChangeOfS_intake c s

theorem drainChanges_intake (cs : List SChange) (s : State) : (drainChanges cs s).intake = s.intake := by
  induction cs generalizing s with
  | nil => rfl
  | cons c cs ih =>
    unfold drainChanges
    dsimp only
    split
    · exact takeChangeOfS_intake _ _
    · exact (ih _).trans (takeChangeOfS_intake _ _)

theorem quietSnapshot_intake (sched : Schedule) (s : State) : (quietSnapshot sched s).intake = s.intake := by
  unfold quietSnapshot
  split
  · rfl
  · exact (drainChanges_intake _ _).trans (transferPorts_intake _ _)

theorem takePortTransfer_intake (p : PortNo) (t : Option TransferTrigger) (s : State) :
    (takePortTransfer p t s).intake = s.intake := by
  unfold takePortTransfer
  split <;> rfl

/-! ## What the laws of the intake see of a state -/

/-- Part state, straps, and global and source fields of two states agree. -/
structure SameSetting (s t : State) : Prop where
  part : t.status.part = s.status.part
  straps : t.straps = s.straps
  glob : t.status.config.glob = s.status.config.glob
  sources : t.status.config.sources = s.status.config.sources

theorem SameSetting.trans {s t u : State} (h : SameSetting s t) (k : SameSetting t u) : SameSetting s u :=
  ⟨k.part.trans h.part, k.straps.trans h.straps, k.glob.trans h.glob, k.sources.trans h.sources⟩

theorem SameSetting.of_eq {s t : State} (h : t.status = s.status) (k : t.straps = s.straps) : SameSetting s t := 
  ⟨by rw [h], k, by rw [h], by rw [h]⟩

theorem InnerFrame.sameSetting {s t : State} (h : InnerFrame s t) : SameSetting s t := .of_eq h.status h.straps

theorem AccessFrame.sameSetting {s t : State} (h : AccessFrame s t) : SameSetting s t :=
  ⟨h.part, h.straps, congrArg ConfigCopy.glob h.config, congrArg ConfigCopy.sources h.config⟩

/-- The queues are within their depths, and empty with every source DISABLED while the part is TRANSPARENT (R91, R96). -/
structure QueuesFit (s : State) : Prop where
  depth : ∀ n : SourceNo, s.intake.sources[n].queue.length ≤ queueDepth s n
  idle : s.status.part = .transparent →
    ∀ n : SourceNo, s.intake.sources[n].state = .disabled ∧ s.intake.sources[n].queue = []

theorem IntakeLaws.queuesFit {s : State} (h : IntakeLaws s) : QueuesFit s := ⟨h.depth, h.idle⟩

theorem QueuesFit.intakeLaws {s : State} (h : QueuesFit s) (k : HeldSnoopLaw s) (t : NoTakeDue s) : IntakeLaws s :=
  ⟨h.depth, h.idle, k, t⟩

theorem SameSetting.queueDepth {s t : State} (h : SameSetting s t) (n : SourceNo) : queueDepth t n = queueDepth s n := by
  unfold Machine.queueDepth
  rw [h.sources]

theorem QueuesFit.shrink {s t : State} (h : QueuesFit s) (e : SameSetting s t) (k : QueuesShrink s t) : QueuesFit t where
  depth n := by
    rw [e.queueDepth]
    exact (k.length n).trans (h.depth n)
  idle hp n := by
    obtain ⟨hd, hq⟩ := h.idle (e.part.symm.trans hp) n
    exact ⟨k.disabled n hd, k.empty n hq⟩

/-- Empty queues fit. -/
theorem QueuesFit.of_empty {s : State} (h : ∀ n : SourceNo, s.intake.sources[n].queue = [])
    (hd : s.status.part = .transparent → ∀ n : SourceNo, s.intake.sources[n].state = .disabled) : QueuesFit s :=
  ⟨fun n => by rw [h n]; exact Nat.zero_le _, fun hp n => ⟨hd hp n, h n⟩⟩

/-- With every queue empty no take is due. -/
theorem NoTakeDue.of_empty {s : State} (h : ∀ n : SourceNo, s.intake.sources[n].queue = []) : NoTakeDue s :=
  fun _ _ _ _ => h

/-- A take that was not due falls due only where RESET ends, the part becomes ACTIVE, UNSET is left, the qualifier becomes
free, or a record is queued. -/
theorem NoTakeDue.kept {s t : State} (h : NoTakeDue s) (e : SameSetting s t) (k : QueuesShrink s t)
    (hr : t.resetAsserted = s.resetAsserted) (ht : s.sup.timeBase = .unset → t.sup.timeBase = .unset)
    (hq : t.intake.qualifier = none → s.intake.qualifier = none) : NoTakeDue t := by
  intro h1 h2 h3 h4 n
  have hs := h (hr.symm.trans h1) (e.part.symm.trans h2) (h3 ∘ ht) (hq h4) n
  exact k.empty n hs

/-- The held access is none that is handed to the configuration copy. -/
def NoSnoopHeld (s : State) : Prop := ∀ x, s.path.held = some x → x.job ≠ .store .config

theorem NoSnoopHeld.law {s : State} (h : NoSnoopHeld s) : HeldSnoopLaw s := fun _ _ ha => absurd rfl (h _ ha)

theorem NoSnoopHeld.of_none {s : State} (h : s.path.held = none) : NoSnoopHeld s := fun _ hx => nomatch h.symm.trans hx

theorem NoSnoopHeld.of_job {s : State} {a : Access} {j : Job} (h : s.path.held = some { access := a, job := j })
    (hj : j ≠ .store .config) : NoSnoopHeld s := fun x hx => by
  obtain rfl : ({ access := a, job := j } : Held) = x := Option.some.inj (h.symm.trans hx)
  exact hj

/-- The law of the held write across states with the same held access. -/
theorem HeldSnoopLaw.kept {s t : State} (h : HeldSnoopLaw s) (e : SameSetting s t) (hh : t.path.held = s.path.held) :
    HeldSnoopLaw t := by
  intro hp a ha
  have hb : regionBase t = regionBase s := congrArg (fun x : Straps => x.page.toNat * 0x10000) e.straps
  rw [hb]
  exact h (e.part.symm.trans hp) a (hh.symm.trans ha)

/-! ## Taking an access -/

theorem issueNext_held (s : State) : (issueNext s).path.held = s.path.held := by
  unfold issueNext
  split <;> rfl

theorem holdAndIssue_held (a : Access) (j : Job) (ms : List Access) (s : State) :
    (holdAndIssue a j ms s).path.held = some { access := a, job := j } := issueNext_held _

theorem holdAndIssue_noSnoop (a : Access) {j : Job} (ms : List Access) (s : State) (hj : j ≠ .store .config) :
    NoSnoopHeld (holdAndIssue a j ms s) := .of_job (holdAndIssue_held a j ms s) hj

theorem answer_noSnoop (a : Access) (ok : Bool) (d : List Byte) (s : State) : NoSnoopHeld (answer a ok d s) :=
  .of_none rfl

theorem refuse_noSnoop (kind : FaultKind) (a : Access) (s : State) : NoSnoopHeld (refuse kind a s) := .of_none rfl

theorem statusRead_noSnoop (a : Access) (off : Nat) (s : State) : NoSnoopHeld (statusRead a off s) := by
  unfold statusRead
  split
  · exact .of_job (a := a) rfl (by simp)
  · exact answer_noSnoop _ _ _ _

theorem commandWrite_noSnoop (a : Access) (s : State) : NoSnoopHeld (commandWrite a s) := by
  unfold commandWrite
  dsimp only
  split
  · exact holdAndIssue_noSnoop _ _ _ (by simp)
  · exact refuse_noSnoop _ _ _

theorem announceRead_noSnoop (a : Access) (off : Nat) (s : State) : NoSnoopHeld (announceRead a off s) := by
  unfold announceRead
  dsimp only
  split <;> exact holdAndIssue_noSnoop _ _ _ (by simp)

theorem timeViewRead_noSnoop (a : Access) (off : Nat) (s : State) : NoSnoopHeld (timeViewRead a off s) := by
  unfold timeViewRead
  dsimp only
  split
  · exact answer_noSnoop _ _ _ _
  · exact holdAndIssue_noSnoop _ _ _ (by simp)

theorem timeViewWrite_noSnoop (a : Access) (off : Nat) (s : State) : NoSnoopHeld (timeViewWrite a off s) := by
  unfold timeViewWrite
  dsimp only
  split
  · exact holdAndIssue_noSnoop _ _ _ (by split <;> simp)
  · split
    · exact holdAndIssue_noSnoop _ _ _ (by simp)
    · split
      · exact .of_job (a := a) rfl (by simp)
      · exact refuse_noSnoop _ _ _

/-- A configuration write that the ownership step accepts covers no global and no source byte (R162, R174). -/
theorem ownershipStep_config {s : State} {a : Access} {off : Nat} (hw : windowOf off = .config) (hd : a.dir = .write)
    (h : ownershipStep s a off = none) : touches a (regionBase s) 0x0000 0x01FF = false := by
  simp only [ownershipStep, hd, hw] at h
  split at h
  · cases h
  · split at h
    · cases h
    · rename_i ht
      exact Bool.eq_false_iff.mpr ht

theorem carryOut_heldSnoop {s : State} {a : Access} (h : ownershipStep s a (regionOff a (regionBase s)) = none) :
    HeldSnoopLaw (carryOut a s) := by
  unfold carryOut
  dsimp only
  split
  · exact (holdAndIssue_noSnoop _ _ _ (by simp)).law
  · rename_i hw hd
    have ht := ownershipStep_config hw hd h
    intro _ x hx
    obtain rfl : a = x := by
      have := (holdAndIssue_held a (.store .config) [carried a] s).symm.trans hx
      cases this
      rfl
    have hb : regionBase (holdAndIssue a (.store .config) [carried a] s) = regionBase s :=
      congrArg (fun x : Straps => x.page.toNat * 0x10000) (holdAndIssue_frame a _ _ s).straps
    rwa [hb]
  · exact (holdAndIssue_noSnoop _ _ _ (by simp)).law
  · exact (holdAndIssue_noSnoop _ _ _ (by simp)).law
  · exact (statusRead_noSnoop _ _ _).law
  · exact (commandWrite_noSnoop _ _).law
  · exact (announceRead_noSnoop _ _ _).law
  · exact (holdAndIssue_noSnoop _ _ _ (by simp)).law
  · exact (timeViewRead_noSnoop _ _ _).law
  · exact (timeViewWrite_noSnoop _ _ _).law
  · exact (refuse_noSnoop _ _ _).law

/-- The write that is held while the part is ACTIVE covers no global and no source byte: an access of the region is checked,
and one outside it is no configuration write (R157, R162, R174). -/
theorem takeAccess_heldSnoop (a : Access) (s : State) : HeldSnoopLaw (takeAccess a s) := by
  unfold takeAccess
  split
  · split
    · exact (refuse_noSnoop _ _ _).law
    · rename_i hc
      refine carryOut_heldSnoop ?_
      simp only [checkAccess, Option.orElse_eq_none] at hc
      tauto
  · rename_i hc
    intro hp x hx
    have hpart : s.status.part = .active := (holdAndIssue_frame a _ _ s).part.symm.trans hp
    have hout : inRegion a (regionBase s) = false := by
      by_contra hi
      exact hc (isChecked_of_active hpart (by simpa using hi))
    have := (holdAndIssue_held _ _ _ _).symm.trans hx
    simp [hout] at this

end Sys2Proof.Machine
end

section
/-! PROOFS. Every step keeps the laws of the intake queues and the configuration lock (R91, R96, R98, R162, R174). -/

namespace Sys2Proof.Machine

/-! ## Commands that keep the laws of the intake -/

/-- A command, or a part of one, that keeps the laws of the intake, the part state and the global and source fields. -/
structure IntakeKept (s t : State) : Prop where
  setting : SameSetting s t
  laws : IntakeLaws s → IntakeLaws t

theorem IntakeKept.refl (s : State) : IntakeKept s s := ⟨.of_eq rfl rfl, id⟩

theorem IntakeKept.trans {s t u : State} (h : IntakeKept s t) (k : IntakeKept t u) : IntakeKept s u :=
  ⟨h.setting.trans k.setting, k.laws ∘ h.laws⟩

/-- The Intake Unit untouched, and the supervisor but for a time base that stays UNSET. -/
theorem IntakeKept.of_intake {s t : State} (e : SameSetting s t) (hi : t.intake = s.intake)
    (hr : t.resetAsserted = s.resetAsserted) (ht : s.sup.timeBase = .unset → t.sup.timeBase = .unset)
    (hl : HeldSnoopLaw s → HeldSnoopLaw t) : IntakeKept s t :=
  ⟨e, fun h => (h.queuesFit.shrink e (.of_intake hi)).intakeLaws (hl h.locked)
    (h.taken.kept e (.of_intake hi) hr ht fun hq => by rwa [hi] at hq)⟩

theorem IntakeKept.of_access {s t : State} (k : AccessFrame s t) (hl : HeldSnoopLaw s → HeldSnoopLaw t) :
    IntakeKept s t :=
  ⟨k.sameSetting, fun h => (h.queuesFit.shrink k.sameSetting k.queuesShrink).intakeLaws (hl h.locked)
    (h.taken.kept k.sameSetting k.queuesShrink k.resetAsserted (by rw [k.sup]; exact id)
      (by rw [k.qualifier]; exact id))⟩

/-- The Path Unit stays, so the laws are those of the queues alone. -/
theorem IntakeKept.of_inner {s t : State} (k : InnerFrame s t) (hf : QueuesFit s → QueuesFit t)
    (ht : NoTakeDue s → NoTakeDue t) : IntakeKept s t :=
  ⟨k.sameSetting, fun h => (hf h.queuesFit).intakeLaws
    (h.locked.kept k.sameSetting (congrArg PathUnit.held k.path)) (ht h.taken)⟩

theorem IntakeKept.of_shrink {s t : State} (k : InnerFrame s t) (q : QueuesShrink s t)
    (ht : NoTakeDue s → NoTakeDue t) : IntakeKept s t :=
  .of_inner k (fun h => h.shrink k.sameSetting q) ht

theorem IntakeKept.of_inner_intake {s t : State} (k : InnerFrame s t) (hi : t.intake = s.intake) : IntakeKept s t :=
  .of_intake k.sameSetting hi k.resetAsserted (by rw [k.sup]; exact id)
    fun h => h.kept k.sameSetting (congrArg PathUnit.held k.path)

theorem NoTakeDue.inner {s t : State} (h : NoTakeDue s) (k : InnerFrame s t) (q : QueuesShrink s t)
    (hq : t.intake.qualifier = none → s.intake.qualifier = none) : NoTakeDue t :=
  h.kept k.sameSetting q k.resetAsserted (by rw [k.sup]; exact id) hq

theorem IntakeKept.setPending (s : State) (q : List Instr) : IntakeKept s (s.setPending q) :=
  .of_intake (.of_eq rfl rfl) rfl rfl id fun h => h.kept (.of_eq rfl rfl) rfl

/-- Serving the card keeps the laws of the intake. -/
theorem IntakeKept.serve (s : State) : IntakeKept s (serve s) :=
  serve_keeps (P := IntakeKept s) (fun _ _ _ hu _ _ => hu.trans (.of_access ((setCard_frame _ _).trans
    (takeAccess_frame _ _)) fun _ => takeAccess_heldSnoop _ _)) (.refl s)

/-! ## The Second Supervisor -/

theorem IntakeKept.elapsed (s : State) (e : Count) : IntakeKept s (s.elapsed e) :=
  .of_intake (.of_eq (by simp) (by simp)) (by simp) (by simp) (by simp) fun h => h.kept (.of_eq (by simp) (by simp)) (by simp)

/-- The supervisor moved, by which UNSET is not left. -/
theorem IntakeKept.moved {s : State} {new : Supervisor} (es : List Event)
    (h : s.sup.timeBase = .unset → new.timeBase = .unset) : IntakeKept s (s.moved new es) :=
  .of_intake (.of_eq rfl rfl) rfl rfl h fun h => h.kept (.of_eq rfl rfl) rfl

/-- Whatever a judged mark comes to, it is a move of the supervisor, and none in UNSET. -/
theorem judgeMark_moved (x : Count) (s : State) : ∃ new es, judgeMark x s = s.moved new es ∧
    (s.sup.timeBase = .unset → new.timeBase = .unset) := by
  have stay (new : Supervisor) (h : new.s = s.sup.s) : s.setSup new = s.moved new [] := setSup_eq_moved new h
  have window : s.sup.timeBase = .locked ∨ s.sup.timeBase = .flywheel → ∃ new es, judgeMark x s = s.moved new es ∧
      (s.sup.timeBase = .unset → new.timeBase = .unset) := by
    intro hb
    have hu : s.sup.timeBase ≠ .unset := by rcases hb with hb | hb <;> simp [hb]
    rw [judgeMark_window x hb]
    split
    · exact ⟨_, _, inWindowMark_eq x s, fun h => absurd h hu⟩
    · rw [strayMark_eq]
      split
      · exact ⟨_, _, stay _ rfl, fun h => absurd h hu⟩
      · exact ⟨_, _, rfl, fun h => absurd h hu⟩
  cases hb : s.sup.timeBase with
  | unset =>
    refine ⟨s.sup, [], ?_, fun _ => hb⟩
    rw [← stay s.sup rfl, State.setSup_self]
    simp only [judgeMark, hb]
  | acquiring =>
    refine ⟨s.lockedAt x, [.timebaseChange], ?_, fun h => nomatch h⟩
    rw [← acquiringLock_eq]
    simp only [judgeMark, hb]
  | locked => exact hb ▸ window (.inl hb)
  | flywheel => exact hb ▸ window (.inr hb)

theorem secondMark_intakeKept (e : Count) (s : State) : IntakeKept s (mark (advanceCounter e s)) := by
  refine (IntakeKept.elapsed s e).trans ?_
  rw [advanceCounter_eq]
  generalize s.elapsed e = u
  unfold mark
  split
  · exact .refl u
  · obtain ⟨new, es, hm, hn⟩ := judgeMark_moved u.counter (capture u)
    rw [hm]
    exact IntakeKept.trans (.of_intake (t := capture u) (.of_eq rfl rfl) rfl rfl id
      fun h => h.kept (.of_eq rfl rfl) rfl) (.moved es hn)

theorem windowExpiry_intakeKept (e : Count) (s : State) : IntakeKept s (windowExpiry (advanceCounter e s)) := by
  refine (IntakeKept.elapsed s e).trans ?_
  rw [advanceCounter_eq]
  generalize s.elapsed e = u
  unfold windowExpiry
  split
  · exact .refl u
  · split
    · rename_i ho
      rw [substituteMark_eq]
      exact .moved _ fun hu => by simp [windowOver, hu, hasWindow] at ho
    · exact .refl u

/-! ## Records closed, looked up and answered -/

/-- An accepted record joins its queue within the depth (R96). -/
theorem joinQueue_fit {s : State} (h : QueuesFit s) (n : SourceNo) (r : Record)
    (hd : s.intake.sources[n].state ≠ .disabled) : QueuesFit (joinQueue n r s) := by
  have hpos : 0 < queueDepth s n := by
    unfold queueDepth
    split <;> decide
  have hactive (hp : s.status.part = .transparent) : False := hd (h.idle hp n).1
  have longer (q : List Record) (hq : q.length ≤ queueDepth s n) :
      QueuesFit (updSource n (fun src => { src with queue := q }) s) := by
    refine ⟨fun m => ?_, fun hp => (hactive hp).elim⟩
    rw [updSource_source]
    split
    · rename_i hm
      rw [hm]
      exact hq
    · exact h.depth m
  unfold joinQueue
  split
  · rename_i hlt
    refine longer (s.intake.sources[n].queue ++ [r]) ?_
    rw [List.length_append]
    exact hlt
  · refine QueuesFit.shrink (longer (s.intake.sources[n].queue.dropLast ++ [r]) ?_) (sourceFault_inner _ _ _).sameSetting
      (sourceFault_shrinks _ _ _)
    have hl : s.intake.sources[n].queue.length ≤ queueDepth s n := h.depth n
    rw [List.length_append, List.length_dropLast, List.length_singleton]
    omega

/-- The takes of a moment keep the laws of the intake, and make up for a take that had become due (R98). -/
theorem qualifierTake_kept {s t : State} (e : SameSetting s t) (hh : t.path.held = s.path.held)
    (h : QueuesFit s → QueuesFit t) : IntakeKept s (qualifierTake t) :=
  have k := qualifierTake_inner t
  ⟨e.trans k.sameSetting, fun hs => ((h hs.queuesFit).shrink k.sameSetting (qualifierTake_shrinks t)).intakeLaws
    (hs.locked.kept (e.trans k.sameSetting) ((congrArg PathUnit.held k.path).trans hh)) (noTakeDue_qualifierTake t)⟩

/-- A record's handling ended, and the takes that follow it. -/
theorem qualifierTake_after {s t : State} (k : InnerFrame s t) (h : QueuesFit s → QueuesFit t) :
    IntakeKept s (qualifierTake t) := qualifierTake_kept k.sameSetting (congrArg PathUnit.held k.path) h

theorem closeRecord_kept (n : SourceNo) (e : BitVec 16) (s : State) : IntakeKept s (closeRecord n e s) := by
  have malformed (q : BitVec 16) : IntakeKept s (dispose n .malformed q none (sourceFault n .malformed s)) :=
    have k := (sourceFault_inner n .malformed s).trans (dispose_inner n .malformed q none _)
    have z := (sourceFault_shrinks n .malformed s).trans (dispose_shrinks n .malformed q none _)
    .of_shrink k z fun h => h.inner k z id
  unfold closeRecord
  dsimp only
  split
  · exact .refl s
  · rename_i hd
    split
    · exact malformed _
    · split
      · exact malformed _
      · split
        · exact .refl s
        · have k := updSource_inner n (fun src => { src with lastSeq := some e }) s
          have z : QueuesShrink s (updSource n (fun src => { src with lastSeq := some e }) s) :=
            updSource_shrinks s le_rfl id
          refine qualifierTake_after (k.trans (joinQueue_inner _ _ _)) fun h => joinQueue_fit (h.shrink k.sameSetting z) n _ ?_
          rwa [updSource_source, if_pos rfl]

theorem stageWrite_kept (n : SourceNo) (j : Nat) (b : Byte) (s : State) : IntakeKept s (stageWrite n j b s) := by
  refine .of_shrink (stageWrite_inner n j b s) (stageWrite_shrinks n j b s) fun h =>
    h.inner (stageWrite_inner n j b s) (stageWrite_shrinks n j b s) fun hq => ?_
  unfold stageWrite at hq
  split at hq <;> exact hq

theorem foldl_kept {α : Type} {f : State → α → State} (hf : ∀ s a, IntakeKept s (f s a)) (l : List α) (s : State) :
    IntakeKept s (l.foldl f s) := by
  induction l generalizing s with
  | nil => exact .refl s
  | cons a l ih => exact (hf s a).trans (ih _)

theorem intakeWords_kept (k off : Nat) (d : List Byte) (s : State) : IntakeKept s (intakeWords k off d s) := by
  induction k generalizing off d s with
  | zero => exact .refl s
  | succ k ih =>
    refine IntakeKept.trans ?_ (ih _ _ _)
    unfold intakeWord
    split
    · split
      · exact closeRecord_kept _ _ _
      · exact .refl s
    · exact foldl_kept (fun _ _ => stageWrite_kept _ _ _ _) _ s

theorem freeQualifier_shrinks (s : State) : QueuesShrink s (freeQualifier s) := .of_sources rfl

theorem qualifierLookup_kept (sched : Schedule) (s : State) : IntakeKept s (qualifierLookup sched s) := by
  unfold qualifierLookup
  split
  · rename_i n q a d change _
    have k := (freeQualifier_inner s).trans (leapSteps_inner sched n q a d change _)
    exact qualifierTake_after k fun h => h.shrink k.sameSetting ((freeQualifier_shrinks s).trans (leapSteps_shrinks ..))
  · exact .refl s

theorem qualifierAnswer_kept (a : ListAnswer) (s : State) : IntakeKept s (qualifierAnswer a s) := by
  unfold qualifierAnswer
  split
  · rename_i n q _ _
    have k := (freeQualifier_inner s).trans (recordAnswer_inner n q a _)
    exact qualifierTake_after k fun h => h.shrink k.sameSetting ((freeQualifier_shrinks s).trans (recordAnswer_shrinks ..))
  · exact .refl s

/-- Whatever a live write comes to, it is a move of the supervisor. -/
theorem liveWrite_moved (w : Second) (s : State) : ∃ new es, liveWrite w s = s.moved new es := by
  have check (p : Bool) (u : State) : ∃ new es, liveCheck p w u = u.moved new es := by
    by_cases hw : w = u.sup.s
    · exact ⟨_, _, liveCheck_agrees hw⟩
    · by_cases hc : p = true ∨ u.sup.disagree + 1 = resyncCount u
      · exact ⟨_, _, liveCheck_resyncs hw hc⟩
      · obtain ⟨hp, hn⟩ := not_or.mp hc
        obtain rfl : p = false := by simpa using hp
        exact ⟨_, _, liveCheck_differs hw hn⟩
  have checked (h : s.sup.timeBase = .locked ∨ s.sup.timeBase = .flywheel) :
      ∃ new es, liveWrite w s = s.moved new es := by
    obtain ⟨new, es, hc⟩ := check s.sup.resyncPending (s.setSup { s.sup with resyncPending := false })
    exact ⟨new, es, (liveWrite_checked h).trans (hc.trans (setSup_moved rfl new es))⟩
  cases hb : s.sup.timeBase with
  | unset => exact ⟨_, _, liveWrite_unset hb⟩
  | acquiring => exact ⟨_, _, liveWrite_acquiring hb⟩
  | locked => exact checked (.inl hb)
  | flywheel => exact checked (.inr hb)

/-- A live write that leaves UNSET is followed by the takes of that moment (R98). -/
theorem liveWriteTaken_kept (w : Second) (s : State) : IntakeKept s (liveWriteTaken w s) := by
  obtain ⟨new, es, hl⟩ := liveWrite_moved w s
  unfold liveWriteTaken
  rw [hl]
  split
  · have e : SameSetting s (s.moved new es) := .of_eq rfl rfl
    exact qualifierTake_kept e rfl fun h => h.shrink e (.of_sources rfl)
  · rename_i hu
    exact .moved es fun h => absurd h hu

/-! ## Notices, claims and requests -/

/-- A source after a change of S, before it is judged (R114). -/
def loweredSource (c : SChange) (src : Source) : Source :=
  if c.after.toNat < c.before.toNat then lowerSource c.after src else src

/-- A source after a change of S (R113, R114). -/
def judgedSource (timeout : Nat) (c : SChange) (src : Source) : Source :=
  if fallsSilent timeout c.after (loweredSource c src) then { loweredSource c src with state := .silent }
  else loweredSource c src

/-- The sources that a change of S makes SILENT (R113). -/
def silencedSources (c : SChange) (s : State) : List SourceNo :=
  (List.finRange 8).filter fun n =>
    fallsSilent s.status.config.glob.silence.toNat c.after (loweredSource c s.intake.sources[n])

/-- The state whose sources have seen a change of S. -/
def State.judged (s : State) (c : SChange) : State :=
  s.setIntake { s.intake with
    sources := mapSources (fun _ => judgedSource s.status.config.glob.silence.toNat c) s.intake.sources }

/-- A change of S at the Intake Unit: each source judged, and one event and one trigger where some fall SILENT (R113,
R114). -/
theorem intakeChange_eq (c : SChange) (s : State) : intakeChange c s =
    if (silencedSources c s).isEmpty then s.judged c
    else (s.judged c).setWires { s.wires with
      events := s.wires.events ++ [.sourceSilent]
      triggers := s.wires.triggers ++ [.enteringSilent (silencedSources c s)] } := by
  have hl : (if c.after.toNat < c.before.toNat then mapSources (fun _ => lowerSource c.after) s.intake.sources
      else s.intake.sources) = mapSources (fun _ => loweredSource c) s.intake.sources := by
    apply Vector.ext
    intro i hi
    unfold mapSources loweredSource
    split <;> simp
  have hj : mapSources (fun _ src => if fallsSilent s.status.config.glob.silence.toNat c.after src then
      { src with state := .silent } else src) (mapSources (fun _ => loweredSource c) s.intake.sources) =
      mapSources (fun _ => judgedSource s.status.config.glob.silence.toNat c) s.intake.sources := by
    apply Vector.ext
    intro i hi
    simp [mapSources, judgedSource]
  unfold intakeChange
  dsimp only
  rw [hl, hj]
  simp only [mapSources_get]
  rfl

theorem judged_shrinks (c : SChange) (s : State) : QueuesShrink s (s.judged c) := by
  have hl (src : Source) : (loweredSource c src).queue.length = src.queue.length ∧
      (loweredSource c src).state = src.state := by
    unfold loweredSource lowerSource
    split <;> simp
  refine mapSources_shrinks s (fun _ src => ?_) fun _ src hd => ?_
  · unfold judgedSource
    split <;> exact (hl src).1.le
  · unfold judgedSource
    rw [if_neg (by simp [fallsSilent, (hl src).2, hd]), (hl src).2, hd]

theorem intakeChange_kept (c : SChange) (s : State) : IntakeKept s (intakeChange c s) := by
  have hi : (intakeChange c s).intake = (s.judged c).intake := by
    rw [intakeChange_eq]
    split <;> rfl
  have z : QueuesShrink s (intakeChange c s) := (judged_shrinks c s).trans (.of_intake hi)
  exact .of_shrink (intakeChange_inner c s) z fun h => h.inner (intakeChange_inner c s) z fun h => by rwa [hi] at h

theorem civilCommit_kept (c : CivilCommit) (s : State) : IntakeKept s (civilCommit c s) := by
  have z : QueuesShrink s (civilCommit c s) :=
    (mapSources_shrinks s (f := fun _ => clearStale c.s) (q := s.intake.qualifier)
      (h := raiseHorizon c.boundary s.intake.civilHorizon) (fun _ _ => le_rfl) fun _ _ => id).trans (.of_sources rfl)
  exact .of_shrink (civilCommit_inner c s) z fun h => h.inner (civilCommit_inner c s) z id

/-- FLUSH empties every queue (R116). -/
theorem flushIntake_kept (s : State) : IntakeKept s (flushIntake s) := by
  have z : QueuesShrink s (flushIntake s) :=
    (mapSources_shrinks s (f := fun _ => flushSource) (fun _ _ => Nat.zero_le _) fun _ _ => id).trans (.of_sources rfl)
  refine .of_shrink (flushIntake_inner s) z fun _ => .of_empty fun n => ?_
  show (mapSources (fun _ => flushSource) s.intake.sources)[n].queue = []
  rw [mapSources_get]
  rfl

theorem popRequest_intake (s : State) : (popRequest s).intake = s.intake := by
  unfold popRequest
  split <;> rfl

theorem deliverAnswer_kept (who : Asker) (a : ListAnswer) (s : State) : IntakeKept s (deliverAnswer who a s) := by
  unfold deliverAnswer
  split
  · exact qualifierAnswer_kept a s
  · exact .of_inner_intake (electionAnswer_inner a s) (electionAnswer_intake a s)
  · exact .refl s

/-- A request leaves the list, whose schedule may change, and events are raised. -/
theorem popped_kept (sched : Schedule) (es : List Event) (s : State) :
    IntakeKept s (raise es ((popRequest s).setList { (popRequest s).list with sched := sched })) :=
  .trans (.of_inner_intake (popRequest_inner s) (popRequest_intake s))
    (.of_intake (.of_eq rfl rfl) rfl rfl id fun h => h.kept (.of_eq rfl rfl) rfl)

theorem takeRequest_kept (row : RequestRow) (s : State) : IntakeKept s (takeRequest row s) := by
  unfold takeRequest
  split
  · exact .refl s
  · split
    · split
      · exact (popped_kept _ _ s).trans (deliverAnswer_kept _ _ _)
      · exact .refl s
    · exact .refl s

theorem flushProgress_kept (l i : Bool) (s : State) : IntakeKept s (flushProgress l i s) := by
  refine .of_access (flushProgress_frame l i s) fun h => ?_
  unfold flushProgress
  split
  · split
    · exact (answer_noSnoop _ _ _ _).law
    · rename_i a _ _ _ _
      exact (NoSnoopHeld.of_job (a := a) rfl (by simp)).law
  · exact h

theorem takeFlushClaim_kept (s : State) : IntakeKept s (takeFlushClaim s) := by
  unfold takeFlushClaim
  split
  · exact ((popped_kept _ _ s).trans (flushProgress_kept true false _)).trans (.serve _)
  · exact .refl s

theorem freezeAndCommitClaim_kept {s t : State} (h : exec .freezeAndCommitClaim s = .next t) : IntakeKept s t := by
  simp only [exec, execFreezeAndCommitClaim] at h
  split at h <;> cases h
  · exact .refl s
  · exact .of_intake (.of_eq rfl rfl) rfl rfl id fun h => h.kept (.of_eq rfl rfl) rfl

theorem converterLookup_kept (sched : Schedule) (s : State) : IntakeKept s (converterLookup sched s) := by
  refine .of_access (converterLookup_frame sched s) fun h => ?_
  unfold converterLookup
  split
  · exact (answer_noSnoop _ _ _ _).law
  · split
    · exact (holdAndIssue_noSnoop _ _ _ (by simp)).law
    · exact (refuse_noSnoop _ _ _).law
  · exact h

theorem announceProgress_noSnoop {s : State} (h : NoSnoopHeld s) : NoSnoopHeld (announceProgress s) := by
  unfold announceProgress
  split
  · split
    · exact h
    · exact answer_noSnoop _ _ _ _
  · exact h

theorem patcherSnapshot_kept (sched : Schedule) (s : State) : IntakeKept s (patcherSnapshot sched s) := by
  refine .of_access (patcherSnapshot_frame sched s) fun h => ?_
  unfold patcherSnapshot
  split
  · rename_i a _ _ _ _ _
    exact (announceProgress_noSnoop (.of_job (a := a) rfl (by simp))).law
  · exact h

theorem statusSnapshot_kept (sched : Schedule) (s : State) : IntakeKept s (statusSnapshot sched s) := by
  refine .of_access (statusSnapshot_frame sched s) fun h => ?_
  unfold statusSnapshot
  split
  · exact (answer_noSnoop _ _ _ _).law
  · exact h

theorem popQuery_kept (s : State) : IntakeKept s (popQuery s) := .of_inner_intake (popQuery_inner s) rfl

theorem takeLookup_kept (s : State) : IntakeKept s (takeLookup s) := by
  unfold takeLookup deliverLookup
  split
  · refine ((popQuery_kept s).trans ?_).trans (.serve _)
    split
    · exact converterLookup_kept _ _
    · exact qualifierLookup_kept _ _
    · exact .refl _
  · exact .refl s

theorem takeSnapshot_kept (s : State) : IntakeKept s (takeSnapshot s) := by
  unfold takeSnapshot deliverSnapshot
  split
  · refine ((popQuery_kept s).trans ?_).trans (.serve _)
    split
    · exact .of_inner_intake (electionSnapshot_inner _ _) (electionSnapshot_intake _ _)
    · exact patcherSnapshot_kept _ _
    · exact .of_inner_intake (quietSnapshot_inner _ _) (quietSnapshot_intake _ _)
    · exact statusSnapshot_kept _ _
    · exact .refl _
  · exact .refl s


/-! ## Commands that may change the part state or the configuration copy -/

/-- A command keeps the laws of the intake, and keeps the global and source fields while the part stays ACTIVE. -/
structure IntakeStep (s t : State) : Prop where
  laws : IntakeLaws s → IntakeLaws t
  lock : IntakeLaws s → s.status.part = .active → t.status.part = .active →
    t.status.config.glob = s.status.config.glob ∧ t.status.config.sources = s.status.config.sources

theorem IntakeStep.of_kept {s t : State} (h : IntakeKept s t) : IntakeStep s t :=
  ⟨h.laws, fun _ _ _ => ⟨h.setting.glob, h.setting.sources⟩⟩

theorem IntakeStep.then {s t u : State} (h : IntakeStep s t) (k : IntakeKept t u) : IntakeStep s u :=
  ⟨k.laws ∘ h.laws, fun hs ha hb => by
    obtain ⟨hg, hc⟩ := h.lock hs ha (k.setting.part.symm.trans hb)
    exact ⟨k.setting.glob.trans hg, k.setting.sources.trans hc⟩⟩

theorem IntakeKept.then {s t u : State} (h : IntakeKept s t) (k : IntakeStep t u) : IntakeStep s u :=
  ⟨k.laws ∘ h.laws, fun hs ha hb => by
    obtain ⟨hg, hc⟩ := k.lock (h.laws hs) (h.setting.part.trans ha) hb
    exact ⟨hg.trans h.setting.glob, hc.trans h.setting.sources⟩⟩

/-- Answering frees the unit. -/
theorem answer_kept (a : Access) (ok : Bool) (d : List Byte) (s : State) : IntakeKept s (answer a ok d s) :=
  .of_access (answer_frame a ok d s) fun _ => (answer_noSnoop a ok d s).law

/-! ## The snoop (R174) -/

/-- A byte beyond the source areas changes no global and no source field (R172). -/
theorem snoopByte_beyond {off : Nat} (h : 0x200 ≤ off) (b : Byte) (c : ConfigCopy) :
    (snoopByte off b c).glob = c.glob ∧ (snoopByte off b c).sources = c.sources := by
  unfold snoopByte
  rw [if_neg (by omega), dif_neg (by omega)]
  split <;> exact ⟨rfl, rfl⟩

/-- A write that covers no global and no source byte changes none of those fields (R174). -/
theorem snoopWrite_locked {s : State} {a : Access} (h : touches a (regionBase s) 0x0000 0x01FF = false) :
    (snoopWrite a s).status.config.glob = s.status.config.glob ∧
      (snoopWrite a s).status.config.sources = s.status.config.sources := by
  have hout (i : Nat) (hi : i < accessLen a) (hb : regionBase s ≤ a.addr.toNat + i) :
      0x200 ≤ a.addr.toNat + i - regionBase s := by
    rw [touches, decide_eq_false_iff_not] at h
    omega
  have fold (l : List (Byte × Nat)) (hl : ∀ bi ∈ l, bi.2 < accessLen a) (c : ConfigCopy) :
      (l.foldl (fun c bi => if regionBase s ≤ a.addr.toNat + bi.2 then
        snoopByte (a.addr.toNat + bi.2 - regionBase s) bi.1 c else c) c).glob = c.glob ∧
      (l.foldl (fun c bi => if regionBase s ≤ a.addr.toNat + bi.2 then
        snoopByte (a.addr.toNat + bi.2 - regionBase s) bi.1 c else c) c).sources = c.sources := by
    induction l generalizing c with
    | nil => exact ⟨rfl, rfl⟩
    | cons bi l ih =>
      obtain ⟨hg, hs⟩ := ih (fun x hx => hl x (List.mem_cons_of_mem _ hx))
        (if regionBase s ≤ a.addr.toNat + bi.2 then snoopByte (a.addr.toNat + bi.2 - regionBase s) bi.1 c else c)
      rw [List.foldl_cons, hg, hs]
      split
      · rename_i hb
        exact snoopByte_beyond (hout _ (hl bi (List.mem_cons_self ..)) hb) _ _
      · exact ⟨rfl, rfl⟩
  refine fold _ (fun bi hbi => ?_) _
  have := (List.mem_zipIdx hbi).2.1
  simpa [accessBytes] using this

/-- A snooped write keeps the laws of the intake: while the part is ACTIVE it was held as one that leaves the locked fields,
and while it is TRANSPARENT the queues are empty. -/
theorem answer_snoopWrite_step {s : State} {a : Access} (d : List Byte)
    (h : IntakeLaws s → s.status.part = .active → touches a (regionBase s) 0x0000 0x01FF = false) :
    IntakeStep s (answer a true d (snoopWrite a s)) := by
  refine IntakeStep.then ⟨fun hs => ?_, fun hs ha _ => snoopWrite_locked (h hs ha)⟩ (answer_kept a true d _)
  cases hp : s.status.part with
  | active =>
    obtain ⟨hg, hc⟩ := snoopWrite_locked (h hs hp)
    have e : SameSetting s (snoopWrite a s) := ⟨rfl, rfl, hg, hc⟩
    exact (IntakeKept.of_intake e rfl rfl id fun h => h.kept e rfl).laws hs
  | transparent =>
    have hi := hs.idle hp
    refine QueuesFit.intakeLaws (.of_empty (fun n => (hi n).2) fun _ n => (hi n).1) (fun ha => ?_) fun _ ha => ?_
    all_goals exact nomatch hp.symm.trans ha

/-! ## The command word -/

/-- A successful ACTIVATE starts with empty queues, a failed one keeps the blocks (R91, R176, R177). -/
theorem answer_takeActivate_step (a : Access) (d : List Byte) (s : State) :
    IntakeStep s (answer a true d (takeActivate s)) := by
  have hfree := (answer_noSnoop a true d (takeActivate s)).law
  unfold takeActivate at hfree ⊢
  split at hfree
  · have hq (n : SourceNo) : (activatePart s).intake.sources[n].queue = [] := by
      simp [activatePart, emptyLatches, activatedSource, Source.reset, mapSources]
    have hc : (activatePart s).status.config = s.status.config := rfl
    exact ⟨fun _ => QueuesFit.intakeLaws (.of_empty hq fun ht => nomatch ht) hfree (.of_empty hq),
      fun _ _ _ => ⟨congrArg ConfigCopy.glob hc, congrArg ConfigCopy.sources hc⟩⟩
  · exact .of_kept (.of_intake ⟨rfl, rfl, rfl, rfl⟩ rfl rfl id fun _ => hfree)

/-- DEACTIVATE leaves the part TRANSPARENT with empty queues (R91, R178). -/
theorem answer_takeDeactivate_step (a : Access) (d : List Byte) (s : State) :
    IntakeStep s (answer a true d (takeDeactivate s)) := by
  have hq (n : SourceNo) : (takeDeactivate s).intake.sources[n].queue = [] := by
    simp [takeDeactivate, emptyLatches, deactivatedSource, Source.reset, mapSources]
  have hd (n : SourceNo) : (takeDeactivate s).intake.sources[n].state = .disabled := by
    simp [takeDeactivate, emptyLatches, deactivatedSource, Source.reset, mapSources]
  exact ⟨fun _ => QueuesFit.intakeLaws (.of_empty hq fun _ => hd) (answer_noSnoop a true d _).law (.of_empty hq),
    fun _ _ hb => nomatch hb⟩

theorem takeCommand_step (a : Access) (w : Word) (s : State) : IntakeStep s (takeCommand a w s) := by
  have hk : IntakeKept s (s.setStatus { s.status with lastCommand := w }) :=
    .of_intake ⟨rfl, rfl, rfl, rfl⟩ rfl rfl id fun h => h.kept ⟨rfl, rfl, rfl, rfl⟩ rfl
  unfold takeCommand
  dsimp only
  refine hk.then ?_
  generalize s.setStatus _ = u
  split
  · exact answer_takeActivate_step _ _ _
  · exact answer_takeDeactivate_step _ _ _
  · exact .of_kept (.of_intake (.of_eq rfl rfl) rfl rfl id fun _ =>
      (NoSnoopHeld.of_job (a := a) (j := .flushing false false) rfl (by simp)).law)
  · exact .of_kept (.of_intake (.of_eq rfl rfl) rfl rfl id fun _ => (answer_noSnoop _ _ _ _).law)
  · exact .of_kept (.of_intake (.of_eq rfl rfl) rfl rfl id fun _ => (answer_noSnoop _ _ _ _).law)
  · rename_i p t _
    exact .of_kept (.trans (.of_inner_intake (takePortTransfer_inner p t u) (takePortTransfer_intake p t u))
      (answer_kept _ _ _ _))
  · exact .of_kept (answer_kept _ _ _ _)

/-! ## Memory's answer -/

theorem timeReadAnswered_noSnoop (a : Access) (v : Fin 7) (r : BitVec 8) (p : RecordPart) (d : List Byte) (s : State) :
    NoSnoopHeld (timeReadAnswered a v r p d s) := by
  unfold timeReadAnswered
  dsimp only
  split
  · exact answer_noSnoop _ _ _ _
  · split
    · exact .of_job (a := a) rfl (by simp)
    · exact answer_noSnoop _ _ _ _

/-- Memory's OK to the held access. -/
theorem memoryOk_step {h : Held} {s : State} (d : List Byte) (hh : s.path.held = some h) :
    IntakeStep s (memoryOk h d s) := by
  obtain ⟨a, j⟩ := h
  cases j with
  | relay => exact .of_kept (answer_kept _ _ _ _)
  | store o =>
    cases o with
    | none => exact .of_kept (answer_kept _ _ _ _)
    | config => exact answer_snoopWrite_step _ fun hs ha => hs.locked ha a hh
    | intake => exact .of_kept ((intakeWords_kept _ _ _ s).trans (answer_kept _ _ _ _))
    | liveWrite => exact .of_kept ((liveWriteTaken_kept _ s).trans (answer_kept _ _ _ _))
  | timeRead v r p =>
    exact .of_kept (.of_access (timeReadAnswered_frame a v r p d s) fun _ => (timeReadAnswered_noSnoop a v r p d s).law)
  | announce sm blocks awaiting snap =>
    refine .of_kept (.of_access (memoryOk_frame d s (fun _ h => by cases h) fun _ h => by cases h) fun _ => ?_)
    have hj : (issueNext (hold a (.announce sm (blocks ++ d) awaiting snap) s)).path.held =
        some { access := a, job := .announce sm (blocks ++ d) awaiting snap } := issueNext_held _
    exact (announceProgress_noSnoop (.of_job hj (by simp))).law
  | command w => exact takeCommand_step a w s
  | timeConvert v r p w0 w1 => exact .of_kept (.refl s)
  | timeInvert v r w0 w1 => exact .of_kept (.refl s)
  | status sm => exact .of_kept (.refl s)
  | flushing l i => exact .of_kept (.refl s)

theorem memoryError_kept (h : Held) (s : State) : IntakeKept s (memoryError h s) := by
  unfold memoryError
  dsimp only
  split <;> exact .of_intake (.of_eq rfl rfl) rfl rfl id fun _ => (answer_noSnoop _ _ _ _).law

theorem memoryAnswer_step (ok : Bool) (d : List Byte) (s : State) : IntakeStep s (memoryAnswer ok d s) := by
  unfold memoryAnswer
  split
  · exact .of_kept (.refl s)
  · dsimp only
    have hk : IntakeKept s (s.setPath { s.path with outstanding := none, stale := false }) :=
      .of_intake (.of_eq rfl rfl) rfl rfl id fun h => h.kept (.of_eq rfl rfl) rfl
    refine hk.then ?_
    generalize hu : s.setPath { s.path with outstanding := none, stale := false } = u
    split
    · exact .of_kept (.of_access (issueNext_frame u) fun h =>
        h.kept (issueNext_frame u).sameSetting (issueNext_held u))
    · split
      · exact .of_kept (.refl u)
      · rename_i x hx
        split
        · exact memoryOk_step _ (by rw [← hu]; exact hx)
        · exact .of_kept (memoryError_kept x u)

/-! ## Reset -/

theorem assertReset_kept (s : State) : IntakeKept s (assertReset s) := by
  have held (u : State) (h : u.path.held = none) : IntakeKept u (abandonWork u) := by
    have e : SameSetting u (abandonWork u) := .of_eq (by simp [abandonWork, emptyLatches]) (abandonWork_straps u)
    have z : QueuesShrink u (abandonWork u) := .of_sources (by rw [abandonWork_intake])
    refine ⟨e, fun hs => (hs.queuesFit.shrink e z).intakeLaws (NoSnoopHeld.of_none ?_).law fun hr => ?_⟩
    · rw [abandonWork_path]
      exact h
    · exact nomatch (abandonWork_resetAsserted u).symm.trans hr
  cases hr : s.resetAsserted with
  | true =>
    have : assertReset s = s := by simp [assertReset, hr]
    rw [this]
    exact .refl s
  | false =>
    rw [assertReset_eq hr]
    cases hh : s.path.held with
    | none => exact held s hh
    | some x => exact (answer_kept x.access false [] s).trans (held _ rfl)

theorem releasedPart_step (page : BitVec 8) (control : Master) (s : State) :
    IntakeStep s (releasedPart page control s) := by
  have hq (n : SourceNo) : (releasedPart page control s).intake.sources[n].queue = [] := by
    simp [releasedPart, State.reset, Intake.reset, Source.reset]
  have hd (n : SourceNo) : (releasedPart page control s).intake.sources[n].state = .disabled := by
    simp [releasedPart, State.reset, Intake.reset, Source.reset]
  exact ⟨fun _ => QueuesFit.intakeLaws (.of_empty hq fun _ => hd) (NoSnoopHeld.of_none rfl).law (.of_empty hq),
    fun _ _ hb => nomatch hb⟩

/-! ## Every command -/

/-- A notice that a block takes off its way. -/
theorem setWires_kept (s : State) (w : Wires) : IntakeKept s (s.setWires w) := .of_inner_intake (setWires_inner s w) rfl

theorem exec_intakeStep {c : Instr} {s t : State} (h : exec c s = .next t) : IntakeStep s t := by
  cases ha : accessOf s c with
  | some a =>
    rw [exec_access ha] at h
    cases h
    exact .of_kept (.trans (.of_access (setCard_frame s (s.card ++ [a])) fun h => h.kept (.of_eq rfl rfl) rfl)
      (.serve _))
  | none =>
    cases c
    case resetAssert => cases h; exact .of_kept (assertReset_kept s)
    case resetRelease =>
      simp only [exec, execResetRelease] at h
      split at h <;> cases h
      · exact (releasedPart_step _ _ s).then (.serve _)
      · exact .of_kept (.refl s)
    case secondMark e => cases h; exact .of_kept (secondMark_intakeKept e s)
    case windowExpiry e => cases h; exact .of_kept (windowExpiry_intakeKept e s)
    case memoryAnswer ok d => cases h; exact (memoryAnswer_step ok d s).then (.serve _)
    case freezeAndCommitClaim => exact .of_kept (freezeAndCommitClaim_kept h)
    case armRequest => cases h; exact .of_kept (takeRequest_kept .arm s)
    case replaceRequest => cases h; exact .of_kept (takeRequest_kept .replace s)
    case withdrawRequest => cases h; exact .of_kept (takeRequest_kept .withdraw s)
    case listFlush => cases h; exact .of_kept (takeFlushClaim_kept s)
    case lookupClaim => cases h; exact .of_kept (takeLookup_kept s)
    case snapshotClaim => cases h; exact .of_kept (takeSnapshot_kept s)
    case qualifierTake => cases h; exact .of_kept (qualifierTake_after (.refl s) id)
    case intakeFlush =>
      simp only [exec, execIntakeFlush] at h
      split at h <;> cases h
      · exact .of_kept (.refl s)
      · exact .of_kept ((((setWires_kept s _).trans (flushIntake_kept _)).trans (flushProgress_kept false true _)).trans
          (.serve _))
    case intakeChangeOfS =>
      simp only [exec, execIntakeChangeOfS] at h
      split at h <;> cases h
      · exact .of_kept (.refl s)
      · exact .of_kept ((setWires_kept s _).trans (intakeChange_kept _ _))
    case civilCommitNotice =>
      simp only [exec, execCivilCommitNotice] at h
      split at h <;> cases h
      · exact .of_kept (.refl s)
      · exact .of_kept ((setWires_kept s _).trans (civilCommit_kept _ _))
    case electionTrigger =>
      simp only [exec, execElectionTrigger] at h
      split at h <;> cases h
      · exact .of_kept (.refl s)
      · exact .of_kept ((setWires_kept s _).trans (.of_inner_intake (takeTrigger_inner _) (takeTrigger_intake _)))
    case electionFlush =>
      simp only [exec, execElectionFlush] at h
      split at h <;> cases h
      · exact .of_kept (.refl s)
      · exact .of_kept ((setWires_kept s _).trans (.of_inner_intake (flushElection_inner _) (startRun_intake _)))
    case portChangeOfS =>
      simp only [exec, execPortChangeOfS] at h
      split at h <;> cases h
      · exact .of_kept (.refl s)
      · exact .of_kept ((setWires_kept s _).trans
          (.of_inner_intake (arriveChangeOfS_inner _ _) (arriveChangeOfS_intake _ _)))
    case commitNotice =>
      simp only [exec, execCommitNotice] at h
      split at h <;> cases h
      · exact .of_kept (.refl s)
      · exact .of_kept ((setWires_kept s _).trans (.of_inner_intake (transferPorts_inner _ _) (transferPorts_intake _ _)))
    case eventRaise e =>
      simp only [exec, execEventRaise] at h
      split at h <;> cases h
      · exact .of_kept ((setWires_kept s _).trans (.of_intake (t := setEvent e _) ⟨rfl, rfl, rfl, rfl⟩ rfl rfl id
          fun h => h.kept ⟨rfl, rfl, rfl, rfl⟩ rfl))
      · exact .of_kept (.refl s)
    all_goals cases ha

/-- Settles O58: a step is an idle cycle or a command, and each keeps the laws of the intake; only ACTIVATE, DEACTIVATE, the
snoop and the release of RESET touch the part state or the configuration copy. -/
theorem everyStepKeepsQueuesAndConfiguration : Obligations.EveryStepKeepsQueuesAndConfiguration := by
  intro s t hs h
  have step : IntakeStep s t := by
    unfold step at h
    split at h
    · cases h
      exact .of_kept (.elapsed s 1#32)
    · rename_i c rest _
      exact (IntakeKept.setPending s rest).then (exec_intakeStep h)
  exact ⟨step.laws hs, step.lock hs⟩

end Sys2Proof.Machine
end

section
/-! PROOFS. What changes of S and civil commits do to the sources (R113 to R115). -/

namespace Sys2Proof.Machine

/-! ## A change of S, source by source -/

/-- A LISTENING source falls SILENT once it was not heard for the timeout (R113). -/
theorem fallsSilent_iff (timeout : Nat) (new : Second) (src : Source) : fallsSilent timeout new src = true ↔
    src.state = .listening ∧ ∃ h, src.lastHeard = some h ∧ h.toNat ≤ new.toNat ∧ timeout ≤ new.toNat - h.toNat := by
  unfold fallsSilent
  cases src.lastHeard <;> simp

/-- A stored second above the new S comes down to it where the change is backward (R114). -/
def SChange.down (c : SChange) (x : Second) : Second :=
  if c.after.toNat < c.before.toNat ∧ c.after.toNat < x.toNat then c.after else x

theorem loweredSource_eq (c : SChange) (src : Source) : loweredSource c src = { src with
    lastHeard := src.lastHeard.map c.down, lastCounted := src.lastCounted.map c.down
    queue := src.queue.map fun r => { r with arrival := c.down r.arrival } } := by
  unfold loweredSource
  split
  · rename_i h
    have hd : c.down = lower c.after := funext fun x => by simp [SChange.down, lower, h]
    rw [hd]
    rfl
  · rename_i h
    have hd : c.down = id := funext fun x => by simp [SChange.down, h]
    simp [hd]

theorem mem_silencedSources {c : SChange} {s : State} {n : SourceNo} : n ∈ silencedSources c s ↔
    fallsSilent s.status.config.glob.silence.toNat c.after (loweredSource c s.intake.sources[n]) = true := by
  simp [silencedSources]

theorem judged_source (c : SChange) (s : State) (n : SourceNo) : (s.judged c).intake.sources[n] =
    judgedSource s.status.config.glob.silence.toNat c s.intake.sources[n] := mapSources_get _ _ n

theorem intakeChange_intake (c : SChange) (s : State) : (intakeChange c s).intake = (s.judged c).intake := by
  rw [intakeChange_eq]
  split <;> rfl

/-- With no source fallen SILENT nothing is sent. -/
theorem intakeChange_quiet {c : SChange} {s : State} (h : silencedSources c s = []) :
    intakeChange c s = s.judged c := by
  rw [intakeChange_eq, h]
  rfl

/-- However many sources fall SILENT, one event is raised and one trigger sent (R113). -/
theorem intakeChange_silencing {c : SChange} {s : State} (h : silencedSources c s ≠ []) :
    intakeChange c s = (s.judged c).setWires { s.wires with
      events := s.wires.events ++ [.sourceSilent]
      triggers := s.wires.triggers ++ [.enteringSilent (silencedSources c s)] } := by
  rw [intakeChange_eq, if_neg (by simpa using h)]

/-! ## A civil commit -/

theorem staleAt_iff (x : Second) (c : Content) : c.staleAt x = true ↔ match c with
    | .leap .noChange => False
    | .leap (.change _ b) => b.toNat ≤ x.toNat
    | .zoneSet _ b _ => b.toNat ≤ x.toNat
    | .zoneCancel _ b => b.toNat ≤ x.toNat := by
  cases c with
  | leap l => cases l <;> simp [Content.staleAt]
  | zoneSet k b z => simp [Content.staleAt]
  | zoneCancel k b => simp [Content.staleAt]

/-- Settles O49: a change of S judges each source by what it holds once brought down to the new S; a civil commit clears each
source's stale proposals. -/
theorem changesAndCommitsReachTheSources : Obligations.ChangesAndCommitsReachTheSources := by
  constructor
  · intro c rest s hw down lowered silent
    let u := s.setWires { s.wires with intakeS := rest }
    have hlow (n : SourceNo) : loweredSource c u.intake.sources[n] = lowered n := loweredSource_eq c _
    have hsilent (n : SourceNo) : n ∈ silencedSources c u ↔ silent n := by
      rw [mem_silencedSources, hlow, fallsSilent_iff]
      rfl
    have hjudged (n : SourceNo) : (intakeChange c u).intake.sources[n] =
        if n ∈ silencedSources c u then { lowered n with state := .silent } else lowered n := by
      rw [intakeChange_intake, judged_source, judgedSource, hlow]
      simp only [mem_silencedSources, hlow]
    refine ⟨intakeChange c u, by simp only [exec, execIntakeChangeOfS, hw, u], fun n hn => ?_, fun n hn => ?_, ?_,
      fun hn => ?_, fun ⟨n, hn⟩ => ⟨silencedSources c u, hsilent, ?_⟩⟩
    · rw [hjudged, if_pos ((hsilent n).mpr hn)]
    · rw [hjudged, if_neg (mt (hsilent n).mp hn)]
    · rw [intakeChange_eq]
      split <;> rfl
    · rw [intakeChange_quiet (List.eq_nil_iff_forall_not_mem.mpr fun n hm => hn n ((hsilent n).mp hm))]
      rfl
    · rw [intakeChange_silencing (List.ne_nil_of_mem ((hsilent n).mpr hn))]
      rfl
  · intro c rest s hw stale
    let u := s.setWires { s.wires with civilCommits := rest }
    have hstale (x : Content) : x.staleAt c.s = true ↔ stale x := staleAt_iff c.s x
    have hsource (n : SourceNo) : (civilCommit c u).intake.sources[n] = clearStale c.s s.intake.sources[n] :=
      mapSources_get _ _ n
    refine ⟨civilCommit c u, by simp only [exec, execCivilCommitNotice, hw, u], rfl, rfl, fun h hh => ?_, fun hh => ?_,
      fun n => ⟨_, _, hsource n, fun x => ?_, fun x => ?_⟩⟩
    · show raiseHorizon c.boundary s.intake.civilHorizon = _
      rw [hh, raiseHorizon]
      split <;> rfl
    · show raiseHorizon c.boundary s.intake.civilHorizon = _
      rw [hh]
      rfl
    · rw [Option.filter_eq_some_iff, ← hstale, Bool.not_eq_true, Bool.not_eq_true']
    · rw [Option.filter_eq_some_iff, ← hstale, Bool.not_eq_true, Bool.not_eq_true']

end Sys2Proof.Machine
end

section
/-! SUPPORT. Writes to the intake slots: that the owner's write is accepted and carried to memory, and what memory's OK hands
over, word by word (R93, R94, R162, R166). -/

namespace Sys2Proof.Machine

/-! ## What a hand-over does not depend on -/

section Outer

variable (s : State) (p : PathUnit) (a : List SysAnswer) (c : List Access) (q : List Instr)

theorem closeRecord_outer (n : SourceNo) (e : BitVec 16) :
    closeRecord n e (s.outer p a c q) = (closeRecord n e s).outer p a c q := by
  have join (r : Record) (u : State) : joinQueue n r (u.outer p a c q) = (joinQueue n r u).outer p a c q := by
    unfold joinQueue
    show (if u.intake.sources[n].queue.length < queueDepth u n then _ else _) = _
    split <;> rfl
  unfold closeRecord
  dsimp only [outer_intake]
  split
  · rfl
  · split
    · rfl
    · split
      · rfl
      · split
        · rfl
        · rw [updSource_outer, outer_sup, join, qualifierTake_outer]

theorem stageWrite_outer (n : SourceNo) (j : Nat) (b : Byte) :
    stageWrite n j b (s.outer p a c q) = (stageWrite n j b s).outer p a c q := by
  unfold stageWrite
  show (if s.intake.sources[n].state = .disabled then _ else _) = _
  split <;> rfl

theorem intakeWord_outer (n : SourceNo) (w j : Nat) (d : List Byte) :
    intakeWord n w j d (s.outer p a c q) = (intakeWord n w j d s).outer p a c q := by
  have fold (l : List (Byte × Nat)) (u : State) :
      l.foldl (fun s bi => stageWrite n (8 * w + j + bi.2) bi.1 s) (u.outer p a c q) =
        (l.foldl (fun s bi => stageWrite n (8 * w + j + bi.2) bi.1 s) u).outer p a c q := by
    induction l generalizing u with
    | nil => rfl
    | cons bi l ih => rw [List.foldl_cons, stageWrite_outer, ih, List.foldl_cons]
  unfold intakeWord
  split
  · split
    · exact closeRecord_outer _ _ _ _ _ _ _
    · rfl
  · exact fold _ s

/-- A hand-over commutes with the path, the answers, the card and the queue of commands. -/
theorem intakeWords_outer (k off : Nat) (d : List Byte) :
    intakeWords k off d (s.outer p a c q) = (intakeWords k off d s).outer p a c q := by
  induction k generalizing off d s with
  | zero => rfl
  | succ k ih =>
    unfold intakeWords
    rw [intakeWord_outer, ih]

end Outer

/-- A write answered after the inner blocks have taken it. -/
theorem answer_outer_hold {s t : State} (k : InnerFrame s t) (h : s.path.held = none) {a : Access} (hd : a.dir = .write)
    (j : Job) (d : List Byte) : answer a true d (t.outer (hold a j s).path s.answers s.card s.pending) =
      t.answered a.master true [] := by
  have hp : ({ (hold a j s).path with held := none } : PathUnit) = t.path := by rw [k.path, ← h]; rfl
  have ht : t.outer t.path t.answers t.card t.pending = t := rfl
  unfold answer
  simp only [hd, State.outer, State.setPending_path, State.setCard_path, State.setAnswers_path, State.setPath_path, hp]
  rw [← k.answers, ← k.card, ← k.pending]
  rfl

/-! ## The access -/

/-- A write to the intake window, `x` bytes from its start. -/
def slotAccess (s : State) (m : Master) (x : Nat) (sh : Shape) (d : List Byte) : Access :=
  regionAccess s m (BitVec.ofNat 16 (0x0800 + x)) .write sh d

/-- The shapes and places of the writes that the window accepts (R161). -/
def SlotShape (sh : Shape) (x : Nat) : Prop :=
  (((sh = .beat .eight ∨ ∃ k, sh = .burst k) ∧ x % 8 = 0) ∨ (sh = .beat .four ∧ x % 4 = 0)) ∧ x + sh.bytes ≤ 0x100

/-- The master owns every slot that holds a byte of the write (R162). -/
def OwnsWritten (s : State) (m : Master) (sh : Shape) (x : Nat) : Prop :=
  ∀ n : SourceNo, x < 0x20 * n.val + 0x20 → 0x20 * n.val < x + sh.bytes → s.status.config.sources[n].owner = m

section SlotWrite

variable {s : State} {m : Master} {x : Nat} {sh : Shape} {d : List Byte}

theorem slotAccess_addr (h : SlotShape sh x) : (slotAccess s m x sh d).addr.toNat = regionBase s + (0x0800 + x) := by
  have := h.2
  rw [slotAccess, regionAccess_addr, BitVec.toNat_ofNat]
  omega

theorem regionOff_slotAccess (h : SlotShape sh x) {u : State} (hu : u.straps = s.straps) :
    regionOff (slotAccess s m x sh d) (regionBase u) = 0x0800 + x := by
  have hb : regionBase u = regionBase s := congrArg (fun x : Straps => x.page.toNat * 0x10000) hu
  rw [hb, regionOff_of_le (by rw [slotAccess_addr h]; omega), slotAccess_addr h]
  omega

/-- The owner's write passes the four checks (R158 to R163). -/
theorem takeAccess_slotAccess (hp : s.status.part = .active) (h : SlotShape sh x) (hl : d.length = sh.bytes)
    (ho : OwnsWritten s m sh x) : takeAccess (slotAccess s m x sh d) s =
      holdAndIssue (slotAccess s m x sh d) (.store .intake) [slotAccess s m x sh d] s := by
  obtain ⟨hsh, hx⟩ := h
  have hpos := shape_bytes_pos sh
  have ha := slotAccess_addr (s := s) (m := m) (d := d) ⟨hsh, hx⟩
  have hbytes : (slotAccess s m x sh d).shape.bytes = sh.bytes := rfl
  have hlen : accessLen (slotAccess s m x sh d) = sh.bytes := rfl
  have hw : windowOf (0x0800 + x) = .intake := by rw [windowOf, if_neg (by omega), if_pos (by omega)]
  have hc : isChecked s (slotAccess s m x sh d) = true := by
    refine isChecked_of_active hp ?_
    rw [inRegion, touches, decide_eq_true_iff, ha, hlen]
    omega
  have hb : addressStep s (slotAccess s m x sh d) (0x0800 + x) = none := by simp [addressStep, hw]
  have hs : shapeStep s (slotAccess s m x sh d) (0x0800 + x) = none := by
    have hbase : regionBase s % 8 = 0 := by simp only [regionBase]; omega
    have hplain : plainShapeOk (slotAccess s m x sh d) = true := by
      rw [plainShapeOk_iff, ha]
      exact hsh.imp (And.imp_right fun _ => by omega) (And.imp_right fun _ => by omega)
    have hstay : staysInWindow (regionBase s) (slotAccess s m x sh d) .intake = true := by
      rw [staysInWindow, decide_eq_true_iff, ha, hlen, Window.range]
      omega
    simp [shapeStep, hw, hplain, hstay]
  have hown : ownershipStep s (slotAccess s m x sh d) (0x0800 + x) = none := by
    have : ownsSlots s (slotAccess s m x sh d) = true := by
      rw [ownsSlots_iff ha, hbytes]
      exact fun n h1 h2 => (ho n (by omega) (by omega)).symm
    simp only [ownershipStep, hw, this, if_true]
    rfl
  have hv : viewWriteStep (slotAccess s m x sh d) (0x0800 + x) = none := by simp [viewWriteStep, hw]
  have hk : checkAccess s (slotAccess s m x sh d) = none := by
    rw [checkAccess_eq ha, hb, hs, hown, hv]
    rfl
  rw [takeAccess_accepted hc hk, carryOut, regionOff_slotAccess ⟨hsh, hx⟩ rfl, hw,
    carried_write (a := slotAccess s m x sh d) rfl hl]
  rfl

/-- The write is held, and goes to memory as it came (R93, R165). -/
theorem exec_slotWrite (hr : Ready s) (hp : s.status.part = .active) (h : SlotShape sh x) (hl : d.length = sh.bytes)
    (ho : OwnsWritten s m sh x) : exec (.intakeSlotWrite m (BitVec.ofNat 16 (0x0800 + x)) sh d) s =
      .next (s.waitingFor (slotAccess s m x sh d) (.store .intake) (slotAccess s m x sh d)) := by
  rw [exec_access (a := slotAccess s m x sh d) rfl, offer_ready _ hr, takeAccess_slotAccess hp h hl ho,
    holdAndIssue_one hr.quiet hr.issued]

/-- On memory's ERROR nothing is handed over (R155). -/
theorem exec_slotWrite_error (hr : Ready s) (y : List Byte) :
    exec (.memoryAnswer false y) (s.waitingFor (slotAccess s m x sh d) (.store .intake) (slotAccess s m x sh d)) =
      .next (s.answered m false []) := exec_memoryError _ _ _ _ hr fun _ _ _ _ hj => nomatch hj

/-- On memory's OK the bytes are handed over word by word (R94, R166). -/
theorem exec_slotWrite_ok (hr : Ready s) (h : SlotShape sh x) (hl : d.length = sh.bytes) (y : List Byte) :
    exec (.memoryAnswer true y) (s.waitingFor (slotAccess s m x sh d) (.store .intake) (slotAccess s m x sh d)) =
      .next ((intakeWords ((sh.bytes + 7) / 8) x d s).answered m true []) := by
  let a := slotAccess s m x sh d
  have hoff : regionOff a (regionBase (hold a (.store .intake) s)) - 0x0800 = x := by
    have : regionOff a (regionBase (hold a (.store .intake) s)) = 0x0800 + x := regionOff_slotAccess h rfl
    omega
  have hbytes : accessBytes a = d := fit_self hl
  have hhold : hold a (.store .intake) s = s.outer (hold a (.store .intake) s).path s.answers s.card s.pending := rfl
  have hk := intakeWords_inner ((sh.bytes + 7) / 8) x d s
  have hmem (z : List Byte) : memoryOk { access := a, job := .store .intake } z (hold a (.store .intake) s) =
      (intakeWords ((sh.bytes + 7) / 8) x d s).answered m true [] := by
    show answer a true z (intakeWords ((sh.bytes + 7) / 8) (regionOff a (regionBase (hold a (.store .intake) s)) - 0x0800)
      (accessBytes a) (hold a (.store .intake) s)) = _
    rw [hoff, hbytes, hhold, intakeWords_outer]
    exact answer_outer_hold hk hr.free rfl (.store .intake) z
  rw [exec_memoryOk _ _ _ _ hr, hmem, serve_nil]
  exact hk.card.trans hr.alone

end SlotWrite

end Sys2Proof.Machine
end

section
/-! PROOFS. Announcement records come in: the staging of words 0 to 2, and the closing by word 3 (R93 to R96, R98). -/

namespace Sys2Proof.Machine

/-! ## Staged bytes -/

/-- A word with bytes written from byte `j` on. -/
def writeBytes (w : Word) (j : Nat) : List Byte → Word
  | [] => w
  | b :: d => writeBytes (setWordByte w j b) (j + 1) d

theorem wordByte_eq_getD (w : Word) {i : Nat} (h : i < 8) : wordByte w i = (wordBytes w).getD i 0#8 := by
  simp [wordBytes, h]

theorem wordByte_setWordByte (w : Word) (j : Nat) (b : Byte) {i : Nat} (h : i < 8) :
    wordByte (setWordByte w j b) i = if j = i then b else wordByte w i := by
  have hb : wordBytes (setWordByte w j b) = (wordBytes w).set j b := wordBytes_bytesWord (by simp)
  rw [wordByte_eq_getD _ h, wordByte_eq_getD _ h, hb, List.getD_eq_getElem?_getD, List.getElem?_set]
  split
  · simp_all
  · rw [List.getD_eq_getElem?_getD]

/-- The written bytes stand in the word, and the others are as they were. -/
theorem wordByte_writeBytes (w : Word) (j : Nat) (d : List Byte) {i : Nat} (h : i < 8) :
    wordByte (writeBytes w j d) i = if j ≤ i ∧ i < j + d.length then d.getD (i - j) 0#8 else wordByte w i := by
  induction d generalizing w j with
  | nil => rw [writeBytes, if_neg (by rw [List.length_nil]; omega)]
  | cons b d ih =>
    rw [writeBytes, ih, wordByte_setWordByte w j b h, List.length_cons]
    by_cases hj : j = i
    · subst hj
      rw [if_neg (by omega), if_pos rfl, if_pos (by omega), Nat.sub_self, List.getD_cons_zero]
    · rw [if_neg hj]
      by_cases hi : j + 1 ≤ i ∧ i < j + 1 + d.length
      · rw [if_pos hi, if_pos (by omega), show i - j = i - (j + 1) + 1 by omega, List.getD_cons_succ]
      · rw [if_neg hi, if_neg (by omega)]

/-- One byte written to a staging word (R93). -/
theorem Staging.write_word (st : Staging) (k : Fin 3) {j : Nat} (h : j < 8) (b : Byte) :
    st.write (8 * k.val + j) b = st.put k (setWordByte ((st.word k).getD 0#64) j b) := by
  have h1 : ¬ 8 + j < 8 := by omega
  have h2 : ¬ 16 + j < 16 := by omega
  match k with
  | 0 => simp [Staging.write, Staging.put, Staging.word, stageByte, h]
  | 1 => simp [Staging.write, Staging.put, Staging.word, stageByte, show 8 + j < 16 by omega]
  | 2 => simp [Staging.write, Staging.put, Staging.word, stageByte, show ¬ 16 + j < 8 by omega, show 16 + j < 24 by omega]

@[simp] theorem Staging.put_word (st : Staging) (k : Fin 3) (w : Word) : (st.put k w).word k = some w := by
  match k with
  | 0 => rfl
  | 1 => rfl
  | 2 => rfl

@[simp] theorem Staging.put_put (st : Staging) (k : Fin 3) (w w' : Word) : (st.put k w).put k w' = st.put k w' := by
  match k with
  | 0 => rfl
  | 1 => rfl
  | 2 => rfl

/-- An update of one source is known by what it makes of that source. -/
theorem updSource_congr {n : SourceNo} {f g : Source → Source} {s : State}
    (h : f s.intake.sources[n] = g s.intake.sources[n]) : updSource n f s = updSource n g s := by
  unfold updSource
  rw [h]

/-- Of two updates of one source the later acts on what the earlier left. -/
theorem updSource_updSource (n : SourceNo) (f g : Source → Source) (s : State) :
    updSource n f (updSource n g s) = updSource n (fun src => f (g src)) s := by
  have h : (updSource n g s).intake.sources[n] = g s.intake.sources[n] := by rw [updSource_source, if_pos rfl]
  unfold updSource at h ⊢
  rw [h]
  simp

/-- The state whose source `n` has staging word `k` set (R93). -/
def State.staged (s : State) (n : SourceNo) (k : Fin 3) (w : Word) : State :=
  updSource n (fun src => { src with staging := src.staging.put k w }) s

/-- Bytes handed over for a word of the slot of a DISABLED source are not staged (R93). -/
theorem intakeWord_disabled {n : SourceNo} {s : State} (hs : s.intake.sources[n].state = .disabled) {k : Nat} (hk : k ≠ 3)
    (j : Nat) (d : List Byte) : intakeWord n k j d s = s := by
  have fold (l : List (Byte × Nat)) : l.foldl (fun s bi => stageWrite n (8 * k + j + bi.2) bi.1 s) s = s := by
    induction l with
    | nil => rfl
    | cons bi l ih => rw [List.foldl_cons, stageWrite, if_pos hs, ih]
  rw [intakeWord, if_neg hk]
  exact fold _

/-- Bytes handed over for one of the words 0 to 2 are written to its staging word, which an absent word begins as 0 (R93). -/
theorem intakeWord_staged {n : SourceNo} {s : State} (hs : s.intake.sources[n].state ≠ .disabled) (k : Fin 3) {j : Nat}
    {d : List Byte} (hd : 0 < d.length) (hj : j + d.length ≤ 8) : intakeWord n k.val j d s =
      s.staged n k (writeBytes ((s.intake.sources[n].staging.word k).getD 0#64) j d) := by
  have one (u : State) (hu : u.intake.sources[n].state ≠ .disabled) (i : Nat) (hi : j + i < 8) (b : Byte) :
      stageWrite n (8 * k.val + j + i) b u =
        u.staged n k (setWordByte ((u.intake.sources[n].staging.word k).getD 0#64) (j + i) b) := by
    rw [stageWrite, if_neg hu, Nat.add_assoc]
    exact updSource_congr (by rw [Staging.write_word _ k hi])
  have staged_source (u : State) (w : Word) : (u.staged n k w).intake.sources[n] =
      { u.intake.sources[n] with staging := u.intake.sources[n].staging.put k w } := by
    rw [State.staged, updSource_source, if_pos rfl]
  have fold (d : List Byte) (i : Nat) (hi : j + i + d.length ≤ 8) (w : Word) :
      (d.zipIdx i).foldl (fun s bi => stageWrite n (8 * k.val + j + bi.2) bi.1 s) (s.staged n k w) =
        s.staged n k (writeBytes w (j + i) d) := by
    induction d generalizing i w with
    | nil => rfl
    | cons b d ih =>
      rw [List.length_cons] at hi
      have hstep : stageWrite n (8 * k.val + j + i) b (s.staged n k w) = s.staged n k (setWordByte w (j + i) b) := by
        rw [one _ (by rw [staged_source]; exact hs) i (by omega), staged_source, Staging.put_word, State.staged, State.staged,
          updSource_updSource]
        simp only [Staging.put_put, Option.getD_some]
        rfl
      rw [List.zipIdx_cons, List.foldl_cons, hstep, ih (i + 1) (by omega)]
      rfl
  rw [intakeWord, if_neg (by omega)]
  cases d with
  | nil => cases hd
  | cons b d =>
    rw [List.length_cons] at hj
    rw [List.zipIdx_cons, List.foldl_cons, one s hs 0 (by omega), fold d 1 (by omega)]
    rfl

/-- The bytes of a write within one word are handed over at once (R93, R166). -/
theorem intakeWords_one {n : SourceNo} {k j : Nat} (hk : k < 4) (hj : j < 8) {d : List Byte} (hd : j + d.length ≤ 8)
    (s : State) : intakeWords 1 (n.val * 0x20 + k * 8 + j) d s = intakeWord n k j d s := by
  have hn : Fin.ofNat 8 ((n.val * 0x20 + k * 8 + j) / 0x20) = n := by
    apply Fin.ext
    simp only [Fin.ofNat]
    omega
  rw [intakeWords, intakeWords, hn, show (n.val * 0x20 + k * 8 + j) / 8 % 4 = k by omega,
    show (n.val * 0x20 + k * 8 + j) % 8 = j by omega, List.take_of_length_le (by omega)]

/-- A single beat at a word of a slot, or at half of one, is a write that the window accepts. -/
theorem slotShape_beat (n : SourceNo) {k j : Nat} (hk : k < 4) {sh : Shape}
    (h : (sh = .beat .eight ∧ j = 0) ∨ (sh = .beat .four ∧ (j = 0 ∨ j = 4))) :
    SlotShape sh (n.val * 0x20 + k * 8 + j) ∧ j + sh.bytes ≤ 8 ∧ (sh.bytes + 7) / 8 = 1 := by
  rcases h with ⟨rfl, rfl⟩ | ⟨rfl, hj⟩
  · have h8 : (Shape.beat .eight).bytes = 8 := rfl
    exact ⟨⟨.inl ⟨.inl rfl, by omega⟩, by omega⟩, by omega, by omega⟩
  · have h4 : (Shape.beat .four).bytes = 4 := rfl
    exact ⟨⟨.inr ⟨rfl, by omega⟩, by omega⟩, by omega, by omega⟩

/-- The owner of a slot owns what a write within one of its words writes. -/
theorem ownsWritten_slot (s : State) (n : SourceNo) {k j : Nat} (hk : k < 4) {sh : Shape} (h : j + sh.bytes ≤ 8) :
    OwnsWritten s s.status.config.sources[n].owner sh (n.val * 0x20 + k * 8 + j) := by
  intro m h1 h2
  have : m = n := Fin.ext (by omega)
  rw [this]

/-- Settles O20: the write lies within one word, whose bytes memory's OK hands over to its staging word. -/
theorem intakeWriteIsStaged : Obligations.IntakeWriteIsStaged := by
  intro n k j sh d s hr hp hl hform m off src
  obtain ⟨hsh, hj, hone⟩ := slotShape_beat n (k := k.val) (by omega) hform
  have hpos := shape_bytes_pos sh
  have hoff : off = BitVec.ofNat 16 (0x0800 + (n.val * 0x20 + k.val * 8 + j)) := by
    simp only [off, Nat.add_assoc]
  have hok (x : List Byte) : exec (.memoryAnswer true x) (s.waitingFor (slotAccess s m (n.val * 0x20 + k.val * 8 + j) sh d)
      (.store .intake) (slotAccess s m (n.val * 0x20 + k.val * 8 + j) sh d)) =
      .next ((intakeWord n k.val j d s).answered m true []) := by
    rw [exec_slotWrite_ok hr hsh hl, hone, intakeWords_one (by omega) (by omega) (by omega)]
  rw [hoff]
  refine ⟨_, exec_slotWrite hr hp hsh hl (ownsWritten_slot s n (by omega) hj), rfl, exec_slotWrite_error hr, fun hs x => ?_,
    fun hs => ⟨_, fun i hi => wordByte_writeBytes _ j d hi, fun x => ?_⟩⟩
  · rw [hok, intakeWord_disabled hs (by omega)]
  · rw [hok, intakeWord_staged hs k (by omega) (by omega)]
    rfl


/-! ## Closing a record -/

/-- A fault of a record's source, and the record's disposition. -/
theorem dispose_sourceFault (n : SourceNo) (o : DispositionOutcome) (q : BitVec 16) (f : SourceFlag) (s : State) :
    dispose n o q none (sourceFault n f s) = (updSource n (fun src => { src with
      flags := withFlag f src.flags, disposition := { outcome := o, seq := some q, answer := none } }) s).raised
        [.sourceFault] := by
  rw [← raise_eq, ← updSource_updSource n (fun src => { src with
    disposition := { outcome := o, seq := some q, answer := none } }) fun src => { src with flags := withFlag f src.flags }]
  rfl

/-- The state whose source `n` has a MALFORMED record of sequence `q` (R95, R101). -/
def State.malformed (s : State) (n : SourceNo) (q : BitVec 16) : State :=
  (updSource n (fun src => { src with
    flags := src.flags ||| 0x01#6, disposition := { outcome := .malformed, seq := some q, answer := none } }) s).raised
      [.sourceFault]

theorem dispose_malformed (n : SourceNo) (q : BitVec 16) (s : State) :
    dispose n .malformed q none (sourceFault n .malformed s) = s.malformed n q := dispose_sourceFault ..

/-- The record that a closing with sequence `e` accepts (R95). -/
def State.closing (s : State) (n : SourceNo) (e : BitVec 16) : Record :=
  { words := s.intake.sources[n].staging, seq := e, arrival := s.sup.s, preAcquisition := s.sup.timeBase == .unset }

section Close

variable {n : SourceNo} {e : BitVec 16} {s : State}

theorem closeRecord_disabled (h : s.intake.sources[n].state = .disabled) : closeRecord n e s = s := by
  unfold closeRecord
  exact if_pos h

theorem closeRecord_absent (h : s.intake.sources[n].state ≠ .disabled) (hw : s.intake.sources[n].staging.w0 = none) :
    closeRecord n e s = s.malformed n e := by
  unfold closeRecord
  dsimp only
  rw [if_neg h, hw]
  exact dispose_malformed ..

section Echo

variable {w0 : Word} (h : s.intake.sources[n].state ≠ .disabled) (hw : s.intake.sources[n].staging.w0 = some w0)
include h hw

theorem closeRecord_differs (he : annSeq w0 ≠ e) : closeRecord n e s = s.malformed n (annSeq w0) := by
  unfold closeRecord
  dsimp only
  rw [if_neg h, hw]
  dsimp only
  rw [if_pos he.symm]
  exact dispose_malformed ..

theorem closeRecord_repeat (he : annSeq w0 = e) (hl : s.intake.sources[n].lastSeq = some e) : closeRecord n e s = s := by
  unfold closeRecord
  dsimp only
  rw [if_neg h, hw]
  dsimp only
  rw [if_neg (not_not_intro he.symm), if_pos hl]

theorem closeRecord_accepted (he : annSeq w0 = e) (hl : s.intake.sources[n].lastSeq ≠ some e) : closeRecord n e s =
    qualifierTake (joinQueue n (s.closing n e) (updSource n (fun src => { src with lastSeq := some e }) s)) := by
  unfold closeRecord
  dsimp only
  rw [if_neg h, hw]
  dsimp only
  rw [if_neg (not_not_intro he.symm), if_neg hl]
  rfl

end Echo

/-- The queue length and the depth that an accepted record meets. -/
theorem updSource_lastSeq_queue :
    (updSource n (fun src => { src with lastSeq := some e }) s).intake.sources[n].queue = s.intake.sources[n].queue ∧
      queueDepth (updSource n (fun src => { src with lastSeq := some e }) s) n =
        if s.status.config.sources[n].deep then 2 else 1 :=
  ⟨by rw [updSource_source, if_pos rfl], rfl⟩

/-- There is room in the queue (R96). -/
theorem joinQueue_room (h : ¬ (if s.status.config.sources[n].deep then 2 else 1) ≤ s.intake.sources[n].queue.length)
    (r : Record) : joinQueue n r (updSource n (fun src => { src with lastSeq := some e }) s) =
      updSource n (fun src => { src with lastSeq := some e, queue := src.queue ++ [r] }) s := by
  obtain ⟨hq, hd⟩ := updSource_lastSeq_queue (n := n) (e := e) (s := s)
  rw [joinQueue, hq, hd, if_pos (by omega), updSource_updSource]

/-- The queue is full (R96). -/
theorem joinQueue_full (h : (if s.status.config.sources[n].deep then 2 else 1) ≤ s.intake.sources[n].queue.length)
    (r : Record) : joinQueue n r (updSource n (fun src => { src with lastSeq := some e }) s) =
      (updSource n (fun src => { src with
        lastSeq := some e, queue := src.queue.dropLast ++ [r], flags := src.flags ||| 0x02#6 }) s).raised
          [.sourceFault] := by
  obtain ⟨hq, hd⟩ := updSource_lastSeq_queue (n := n) (e := e) (s := s)
  rw [joinQueue, hq, hd, if_neg (by omega), sourceFault, raise_eq, updSource_updSource, updSource_updSource]
  rfl

end Close

/-- An answer given, after work of the inner blocks or before it. -/
theorem answered_eq_outer {s t : State} (k : InnerFrame s t) (m : Master) (ok : Bool) (d : List Byte) :
    t.answered m ok d = t.outer s.path (s.answers ++ [{ master := m, ok := ok, data := d }]) s.card s.pending := by
  rw [← k.path, ← k.answers, ← k.card, ← k.pending]
  rfl

/-- The takes of a moment and an answer given commute. -/
theorem qualifierTake_answered (s : State) (m : Master) (ok : Bool) (d : List Byte) :
    qualifierTake (s.answered m ok d) = (qualifierTake s).answered m ok d := by
  rw [answered_eq_outer (qualifierTake_inner s), answered_eq_outer (InnerFrame.refl s), qualifierTake_outer]

/-! ## Writes of whole words -/

/-- One whole word handed over, word `i` of the window (R93, R94). -/
def slotWord (i : Nat) (w : Word) (s : State) : State := intakeWord (Fin.ofNat 8 (i / 4)) (i % 4) 0 (wordBytes w) s

/-- Words handed over one after another, from word `i` of the window on (R94). -/
def slotWords : Nat → List Word → State → State
  | _, [], s => s
  | i, w :: ws, s => slotWords (i + 1) ws (slotWord i w s)

theorem slotWord_inner (i : Nat) (w : Word) (s : State) : InnerFrame s (slotWord i w s) := intakeWord_inner ..

theorem slotWords_inner (i : Nat) (ws : List Word) (s : State) : InnerFrame s (slotWords i ws s) := by
  induction ws generalizing i s with
  | nil => exact .refl s
  | cons w ws ih => exact (slotWord_inner i w s).trans (ih _ _)

theorem slotWords_snoc (i : Nat) (ws : List Word) (w : Word) (s : State) :
    slotWords i (ws ++ [w]) s = slotWord (i + ws.length) w (slotWords i ws s) := by
  induction ws generalizing i s with
  | nil => rfl
  | cons v ws ih =>
    rw [List.cons_append, slotWords, ih, slotWords, List.length_cons]
    congr 1
    omega

/-- The words of a burst are handed over in ascending order (R94, R166). -/
theorem intakeWords_words (i : Nat) (ws : List Word) (s : State) :
    intakeWords ws.length (8 * i) (ws.flatMap wordBytes) s = slotWords i ws s := by
  induction ws generalizing i s with
  | nil => rfl
  | cons w ws ih =>
    have hw : 8 - 8 * i % 8 = (wordBytes w).length := by rw [wordBytes_length]; omega
    rw [List.length_cons, intakeWords, hw, List.flatMap_cons, List.take_left, List.drop_left, wordBytes_length,
      show 8 * i + 8 = 8 * (i + 1) by omega, ih, show 8 * i / 0x20 = i / 4 by omega, show 8 * i / 8 % 4 = i % 4 by omega,
      show 8 * i % 8 = 0 by omega]
    rfl

theorem Ready.inner {s t : State} (h : Ready s) (k : InnerFrame s t) : Ready t :=
  ⟨k.resetAsserted.trans h.running, (congrArg PathUnit.held k.path).trans h.free,
    (congrArg PathUnit.outstanding k.path).trans h.quiet, (congrArg PathUnit.stale k.path).trans h.fresh,
    (congrArg PathUnit.toIssue k.path).trans h.issued, k.card.trans h.alone⟩

section Burst

variable {s : State} {m : Master} {i : Nat} {ws : List Word} {sh : Shape}

/-- The master owns the slots that hold one of the words (R162). -/
def OwnsWords (s : State) (m : Master) (i len : Nat) : Prop :=
  ∀ n : SourceNo, 4 * n.val < i + len → i < 4 * n.val + 4 → s.status.config.sources[n].owner = m

theorem flatMap_wordBytes_length (ws : List Word) : (ws.flatMap wordBytes).length = 8 * ws.length := by
  induction ws with
  | nil => rfl
  | cons w ws ih =>
    rw [List.flatMap_cons, List.length_append, ih, wordBytes_length, List.length_cons]
    omega

/-- A write of whole words is accepted from the owner of their slots, and memory's OK hands the words over in ascending order
(R94, R162, R166). -/
theorem exec_words (hr : Ready s) (hp : s.status.part = .active) (hsh : sh = .beat .eight ∨ ∃ k, sh = .burst k)
    (hl : sh.bytes = 8 * ws.length) (hi : i + ws.length ≤ 32) (ho : OwnsWords s m i ws.length) :
    exec (.intakeSlotWrite m (BitVec.ofNat 16 (0x0800 + 8 * i)) sh (ws.flatMap wordBytes)) s =
      .next (s.waitingFor (slotAccess s m (8 * i) sh (ws.flatMap wordBytes)) (.store .intake)
        (slotAccess s m (8 * i) sh (ws.flatMap wordBytes))) ∧
    ∀ x, exec (.memoryAnswer true x) (s.waitingFor (slotAccess s m (8 * i) sh (ws.flatMap wordBytes)) (.store .intake)
        (slotAccess s m (8 * i) sh (ws.flatMap wordBytes))) = .next ((slotWords i ws s).answered m true []) := by
  have hshape : SlotShape sh (8 * i) := ⟨.inl ⟨hsh, by omega⟩, by omega⟩
  have hbytes : (ws.flatMap wordBytes).length = sh.bytes := (flatMap_wordBytes_length ws).trans hl.symm
  refine ⟨exec_slotWrite hr hp hshape hbytes fun n h1 h2 => ho n (by omega) (by omega), fun x => ?_⟩
  rw [exec_slotWrite_ok hr hshape hbytes, show (sh.bytes + 7) / 8 = ws.length by omega, intakeWords_words]

/-- A burst does what single writes of its words in ascending order do (R94). -/
theorem exec_burst {k : Fin 8} (hr : Ready s) (hp : s.status.part = .active) (hl : ws.length = k.val + 1)
    (hi : i + ws.length ≤ 32) (ho : OwnsWords s m i ws.length) :
    ∃ us : Nat → State, us 0 = s ∧
      (∀ j w, ws[j]? = some w → ∃ t, exec (.intakeSlotWrite m (BitVec.ofNat 16 (0x0800 + 8 * (i + j))) (.beat .eight)
          (wordBytes w)) (us j) = .next t ∧
        ∀ x, exec (.memoryAnswer true x) t = .next ((us (j + 1)).answered m true [])) ∧
      us ws.length = slotWords i ws s := by
  refine ⟨fun j => slotWords i (ws.take j) s, rfl, fun j w hw => ?_, congrArg (slotWords i · s) List.take_length⟩
  obtain ⟨hj, rfl⟩ := List.getElem?_eq_some_iff.mp hw
  have hk := slotWords_inner i (ws.take j) s
  have hown : OwnsWords (slotWords i (ws.take j) s) m (i + j) 1 := by
    intro n h1 h2
    rw [hk.status]
    exact ho n (by omega) (by omega)
  have hwrite := exec_words (sh := .beat .eight) (i := i + j) (ws := [ws[j]]) (hr.inner hk)
    ((congrArg StatusUnit.part hk.status).trans hp) (.inl rfl) rfl (by rw [List.length_singleton]; omega) hown
  have hbytes : [ws[j]].flatMap wordBytes = wordBytes ws[j] := by simp
  have hnext : slotWords i (ws.take (j + 1)) s = slotWords (i + j) [ws[j]] (slotWords i (ws.take j) s) := by
    rw [List.take_add_one, List.getElem?_eq_getElem hj]
    show slotWords i (ws.take j ++ [ws[j]]) s = _
    rw [slotWords_snoc, List.length_take, Nat.min_eq_left hj.le]
    rfl
  rw [hbytes] at hwrite
  obtain ⟨h1, h2⟩ := hwrite
  exact ⟨_, h1, fun x => (h2 x).trans (by rw [← hnext])⟩

end Burst

/-- A write of all 8 bytes of word 3 hands its sequence echo to the closing (R94). -/
theorem intakeWord_closing (n : SourceNo) (w : Word) (s : State) :
    intakeWord n 3 0 (wordBytes w) s = closeRecord n (field w 7 16) s := by
  rw [intakeWord, if_pos rfl, if_pos (wordBytes_length w), bytesWord_wordBytes]

/-- Settles O21: memory's OK to a write of word 3 closes the record by the staged words; a burst hands its words over as single
writes do. -/
theorem closingAcceptsOrDropsTheRecord : Obligations.ClosingAcceptsOrDropsTheRecord := by
  constructor
  · intro n w s hr hp m off src echo record full malformed
    obtain ⟨hsh, hj, hone⟩ := slotShape_beat n (k := 3) (j := 0) (by omega) (.inl ⟨rfl, rfl⟩)
    have hoff : off = BitVec.ofNat 16 (0x0800 + (n.val * 0x20 + 3 * 8 + 0)) := by
      simp only [off]
      congr 1
      omega
    have hlen : (wordBytes w).length = (Shape.beat .eight).bytes := wordBytes_length w
    have hok (x : List Byte) : exec (.memoryAnswer true x) (s.waitingFor
        (slotAccess s m (n.val * 0x20 + 3 * 8 + 0) (.beat .eight) (wordBytes w)) (.store .intake)
        (slotAccess s m (n.val * 0x20 + 3 * 8 + 0) (.beat .eight) (wordBytes w))) =
        .next ((closeRecord n echo s).answered m true []) := by
      rw [exec_slotWrite_ok hr hsh hlen, hone, intakeWords_one (by omega) (by omega) (by rw [hlen]; exact hj),
        intakeWord_closing]
    rw [hoff]
    refine ⟨_, exec_slotWrite hr hp hsh hlen (ownsWritten_slot s n (by omega) hj), rfl, exec_slotWrite_error hr, ?_⟩
    intro closes accepts
    have closing {u : State} (h : closeRecord n echo s = u) : closes u := fun x => by rw [hok, h]
    have accepting {u : State} (h : closeRecord n echo s = qualifierTake u) : accepts u := fun x => by
      rw [hok, h, ← qualifierTake_answered]
      rfl
    refine ⟨fun hd => closing (closeRecord_disabled hd), fun hd => ⟨fun hw => closing (closeRecord_absent hd hw),
      fun w0 hw => ⟨fun he => closing (closeRecord_differs hd hw he), fun he => ⟨fun hl => ?_, fun hl hf => ?_,
        fun hl hf => ?_⟩⟩⟩⟩
    · exact closing (closeRecord_repeat hd hw he hl)
    · exact accepting ((closeRecord_accepted hd hw he hl).trans (congrArg _ (joinQueue_room hf _)))
    · exact accepting ((closeRecord_accepted hd hw he hl).trans (congrArg _ (joinQueue_full hf _)))
  · intro m i k ws s hr hp hl hi ho slotWrite writes
    have hbytes : (Shape.burst k).bytes = 8 * ws.length := by rw [hl]; rfl
    obtain ⟨hexec, hok⟩ := exec_words (sh := .burst k) hr hp (.inr ⟨k, rfl⟩) hbytes hi ho
    obtain ⟨us, h0, hus, hlast⟩ := exec_burst hr hp hl hi ho
    exact ⟨us, h0, hus, _, hexec, rfl, exec_slotWrite_error hr, fun x => by rw [hok, hlast]⟩

end Sys2Proof.Machine
end

section
/-! PROOFS. The qualifier: the record it takes and what becomes of it, at once or on the lookup answer (R98 to R112). -/

namespace Sys2Proof.Machine

/-! ## The source whose record is taken (R98) -/

/-- The source found is one of those seen, or the one found before. -/
theorem betterWaiting_mem {s : State} {l : List SourceNo} {best : Option SourceNo} {b : SourceNo}
    (h : l.foldl (betterWaiting s) best = some b) : best = some b ∨ b ∈ l := by
  induction l generalizing best with
  | nil => exact .inl h
  | cons m l ih =>
    rcases ih h with hb | hb
    · unfold betterWaiting at hb
      split at hb
      · exact .inl hb
      · split at hb
        · cases hb
          exact .inr (List.mem_cons_self ..)
        · split at hb <;> cases hb
          · exact .inr (List.mem_cons_self ..)
          · exact .inl rfl
    · exact .inr (List.mem_cons_of_mem _ hb)

/-- A source stays found while none of higher priority is seen. -/
theorem betterWaiting_stays {s : State} {n : SourceNo} {l : List SourceNo}
    (h : ∀ m ∈ l, s.intake.sources[m].queue ≠ [] →
      ¬ s.status.config.sources[n].priority.toNat < s.status.config.sources[m].priority.toNat) :
    l.foldl (betterWaiting s) (some n) = some n := by
  induction l with
  | nil => rfl
  | cons m l ih =>
    have hm : betterWaiting s (some n) m = some n := by
      unfold betterWaiting
      split
      · rfl
      · rename_i hq
        exact if_neg (h m (List.mem_cons_self ..) (by simpa using hq))
    rw [List.foldl_cons, hm]
    exact ih fun k hk => h k (List.mem_cons_of_mem _ hk)

/-- The waiting source of highest priority is next, the lowest number among equals (R98). -/
theorem nextSource_eq {s : State} {n : SourceNo} (hq : s.intake.sources[n].queue ≠ [])
    (h : ∀ m : SourceNo, m ≠ n → s.intake.sources[m].queue ≠ [] →
      s.status.config.sources[m].priority.toNat < s.status.config.sources[n].priority.toNat ∨
        (s.status.config.sources[m].priority = s.status.config.sources[n].priority ∧ n.val < m.val)) :
    nextSource s = some n := by
  obtain ⟨before, after, hl⟩ := List.append_of_mem (List.mem_finRange n)
  have hsorted : (before ++ n :: after).Pairwise (· < ·) := hl ▸ List.pairwise_lt_finRange 8
  rw [List.pairwise_append, List.pairwise_cons] at hsorted
  obtain ⟨-, ⟨hafter, -⟩, hbefore⟩ := hsorted
  have hn : betterWaiting s (before.foldl (betterWaiting s) none) n = some n := by
    have hw : s.intake.sources[n].queue.isEmpty = false := by simpa using hq
    unfold betterWaiting
    rw [if_neg (by rw [hw]; exact Bool.false_ne_true)]
    split
    · rfl
    · rename_i b hb
      have hlt : b < n := hbefore b ((betterWaiting_mem hb).resolve_left (by simp)) n (List.mem_cons_self ..)
      have hbq := (betterWaiting_foldl s before none (by simp)).1 b hb
      rcases h b hlt.ne hbq with hp | ⟨-, hp⟩
      · exact if_pos hp
      · exact absurd hp (Nat.lt_asymm hlt)
  rw [nextSource, hl, List.foldl_append, List.foldl_cons]
  show after.foldl (betterWaiting s) (betterWaiting s (before.foldl (betterWaiting s) none) n) = _
  rw [hn]
  refine betterWaiting_stays fun m hm hmq hlt => ?_
  rcases h m (hafter m hm).ne' hmq with hp | ⟨hp, -⟩
  · omega
  · rw [hp] at hlt
    exact absurd hlt (lt_irrefl _)

/-- The state whose source `n` has the records `rest` left (R98). -/
def State.dequeued (s : State) (n : SourceNo) (rest : List Record) : State :=
  updSource n (fun src => { src with queue := rest }) s

/-- The take of the next source's head record (R98). -/
theorem takeRecord_head {s : State} {n : SourceNo} {r : Record} {rest : List Record} (hc : canTake s = true)
    (hn : nextSource s = some n) (hq : s.intake.sources[n].queue = r :: rest) :
    takeRecord s = handleRecord n r (s.dequeued n rest) := by
  unfold takeRecord
  rw [if_pos hc, hn]
  dsimp only
  rw [hq]
  rfl

/-! ## The heard step (R102) -/

/-- A source whose head record is heard. -/
def Source.heard (rest : List Record) (arrival : Second) (src : Source) : Source := { src with
  queue := rest, lastHeard := some arrival
  state := if src.state = .waiting ∨ src.state = .silent then .listening else src.state }

/-- The trigger of a source that was SILENT in `s` goes out (R102, R118). -/
def State.tellHeard (s : State) (n : SourceNo) (u : State) : State :=
  if s.intake.sources[n].state = .silent then u.setWires { u.wires with triggers := u.wires.triggers ++ [.leavingSilent n] }
  else u

section Tell

variable {s : State} {n : SourceNo} {u : State}

theorem tellHeard_updSource (f : Source → Source) :
    updSource n f (s.tellHeard n u) = s.tellHeard n (updSource n f u) := by unfold State.tellHeard; split <;> rfl
@[simp] theorem tellHeard_intake : (s.tellHeard n u).intake = u.intake := by unfold State.tellHeard; split <;> rfl
@[simp] theorem tellHeard_list : (s.tellHeard n u).list = u.list := by unfold State.tellHeard; split <;> rfl
@[simp] theorem tellHeard_sup : (s.tellHeard n u).sup = u.sup := by unfold State.tellHeard; split <;> rfl
@[simp] theorem tellHeard_status : (s.tellHeard n u).status = u.status := by unfold State.tellHeard; split <;> rfl
theorem tellHeard_wires {v : State} (h : u.wires = v.wires) : (s.tellHeard n u).wires = (s.tellHeard n v).wires := by
  unfold State.tellHeard
  split
  · exact congrArg (fun w : Wires => { w with triggers := w.triggers ++ [ElectionTrigger.leavingSilent n] }) h
  · exact h
@[simp] theorem tellHeard_path : (s.tellHeard n u).path = u.path := by unfold State.tellHeard; split <;> rfl

end Tell

/-- The head record of a source leaves its queue and is heard. -/
theorem hear_dequeued (n : SourceNo) (rest : List Record) (arrival : Second) (s : State) :
    hear n arrival (s.dequeued n rest) = s.tellHeard n (updSource n (Source.heard rest arrival) s) := by
  have hstate : (s.dequeued n rest).intake.sources[n].state = s.intake.sources[n].state := by
    rw [State.dequeued, updSource_source, if_pos rfl]
  unfold hear State.tellHeard
  dsimp only
  rw [hstate, State.dequeued, updSource_updSource]
  rfl

theorem heard_source (n : SourceNo) (rest : List Record) (arrival : Second) (s : State) :
    (s.tellHeard n (updSource n (Source.heard rest arrival) s)).intake.sources[n] =
      Source.heard rest arrival s.intake.sources[n] := by
  rw [tellHeard_intake, updSource_source, if_pos rfl]

/-- A disposition of a source in whose state another update was made before. -/
theorem dispose_updSource (n : SourceNo) (o : DispositionOutcome) (q : BitVec 16) (f : Source → Source) (s : State) :
    dispose n o q none (updSource n f s) =
      updSource n (fun src => { f src with disposition := { outcome := o, seq := some q, answer := none } }) s :=
  updSource_updSource ..

/-! ## Spacing and counting (R107, R108) -/

theorem tooSoon_iff (m : Nat) (last : Option Second) (arrival : Second) : tooSoon m last arrival = true ↔
    ∃ l, last = some l ∧ 0 < m ∧ (arrival.toNat : Int) - l.toNat < m := by
  cases last <;> simp [tooSoon, Nat.pos_iff_ne_zero]

/-- The candidate after a counted record, by whether it had the record's content. -/
theorem countCandidate_eq (k : Nat) (old : Option Candidate) (c : Content) (dated : Bool) :
    countCandidate k old c dated = match old.filter fun o => o.content == c with
      | some o => { content := c, count := min (o.count + 1) k, gridDated := o.gridDated && dated }
      | none => { content := c, count := 1, gridDated := dated } := by
  cases old with
  | none => rfl
  | some o =>
    unfold countCandidate
    by_cases h : o.content = c <;> simp [Option.filter, h]

section Zone

variable {n : SourceNo} {q : BitVec 16} {a : Second} {c : Content} {s : State}

theorem freeQualifier_of_free (h : s.intake.qualifier = none) : freeQualifier s = s := by
  have : ({ s.intake with qualifier := none } : Intake) = s.intake := by rw [← h]
  rw [freeQualifier, this, State.setIntake_self]

theorem zoneSteps_soon (hf : s.intake.qualifier = none)
    (h : tooSoon (spacing s) s.intake.sources[n].lastCounted a = true) :
    zoneSteps n q a c s = dispose n .tooSoon q none s := by
  unfold zoneSteps
  dsimp only
  rw [if_pos h]
  exact freeQualifier_of_free hf

variable (h : ¬ tooSoon (spacing s) s.intake.sources[n].lastCounted a = true)
include h

theorem zoneSteps_counted (hf : s.intake.qualifier = none)
    (hk : ¬ confirmCount s n ≤ (countCandidate (confirmCount s n) s.intake.sources[n].candidate c false).count) :
    zoneSteps n q a c s = dispose n .counted q none (count n c false a s) := by
  unfold zoneSteps
  dsimp only
  rw [if_neg h, if_neg hk]
  exact freeQualifier_of_free hf

/-- At K the candidate is dropped and the request sent (R110). -/
theorem zoneSteps_sent (hk : confirmCount s n ≤
      (countCandidate (confirmCount s n) s.intake.sources[n].candidate c false).count)
    {r : Request} (hr : zoneRequest n c = some r) : zoneSteps n q a c s =
      request r .qualifier ((updSource n (fun src => { src with
          candidate := none, lastCounted := some (countedSecond a s.sup.s) }) s).setIntake
        { (updSource n (fun src => { src with
            candidate := none, lastCounted := some (countedSecond a s.sup.s) }) s).intake with
          qualifier := some { source := n, seq := q, arrival := a, work := .zoneAnswer } }) := by
  unfold zoneSteps
  dsimp only
  rw [if_neg h, if_pos hk, hr, count, updSource_updSource]

end Zone

/-! ## One record taken -/

section Taken

variable {s : State} {n : SourceNo} {r : Record} {rest : List Record}

/-- The arrival second of a record when it is taken (R101). -/
def Record.takenAt (r : Record) (s : State) : Second := if r.preAcquisition then s.sup.s else r.arrival

/-- What the head record of source `n` says (R101). -/
def State.read (s : State) (n : SourceNo) (r : Record) : Option Announcement :=
  readRecord s.status.config.glob.zoneCount.toNat s.status.config.sources[n].kind r.words

/-- A take whose handling is complete at once is followed by the takes of the state it leaves (R98). -/
theorem exec_take_complete {u : State} (h : takeRecord s = u) : exec .qualifierTake s = exec .qualifierTake u ∧
    ((∀ m : SourceNo, u.intake.sources[m].queue = []) → exec .qualifierTake s = .next u) := by
  have ht : exec .qualifierTake s = exec .qualifierTake u := by
    show Host.Outcome.next (qualifierTake s) = .next (qualifierTake u)
    rw [qualifierTake_eq, h]
  exact ⟨ht, fun he => ht.trans (congrArg _ (qualifierTake_of_empty he))⟩

/-- A take that leaves the qualifier busy is the last of its moment (R98). -/
theorem exec_take_busy {u : State} {w : Qualifying} (h : takeRecord s = u) (hw : u.intake.qualifier = some w) :
    exec .qualifierTake s = .next u := by
  show Host.Outcome.next (qualifierTake s) = _
  rw [qualifierTake_eq, h, qualifierTake_of_busy hw]

theorem dequeued_read : (s.dequeued n rest).read n r = s.read n r := rfl

theorem dequeued_takenAt : r.takenAt (s.dequeued n rest) = r.takenAt s := rfl

section Handled

variable {u : State} {change : Option (LeapKind × Option Second)}

theorem handleRecord_malformed (h : u.read n r = none) :
    handleRecord n r u = dispose n .malformed r.seq none (sourceFault n .malformed u) := by
  unfold handleRecord
  dsimp only
  rw [show readRecord (zoneCount u) u.status.config.sources[n].kind r.words = none from h]

theorem handleRecord_unusable (h : u.read n r = some (.leap none change)) : handleRecord n r u =
    dispose n .unusable r.seq none (updSource n (fun src => { src with candidate := none })
      (hear n (r.takenAt u) u)) := by
  unfold handleRecord
  dsimp only
  rw [show readRecord (zoneCount u) u.status.config.sources[n].kind r.words = _ from h]
  rfl

theorem handleRecord_asks {o : Int} (h : u.read n r = some (.leap (some o) change)) : handleRecord n r u =
    ask (.lookup .qualifier) ((hear n (r.takenAt u) u).setIntake { (hear n (r.takenAt u) u).intake with
      qualifier := some { source := n, seq := r.seq, arrival := r.takenAt u, work := .leap o change } }) := by
  unfold handleRecord
  dsimp only
  rw [show readRecord (zoneCount u) u.status.config.sources[n].kind r.words = _ from h]
  rfl

theorem handleRecord_zone {c : Content} (h : u.read n r = some (.zone c)) :
    handleRecord n r u = zoneSteps n r.seq (r.takenAt u) c (hear n (r.takenAt u) u) := by
  unfold handleRecord
  dsimp only
  rw [show readRecord (zoneCount u) u.status.config.sources[n].kind r.words = _ from h]
  rfl

end Handled

/-- The state in which the head record of source `n` has been heard (R98, R102). -/
def State.hearing (s : State) (n : SourceNo) (r : Record) (rest : List Record) : State :=
  s.tellHeard n (updSource n (Source.heard rest (r.takenAt s)) s)

section Hearing

variable (hc : canTake s = true) (hn : nextSource s = some n) (hq : s.intake.sources[n].queue = r :: rest)
include hc hn hq

/-- A MALFORMED record is dropped unheard (R101). -/
theorem takeRecord_malformed (h : s.read n r = none) : takeRecord s = (updSource n (fun src => { src with
    queue := rest, flags := src.flags ||| 0x01#6
    disposition := { outcome := .malformed, seq := some r.seq, answer := none } }) s).raised [.sourceFault] := by
  rw [takeRecord_head hc hn hq, handleRecord_malformed (dequeued_read.trans h), dispose_sourceFault, State.dequeued,
    updSource_updSource]
  rfl

/-- A LEAP-STATE record without an offset is UNUSABLE and drops the candidate (R103). -/
theorem takeRecord_unusable {change : Option (LeapKind × Option Second)} (h : s.read n r = some (.leap none change)) :
    takeRecord s = s.tellHeard n (updSource n (fun src => { src.heard rest (r.takenAt s) with
      candidate := none, disposition := { outcome := .unusable, seq := some r.seq, answer := none } }) s) := by
  rw [takeRecord_head hc hn hq, handleRecord_unusable (dequeued_read.trans h), dequeued_takenAt, hear_dequeued,
    dispose_updSource, tellHeard_updSource, updSource_updSource]

/-- A LEAP-STATE record with an offset waits for one lookup (R99). -/
theorem takeRecord_asks {o : Int} {change : Option (LeapKind × Option Second)}
    (h : s.read n r = some (.leap (some o) change)) : takeRecord s = ask (.lookup .qualifier)
      ((s.hearing n r rest).setIntake { (s.hearing n r rest).intake with
        qualifier := some { source := n, seq := r.seq, arrival := r.takenAt s, work := .leap o change } }) := by
  rw [takeRecord_head hc hn hq, handleRecord_asks (dequeued_read.trans h), dequeued_takenAt, hear_dequeued]
  rfl

/-- A zone record is spaced, counted, and at K sent as a request (R99). -/
theorem takeRecord_zone {c : Content} (h : s.read n r = some (.zone c)) :
    takeRecord s = zoneSteps n r.seq (r.takenAt s) c (s.hearing n r rest) := by
  rw [takeRecord_head hc hn hq, handleRecord_zone (dequeued_read.trans h), dequeued_takenAt, hear_dequeued]
  rfl

end Hearing

/-! ## A zone record heard -/

section ZoneHeard

variable {c : Content}

theorem hearing_source : (s.hearing n r rest).intake.sources[n] = s.intake.sources[n].heard rest (r.takenAt s) :=
  heard_source ..

theorem hearing_setting : (s.hearing n r rest).status = s.status ∧ (s.hearing n r rest).sup = s.sup ∧
    (s.hearing n r rest).list = s.list ∧ (s.hearing n r rest).intake.qualifier = s.intake.qualifier := by
  unfold State.hearing
  simp only [tellHeard_status, tellHeard_sup, tellHeard_list, tellHeard_intake]
  exact ⟨rfl, rfl, rfl, rfl⟩

/-- A zone record less than M seconds after the last counted one (R107). -/
theorem zoneSteps_hearing_soon (hf : s.intake.qualifier = none)
    (h : tooSoon (spacing s) s.intake.sources[n].lastCounted (r.takenAt s) = true) :
    zoneSteps n r.seq (r.takenAt s) c (s.hearing n r rest) =
      s.tellHeard n (updSource n (fun src => { src.heard rest (r.takenAt s) with
        disposition := { outcome := .tooSoon, seq := some r.seq, answer := none } }) s) := by
  obtain ⟨hs, -, -, hqual⟩ := hearing_setting (s := s) (n := n) (r := r) (rest := rest)
  rw [zoneSteps_soon (hqual.trans hf) (by rw [hearing_source, spacing, hs]; exact h), State.hearing, dispose,
    tellHeard_updSource, updSource_updSource]

variable (h : ¬ tooSoon (spacing s) s.intake.sources[n].lastCounted (r.takenAt s) = true)
include h

/-- A zone record counted below K (R108). -/
theorem zoneSteps_hearing_counted (hf : s.intake.qualifier = none)
    (hk : ¬ confirmCount s n ≤ (countCandidate (confirmCount s n) s.intake.sources[n].candidate c false).count) :
    zoneSteps n r.seq (r.takenAt s) c (s.hearing n r rest) =
      s.tellHeard n (updSource n (fun src => { src.heard rest (r.takenAt s) with
        candidate := some (countCandidate (confirmCount s n) s.intake.sources[n].candidate c false)
        lastCounted := some (countedSecond (r.takenAt s) s.sup.s)
        disposition := { outcome := .counted, seq := some r.seq, answer := none } }) s) := by
  obtain ⟨hs, hsup, -, hqual⟩ := hearing_setting (s := s) (n := n) (r := r) (rest := rest)
  have hconf : confirmCount (s.hearing n r rest) n = confirmCount s n := by rw [confirmCount, hs, confirmCount]
  rw [zoneSteps_counted (by rw [hearing_source, spacing, hs]; exact h) (hqual.trans hf)
    (by rw [hearing_source, hconf]; exact hk), count, hconf, hsup, dispose_updSource, State.hearing, tellHeard_updSource,
    updSource_updSource]
  exact congrArg _ (updSource_congr rfl)

/-- A zone record at K: its request is on its way to the list (R110). -/
theorem zoneSteps_hearing_sent
    (hk : confirmCount s n ≤ (countCandidate (confirmCount s n) s.intake.sources[n].candidate c false).count)
    {q : Request} (hr : zoneRequest n c = some q) {u : State}
    (hu : u = s.tellHeard n (updSource n (fun src => { src.heard rest (r.takenAt s) with
      candidate := none, lastCounted := some (countedSecond (r.takenAt s) s.sup.s) }) s)) :
    zoneSteps n r.seq (r.takenAt s) c (s.hearing n r rest) =
      (u.setIntake { u.intake with
        qualifier := some { source := n, seq := r.seq, arrival := r.takenAt s, work := .zoneAnswer } }).setList
          { s.list with sending := s.list.sending ++ [{ request := q, asker := .qualifier }] } := by
  obtain ⟨hs, hsup, hlist, -⟩ := hearing_setting (s := s) (n := n) (r := r) (rest := rest)
  have hconf : confirmCount (s.hearing n r rest) n = confirmCount s n := by rw [confirmCount, hs, confirmCount]
  have hupd : updSource n (fun src => { src with
      candidate := none, lastCounted := some (countedSecond (r.takenAt s) s.sup.s) }) (s.hearing n r rest) = u := by
    rw [hu, State.hearing, tellHeard_updSource, updSource_updSource]
  have hul : u.list = s.list := by rw [← hupd]; exact hlist
  rw [zoneSteps_sent (by rw [hearing_source, spacing, hs]; exact h) (by rw [hearing_source, hconf]; exact hk) hr, hsup, hupd,
    request, State.setIntake_list, hul]

end ZoneHeard

end Taken

/-- Settles O47: the next source's head record, by what it says. -/
theorem qualifierTakesTheFirstRecord : Obligations.QualifierTakesTheFirstRecord := by
  intro n r rest s hr src glob takes arrival read heard told complete
  have can : canTake s = true ↔ takes := by
    rw [canTake_iff]
    exact and_iff_right hr
  refine ⟨fun ht => congrArg _ (qualifierTake_of_not_canTake ?_), fun he => congrArg _ (qualifierTake_of_empty he),
    fun ht hq hbest => ?_⟩
  · exact Bool.eq_false_iff.mpr (mt can.mp ht)
  have hc := can.mpr ht
  obtain ⟨-, -, hfree⟩ := ht
  have hn : nextSource s = some n := nextSource_eq (hq ▸ List.cons_ne_nil r rest) hbest
  refine ⟨fun hm => exec_take_complete (takeRecord_malformed hc hn hq hm),
    fun change hl => exec_take_complete (takeRecord_unusable hc hn hq hl), fun offset change hl => ?_,
    fun content hz => ?_⟩
  · obtain ⟨hstatus, hsup, hlist, -⟩ := hearing_setting (s := s) (n := n) (r := r) (rest := rest)
    refine ⟨_, exec_take_busy (takeRecord_asks hc hn hq hl) rfl, fun m => ?_, rfl, ?_, ?_, hsup, hstatus, ?_⟩
    · show (s.hearing n r rest).intake.sources[m] = _
      rw [State.hearing, tellHeard_intake, updSource_source]
      rfl
    · rw [← hlist]
      rfl
    · exact tellHeard_wires rfl
    · exact tellHeard_path
  · intro kth soon counted last request
    have hsoon : tooSoon (spacing s) src.lastCounted arrival = true ↔ soon := tooSoon_iff ..
    have hcand : countCandidate kth src.candidate content false =
        { content := content, count := counted, gridDated := false } := by
      rw [countCandidate_eq]
      simp only [counted]
      cases src.candidate.filter fun o => o.content == content <;> simp
    have hcount : (countCandidate kth src.candidate content false).count = counted := congrArg Candidate.count hcand
    have htake := takeRecord_zone hc hn hq hz
    refine ⟨fun hs => ?_, fun hs hk => ?_, fun hs hk q hr => ?_⟩
    · exact exec_take_complete (htake.trans (zoneSteps_hearing_soon hfree (hsoon.mpr hs)))
    · have hlt : ¬ confirmCount s n ≤ (countCandidate (confirmCount s n) s.intake.sources[n].candidate content false).count :=
        Nat.not_le.mpr (hcount.trans_lt hk)
      refine exec_take_complete (htake.trans ((zoneSteps_hearing_counted (mt hsoon.mp hs) hfree hlt).trans ?_))
      exact congrArg (State.tellHeard s n) (updSource_congr (congrArg (fun c => { src.heard rest arrival with
        candidate := some c, lastCounted := some last,
        disposition := { outcome := .counted, seq := some r.seq, answer := none } }) hcand))
    · have hle : confirmCount s n ≤ (countCandidate (confirmCount s n) s.intake.sources[n].candidate content false).count :=
        hk.trans hcount.ge
      have hq : zoneRequest n content = some q := hr ▸ by cases content <;> rfl
      exact exec_take_busy (htake.trans (zoneSteps_hearing_sent (mt hsoon.mp hs) hle hq rfl)) rfl

end Sys2Proof.Machine
end

section
/-! PROOFS. The qualifier's LEAP-STATE record on its lookup answer (R103 to R109). -/

namespace Sys2Proof.Machine

/-! ## The day grid and the range (R104 to R106) -/

/-- The next multiple of `g` above `x` is the least one. -/
theorem next_multiple {g : Int} (hg : 0 < g) (x : Int) :
    x < g * (x / g + 1) ∧ ∀ y, x < y → y % g = 0 → g * (x / g + 1) ≤ y := by
  have hlt : x < g * (x / g + 1) := mul_comm g _ ▸ Int.lt_ediv_add_one_mul_self x hg
  refine ⟨hlt, fun y hxy hy => ?_⟩
  obtain ⟨q, rfl⟩ := Int.dvd_of_emod_eq_zero hy
  have hq : x / g < q := Int.ediv_lt_of_lt_mul hg (mul_comm g q ▸ hxy)
  exact mul_le_mul_of_nonneg_left hq hg.le

/-- How far a boundary lies off the day grid, for its kind (R104). -/
def offGridBy (g d : Int) (k : LeapKind) (b : Int) : Int := match k with
  | .insert => (b - d) % g
  | .delete => (b - d + 1) % g

theorem onGrid_iff (g d : Int) (k : LeapKind) (b : Int) : onGrid g d k b = true ↔ offGridBy g d k b = 0 := by
  cases k <;> simp [onGrid, offGridBy]

/-- The boundary of a record without one is the least on-grid boundary above the arrival second (R105). -/
theorem datedBoundary_least {g : Int} (hg : 0 < g) (d a : Int) (k : LeapKind) :
    a < datedBoundary g d a k ∧ offGridBy g d k (datedBoundary g d a k) = 0 ∧
      ∀ b, a < b → offGridBy g d k b = 0 → datedBoundary g d a k ≤ b := by
  cases k with
  | insert =>
    obtain ⟨hlt, hleast⟩ := next_multiple hg (a - d)
    simp only [datedBoundary, offGridBy]
    refine ⟨by omega, by simp, fun b hab hb => ?_⟩
    have := hleast (b - d) (by omega) hb
    omega
  | delete =>
    obtain ⟨hlt, hleast⟩ := next_multiple hg (a - d + 1)
    simp only [datedBoundary, offGridBy]
    refine ⟨by omega, ?_, fun b hab hb => ?_⟩
    · rw [show d - 1 + g * ((a - d + 1) / g + 1) - d + 1 = g * ((a - d + 1) / g + 1) by ring]
      exact Int.mul_emod_right ..
    · have := hleast (b - d + 1) (by omega) hb
      omega

theorem atOrBelow_iff (b : Int) (h : Option Second) : atOrBelow b h = true ↔ ∃ x, h = some x ∧ b ≤ x.toNat := by
  cases h <;> simp [atOrBelow]

theorem atOrBelow_civilAppliedHorizon (b : Int) (es : List Entry) : atOrBelow b (civilAppliedHorizon es) = true ↔
    ∃ e, (es.filter fun e => e.state == .applied && e.scale == .civil).getLast? = some e ∧ b ≤ e.boundary.toNat := by
  rw [atOrBelow_iff]
  simp only [civilAppliedHorizon, Option.map_eq_some_iff]
  exact ⟨fun ⟨_, ⟨e, he, hx⟩, hb⟩ => ⟨e, he, hx ▸ hb⟩, fun ⟨e, he, hb⟩ => ⟨_, ⟨e, he, rfl⟩, hb⟩⟩

/-! ## What a record announces -/

/-- The boundary of a LEAP-STATE record that announces a change (R104, R105). -/
def announcedBoundary (g d a : Int) (change : Option (LeapKind × Option Second)) : Option Int :=
  change.map fun c => match c.2 with
    | some b => (b.toNat : Int)
    | none => datedBoundary g d a c.1

/-- The content of a LEAP-STATE record with its boundary (R102). -/
def announcedContent (change : Option (LeapKind × Option Second)) (boundary : Option Int) : LeapContent :=
  match change, boundary with
  | some (k, _), some b => .change k (BitVec.ofInt 48 b)
  | _, _ => .noChange

/-- A record's given boundary is off-grid (R104). -/
def OffGrid (g d : Int) (change : Option (LeapKind × Option Second)) : Prop :=
  ∃ k b, change = some (k, some b) ∧ offGridBy g d k b.toNat ≠ 0

/-- What the range step finds at boundary `b` (R106). -/
def State.rangeAt (s : State) (sched : Schedule) (a : Second) (b : Int) : Option SourceFlag :=
  rangeFault s.status.config.glob.minLead.toNat s.status.config.glob.horizon.toNat a.toNat b
    (civilAppliedHorizon sched.entries) s.intake.civilHorizon

/-- Boundary `b` is TOO-LATE: within the minimum lead or not above the newest civil commit (R106). -/
def State.LateAt (s : State) (sched : Schedule) (a : Second) (b : Int) : Prop :=
  b - a.toNat ≤ s.status.config.glob.minLead.toNat ∨
    (∃ e, (sched.entries.filter fun e => e.state == .applied && e.scale == .civil).getLast? = some e ∧
      b ≤ e.boundary.toNat) ∨
    ∃ h, s.intake.civilHorizon = some h ∧ b ≤ h.toNat

/-- Boundary `b` is TOO-FAR (R106). -/
def State.FarAt (s : State) (a : Second) (b : Int) : Prop :=
  s.status.config.glob.horizon.toNat < b - a.toNat ∨ 2 ^ 48 - 1 < b

section Range

variable {s : State} {sched : Schedule} {a : Second} {b : Int}

theorem lateAt_iff : s.LateAt sched a b ↔ b - a.toNat ≤ s.status.config.glob.minLead.toNat ∨
    atOrBelow b (civilAppliedHorizon sched.entries) = true ∨ atOrBelow b s.intake.civilHorizon = true := by
  rw [atOrBelow_civilAppliedHorizon, atOrBelow_iff, State.LateAt]

theorem rangeAt_late (h : s.LateAt sched a b) : s.rangeAt sched a b = some .tooLate := if_pos (lateAt_iff.mp h)

variable (hl : ¬ s.LateAt sched a b)
include hl

theorem rangeAt_far (h : s.FarAt a b) : s.rangeAt sched a b = some .tooFar :=
  (if_neg (mt lateAt_iff.mpr hl)).trans (if_pos h)

theorem rangeAt_none (h : ¬ s.FarAt a b) : s.rangeAt sched a b = none :=
  (if_neg (mt lateAt_iff.mpr hl)).trans (if_neg h)

end Range

/-! ## The steps on the lookup answer -/

section Leap

variable {sched : Schedule} {n : SourceNo} {q : BitVec 16} {a : Second} {d : Int}
  {change : Option (LeapKind × Option Second)} {s : State}

theorem refuseRecord_eq (f : SourceFlag) : refuseRecord n q f s = (updSource n (fun src => { src with
    flags := withFlag f src.flags, disposition := { outcome := flagOutcome f, seq := some q, answer := none } }) s).raised
      [.sourceFault] := dispose_sourceFault ..

theorem leapSteps_disagree (h : (lookup sched a.toNat).map (·.civil) ≠ some d) :
    leapSteps sched n q a d change s = refuseRecord n q .offsetDisagree s := if_pos h

/-- The grid step passes a record that is not off-grid. -/
theorem gridStep_passes (hg : ¬ OffGrid (gridOf s) d change) {k : LeapKind} {given : Option Second} (hc : change = some (k, given)) {b : Int}
    (hb : announcedBoundary (gridOf s) d a.toNat change = some b) :
    ¬ (given.isSome && !onGrid (gridOf s) d k b) = true := by
  subst hc
  cases hb
  cases given with
  | none => exact Bool.false_ne_true
  | some x =>
    intro h
    exact hg ⟨k, x, rfl, by simpa [← onGrid_iff] using h⟩

/-- Past the grid step the range step decides (R106). -/
theorem changeSteps_onGrid {k : LeapKind} {given : Option Second} {b : Int}
    (hb : announcedBoundary (gridOf s) d a.toNat (some (k, given)) = some b)
    (hg : ¬ (given.isSome && !onGrid (gridOf s) d k b) = true) :
    (∀ f, s.rangeAt sched a b = some f →
      changeSteps n q a d k given (civilAppliedHorizon sched.entries) s = refuseRecord n q f s) ∧
    (s.rangeAt sched a b = none → changeSteps n q a d k given (civilAppliedHorizon sched.entries) s =
      leapCountSteps n q a (.change k (BitVec.ofInt 48 b)) given.isNone s) := by
  unfold State.rangeAt changeSteps
  cases given with
  | none =>
    cases hb
    dsimp only
    rw [if_neg hg]
    exact ⟨fun f hf => by rw [hf], fun hf => by rw [hf]⟩
  | some x =>
    cases hb
    dsimp only
    rw [if_neg hg]
    exact ⟨fun f hf => by rw [hf], fun hf => by rw [hf]⟩

section Agree

variable (hd : (lookup sched a.toNat).map (·.civil) = some d)
include hd

theorem leapSteps_noChange : leapSteps sched n q a d none s = leapCountSteps n q a .noChange false s :=
  if_neg (not_not.mpr hd)

theorem leapSteps_change (k : LeapKind) (given : Option Second) : leapSteps sched n q a d (some (k, given)) s =
    changeSteps n q a d k given (civilAppliedHorizon sched.entries) s := if_neg (not_not.mpr hd)

theorem leapSteps_offGrid (h : OffGrid (gridOf s) d change) :
    leapSteps sched n q a d change s = refuseRecord n q .offGrid s := by
  obtain ⟨k, b, rfl, hb⟩ := h
  rw [leapSteps_change hd]
  exact if_pos (by simpa [← onGrid_iff] using hb)

variable (hg : ¬ OffGrid (gridOf s) d change)
include hg

theorem leapSteps_outOfRange {b : Int} (hb : announcedBoundary (gridOf s) d a.toNat change = some b) {f : SourceFlag}
    (hf : s.rangeAt sched a b = some f) : leapSteps sched n q a d change s = refuseRecord n q f s := by
  match change with
  | some (k, given) =>
    rw [leapSteps_change hd]
    exact (changeSteps_onGrid hb (gridStep_passes hg rfl hb)).1 f hf

theorem leapSteps_inRange (hf : ∀ b, announcedBoundary (gridOf s) d a.toNat change = some b →
      s.rangeAt sched a b = none) : leapSteps sched n q a d change s =
    leapCountSteps n q a (announcedContent change (announcedBoundary (gridOf s) d a.toNat change))
      (change.any fun c => c.2.isNone) s := by
  match change with
  | none => exact leapSteps_noChange hd
  | some (k, given) =>
    rw [leapSteps_change hd]
    have hb : announcedBoundary (gridOf s) d a.toNat (some (k, given)) = some _ := rfl
    exact (changeSteps_onGrid hb (gridStep_passes hg rfl hb)).2 (hf _ hb)

end Agree

/-! ## Counting (R107, R108) -/

variable {c : LeapContent} {dated : Bool}

theorem leapCountSteps_soon (h : tooSoon (spacing s) s.intake.sources[n].lastCounted a = true) :
    leapCountSteps n q a c dated s = dispose n .tooSoon q none s := if_pos h

theorem leapCountSteps_counts (h : ¬ tooSoon (spacing s) s.intake.sources[n].lastCounted a = true) :
    leapCountSteps n q a c dated s = countLeap n q a c dated s := if_neg h

theorem alreadyAtK_iff (k : Nat) (old : Option Candidate) (c : Content) : alreadyAtK k old c = true ↔
    ∃ o, old.filter (fun o => o.content == c) = some o ∧ k ≤ o.count := by
  cases old with
  | none => simp [alreadyAtK]
  | some o => by_cases h : o.content = c <;> simp [alreadyAtK, Option.filter, h]

/-- A source whose LEAP-STATE record has been counted, with the candidate and the outcome it leads to (R108). -/
def Source.leapCounted (k : Nat) (c : LeapContent) (cand : Candidate) (o : DispositionOutcome) (q : BitVec 16)
    (last : Second) (src : Source) : Source := { src with
  candidate := some cand, lastCounted := some last
  confirmed := if k ≤ cand.count then some { content := c, gridDated := cand.gridDated } else src.confirmed
  disposition := { outcome := o, seq := some q, answer := none } }

/-- A proposal of new content that source `n` of `s` has confirmed is told to the Election Unit (R108, R118). -/
def State.tellProposal (s : State) (n : SourceNo) (c : LeapContent) (cand : Candidate) (u : State) : State :=
  if confirmCount s n ≤ cand.count ∧ s.intake.sources[n].confirmed.map (·.content) ≠ some c then
    u.setWires { u.wires with triggers := u.wires.triggers ++ [.proposalChanged n] } else u

theorem countLeap_eq {cand : Candidate} {o : DispositionOutcome}
    (hcand : countCandidate (confirmCount s n) s.intake.sources[n].candidate (.leap c) dated = cand)
    (ho : (if confirmCount s n ≤ cand.count ∧
      ¬ alreadyAtK (confirmCount s n) s.intake.sources[n].candidate (.leap c) = true then .confirmed else .counted) = o) :
    countLeap n q a c dated s = s.tellProposal n c cand
      (updSource n (Source.leapCounted (confirmCount s n) c cand o q (countedSecond a s.sup.s)) s) := by
  have hany : s.intake.sources[n].confirmed.any (fun p => p.content == c) = true ↔
      s.intake.sources[n].confirmed.map (·.content) = some c := by
    cases s.intake.sources[n].confirmed <;> simp
  unfold countLeap State.tellProposal
  dsimp only
  rw [hcand]
  by_cases hk : confirmCount s n ≤ cand.count
  · have hsrc : dispose n (if alreadyAtK (confirmCount s n) s.intake.sources[n].candidate (.leap c) then .counted
          else .confirmed) q none (updSource n (fun src => { src with
            confirmed := some { content := c, gridDated := cand.gridDated } }) (count n (.leap c) dated a s)) =
        updSource n (Source.leapCounted (confirmCount s n) c cand o q (countedSecond a s.sup.s)) s := by
      rw [dispose_updSource, count, updSource_updSource]
      refine updSource_congr ?_
      rw [hcand, Source.leapCounted, if_pos hk, ← ho]
      simp only [hk, true_and, ite_not]
    rw [if_pos hk, hsrc]
    simp only [hk, hany, true_and, ite_not]
  · rw [if_neg hk, if_neg fun h => hk h.1, count, dispose_updSource]
    refine updSource_congr ?_
    rw [hcand, Source.leapCounted, if_neg hk, ← ho, if_neg fun h => hk h.1]

end Leap

/-! ## The lookup claim of the qualifier -/

/-- The qualifier's lookup claim, alone at the list, completes the record's handling, and the next record is taken (R98,
R99). -/
theorem exec_qualifierLookup {s : State} {n : SourceNo} {q : BitVec 16} {a : Second} {d : Int}
    {change : Option (LeapKind × Option Second)} (hc : s.list.claims = []) (hr : s.list.requests = [])
    (hq : s.list.queries = [.lookup .qualifier]) (hcard : s.card = [])
    (hw : s.intake.qualifier = some { source := n, seq := q, arrival := a, work := .leap d change }) :
    exec .lookupClaim s = exec .qualifierTake (leapSteps s.list.sched n q a d change
      ((s.setIntake { s.intake with qualifier := none }).setList { s.list with queries := [] })) := by
  have hn : nextQuery s = some (.lookup .qualifier) := by simp [nextQuery, hc, hr, hq]
  have hfree : freeQualifier (popQuery s) =
      (s.setIntake { s.intake with qualifier := none }).setList { s.list with queries := [] } := by
    rw [popQuery, hq]
    rfl
  have hlook : qualifierLookup s.list.sched (popQuery s) =
      qualifierTake (leapSteps s.list.sched n q a d change (freeQualifier (popQuery s))) := by
    rw [qualifierLookup, show (popQuery s).intake.qualifier = _ from hw]
  have hidle : (qualifierLookup s.list.sched (popQuery s)).card = [] :=
    (qualifierLookup_inner _ _).card.trans hcard
  rw [exec, execLookupClaim, takeLookup, hn]
  show Host.Outcome.next (serve (qualifierLookup s.list.sched (popQuery s))) = _
  rw [serve_nil hidle, hlook, hfree]
  rfl

/-- Settles O48: the leap record on its lookup answer, step by step, and the boundary of a record without one. -/
theorem lookupAnswerQualifiesTheLeapRecord : Obligations.LookupAnswerQualifiesTheLeapRecord := by
  refine ⟨?_, fun g d a k hg => datedBoundary_least hg d a k⟩
  intro n seq arrival d change s hc hr hq hcard hw
    src glob a answered free boundary offGridBy offGrid applied late far content dated kth soon same candidate outcome
    refused told
  have hexec := exec_qualifierLookup hc hr hq hcard hw
  have hrefused (f : SourceFlag) (h : leapSteps s.list.sched n seq arrival d change free = refuseRecord n seq f free) :
      refused (1#6 <<< f.bit) (flagOutcome f) :=
    hexec.trans (congrArg _ (h.trans (refuseRecord_eq f)))
  refine ⟨fun hd => hrefused .offsetDisagree (leapSteps_disagree hd), fun hd => ?_⟩
  have hpasses (hg : ¬ offGrid) (hl : ¬ late) (hf : ¬ far) :
      leapSteps s.list.sched n seq arrival d change free = leapCountSteps n seq arrival content dated free :=
    leapSteps_inRange hd hg fun b hb => rangeAt_none (fun h => hl ⟨b, hb, h⟩) fun h => hf ⟨b, hb, h⟩
  have hfault (hg : ¬ offGrid) (b : Int) (hb : boundary = some b) (f : SourceFlag)
      (hf : free.rangeAt s.list.sched arrival b = some f) : refused (1#6 <<< f.bit) (flagOutcome f) :=
    hrefused f (leapSteps_outOfRange (s := free) hd hg hb hf)
  have hsoon : tooSoon (spacing free) src.lastCounted arrival = true ↔ soon := tooSoon_iff ..
  refine ⟨fun hg => hrefused .offGrid (leapSteps_offGrid hd hg), fun hg ⟨b, hb, hl⟩ => ?_,
    fun hg hl ⟨b, hb, hf⟩ => ?_, fun hg hl hf hs => ?_, fun hg hl hf hs => ?_⟩
  · exact hfault hg b hb .tooLate (rangeAt_late hl)
  · exact hfault hg b hb .tooFar (rangeAt_far (fun h => hl ⟨b, hb, h⟩) hf)
  · exact hexec.trans (congrArg _ ((hpasses hg hl hf).trans (leapCountSteps_soon (hsoon.mpr hs))))
  · have hcand : countCandidate kth src.candidate (.leap content) dated = candidate := countCandidate_eq ..
    have hcounts := (hpasses hg hl hf).trans (leapCountSteps_counts (mt hsoon.mp hs))
    refine hexec.trans (congrArg _ (hcounts.trans (countLeap_eq hcand ?_)))
    simp only [alreadyAtK_iff]
    rfl

end Sys2Proof.Machine
end

section
/-! PROOFS. The contenders of a run and the winner: the first in the order of R121. -/

namespace Sys2Proof.Machine

variable {s : State} {n m k : SourceNo}

/-! ## The order of the contenders (R121) -/

/-- A source contends: it holds a confirmed proposal. -/
def State.Contends (s : State) (n : SourceNo) : Prop := s.intake.sources[n].confirmed.isSome = true

/-- A source is SILENT. -/
def State.Silent (s : State) (n : SourceNo) : Prop := s.intake.sources[n].state = .silent

/-- Source `n` comes before source `m` by the three keys: heard, priority, number. -/
def State.Ahead (s : State) (n m : SourceNo) : Prop :=
  (¬ s.Silent n ∧ s.Silent m) ∨
    ((s.Silent n ↔ s.Silent m) ∧
      (priorityOf s m < priorityOf s n ∨ (priorityOf s n = priorityOf s m ∧ n.val < m.val)))

theorem isSilent_iff : isSilent s n = true ↔ s.Silent n := by simp [isSilent, State.Silent]

/-- Where neither source stands before the other by the first two keys, the lower number is ahead. -/
theorem standsBefore_iff_ahead (h : m < n) : standsBefore s n m = true ↔ s.Ahead n m := by
  have hlt : ¬ n.val < m.val := Nat.lt_asymm h
  simp only [State.Ahead, ← isSilent_iff, standsBefore, hlt, and_false, or_false]
  cases isSilent s n <;> cases isSilent s m <;> simp

theorem State.Ahead.trans (h : s.Ahead n m) (h' : s.Ahead m k) : s.Ahead n k := by
  unfold State.Ahead at *
  by_cases hm : s.Silent m <;> simp only [hm] at h h' <;> grind

theorem State.Ahead.asymm (h : s.Ahead n m) : ¬ s.Ahead m n := by
  unfold State.Ahead at *
  grind

theorem State.ahead_of_not_ahead (h : ¬ s.Ahead n m) (hne : m ≠ n) : s.Ahead m n := by
  have hval : m.val ≠ n.val := fun e => hne (Fin.ext e)
  unfold State.Ahead at *
  grind

/-! ## The winner -/

/-! One source taken into the search for the winner: an equation per case. -/

theorem betterContender_noContender (h : ¬ s.Contends n) (best : Option SourceNo) : betterContender s best n = best :=
  if_neg h

theorem betterContender_none (h : s.Contends n) : betterContender s none n = some n := if_pos h

theorem betterContender_some (h : s.Contends n) : betterContender s (some m) n =
    if standsBefore s n m then some n else some m := if_pos h

/-- What the election has found among the sources of a list: the contender ahead of all others, or none. -/
def State.FirstAmong (s : State) (l : List SourceNo) : Option SourceNo → Prop
  | none => ∀ m ∈ l, ¬ s.Contends m
  | some n => n ∈ l ∧ s.Contends n ∧ ∀ m ∈ l, s.Contends m → m ≠ n → s.Ahead n m

theorem State.FirstAmong.append_noContender {l : List SourceNo} {best : Option SourceNo} (h : s.FirstAmong l best)
    (hn : ¬ s.Contends n) : s.FirstAmong (l ++ [n]) best := by
  cases best with
  | none => simpa [State.FirstAmong, or_imp, forall_and, hn] using h
  | some b =>
    obtain ⟨hb, hc, hfirst⟩ := h
    refine ⟨List.mem_append_left _ hb, hc, fun m hm hmc => ?_⟩
    rcases List.mem_append.mp hm with hm | hm
    · exact hfirst m hm hmc
    · exact absurd hmc (List.mem_singleton.mp hm ▸ hn)

/-- A contender seen after sources of lower number takes the place of the best so far exactly when it is ahead of it. -/
theorem State.FirstAmong.append_contender {l : List SourceNo} {best : Option SourceNo} (h : s.FirstAmong l best)
    (hl : ∀ m ∈ l, m < n) (hn : s.Contends n) : s.FirstAmong (l ++ [n]) (betterContender s best n) := by
  cases best with
  | none =>
    rw [betterContender_none hn]
    refine ⟨by simp, hn, fun m hm hmc hne => ?_⟩
    exact absurd hmc (h m ((List.mem_append.mp hm).resolve_right (by simpa using hne)))
  | some b =>
    obtain ⟨hb, hc, hfirst⟩ := h
    rw [betterContender_some hn]
    by_cases hnb : s.Ahead n b
    · rw [if_pos ((standsBefore_iff_ahead (hl b hb)).mpr hnb)]
      refine ⟨by simp, hn, fun m hm hmc hne => ?_⟩
      have hml : m ∈ l := (List.mem_append.mp hm).resolve_right (by simpa using hne)
      by_cases hmb : m = b
      · exact hmb ▸ hnb
      · exact hnb.trans (hfirst m hml hmc hmb)
    · rw [if_neg (mt (standsBefore_iff_ahead (hl b hb)).mp hnb)]
      refine ⟨List.mem_append_left _ hb, hc, fun m hm hmc hne => ?_⟩
      rcases List.mem_append.mp hm with hm | hm
      · exact hfirst m hm hmc hne
      · obtain rfl := List.mem_singleton.mp hm
        exact State.ahead_of_not_ahead hnb hne.symm

/-- Taking the better contender, source by source in ascending order, finds the first one. -/
theorem foldl_betterContender_firstAmong {l : List SourceNo} (hl : l.Pairwise (· < ·)) :
    s.FirstAmong l (l.foldl (betterContender s) none) := by
  induction l using List.reverseRecOn with
  | nil => simp [State.FirstAmong]
  | append_singleton l n ih =>
    obtain ⟨hsorted, -, hlt⟩ := List.pairwise_append.mp hl
    rw [List.foldl_append, List.foldl_cons, List.foldl_nil]
    by_cases hn : s.Contends n
    · exact (ih hsorted).append_contender (fun m hm => hlt m hm n (List.mem_singleton.mpr rfl)) hn
    · rw [betterContender_noContender hn]
      exact (ih hsorted).append_noContender hn

theorem winner_firstAmong (s : State) : s.FirstAmong (List.finRange 8) (winner s) :=
  foldl_betterContender_firstAmong (List.pairwise_lt_finRange 8)

/-- There is no winner exactly when no source contends. -/
theorem winner_eq_none : winner s = none ↔ ∀ n, ¬ s.Contends n := by
  have h := winner_firstAmong s
  cases hw : winner s with
  | none => simpa [hw, State.FirstAmong] using h
  | some n =>
    rw [hw] at h
    exact iff_of_false (Option.some_ne_none n) fun hnone => hnone n h.2.1

/-- The winner is the contender ahead of every other. -/
theorem winner_eq_some : winner s = some n ↔ s.Contends n ∧ ∀ m, s.Contends m → m ≠ n → s.Ahead n m := by
  have h := winner_firstAmong s
  constructor
  · intro hw
    rw [hw] at h
    obtain ⟨-, hc, hfirst⟩ := h
    exact ⟨hc, fun m => hfirst m (List.mem_finRange m)⟩
  · rintro ⟨hn, hfirst⟩
    cases hw : winner s with
    | none => exact absurd hn (winner_eq_none.mp hw n)
    | some k =>
      rw [hw] at h
      obtain ⟨-, hk, hkfirst⟩ := h
      by_contra hne
      have hkn : k ≠ n := fun e => hne (congrArg some e)
      exact (hfirst k hk hkn).asymm (hkfirst n (List.mem_finRange n) hn hkn.symm)

/-- Settles O51: the winner is the first of the contenders. -/
theorem winnerStandsFirstAmongContenders : Obligations.WinnerStandsFirstAmongContenders :=
  fun _ => ⟨winner_eq_none, fun _ => winner_eq_some⟩

end Sys2Proof.Machine
end

section
/-! PROOFS. A run from its start to its snapshot claim: the indication, the winner's claim, and the triggers and FLUSH that
start it (R119, R120, R128, R130). -/

namespace Sys2Proof.Machine

variable {s : State}

/-! ## The indication (R128) -/

/-- Two heard sources hold proposals of different content. -/
def State.Disagree (s : State) : Prop :=
  ∃ n m p q, ¬ s.Silent n ∧ ¬ s.Silent m ∧ s.intake.sources[n].confirmed = some p ∧
    s.intake.sources[m].confirmed = some q ∧ p.content ≠ q.content

theorem mem_heardContents {c : LeapContent} : c ∈ heardContents s ↔
    ∃ (n : SourceNo) (p : Confirmed), ¬ s.Silent n ∧ s.intake.sources[n].confirmed = some p ∧ p.content = c := by
  simp [heardContents, ← isSilent_iff]

/-- Comparing every element with the first finds out whether two differ. -/
theorem sourcesDisagree_iff_mem : sourcesDisagree s = true ↔
    ∃ c ∈ heardContents s, ∃ d ∈ heardContents s, c ≠ d := by
  unfold sourcesDisagree
  cases heardContents s with
  | nil => simp
  | cons c cs =>
    simp only [List.any_eq_true, bne_iff_ne]
    constructor
    · rintro ⟨d, hd, hne⟩
      exact ⟨d, List.mem_cons_of_mem _ hd, c, List.mem_cons_self .., hne⟩
    · rintro ⟨d, hd, e, he, hne⟩
      by_contra hall
      have hc : ∀ x ∈ c :: cs, x = c := by simpa using hall
      exact hne ((hc d hd).trans (hc e he).symm)

theorem sourcesDisagree_iff : sourcesDisagree s = true ↔ s.Disagree := by
  rw [sourcesDisagree_iff_mem]
  constructor
  · rintro ⟨_, hc, _, hd, hne⟩
    obtain ⟨n, p, hn, hp, rfl⟩ := mem_heardContents.mp hc
    obtain ⟨m, q, hm, hq, rfl⟩ := mem_heardContents.mp hd
    exact ⟨n, m, p, q, hn, hm, hp, hq, hne⟩
  · rintro ⟨n, m, p, q, hn, hm, hp, hq, hne⟩
    exact ⟨_, mem_heardContents.mpr ⟨n, p, hn, hp, rfl⟩, _, mem_heardContents.mpr ⟨m, q, hm, hq, rfl⟩, hne⟩

/-- What bringing the indication up to date raises: SOURCES-DISAGREE when it becomes set. -/
def State.indicationEvents (s : State) : List Event :=
  if sourcesDisagree s = true ∧ s.election.disagree = false then [.sourcesDisagree] else []

theorem updateIndication_eq (s : State) : updateIndication s =
    (s.raised s.indicationEvents).setElection { s.election with disagree := sourcesDisagree s } := by
  unfold updateIndication State.indicationEvents
  by_cases h : sourcesDisagree s = true ∧ s.election.disagree = false
  · rw [if_pos h, if_pos (by simpa using h)]
    rfl
  · rw [if_neg h, if_neg (by simpa using h), ← raise_eq, raise_nil]

/-! ## The run (R119, R120) -/

/-- With no contender the last winner becomes none, and the run ends. -/
theorem startRun_noContender (h : ∀ n : SourceNo, s.intake.sources[n].confirmed = none) : startRun s =
    (s.raised s.indicationEvents).setElection
      { s.election with lastWinner := none, disagree := sourcesDisagree s, run := none } := by
  have hw : winner s = none := winner_eq_none.mpr fun n => by simpa [State.Contends] using h n
  rw [startRun, hw, updateIndication_eq]
  rfl

/-- With a winner the run sends one snapshot claim and waits for it, with the proposal as read. -/
theorem startRun_winner {n : SourceNo} {p : Confirmed} (hw : winner s = some n)
    (hp : s.intake.sources[n].confirmed = some p) : startRun s =
    ((s.raised s.indicationEvents).setElection
      { s.election with disagree := sourcesDisagree s, run := some (.awaitingSnapshot n p) }).setList
        { s.list with queries := s.list.queries ++ [.snapshot .election] } := by
  rw [startRun, hw, updateIndication_eq]
  dsimp only
  rw [hp]
  rfl

/-- The Election Unit with no run in progress and none pending. -/
def State.idleRun (s : State) : State := s.setElection { s.election with run := none, runPending := false }

theorem State.idleRun_eq_self (hr : s.election.run = none) (hp : s.election.runPending = false) : s.idleRun = s := by
  rw [State.idleRun, ← hr, ← hp]
  rfl

/-- The oldest trigger on its way is taken (R119). -/
theorem exec_electionTrigger_cons {x : ElectionTrigger} {rest : List ElectionTrigger}
    (h : s.wires.triggers = x :: rest) :
    exec .electionTrigger s = .next (takeTrigger (s.setWires { s.wires with triggers := rest })) := by
  rw [exec, execElectionTrigger, h]

theorem takeTrigger_busy {r : Run} (h : s.election.run = some r) :
    takeTrigger s = s.setElection { s.election with runPending := true } := by rw [takeTrigger, h]

theorem takeTrigger_idle (hr : s.election.run = none) (hp : s.election.runPending = false) :
    takeTrigger s = startRun s.idleRun := by
  rw [State.idleRun_eq_self hr hp, takeTrigger, hr]

/-- FLUSH abandons the claims of the run in progress and starts a run (R130). -/
theorem exec_electionFlush {k : Nat} (h : s.wires.electionFlushes = k + 1) : exec .electionFlush s =
    .next (startRun (abandonClaims .election (s.setWires { s.wires with electionFlushes := k })).idleRun) := by
  rw [exec, execElectionFlush, h]
  rfl

/-- Settles O50: a trigger is merged into the run in progress or starts one, and FLUSH starts one anew. -/
theorem triggersAndFlushStartARun : Obligations.TriggersAndFlushStartARun := by
  intro s heard disagree runs gone goneQuery
  have hruns (c : Instr) (l : ChangeList) (w : Wires)
      (h : exec c s = .next (startRun ((s.setList l).setWires w).idleRun)) : runs c ((s.setList l).setWires w) := by
    refine ⟨sourcesDisagree s, sourcesDisagree_iff, fun hnone => ?_, fun n p hw hn => ?_⟩
    · exact h.trans (congrArg Host.Outcome.next (startRun_noContender hnone))
    · exact h.trans (congrArg Host.Outcome.next (startRun_winner hw hn))
  have hgone : Query.abandonIf .election = goneQuery := by
    funext q
    cases q <;> rfl
  refine ⟨fun x rest r ht hr => ?_, fun x rest ht hr hp => hruns _ s.list _ ?_, fun k hk => hruns _ _ _ ?_⟩
  · exact (exec_electionTrigger_cons ht).trans (congrArg Host.Outcome.next (takeTrigger_busy hr))
  · exact (exec_electionTrigger_cons ht).trans (congrArg Host.Outcome.next (takeTrigger_idle hr hp))
  · rw [exec_electionFlush hk, ← hgone]
    rfl

end Sys2Proof.Machine
end

section
/-! PROOFS. A run on its snapshot: its decision by the table, and the end of the run (R119, R120, R123 to R125, R127). -/

namespace Sys2Proof.Machine

variable {s : State} {w : SourceNo} {p : Confirmed} {k : LeapKind} {b : Second} {es : List Entry} {e : Entry}

/-! ## The decision table (R123, R124): an equation per row -/

theorem decideRun_change_none (hp : p.content = .change k b) (he : pendingCivil es = none) :
    decideRun w p es = .send (.armCivil b k w p.gridDated) := by rw [decideRun, hp, he]

theorem decideRun_change_some (hp : p.content = .change k b) (he : pendingCivil es = some e) :
    decideRun w p es = if e.boundary = b ∧ e.kind = .leap k then .nothing
      else if e.state = .frozen then .dispute else .send (.replace b k w p.gridDated) := by rw [decideRun, hp, he]

theorem decideRun_noChange_none (hp : p.content = .noChange) (he : pendingCivil es = none) :
    decideRun w p es = .nothing := by rw [decideRun, hp, he]

theorem decideRun_noChange_some (hp : p.content = .noChange) (he : pendingCivil es = some e) :
    decideRun w p es = if e.state = .frozen then .dispute else .send .withdrawCivil := by rw [decideRun, hp, he]

/-! ## The snapshot claim, and what the decision comes to -/

/-- The part once its only query has left the list. -/
def State.queriesTaken (s : State) : State := s.setList { s.list with queries := [] }

/-- The run's snapshot claim, alone at the list, is answered from the whole schedule (R15, R16). -/
theorem exec_electionSnapshot (hc : s.list.claims = []) (hr : s.list.requests = [])
    (hq : s.list.queries = [.snapshot .election]) (hcard : s.card = []) :
    exec .snapshotClaim s = .next (electionSnapshot s.list.sched s.queriesTaken) := by
  have hask : ask (.snapshot .election) s.queriesTaken = s :=
    congrArg (fun q => s.setList { s.list with queries := q }) hq.symm
  have hidle : (electionSnapshot s.list.sched s.queriesTaken).card = [] := (electionSnapshot_inner _ _).card.trans hcard
  have hexec := exec_snapshotClaim (s := s.queriesTaken) ⟨hc, hr, rfl⟩ .election
  rw [hask] at hexec
  exact hexec.trans (congrArg Host.Outcome.next (serve_nil hidle))

/-- The winner becomes the last winner (R120, R122). -/
def State.decided (s : State) (w : SourceNo) : State := s.setElection { s.election with lastWinner := some w }

section Decided

variable (sched : Schedule) (hw : s.election.run = some (.awaitingSnapshot w p))
include hw

theorem electionSnapshot_nothing (hd : decideRun w p sched.entries = .nothing) : electionSnapshot sched s =
    endRun (s.decided w) := by
  simp only [electionSnapshot, hw, hd]
  rfl

theorem electionSnapshot_dispute (hd : decideRun w p sched.entries = .dispute) : electionSnapshot sched s =
    endRun ((s.decided w).raised [.dispute]) := by
  simp only [electionSnapshot, hw, hd]
  rfl

theorem electionSnapshot_send {r : Request} (hd : decideRun w p sched.entries = .send r) : electionSnapshot sched s =
    request r .election
      (s.setElection { s.election with lastWinner := some w, run := some (.awaitingAnswer w) }) := by
  simp only [electionSnapshot, hw, hd]
  rfl

end Decided

/-! ## The end of a run (R119) -/

theorem endRun_last (h : s.election.runPending = false) : endRun s = s.idleRun := by
  rw [endRun, h]
  rfl

/-- A pending run starts when the run before it ends, as a trigger taken then would start it. -/
theorem endRun_pending (h : s.election.runPending = true) (y : ElectionTrigger) : .next (endRun s) =
    exec .electionTrigger (s.idleRun.setWires { s.idleRun.wires with triggers := y :: s.idleRun.wires.triggers }) := by
  rw [exec_electionTrigger rfl, endRun, h]
  rfl

/-- Settles O52: the run's decision by the table, and the pending run at its end. -/
theorem runDecidesByTheTable : Obligations.RunDecidesByTheTable := by
  intro w p s hc hr hq hcard hw pending ended sends
  have hexec := exec_electionSnapshot hc hr hq hcard
  have hended (es : List Event)
      (h : electionSnapshot s.list.sched s.queriesTaken = endRun ((s.queriesTaken.decided w).raised es)) : ended es := by
    rw [h] at hexec
    exact ⟨fun hp => hexec.trans (congrArg Host.Outcome.next (endRun_last hp)),
      fun hp y => hexec.trans (endRun_pending (s := (s.queriesTaken.decided w).raised es) hp y)⟩
  have hnothing (hd : decideRun w p s.list.sched.entries = .nothing) : ended [] :=
    hended [] ((electionSnapshot_nothing (s := s.queriesTaken) _ hw hd).trans
      (congrArg endRun (raise_nil (s.queriesTaken.decided w)).symm))
  have hdispute (hd : decideRun w p s.list.sched.entries = .dispute) : ended [.dispute] :=
    hended [.dispute] (electionSnapshot_dispute (s := s.queriesTaken) _ hw hd)
  have hsends (r : Request) (hd : decideRun w p s.list.sched.entries = .send r) : sends r :=
    hexec.trans (congrArg Host.Outcome.next (electionSnapshot_send (s := s.queriesTaken) _ hw hd))
  refine ⟨fun k b hp => ⟨fun he => ?_, fun e he => ⟨fun hb hk => ?_, fun hne hs => ?_, fun hne hs => ?_⟩⟩,
    fun hp => ⟨fun he => ?_, fun e he => ⟨fun hs => ?_, fun hs => ?_⟩⟩⟩
  · exact hsends _ (decideRun_change_none hp he)
  · exact hnothing ((decideRun_change_some hp he).trans (if_pos ⟨hb, hk⟩))
  · exact hsends _ (by rw [decideRun_change_some hp he, if_neg hne, if_neg (by simp [hs])])
  · exact hdispute (by rw [decideRun_change_some hp he, if_neg hne, if_pos hs])
  · exact hnothing (decideRun_noChange_none hp he)
  · exact hsends _ (by rw [decideRun_noChange_some hp he, if_neg (by simp [hs])])
  · exact hdispute (by rw [decideRun_noChange_some hp he, if_pos hs])

end Sys2Proof.Machine
end

section
/-! PROOFS. Announcement reads of one word that is not patched: the word as memory holds it, and what memory's ERROR leaves of
the patcher's claims (R135, R136; log entry 19). -/

namespace Sys2Proof.Machine

/-! ## Claims of a requester -/

/-- No claim of `who` waits at the list or is on its way to it. -/
structure NoClaimOf (who : Asker) (s : State) : Prop where
  queries : ∀ q ∈ s.list.queries, q.abandonIf who = q
  requests : ∀ r ∈ s.list.requests, r.asker ≠ who
  sending : ∀ r ∈ s.list.sending, r.asker ≠ who

/-- A list with nothing waiting, and no request on its way to it, has no claim of anyone. -/
theorem NoClaimOf.of_listFree {s : State} (h : ListFree s) (hs : s.list.sending = []) (who : Asker) :
    NoClaimOf who s := by
  obtain ⟨-, hr, hq⟩ := h
  constructor <;> simp [hr, hq, hs]

/-- Abandoning a requester changes nothing but its claims (log entry 19). -/
theorem abandonClaims_of_none {who : Asker} {s : State} (h : NoClaimOf who s) : abandonClaims who s = s := by
  have asker (rs : List WaitingRequest) (hr : ∀ r ∈ rs, r.asker ≠ who) :
      (rs.map fun r => { r with asker := who.abandonIf r.asker }) = rs :=
    (List.map_congr_left fun r hm => by rw [Asker.abandonIf, if_neg (hr r hm)]).trans (List.map_id' rs)
  rw [abandonClaims, List.map_congr_left h.queries, asker _ h.requests, asker _ h.sending, List.map_id']
  rfl

/-- Memory's ERROR answers a held announcement read with zero data, and abandons the patcher's claims (R135, R155). -/
theorem exec_memoryError_announcing {u : State} (h : Ready u) (a : Access) (sm : PatchSample) (blocks : List Byte)
    (awaiting : Bool) (snap : Option Schedule) (x : Access) (rest : List Access) (d : List Byte) :
    exec (.memoryAnswer false d) (u.announcing a sm blocks awaiting snap (some x) rest) =
      .next ((abandonClaims .patcher u).answered a.master false (zeroData a)) := by
  have hm : memoryAnswer false d (u.announcing a sm blocks awaiting snap (some x) rest) =
      (abandonClaims .patcher u).answered a.master false (zeroData a) := by
    simp only [memoryAnswer, State.announcing, State.setPath_path, h.fresh, memoryError, answerError_eq,
      Bool.false_eq_true, if_false]
    exact congrArg (fun q => ((abandonClaims .patcher u).setPath q).answered a.master false (zeroData a)) h.path.symm
  rw [exec, execMemoryAnswer, hm, serve_nil]
  exact h.alone

/-! ## One word that is not patched -/

section Unpatched

variable {s : State} {m : Master} {p : PortNo} {w : Fin 8}

/-- Word `w` of the block of port `p`, counted from the start of the window. -/
def blockWordNo (p : PortNo) (w : Fin 8) : Nat := p.val * 8 + w.val

theorem blockWordNo_lt (p : PortNo) (w : Fin 8) : blockWordNo p w + 1 ≤ 128 := by unfold blockWordNo; omega
theorem blockWordNo_mod (p : PortNo) (w : Fin 8) : blockWordNo p w % 8 = w.val := by unfold blockWordNo; omega
theorem blockWordNo_div (p : PortNo) (w : Fin 8) : blockWordNo p w / 8 = p.val := by unfold blockWordNo; omega

/-- A disabled policy, words 6 and 7 and a clear mask bit leave the word unpatched (R136). -/
theorem isPatched_blockWordNo (h : s.patcher.ports[p].active.enabled = false ∨ 6 ≤ w.val ∨
    s.patcher.ports[p].active.mask.getLsbD w = false) :
    isPatched (policyOfWord (patchSample s) (blockWordNo p w)) (blockWordNo p w % 8) = false := by
  have hport : (Fin.ofNat 16 (blockWordNo p w / 8) : PortNo) = p := by
    rw [blockWordNo_div]
    exact Fin.ext (Nat.mod_eq_of_lt p.isLt)
  have hpolicy : policyOfWord (patchSample s) (blockWordNo p w) = s.patcher.ports[p].active :=
    (policyOfWord_patchSample s _).trans (congrArg (fun q : PortNo => s.patcher.ports[q].active) hport)
  rw [hpolicy, blockWordNo_mod, isPatched]
  rcases h with h | h | h
  · rw [h, Bool.false_and, Bool.false_and]
  · rw [decide_eq_false (by omega), Bool.and_false, Bool.false_and]
  · rw [h, Bool.and_false]

/-- An unpatched word needs no snapshot (R135 step 2). -/
theorem needsSnapshot_blockWordNo
    (h : isPatched (policyOfWord (patchSample s) (blockWordNo p w)) (blockWordNo p w % 8) = false) :
    needsSnapshot (patchSample s) (8 * blockWordNo p w) (8 * 1) = false := by
  rw [Bool.eq_false_iff, ne_eq, needsSnapshot_words _ Nat.one_pos]
  rintro ⟨j, hlo, hhi, -, hp⟩
  obtain rfl : j = blockWordNo p w := by omega
  exact Bool.false_ne_true (h.symm.trans hp)

/-- The state while the read of the word is held, its block asked for. -/
def State.readingBlock (s : State) (m : Master) (p : PortNo) (w : Fin 8) : State :=
  s.announcing (announceAccess s m (blockWordNo p w) (.beat .eight)) (patchSample s) [] false none
    (some (blockRead s m p.val)) []

variable (hw : s.patcher.ports[p].active.enabled = false ∨ 6 ≤ w.val ∨ s.patcher.ports[p].active.mask.getLsbD w = false)
include hw

/-- The read is held, and the whole block asked for (R135). -/
theorem exec_unpatchedRead (h : Ready s) (hp : s.status.part = .active) :
    exec (.announcementBlockRead m (BitVec.ofNat 16 (0x2000 + p.val * 0x40 + w.val * 8)) (.beat .eight)) s =
      .next (s.readingBlock m p w) := by
  have hexec := exec_announceRead (m := m) h hp (.inl rfl) (n := 1) rfl (by omega) (blockWordNo_lt p w)
    (needsSnapshot_blockWordNo (isPatched_blockWordNo hw))
  have hoff : 0x2000 + blockWordNo p w * 8 = 0x2000 + p.val * 0x40 + w.val * 8 := by unfold blockWordNo; omega
  rw [Nat.add_sub_cancel, if_pos rfl, hoff, blockWordNo_div] at hexec
  exact hexec

/-- Memory's OK: the word as memory holds it (R136). -/
theorem exec_unpatchedRead_ok (h : Ready s) {d : List Byte} (hd : d.length = 64) :
    exec (.memoryAnswer true d) (s.readingBlock m p w) = .next (s.answered m true ((d.drop (8 * w.val)).take 8)) := by
  have hcover : Covers (patchSample s) (blockWordNo p w) 1 ([] ++ d) := fun j hlo hhi _ => by
    have := blockWordNo_mod p w
    rw [List.nil_append, hd]
    omega
  have hplace : 8 * blockWordNo p w - 64 * (blockWordNo p w / 8) = 8 * w.val := by
    have := blockWordNo_mod p w
    omega
  have hok := exec_lastBlock (m := m) (sh := .beat .eight) h rfl (blockWordNo_lt p w) hd hcover p.val
  rw [formedBytes, List.range_one, List.flatMap_singleton, Nat.add_zero, isPatched_blockWordNo hw, hplace] at hok
  exact hok

omit hw in
/-- Memory's ERROR: zero data, and the patcher's claims abandoned (R135). -/
theorem exec_unpatchedRead_error (h : Ready s) (d : List Byte) : exec (.memoryAnswer false d) (s.readingBlock m p w) =
    .next ((abandonClaims .patcher s).answered m false (List.replicate 8 0#8)) :=
  exec_memoryError_announcing h _ _ _ _ _ _ _ _

end Unpatched

/-! ## The statement -/

/-- The statement's content where no claim of the patcher waits: nothing but the answer changes (R135, R136). -/
theorem unpatchedWord_of_noClaim {m : Master} {p : PortNo} {w : Fin 8} {d : List Byte} {s : State} (h : Ready s)
    (hp : s.status.part = .active) (hw : s.patcher.ports[p].active.enabled = false ∨ 6 ≤ w.val ∨
      s.patcher.ports[p].active.mask.getLsbD w = false) (hd : d.length = 64) (hn : NoClaimOf .patcher s) :
    ∃ t, exec (.announcementBlockRead m (BitVec.ofNat 16 (0x2000 + p.val * 0x40 + w.val * 8)) (.beat .eight)) s =
        .next t ∧
      t.path.outstanding = some (blockRead s m p.val) ∧
      exec (.memoryAnswer true d) t = .next (s.answered m true ((d.drop (8 * w.val)).take 8)) ∧
      exec (.memoryAnswer false d) t = .next (s.answered m false (List.replicate 8 0#8)) := by
  have herr := exec_unpatchedRead_error (m := m) (p := p) (w := w) h d
  rw [abandonClaims_of_none hn] at herr
  exact ⟨_, exec_unpatchedRead hw h hp, rfl, exec_unpatchedRead_ok hw h hd, herr⟩

/-- ACTIVE and ready, every port disabled, with a snapshot claim of the patcher at the list. -/
def patcherClaimWaits : State :=
  ask (.snapshot .patcher) (State.reset.setStatus { StatusUnit.reset with part := .active })

theorem ready_patcherClaimWaits : Ready patcherClaimWaits := ⟨rfl, rfl, rfl, rfl, rfl, rfl⟩

/-- Refutes O29: the statement asks for a ready part, but not that no claim of the patcher waits at the list. Memory's ERROR
to an announcement read abandons the patcher's claims (R135; log entry 19), so in `patcherClaimWaits` it leaves the claim
waiting there abandoned, and not the list as it was. The rest holds: `unpatchedWord_of_noClaim`. -/
theorem not_unpatchedWordComesFromMemory : ¬ Obligations.UnpatchedWordComesFromMemory := by
  intro h
  have hd : (List.replicate 64 0#8).length = 64 := List.length_replicate
  have hw : patcherClaimWaits.patcher.ports[(0 : PortNo)].active.enabled = false ∨ 6 ≤ (0 : Fin 8).val ∨
      patcherClaimWaits.patcher.ports[(0 : PortNo)].active.mask.getLsbD (0 : Fin 8) = false := .inl (by decide)
  obtain ⟨t, ht, -, -, herr⟩ := h 0#4 0 0 _ patcherClaimWaits ready_patcherClaimWaits rfl hw hd
  have hread : Host.Outcome.next t = .next (patcherClaimWaits.readingBlock 0#4 0 0) :=
    ht.symm.trans (exec_unpatchedRead hw ready_patcherClaimWaits rfl)
  rw [Host.Outcome.next.inj hread, exec_unpatchedRead_error ready_patcherClaimWaits] at herr
  have hqueries : [Query.snapshot .abandoned] = [.snapshot .patcher] :=
    congrArg (fun u : State => u.list.queries) (Host.Outcome.next.inj herr)
  exact absurd hqueries (by decide)

end Sys2Proof.Machine
end

section
/-! PROOFS. Port-shadow writes: carried to memory, and snooped into the shadow policies on memory's OK (R134, R166, R174). -/

namespace Sys2Proof.Machine

/-! ## Snooped bytes -/

/-- A write that begins in the configuration block is snooped byte by byte from its own offset on (R174). -/
theorem snoopBytes_region (base off : Nat) (d : List Byte) (c : ConfigCopy) : snoopBytes base (base + off) d c =
    d.zipIdx.foldl (fun c bi => snoopByte (off + bi.2) bi.1 c) c := by
  simp only [snoopBytes, Nat.add_assoc, Nat.le_add_right, if_true, Nat.add_sub_cancel_left]

/-- A write of the held access is answered once the configuration copy has taken it (R166). -/
theorem answer_snoopWrite_hold {s : State} (h : s.path.held = none) {a : Access} (ha : a.dir = .write) (j : Job)
    (d : List Byte) : answer a true d (snoopWrite a (hold a j s)) = (snoopWrite a s).answered a.master true [] := by
  have hfree : ({ s.path with held := none } : PathUnit) = s.path := by rw [← h]
  simp only [answer, ha, snoopWrite, hold, State.setStatus_path, State.setPath_path, hfree]
  rfl

/-! ## The access -/

section ShadowWrite

variable {s : State} {off : Offset} {sh : Shape} {d : List Byte}

/-- A write of the control master to the configuration block. -/
def controlWrite (s : State) (off : Offset) (sh : Shape) (d : List Byte) : Access :=
  regionAccess s s.straps.control off .write sh d

/-- An accepted shape in the port-shadow areas passes the four checks while ACTIVE (R158 to R163). -/
theorem takeAccess_shadowWrite (hp : s.status.part = .active) (hl : d.length = sh.bytes) (hsh : PlainShape sh off)
    (hlo : 0x0200 ≤ off.toNat) (hhi : off.toNat + sh.bytes ≤ 0x0400) : takeAccess (controlWrite s off sh d) s =
      holdAndIssue (controlWrite s off sh d) (.store .config) [controlWrite s off sh d] s := by
  have hpos := shape_bytes_pos sh
  have ha : (controlWrite s off sh d).addr.toNat = regionBase s + off.toNat := regionAccess_addr ..
  have hbytes : (controlWrite s off sh d).shape.bytes = sh.bytes := rfl
  have hw : windowOf off.toNat = .config := if_pos (by omega)
  have hc : isChecked s (controlWrite s off sh d) = true := by
    refine isChecked_of_active hp ?_
    rw [inRegion, touches, accessLen, decide_eq_true_iff, ha, hbytes]
    omega
  have hb : ¬ BadAddress s (controlWrite s off sh d) off.toNat := by
    unfold BadAddress
    omega
  have hg : GoodShape (controlWrite s off sh d) off.toNat := by
    rw [goodShape_quiet hw (by decide) (by decide) (by omega), hbytes, Window.range]
    refine ⟨?_, by omega, by omega⟩
    rcases hsh with ⟨h, h8⟩ | ⟨h, h4⟩ | ⟨k, h, h8⟩
    · exact .inl ⟨.inl h, h8⟩
    · exact .inr ⟨h, h4⟩
    · exact .inl ⟨.inr ⟨k, h⟩, h8⟩
  have hf : ¬ Foreign s (controlWrite s off sh d) off.toNat := by
    rintro (⟨-, hm⟩ | hf | hf)
    · exact hm rfl
    · omega
    · omega
  have hv : viewWriteStep (controlWrite s off sh d) off.toNat = none := by simp [viewWriteStep, hw]
  have hk : checkAccess s (controlWrite s off sh d) = none := by
    rw [checkAccess_eq ha, addressStep_good hb, (shapeStep_eq_none hb ha).mpr hg, ownershipStep_native rfl ha hf,
      if_neg (by omega), hv]
    rfl
  have ho : regionOff (controlWrite s off sh d) (regionBase s) = off.toNat := by
    rw [regionOff_of_le (ha ▸ Nat.le_add_right _ _), ha, Nat.add_sub_cancel_left]
  rw [takeAccess_accepted hc hk, carryOut, ho, hw, carried_write (a := controlWrite s off sh d) rfl hl]
  rfl

/-- What memory's OK makes of the configuration copy (R166, R174). -/
theorem snoopWrite_controlWrite (hl : d.length = sh.bytes) : snoopWrite (controlWrite s off sh d) s =
    s.setStatus { s.status with
      config := d.zipIdx.foldl (fun c bi => snoopByte (off.toNat + bi.2) bi.1 c) s.status.config } := by
  have ha : (controlWrite s off sh d).addr.toNat = regionBase s + off.toNat := regionAccess_addr ..
  have hd : accessBytes (controlWrite s off sh d) = d := fit_self hl
  rw [snoopWrite, ha, hd, snoopBytes_region]

end ShadowWrite

/-- Settles O18: the write is accepted and carried to memory, whose OK snoops its bytes into the copy. -/
theorem portShadowWriteUpdatesTheShadow : Obligations.PortShadowWriteUpdatesTheShadow := by
  intro off sh d s h hp hl hsh hlo hhi m
  have hexec : exec (.portShadowWrite m off sh d) s =
      .next (s.waitingFor (controlWrite s off sh d) (.store .config) (controlWrite s off sh d)) := by
    rw [exec_access (a := controlWrite s off sh d) rfl, offer_ready _ h, takeAccess_shadowWrite hp hl hsh hlo hhi,
      holdAndIssue_one h.quiet h.issued]
  refine ⟨_, hexec, rfl, fun x => exec_memoryError _ _ _ x h (fun _ _ _ _ hj => nomatch hj), fun x => ?_⟩
  have hok (y : List Byte) : memoryOk { access := controlWrite s off sh d, job := .store .config } y
      (hold (controlWrite s off sh d) (.store .config) s) =
        (snoopWrite (controlWrite s off sh d) s).answered m true [] := answer_snoopWrite_hold h.free rfl _ y
  rw [exec_memoryOk _ _ _ _ h, hok, snoopWrite_controlWrite hl, serve_nil]
  exact h.alone

end Sys2Proof.Machine
end

section
/-! PROOFS. The command PORT-TRANSFER: its arguments, the transfer at once, and the pending transfer (R145, R146, R175,
R199). -/

namespace Sys2Proof.Machine

/-! ## The command word -/

/-- A byte of the argument of a command word (section 11.8). -/
theorem field_argument (code : Byte) (arg : BitVec 56) {last : Nat} (h1 : 1 ≤ last) (h7 : last ≤ 7) :
    field (commandWord code arg) last 8 = arg.extractLsb' (8 * (7 - last)) 8 := by
  apply BitVec.eq_of_getLsbD_eq
  intro i hi
  have h64 : 8 * (7 - last) + i < 64 := by omega
  have hcode : 8 * (7 - last) + i < 56 := by omega
  simp [field, commandWord, place, hi, h64, hcode]

theorem commandOf_portTransfer (unused : BitVec 40) (port trigger : Byte) :
    commandOf (commandWord 6#8 (unused ++ port ++ trigger)) =
      if h : port.toNat < 16 then
        (if 1 ≤ trigger.toNat ∧ trigger.toNat ≤ 4 then some (.portTransfer ⟨port.toNat, h⟩ (triggerOf trigger)) else none)
      else none := by
  have hport : field (commandWord 6#8 (unused ++ port ++ trigger)) 6 8 = port := by
    rw [field_argument _ _ (by omega) (by omega)]
    apply BitVec.eq_of_getLsbD_eq
    intro i hi
    have hbit : (unused ++ port ++ trigger).getLsbD (8 + i) = port.getLsbD i := by
      rw [BitVec.getLsbD_append, if_neg (by omega), Nat.add_sub_cancel_left, BitVec.getLsbD_append, if_pos hi]
    rw [BitVec.getLsbD_extractLsb', decide_eq_true hi, Bool.true_and]
    exact hbit
  have htrigger : field (commandWord 6#8 (unused ++ port ++ trigger)) 7 8 = trigger := by
    rw [field_argument _ _ (by omega) (by omega)]
    exact BitVec.extractLsb'_append_eq_right
  simp only [commandOf, field_commandWord, hport, htrigger]
  rfl

/-- Another port or trigger names no command (R199). -/
theorem commandOf_portTransfer_bad (unused : BitVec 40) {port trigger : Byte}
    (h : 16 ≤ port.toNat ∨ trigger = 0#8 ∨ 5 ≤ trigger.toNat) :
    commandOf (commandWord 6#8 (unused ++ port ++ trigger)) = none := by
  rw [commandOf_portTransfer]
  rcases h with h | rfl | h
  · rw [dif_neg (by omega)]
  · simp
  · simp [show ¬ trigger.toNat ≤ 4 by omega]

theorem commandOf_portTransfer_good (unused : BitVec 40) {port trigger : Byte} {p : PortNo} (hp : port.toNat = p.val)
    (h1 : 1 ≤ trigger.toNat) (h4 : trigger.toNat ≤ 4) :
    commandOf (commandWord 6#8 (unused ++ port ++ trigger)) = some (.portTransfer p (triggerOf trigger)) := by
  have hport : (⟨port.toNat, hp ▸ p.isLt⟩ : PortNo) = p := Fin.ext hp
  rw [commandOf_portTransfer, dif_pos (hp ▸ p.isLt), if_pos ⟨h1, h4⟩, hport]

/-! ## The command taken -/

/-- PORT-TRANSFER taken for a held access, which is answered (R145, R146). -/
theorem takeCommand_portTransfer {s : State} (h : s.path.held = none) {a : Access} (hd : a.dir = .write) {w : Word}
    {p : PortNo} {x : Option TransferTrigger} (hw : commandOf w = some (.portTransfer p x)) :
    takeCommand a w (s.holding a (.command w)) = ((takePortTransfer p x s).took w).answered a.master true [] := by
  have hfree : ({ s.path with held := none } : PathUnit) = s.path := by rw [← h]
  rw [takeCommand, hw]
  cases x <;>
    simp only [answer, hd, takePortTransfer, transferPort, raise, updPort, State.holding, State.setStatus_path,
      State.setPatcher_path, State.setWires_path, State.setPath_path, hfree] <;> rfl

/-- Settles O28: the command write is refused or carried to memory, whose OK copies the shadow or sets the trigger. -/
theorem portTransferActsOrWaitsForItsTrigger : Obligations.PortTransferActsOrWaitsForItsTrigger := by
  intro m sh unused port trigger d s h h8 hm arg a c
  refine ⟨fun hbad => ?_, fun hp p hport h1 h4 => ?_⟩
  · refine exec_command_refused h h8 hm rfl ?_
    rcases hbad with hp | hbad
    · rw [commandOf_portTransfer, hp]
      split
      · split <;> rfl
      · rfl
    · rw [commandOf_portTransfer_bad _ hbad]
      rfl
  · have hcmd := commandOf_portTransfer_good unused hport h1 h4
    have hok := exec_command_ok h a (commandWord 6#8 arg) d
    rw [takeCommand_portTransfer h.free rfl hcmd] at hok
    refine ⟨_, exec_command_allowed h h8 hm rfl (by rw [hcmd, hp]; rfl), rfl, exec_command_error h _ d, ?_⟩
    refine ⟨fun ht => ?_, fun ht => ?_, fun ht => ?_, fun ht => ?_⟩ <;> subst ht <;> exact hok

end Sys2Proof.Machine
end

section
/-! PROOFS. What the patched words 0 to 5 carry, field by field (R138 to R142, section 11.5). -/

namespace Sys2Proof.Machine

/-! ## The entries the words speak of, in the words of the statement -/

section Entries

variable (p : Policy) (x : Second) (es : List Entry)

/-- Above S and within the lead, as a distance (R139, R141). -/
theorem within_lead_iff (b : Second) (lead : Nat) :
    x.toNat < b.toNat ∧ b.toNat ≤ x.toNat + lead ↔ x.toNat < b.toNat ∧ b.toNat - x.toNat ≤ lead := by omega

/-- Not above S and less than the hold below it, as a distance (R140). -/
theorem within_hold_iff (b : Second) (hold : Nat) :
    b.toNat ≤ x.toNat ∧ x.toNat < b.toNat + hold ↔ b.toNat ≤ x.toNat ∧ x.toNat - b.toNat < hold := by omega

/-- The announced civil entry (R139). -/
theorem announcedCivil_eq : announcedCivil p x es = (es.filter fun e => e.scale == .civil).find? fun e =>
    decide (x.toNat < e.boundary.toNat ∧ e.boundary.toNat - x.toNat ≤ p.lead.toNat) := by
  simp only [announcedCivil, within_lead_iff, List.find?_filter, Bool.decide_and, Bool.decide_eq_true]

/-- There is a recent civil entry (R140). -/
theorem recentCivil_isSome : (recentCivil p x es).isSome = (es.filter fun e => e.scale == .civil).any fun e =>
    decide (e.boundary.toNat ≤ x.toNat ∧ x.toNat - e.boundary.toNat < p.hold.toNat) := by
  rw [Bool.eq_iff_iff, recentCivil, List.getLast?_isSome]
  simp [within_hold_iff]

/-- The pending zone entry of the port's zone (R141). -/
theorem pendingZone_eq : pendingZone p x es =
    ((es.filter fun e => e.scale == .zone p.zone.toFin).find? fun e => decide (x.toNat < e.boundary.toNat)).filter
      fun e => decide (e.boundary.toNat - x.toNat ≤ p.lead.toNat) := by
  have hlead (e : Entry) : e.boundary.toNat ≤ x.toNat + p.lead.toNat ↔ e.boundary.toNat - x.toNat ≤ p.lead.toNat := by
    omega
  simp only [pendingZone, Policy.zoneNo, hlead, List.find?_filter, Bool.decide_and, Bool.decide_eq_true]
  cases es.find? fun e => e.scale == .zone p.zone.toFin && decide (x.toNat < e.boundary.toNat) with
  | none => rfl
  | some e => simp [Option.filter]

/-- The offset presented for a scale (R138, R141). -/
theorem presentedOffset_newest (sched : Schedule) (sc : Scale) : presentedOffset sched sc =
    ((((sched.entries.filter fun e => e.scale == sc).filter fun e => e.state == .applied).getLast?).map
      (·.new)).getD (sched.base.offset sc) := by
  rw [presentedOffset_eq, List.filter_filter]

end Entries

/-! ## Fields of the words -/

/-- A bit of a byte that holds one flag. -/
theorem getLsbD_flag (b : Bool) {i j : Nat} (h : j < 8) :
    (if b then 1#8 <<< i else 0#8).getLsbD j = (b && decide (j = i)) := by
  cases b
  · simp
  · rw [if_pos rfl, Bool.true_and]
    have hbit : (!decide (j < i) && decide (j - i = 0)) = decide (j = i) := by
      rw [Bool.eq_iff_iff]
      simp only [Bool.and_eq_true, Bool.not_eq_true', decide_eq_false_iff_not, decide_eq_true_iff]
      omega
    simpa [h] using hbit

section Words

variable (sm : PatchSample) (p : Policy) (sched : Schedule)

/-- Word 0 holds its offset, its flags and its scale code in fields of their own (section 11.5). -/
theorem fields_civilWord :
    field (civilWord sm p sched) 1 16 = BitVec.ofInt 16 (presentedOffset sched .civil) ∧
    field (civilWord sm p sched) 3 8 = scaleCode p ∧
    ∀ i, i < 8 → (field (civilWord sm p sched) 2 8).getLsbD i =
      ((offsetValid sm.timeBase && decide (i = 0)) ||
        ((announcedCivil p sm.s sched.entries).any (fun e => e.kind == .leap .insert) && decide (i = 1)) ||
        ((announcedCivil p sm.s sched.entries).any (fun e => e.kind == .leap .delete) && decide (i = 2)) ||
        ((recentCivil p sm.s sched.entries).isSome && decide (i = 3)) ||
        ((announcedCivil p sm.s sched.entries).any (fun e => e.state == .frozen) && decide (i = 4))) := by
  simp (disch := omega) only [civilWord, placeBit_eq_place, field_or, field_place, field_place_above,
    field_place_below, BitVec.or_zero, BitVec.zero_or, true_and]
  intro i hi
  simp only [BitVec.getLsbD_or, getLsbD_flag _ hi]

/-- The scale code carries the zone of a ZONE policy (R132). -/
theorem scaleCode_eq : scaleCode p = if p.scale = 2#4 then 0#2 ++ p.zone ++ p.scale else 0#4 ++ p.scale := by
  have zone : ∀ (z : BitVec 2) (c : BitVec 4), c.setWidth 8 ||| (z.setWidth 8 <<< 4) = 0#2 ++ z ++ c := by decide
  have plain : ∀ c : BitVec 4, c.setWidth 8 = 0#4 ++ c := by decide
  rw [scaleCode, zone, plain]

/-- Word 3 holds its offset, its flag and the pending offset in fields of their own (section 11.5). -/
theorem fields_zoneWord :
    field (zoneWord sm p sched) 2 24 = BitVec.ofInt 24 (presentedOffset sched (.zone p.zoneNo)) ∧
    field (zoneWord sm p sched) 3 8 = (if (pendingZone p sm.s sched.entries).isSome then 1#8 else 0#8) ∧
    field (zoneWord sm p sched) 6 24 =
      BitVec.ofInt 24 (((pendingZone p sm.s sched.entries).map (·.new)).getD 0) := by
  cases h : pendingZone p sm.s sched.entries <;>
    simp (disch := omega) [zoneWord, h, placeBit_eq_place, field_or, field_place, field_place_above,
      field_place_below]

/-- Word 5 (R142). -/
theorem fields_stampWord : field (stampWord sm) 7 48 = sm.s ∧ field (stampWord sm) 1 8 = sm.timeBase.code := by
  simp (disch := omega) only [stampWord, field_or, field_place, field_place_above, field_place_below, BitVec.or_zero,
    BitVec.zero_or, and_self]

/-- Word 1 (R139). -/
theorem countdownWord_eq : countdownWord sm p sched =
    BitVec.ofNat 64 (((announcedCivil p sm.s sched.entries).map fun e => e.boundary.toNat - sm.s.toNat).getD 0) := by
  rw [countdownWord]
  cases announcedCivil p sm.s sched.entries <;> rfl

/-- Word 2 (R139). -/
theorem boundaryWord_eq : boundaryWord sm p sched =
    (((announcedCivil p sm.s sched.entries).map (·.boundary)).getD 0#48).setWidth 64 := by
  rw [boundaryWord]
  cases announcedCivil p sm.s sched.entries <;> simp [place]

/-- Word 4 (R141). -/
theorem zoneBoundaryWord_eq : zoneBoundaryWord sm p sched =
    (((pendingZone p sm.s sched.entries).map (·.boundary)).getD 0#48).setWidth 64 := by
  rw [zoneBoundaryWord]
  cases pendingZone p sm.s sched.entries <;> simp [place]

end Words

/-- Settles O31: each word is the fields it is made of, and each field speaks of its entry. -/
theorem patchedWordsShowTheSchedule : Obligations.PatchedWordsShowTheSchedule := by
  intro sm p sched es civil zone newest ahead announced recent nextZone flags
  have hannounced : announcedCivil p sm.s sched.entries = announced := announcedCivil_eq _ _ _
  have hrecent : (recentCivil p sm.s sched.entries).isSome = recent := recentCivil_isSome _ _ _
  have hzone : pendingZone p sm.s sched.entries = nextZone := pendingZone_eq _ _ _
  obtain ⟨hoffset, hscale, hflags⟩ := fields_civilWord sm p sched
  obtain ⟨hzoneOffset, hzoneFlag, hzoneNew⟩ := fields_zoneWord sm p sched
  obtain ⟨hsecond, htimeBase⟩ := fields_stampWord sm
  rw [hannounced, hrecent] at hflags
  rw [hzone] at hzoneFlag hzoneNew
  refine ⟨hoffset.trans (congrArg _ (presentedOffset_newest _ _)), ?_, ?_, ?_, ?_, ?_, hscale.trans (scaleCode_eq p), ?_, ?_,
    hzoneOffset.trans (congrArg _ (presentedOffset_newest _ _)), hzoneFlag, hzoneNew, ?_, hsecond, ?_⟩
  · exact (hflags 0 (by omega)).trans (by cases sm.timeBase <;> simp [offsetValid])
  · exact (hflags 1 (by omega)).trans (by simp)
  · exact (hflags 2 (by omega)).trans (by simp)
  · exact (hflags 3 (by omega)).trans (by simp)
  · exact (hflags 4 (by omega)).trans (by simp)
  · exact (countdownWord_eq sm p sched).trans (by rw [hannounced])
  · exact (boundaryWord_eq sm p sched).trans (by rw [hannounced])
  · exact (zoneBoundaryWord_eq sm p sched).trans (by rw [hzone])
  · refine htimeBase.trans ?_
    cases sm.timeBase <;> rfl

end Sys2Proof.Machine
end

section
/-! PROOFS. Policy transfers: what the transfers of some ports leave, and the changes of S and commit notices that carry them
out (R146 to R148, R150). -/

namespace Sys2Proof.Machine

/-! ## Transfers -/

/-- Transfers replace ports and raise one PORT-TRANSFER each, and do nothing else (R146). -/
theorem transferPorts_eq (ps : List PortNo) (s : State) : transferPorts ps s =
    (s.setPatcher { s.patcher with ports := (transferPorts ps s).patcher.ports }).raised
      (List.replicate ps.length .portTransfer) := by
  induction ps generalizing s with
  | nil => exact (raise_nil s).symm
  | cons p ps ih =>
    have hstep : transferPorts (p :: ps) s = transferPorts ps (transferPort p s) := rfl
    have hevents : s.wires.events ++ List.replicate (ps.length + 1) .portTransfer =
        (transferPort p s).wires.events ++ List.replicate ps.length .portTransfer :=
      (List.append_assoc s.wires.events [Event.portTransfer] _).symm
    rw [hstep, List.length_cons, State.raised, State.setPatcher_wires, hevents]
    exact ih _

/-- A transferred port has the shadow policy and no pending transfer, and the other ports stay (R146). -/
theorem transferPorts_port (ps : List PortNo) (s : State) (q : PortNo) : (transferPorts ps s).patcher.ports[q] =
    if q ∈ ps then { active := s.status.config.shadows[q], transfer := none } else s.patcher.ports[q] := by
  induction ps generalizing s with
  | nil => simp [transferPorts]
  | cons p ps ih =>
    have hstep : transferPorts (p :: ps) s = transferPorts ps (transferPort p s) := rfl
    have hport : (transferPort p s).patcher.ports[q] =
        if p = q then { active := s.status.config.shadows[p], transfer := none } else s.patcher.ports[q] :=
      updPort_get p q (fun _ => { active := s.status.config.shadows[p], transfer := none }) s
    have hshadow : (transferPort p s).status = s.status := rfl
    rw [hstep, ih, hport, hshadow]
    by_cases hq : p = q
    · subst hq; simp
    · simp [hq, Ne.symm hq]

section Frame

variable (ps : List PortNo) (s : State)

@[simp] theorem transferPorts_list : (transferPorts ps s).list = s.list := by rw [transferPorts_eq]; rfl
@[simp] theorem transferPorts_sup : (transferPorts ps s).sup = s.sup := by rw [transferPorts_eq]; rfl
@[simp] theorem transferPorts_status : (transferPorts ps s).status = s.status := by rw [transferPorts_eq]; rfl
@[simp] theorem transferPorts_path : (transferPorts ps s).path = s.path := by rw [transferPorts_eq]; rfl
@[simp] theorem transferPorts_election : (transferPorts ps s).election = s.election := by rw [transferPorts_eq]; rfl
@[simp] theorem transferPorts_judgement : (transferPorts ps s).patcher.judgement = s.patcher.judgement := by
  rw [transferPorts_eq]; rfl
@[simp] theorem transferPorts_waiting : (transferPorts ps s).patcher.waiting = s.patcher.waiting := by
  rw [transferPorts_eq]; rfl
@[simp] theorem transferPorts_portS : (transferPorts ps s).wires.portS = s.wires.portS := by rw [transferPorts_eq]; rfl
@[simp] theorem transferPorts_commits : (transferPorts ps s).wires.commits = s.wires.commits := by
  rw [transferPorts_eq]; rfl
theorem transferPorts_events : (transferPorts ps s).wires.events =
    s.wires.events ++ List.replicate ps.length .portTransfer := by rw [transferPorts_eq]; rfl

end Frame

theorem mem_portsPending {x : TransferTrigger} {s : State} {p : PortNo} :
    p ∈ portsPending x s ↔ s.patcher.ports[p].transfer = some x := by simp [portsPending]

/-- A transfer with one trigger leaves the ports pending another. -/
theorem portsPending_transferPorts {x y : TransferTrigger} (h : x ≠ y) (s : State) :
    portsPending y (transferPorts (portsPending x s) s) = portsPending y s := by
  refine List.filter_congr fun p _ => ?_
  rw [transferPorts_port]
  split
  · rename_i hp
    rw [mem_portsPending.mp hp]
    simp [h]
  · rfl

/-! ## The transfers that are due -/

/-- From `s` to `t` every port pending `x` is transferred, with one PORT-TRANSFER each, and the other ports and blocks stay
(R146). -/
structure Due (s t : State) (x : TransferTrigger) : Prop where
  transferred : ∀ p : PortNo, s.patcher.ports[p].transfer = some x →
    t.patcher.ports[p] = { active := s.status.config.shadows[p], transfer := none }
  kept : ∀ p : PortNo, s.patcher.ports[p].transfer ≠ some x → t.patcher.ports[p] = s.patcher.ports[p]
  events : t.wires.events = s.wires.events ++
    List.replicate ((List.finRange 16).filter fun p => s.patcher.ports[p].transfer == some x).length .portTransfer
  frame : t.sup = s.sup ∧ t.status = s.status ∧ t.intake = s.intake ∧ t.election = s.election ∧ t.path = s.path ∧
    t.list.sched = s.list.sched

/-- Transferring the ports pending a trigger transfers those that are due. -/
theorem due_transferPorts (x : TransferTrigger) (s : State) : Due s (transferPorts (portsPending x s) s) x where
  transferred p hp := by rw [transferPorts_port, if_pos (mem_portsPending.mpr hp)]
  kept p hp := by rw [transferPorts_port, if_neg (mt mem_portsPending.mp hp)]
  events := transferPorts_events _ _
  frame := ⟨transferPorts_sup _ _, transferPorts_status _ _, transferPorts_intake _ _, transferPorts_election _ _,
    transferPorts_path _ _, congrArg ChangeList.sched (transferPorts_list _ _)⟩

/-! ## A change of S taken (R147, R150) -/

section ChangeOfS

variable (c : SChange) {s : State}

/-- With no port pending QUIET the transfers are all. -/
theorem takeChangeOfS_noQuiet (h : portsPending .quiet s = []) :
    takeChangeOfS c s = transferPorts (portsPending .nextMark s) s := by
  unfold takeChangeOfS
  dsimp only
  rw [portsPending_transferPorts (by decide), h]
  rfl

/-- With a port pending QUIET a judgement begins, with one snapshot claim. -/
theorem takeChangeOfS_quiet (h : portsPending .quiet s ≠ []) : takeChangeOfS c s =
    ask (.snapshot .quiet) ((transferPorts (portsPending .nextMark s) s).setPatcher
      { (transferPorts (portsPending .nextMark s) s).patcher with judgement := some c.after }) := by
  unfold takeChangeOfS
  dsimp only
  rw [portsPending_transferPorts (by decide), if_neg (by rw [List.isEmpty_iff]; exact h)]

/-- A change of S taken transfers the ports pending NEXT-MARK. -/
theorem due_takeChangeOfS : Due s (takeChangeOfS c s) .nextMark := by
  have hdue := due_transferPorts .nextMark s
  by_cases h : portsPending .quiet s = []
  · rw [takeChangeOfS_noQuiet c h]
    exact hdue
  · rw [takeChangeOfS_quiet c h]
    exact ⟨hdue.transferred, hdue.kept, hdue.events, hdue.frame⟩

theorem takeChangeOfS_portS : (takeChangeOfS c s).wires.portS = s.wires.portS := by
  by_cases h : portsPending .quiet s = []
  · rw [takeChangeOfS_noQuiet c h, transferPorts_portS]
  · rw [takeChangeOfS_quiet c h]
    exact transferPorts_portS _ _

theorem exec_portChangeOfS_waits {rest : List SChange} (hw : s.wires.portS = c :: rest)
    (hj : s.patcher.judgement ≠ none) : exec .portChangeOfS s =
      .next ((s.setPatcher { s.patcher with waiting := s.patcher.waiting ++ [c] }).setWires
        { s.wires with portS := rest }) := by
  have hsome : s.patcher.judgement.isSome = true := Option.isSome_iff_ne_none.mpr hj
  rw [exec, execPortChangeOfS, hw]
  simp only [arriveChangeOfS, State.setWires_patcher, hsome, if_true]
  rfl

theorem exec_portChangeOfS_taken {rest : List SChange} (hw : s.wires.portS = c :: rest)
    (hj : s.patcher.judgement = none) : exec .portChangeOfS s =
      .next (takeChangeOfS c (s.setWires { s.wires with portS := rest })) := by
  rw [exec, execPortChangeOfS, hw]
  simp [arriveChangeOfS, hj]

end ChangeOfS

/-- Settles O53: a change of S joins the queue or is taken, and a commit notice transfers the ports pending NEXT-COMMIT. -/
theorem changesAndCommitsCarryOutTransfers : Obligations.ChangesAndCommitsCarryOutTransfers := by
  intro s transferred due
  have hdue {t : State} {x : TransferTrigger} (w : Wires) (hw : w.events = s.wires.events)
      (h : Due (s.setWires w) t x) : due t x :=
    ⟨h.transferred, h.kept, h.events.trans (by rw [State.setWires_wires, hw]; rfl), h.frame⟩
  refine ⟨fun c rest hw hj => exec_portChangeOfS_waits c hw hj, fun c rest hw hj => ?_, fun x rest hw => ?_⟩
  · let u := s.setWires { s.wires with portS := rest }
    refine ⟨takeChangeOfS c u, exec_portChangeOfS_taken c hw hj, hdue u.wires rfl (due_takeChangeOfS c),
      takeChangeOfS_portS c, fun ⟨p, hp⟩ => ?_, fun hq => ?_⟩
    · have hpending : portsPending .quiet u ≠ [] := List.ne_nil_of_mem (mem_portsPending.mpr hp)
      rw [takeChangeOfS_quiet c hpending]
      exact ⟨rfl, by rw [ask, State.setPatcher_list, transferPorts_list]; rfl⟩
    · have hpending : portsPending .quiet u = [] :=
        List.eq_nil_iff_forall_not_mem.mpr fun p hp => hq p (mem_portsPending.mp hp)
      rw [takeChangeOfS_noQuiet c hpending]
      exact ⟨(transferPorts_judgement _ _).trans hj, transferPorts_list _ _⟩
  · let u := s.setWires { s.wires with commits := rest }
    have hexec : exec .commitNotice s = .next (transferPorts (portsPending .nextCommit u) u) := by
      rw [exec, execCommitNotice, hw]
      rfl
    exact ⟨_, hexec, hdue u.wires rfl (due_transferPorts .nextCommit u), transferPorts_commits _ _, transferPorts_list _ _⟩

end Sys2Proof.Machine
end

section
/-! PROOFS. The QUIET judgement: the waiting changes of S, the ports found quiet, and the answer of the snapshot (R147, R149,
R150). -/

namespace Sys2Proof.Machine

/-! ## The changes of S that wait (R150) -/

/-- The state with other changes of S waiting. -/
def State.withWaiting (s : State) (cs : List SChange) : State := s.setPatcher { s.patcher with waiting := cs }

theorem transferPorts_withWaiting (ps : List PortNo) (s : State) (cs : List SChange) :
    transferPorts ps (s.withWaiting cs) = (transferPorts ps s).withWaiting cs := by
  induction ps generalizing s with
  | nil => rfl
  | cons p ps ih => exact ih (transferPort p s)

/-- Taking a change of S does not look at those that wait. -/
theorem takeChangeOfS_withWaiting (c : SChange) (s : State) (cs : List SChange) :
    takeChangeOfS c (s.withWaiting cs) = (takeChangeOfS c s).withWaiting cs := by
  have hpending (x : TransferTrigger) : portsPending x (s.withWaiting cs) = portsPending x s := rfl
  by_cases h : portsPending .quiet s = []
  · have hw : portsPending .quiet (s.withWaiting cs) = [] := h
    rw [takeChangeOfS_noQuiet c h, takeChangeOfS_noQuiet c hw, hpending, transferPorts_withWaiting]
  · have hw : portsPending .quiet (s.withWaiting cs) ≠ [] := h
    rw [takeChangeOfS_quiet c h, takeChangeOfS_quiet c hw, hpending, transferPorts_withWaiting]
    rfl

/-- Draining takes the changes given, whichever wait. -/
theorem drainChanges_withWaiting (cs ws : List SChange) (s : State) :
    drainChanges cs (s.withWaiting ws) = drainChanges cs s := by
  cases cs <;> rfl

/-- The first `j` changes of a list taken one after another. -/
def changesTaken (cs : List SChange) (j : Nat) (s : State) : State :=
  (cs.take j).foldl (fun s c => takeChangeOfS c s) s

theorem changesTaken_succ {cs : List SChange} {j : Nat} {c : SChange} (h : cs[j]? = some c) (s : State) :
    changesTaken cs (j + 1) s = takeChangeOfS c (changesTaken cs j s) := by
  rw [changesTaken, List.take_add_one, h, Option.toList_some, List.foldl_append]
  rfl

/-- The next change of the list, taken on arrival (R147). -/
theorem exec_changesTaken {cs : List SChange} {j : Nat} {c : SChange} (h : cs[j]? = some c) (s : State)
    (hj : (changesTaken cs j s).patcher.judgement = none) :
    exec .portChangeOfS ((changesTaken cs j s).setWires { (changesTaken cs j s).wires with
      portS := c :: (changesTaken cs j s).wires.portS }) = .next (changesTaken cs (j + 1) s) := by
  rw [changesTaken_succ h]
  exact exec_portChangeOfS_taken c (s := (changesTaken cs j s).setWires _) rfl hj

/-- Waiting changes are taken until one starts a judgement or none is left, and those behind it stay waiting (R150). -/
theorem drainChanges_eq (cs : List SChange) (s : State) (hj : s.patcher.judgement = none) :
    ∃ k, k ≤ cs.length ∧ (∀ j, j < k → (changesTaken cs j s).patcher.judgement = none) ∧
      (k = cs.length ∨ (changesTaken cs k s).patcher.judgement ≠ none) ∧
      drainChanges cs s = (changesTaken cs k s).withWaiting (cs.drop k) := by
  induction cs generalizing s with
  | nil => exact ⟨0, le_rfl, fun j h => absurd h (Nat.not_lt_zero j), .inl rfl, rfl⟩
  | cons c cs ih =>
    let u := takeChangeOfS c s
    have hdrain : drainChanges (c :: cs) s =
        if u.patcher.judgement.isSome then u.withWaiting cs else drainChanges cs u := by
      have htake : takeChangeOfS c (s.setPatcher { s.patcher with waiting := cs }) = u.withWaiting cs :=
        takeChangeOfS_withWaiting c s cs
      simp only [drainChanges, htake, drainChanges_withWaiting]
      rfl
    rw [hdrain]
    by_cases hu : u.patcher.judgement = none
    · obtain ⟨k, hk, hnone, hend, heq⟩ := ih u hu
      refine ⟨k + 1, Nat.succ_le_succ hk, fun j hjk => ?_, hend.imp_left (congrArg (· + 1)), ?_⟩
      · cases j with
        | zero => exact hj
        | succ j => exact hnone j (Nat.lt_of_succ_lt_succ hjk)
      · rw [hu, if_neg (by decide), heq]
        rfl
    · refine ⟨1, Nat.succ_le_succ (Nat.zero_le _), fun j hj1 => ?_, .inr hu, ?_⟩
      · obtain rfl := Nat.lt_one_iff.mp hj1
        exact hj
      · rw [if_pos (Option.isSome_iff_ne_none.mpr hu)]
        rfl

/-! ## The judgement (R149, R150) -/

/-- No boundary of a civil entry or of an entry of the policies' zones lies in either policy's interval (R149). -/
theorem quietAt_iff (active shadow : Policy) (x : Second) (es : List Entry) : quietAt active shadow x es = true ↔
    ∀ e ∈ es, e.scale = .civil ∨ e.scale = .zone active.zone.toFin ∨ e.scale = .zone shadow.zone.toFin →
      ¬ ((x.toNat : Int) - active.hold.toNat ≤ e.boundary.toNat ∧
          e.boundary.toNat ≤ x.toNat + active.lead.toNat) ∧
        ¬ ((x.toNat : Int) - shadow.hold.toNat ≤ e.boundary.toNat ∧
          e.boundary.toNat ≤ x.toNat + shadow.lead.toNat) := by
  simp only [quietAt, List.all_eq_true, Bool.or_eq_true, Bool.not_eq_true', Bool.and_eq_true, Bool.or_eq_false_iff,
    inInterval, Policy.zoneNo, decide_eq_false_iff_not, beq_eq_false_iff_ne, ne_eq, imp_iff_not_or, not_or, and_assoc]

theorem mem_quietPorts {x : Second} {sched : Schedule} {s : State} {p : PortNo} : p ∈ quietPorts x sched s ↔
    s.patcher.ports[p].transfer = some .quiet ∧
      quietAt s.patcher.ports[p].active s.status.config.shadows[p] x sched.entries = true := by
  rw [quietPorts, List.mem_filter, mem_portsPending]

/-- The state once the ports found quiet are transferred, and the judgement is over. -/
def State.quietJudged (s : State) (x : Second) (sched : Schedule) : State :=
  transferPorts (quietPorts x sched s) (s.setPatcher { s.patcher with judgement := none })

theorem quietJudged_withWaiting (x : Second) (sched : Schedule) (s : State) (cs : List SChange) :
    (s.withWaiting cs).quietJudged x sched = (s.quietJudged x sched).withWaiting cs :=
  transferPorts_withWaiting _ (s.setPatcher { s.patcher with judgement := none }) cs

theorem quietSnapshot_eq {x : Second} {sched : Schedule} {s : State} (h : s.patcher.judgement = some x) :
    quietSnapshot sched s = drainChanges s.patcher.waiting (s.quietJudged x sched) := by
  simp only [quietSnapshot, h, transferPorts_waiting]
  rfl

/-- The snapshot claim of a judgement, alone at the list, is answered from the whole schedule (R15, R150). -/
theorem exec_quietSnapshot {x : Second} {s : State} (hc : s.list.claims = []) (hr : s.list.requests = [])
    (hq : s.list.queries = [.snapshot .quiet]) (hcard : s.card = []) (hj : s.patcher.judgement = some x) :
    exec .snapshotClaim s = .next (drainChanges s.patcher.waiting (s.queriesTaken.quietJudged x s.list.sched)) := by
  have hask : ask (.snapshot .quiet) s.queriesTaken = s :=
    congrArg (fun q => s.setList { s.list with queries := q }) hq.symm
  have hidle : (quietSnapshot s.list.sched s.queriesTaken).card = [] := (quietSnapshot_inner _ _).card.trans hcard
  have hexec := exec_snapshotClaim (s := s.queriesTaken) ⟨hc, hr, rfl⟩ .quiet
  rw [hask] at hexec
  exact hexec.trans (congrArg Host.Outcome.next ((serve_nil hidle).trans (quietSnapshot_eq (x := x) hj)))

/-- Settles O54: the ports found quiet are transferred, and then the waiting changes are drained. -/
theorem quietPortsAreTransferred : Obligations.QuietPortsAreTransferred := by
  intro judged s hc hr hq hcard hj near quiet waiting
  let u := s.queriesTaken.quietJudged judged s.list.sched
  have hmem (p : PortNo) : p ∈ quietPorts judged s.list.sched s.queriesTaken ↔
      s.patcher.ports[p].transfer = some .quiet ∧ quiet p :=
    mem_quietPorts.trans (and_congr_right fun _ => quietAt_iff _ _ _ _)
  have hport (p : PortNo) : u.patcher.ports[p] = if p ∈ quietPorts judged s.list.sched s.queriesTaken then
      { active := s.status.config.shadows[p], transfer := none } else s.patcher.ports[p] := transferPorts_port _ _ p
  have hu : (s.withWaiting []).queriesTaken.quietJudged judged (s.withWaiting []).list.sched = u.withWaiting [] :=
    quietJudged_withWaiting judged s.list.sched s.queriesTaken []
  have hfirst : exec .snapshotClaim (s.withWaiting []) = .next (u.withWaiting []) := by
    rw [exec_quietSnapshot (s := s.withWaiting []) hc hr hq hcard hj, hu]
    rfl
  obtain ⟨k, hk, hnone, hend, hdrain⟩ := drainChanges_eq waiting (u.withWaiting []) (transferPorts_judgement _ _)
  refine ⟨u.withWaiting [], hfirst, transferPorts_judgement _ _, rfl, transferPorts_list _ _, fun p hp hqp => ?_,
    fun p hp => ?_, ?_, transferPorts_sup _ _, transferPorts_status _ _, transferPorts_path _ _, k,
    fun j => changesTaken waiting j (u.withWaiting []), hk, rfl, fun j hjk => ⟨hnone j hjk, ?_⟩, hend, ?_⟩
  · exact (hport p).trans (if_pos ((hmem p).mpr ⟨hp, hqp⟩))
  · exact (hport p).trans (if_neg fun h => hp.elim (· ((hmem p).mp h).1) (· ((hmem p).mp h).2))
  · have hevents : u.wires.events = s.wires.events ++
        List.replicate (quietPorts judged s.list.sched s.queriesTaken).length .portTransfer := transferPorts_events _ _
    show Event.portTransfer ∈ u.wires.events ↔ _
    rw [hevents, List.mem_append, List.mem_replicate, ← Nat.pos_iff_ne_zero,
      List.length_pos_iff_exists_mem]
    simp only [hmem, and_true]
  · have hlen : j < waiting.length := Nat.lt_of_lt_of_le hjk hk
    exact ⟨waiting[j], List.getElem?_eq_getElem hlen,
      exec_changesTaken (List.getElem?_eq_getElem hlen) _ (hnone j hjk)⟩
  · rw [exec_quietSnapshot hc hr hq hcard hj, ← drainChanges_withWaiting _ []]
    exact congrArg Host.Outcome.next hdrain

end Sys2Proof.Machine
end

section
/-! PROOFS. The release of RESET: every block at its reset values (R170, R183). -/

namespace Sys2Proof.Machine

section ReleasedFields

variable (page : BitVec 8) (control : Master) (s : State)

@[simp] theorem releasedPart_sourceConfig (n : SourceNo) :
    (releasedPart page control s).status.config.sources[n] = .default := Vector.getElem_replicate _

@[simp] theorem releasedPart_shadow (p : PortNo) :
    (releasedPart page control s).status.config.shadows[p] = .default := Vector.getElem_replicate _

@[simp] theorem releasedPart_port (p : PortNo) :
    (releasedPart page control s).patcher.ports[p] = { active := .default, transfer := none } :=
  Vector.getElem_replicate _

@[simp] theorem releasedPart_source (n : SourceNo) : (releasedPart page control s).intake.sources[n] = .reset :=
  Vector.getElem_replicate _

@[simp] theorem releasedPart_latch (m : Fin 16) : (releasedPart page control s).path.latches[m] = none :=
  Vector.getElem_replicate _

theorem interruptAsserted_releasedPart : interruptAsserted (releasedPart page control s) = false := by
  have hevents : (releasedPart page control s).status.eventWord = 0#16 := rfl
  simp [interruptAsserted, hevents]

end ReleasedFields

/-- With nothing waiting on the card the release takes no access. -/
theorem exec_resetRelease {s : State} (hr : s.resetAsserted = true) (hc : s.card = []) (page : BitVec 8)
    (control : Master) : exec (.resetRelease page control) s = .next (releasedPart page control s) := by
  rw [exec, execResetRelease, if_pos hr, serve_nil (s := releasedPart page control s) hc]

/-- Settles O3: a release outside RESET does nothing, and else the part is the released one, field by field. -/
theorem resetReleaseSetsTheResetValues : Obligations.ResetReleaseSetsTheResetValues := by
  intro page control s
  refine ⟨fun hr => by simp [exec, execResetRelease, hr], fun hr hc => ⟨_, exec_resetRelease hr hc page control, ?_⟩⟩
  have shadow := releasedPart_shadow page control s
  exact ⟨rfl, rfl, rfl, rfl, rfl, rfl, rfl, rfl, releasedPart_sourceConfig page control s,
    fun p => ⟨shadow p, by rw [shadow, releasedPart_port]⟩, rfl, rfl, rfl, rfl, rfl, rfl, rfl, rfl, rfl, rfl, rfl,
    releasedPart_source page control s, rfl, rfl, rfl, rfl, rfl, rfl, rfl, releasedPart_latch page control s, rfl, rfl,
    rfl, interruptAsserted_releasedPart page control s, hc, rfl, rfl⟩

end Sys2Proof.Machine
end

section
/-! PROOFS. Forwarded accesses: an access that is not checked goes to memory as it came, and memory's answer is relayed; while
an answer is owed from before a reset it waits (R152, R154, R155, R157, R170). -/

namespace Sys2Proof.Machine

/-! ## What is forwarded, and for which job -/

/-- The job a forwarded access is held for: inside the region a write may be handed off (R157, R166). -/
def forwardJob (s : State) (a : Access) : Job :=
  if inRegion a (regionBase s) then .store (forwardedHandOff s a) else .relay

/-- A well-formed access goes to memory as it came (R154). -/
theorem carried_wf {a : Access} (h : a.wf = true) : carried a = a := by
  cases hd : a.dir with
  | read =>
    have hnil : a.data = [] := by simpa [Access.wf, hd] using h
    simp only [carried, hd, ← hnil]
    rw [← hd]
  | write => exact carried_write hd (by simpa [Access.wf, hd] using h)

/-- An access that no check looks at is forwarded for its job (R154, R157). -/
theorem takeAccess_unchecked {a : Access} {s : State} (hw : a.wf = true) (hi : isChecked s a = false) :
    takeAccess a s = holdAndIssue a (forwardJob s a) [a] s := by
  rw [takeAccess, hi, if_neg Bool.false_ne_true, forward, carried_wf hw]
  rfl

/-- The access is held, and memory has it to answer. -/
theorem exec_unchecked {c : Instr} {a : Access} {s : State} (h : Ready s) (hc : accessOf s c = some a)
    (hw : a.wf = true) (hi : isChecked s a = false) : exec c s = .next (s.waitingFor a (forwardJob s a) a) := by
  rw [exec_access hc, offer_ready _ h, takeAccess_unchecked hw hi, holdAndIssue_one h.quiet h.issued]

theorem not_inRegion {a : Access} {base : Nat}
    (h : a.addr.toNat + a.shape.bytes ≤ base ∨ base + 0x10000 ≤ a.addr.toNat) : inRegion a base = false := by
  rw [inRegion, touches, accessLen, decide_eq_false_iff_not]
  omega

theorem isChecked_outside {a : Access} {s : State} (h : inRegion a (regionBase s) = false) : isChecked s a = false := by
  rw [isChecked, h, Bool.false_and]

/-- While TRANSPARENT only accesses of the status page are checked (R157). -/
theorem isChecked_transparent {a : Access} {s : State} (hp : s.status.part = .transparent)
    (h : touches a (regionBase s) 0x1000 0x1FFF = false) : isChecked s a = false := by
  simp [isChecked, touchesStatus, hp, h]

theorem forwardJob_outside {a : Access} {s : State} (h : inRegion a (regionBase s) = false) :
    forwardJob s a = .relay := by
  rw [forwardJob, h, if_neg Bool.false_ne_true]

/-- A write that is none of the control master's to the configuration block is handed to no block (R157, R166). -/
theorem forwardJob_noConfig {a : Access} {s : State} (h : ¬ (a.dir = .write ∧ a.master = s.straps.control ∧
    touches a (regionBase s) 0x0000 0x03FF = true)) : forwardJob s a = .relay ∨ forwardJob s a = .store .none := by
  rw [forwardJob, forwardedHandOff, if_neg h]
  exact (ite_eq_or_eq _ _ _).symm

theorem forwardJob_not_announce (s : State) (a : Access) (sm : PatchSample) (bs : List Byte) (w : Bool)
    (sn : Option Schedule) : forwardJob s a ≠ .announce sm bs w sn := by
  unfold forwardJob
  split <;> exact nofun

/-! ## Memory's answer relayed -/

/-- Memory's OK is relayed with the data of a read, where no block takes a write (R155). -/
theorem exec_memoryOk_relayed {s : State} (h : Ready s) (a : Access) {j : Job} (hj : j = .relay ∨ j = .store .none)
    (d : List Byte) : exec (.memoryAnswer true d) (s.waitingFor a j a) =
      .next (s.answered a.master true (if a.dir = .read then fit a.shape.bytes d else [])) := by
  cases hd : a.dir with
  | write => exact exec_memoryOk_write a a j d h hd hj
  | read =>
    have hok : memoryOk { access := a, job := j } (fit a.shape.bytes d) (hold a j s) =
        s.answered a.master true (fit a.shape.bytes d) := by
      rw [← answer_read hd h.free (fit_length _ _)]
      rcases hj with rfl | rfl <;> rfl
    rw [exec_memoryOk _ _ _ _ h, hok, if_pos rfl,
      serve_nil (s := s.answered a.master true (fit a.shape.bytes d)) h.alone]

/-! ## An answer owed from before a reset (R170) -/

/-- An access offered to a free unit with nothing waiting on the card is taken at once, whatever memory owes. -/
theorem offer_free {s : State} (a : Access) (hr : s.resetAsserted = false) (hh : s.path.held = none)
    (hc : s.card = []) : offer a s = takeAccess a s := by
  have hf : pathFree (s.setCard [a]) = true := by simp [pathFree, hh, hr]
  have hs : (s.setCard [a]).setCard [] = s := by simp [State.setCard, ← hc]
  simp only [offer, serve, hc, List.nil_append, State.setCard_card, List.length_singleton, serveUpTo, hf, if_true, hs]

/-- The state while access `a` is held for job `j` and waits for the owed answer, to be issued then. -/
def State.queueing (s : State) (a : Access) (j : Job) : State :=
  s.setPath { s.path with held := some { access := a, job := j }, toIssue := [a] }

/-- The state once the answer owed from before a reset has been discarded. -/
def State.settled (s : State) : State := s.setPath { s.path with outstanding := none, stale := false }

/-- While memory owes an answer nothing is issued. -/
theorem holdAndIssue_owed {a owed : Access} {j : Job} {s : State} (ho : s.path.outstanding = some owed) :
    holdAndIssue a j [a] s = s.queueing a j := by
  simp [holdAndIssue, issue, issueNext, hold, State.queueing, ho]

/-- The owed answer, OK or ERROR, is discarded, and the waiting access is issued. -/
theorem exec_memoryAnswer_owed {a owed : Access} {j : Job} {s : State} (ho : s.path.outstanding = some owed)
    (hs : s.path.stale = true) (ht : s.path.toIssue = []) (ok : Bool) (d : List Byte) :
    exec (.memoryAnswer ok d) (s.queueing a j) = .next (s.settled.waitingFor a j a) := by
  have hm : memoryAnswer ok d (s.queueing a j) = s.settled.waitingFor a j a := by
    simp [memoryAnswer, State.queueing, State.settled, State.waitingFor, issueNext, ho, hs, ht]
  have hbusy : pathFree (s.settled.waitingFor a j a) = false := by simp [pathFree, State.waitingFor]
  rw [exec, execMemoryAnswer, hm, serve_busy hbusy]

/-- Settles O12: an access that is not checked is forwarded and memory's answer relayed, at once or once the answer owed is
discarded. -/
theorem forwardedAccessIsPassedOnUnchanged : Obligations.ForwardedAccessIsPassedOnUnchanged := by
  refine ⟨fun a s h hw hcase => ?_, fun a owed s hr hh ht hc ho hs hw hout => ?_⟩
  · obtain ⟨hi, hj⟩ : isChecked s a = false ∧ (forwardJob s a = .relay ∨ forwardJob s a = .store .none) := by
      rcases hcase with hout | ⟨hp, hpage, hconfig⟩
      · have hregion := not_inRegion hout
        exact ⟨isChecked_outside hregion, .inl (forwardJob_outside hregion)⟩
      · exact ⟨isChecked_transparent hp hpage, forwardJob_noConfig hconfig⟩
    exact ⟨_, exec_unchecked h rfl hw hi, rfl, exec_memoryOk_relayed h a hj,
      fun d => exec_memoryError _ _ _ d h (forwardJob_not_announce s a)⟩
  · have hregion : inRegion a (regionBase s) = false := not_inRegion hout
    have hready : Ready s.settled := ⟨hr, hh, rfl, rfl, ht, hc⟩
    have htaken : exec (.forwardedAccess a) s = .next (s.queueing a .relay) := by
      rw [exec_access rfl, offer_free a hr hh hc, takeAccess_unchecked hw (isChecked_outside hregion),
        forwardJob_outside hregion, holdAndIssue_owed ho]
    exact ⟨_, _, htaken, ho, rfl, exec_memoryAnswer_owed ho hs ht, rfl, rfl, exec_memoryOk_relayed hready a (.inl rfl)⟩

end Sys2Proof.Machine
end

section
/-! PROOFS. Accesses of the region that the rows name by their offset: reads that are refused, command writes that are refused,
and writes to the announcement blocks and the configuration block (R154 to R166, R174, R175, R199). -/

namespace Sys2Proof.Machine

/-! ## Accesses of the region by their offset -/

/-- An access that begins in the region lies in it (R153). -/
theorem inRegion_of_addr {a : Access} {base o : Nat} (ha : a.addr.toNat = base + o) (ho : o ≤ 0xFFFF) :
    inRegion a base = true := by
  have hpos := shape_bytes_pos a.shape
  rw [inRegion, touches, accessLen, decide_eq_true_iff]
  omega

theorem inRegion_regionAccess (s : State) (m : Master) (off : Offset) (dir : Dir) (sh : Shape) (d : List Byte) :
    inRegion (regionAccess s m off dir sh d) (regionBase s) = true :=
  inRegion_of_addr (regionAccess_addr s m off dir sh d) (Nat.le_of_lt_succ off.isLt)

/-- A plain shape that stays in a window other than the time views and the status page is accepted there (R161). -/
theorem goodShape_of_plainShape {a : Access} {off : Offset} {w : Window} (hw : windowOf off.toNat = w) (hv : w ≠ .views)
    (hu : w ≠ .unassigned) (hs : w ≠ .status) (hsh : PlainShape a.shape off) (hlo : w.range.1 ≤ off.toNat)
    (hhi : off.toNat + a.shape.bytes ≤ w.range.2 + 1) : GoodShape a off.toNat := by
  have hpage : ¬ (0x1000 ≤ off.toNat ∧ off.toNat ≤ 0x1FFF) := fun h => by
    rcases windowOf_cases off.toNat with ⟨-, r⟩ | ⟨-, r⟩ | ⟨h', -⟩ | ⟨-, r⟩ | ⟨-, r⟩ | ⟨-, r⟩
    case inr.inr.inl => exact hs (hw.symm.trans h')
    all_goals omega
  rw [goodShape_quiet hw hv hu hpage]
  refine ⟨?_, hlo, by omega⟩
  rcases hsh with ⟨h, h8⟩ | ⟨h, h4⟩ | ⟨k, h, h8⟩
  · exact .inl ⟨.inl h, h8⟩
  · exact .inr ⟨h, h4⟩
  · exact .inl ⟨.inr ⟨k, h⟩, h8⟩

/-! ## Reads that are refused -/

/-- A read of 1 or 2 bytes has no accepted shape, in any window (R160, R161). -/
theorem not_goodShape_small {a : Access} {o : Nat} (h : a.shape = .beat .one ∨ a.shape = .beat .two) :
    ¬ GoodShape a o := by
  by_cases hv : 0x8000 ≤ o ∧ o ≤ 0xEFFF
  · rw [goodShape_views hv]
    rcases h with h | h <;> simp [h]
  · rw [goodShape_plain hv]
    rcases h with h | h <;> simp [h]

/-- For a read the address step refuses the unassigned offsets and the views of the zones that are absent (R159). -/
theorem badAddress_read_iff {s : State} {a : Access} {o : Nat} (hd : a.dir = .read) : BadAddress s a o ↔
    ((0x0400 ≤ o ∧ o ≤ 0x07FF) ∨ (0x0900 ≤ o ∧ o ≤ 0x0FFF) ∨ (0x2400 ≤ o ∧ o ≤ 0x7FFF) ∨ 0xF000 ≤ o) ∨
      (0xA000 ≤ o ∧ o ≤ 0xDFFF ∧ s.status.config.glob.zoneCount.toNat ≤ (o - 0xA000) / 0x1000) := by
  have hw : ¬ a.dir = .write := by rw [hd]; exact nofun
  simp only [BadAddress, hw, false_and, or_false]
  omega

/-- Settles O14: the address step refuses first, then the shape step. -/
theorem regionReadsAreRefusedByAddressThenShape : Obligations.RegionReadsAreRefusedByAddressThenShape := by
  intro m off sh s h hp o unassigned noZone a
  obtain ⟨address, shape, -⟩ := checkAccess_refusals (s := s) (a := a) (regionAccess_addr s m off .read sh [])
  have hbad : BadAddress s a o ↔ unassigned ∨ noZone := badAddress_read_iff rfl
  have refuses {kind : FaultKind} (hk : checkAccess s a = some kind) :
      exec (.refusedRegionRead m off sh) s = .next (s.refusedWith kind a) :=
    exec_refused h rfl (isChecked_of_active hp (inRegion_regionAccess ..)) hk
  exact ⟨fun hb => refuses (address (hbad.mpr hb)),
    fun hb hsh => refuses (shape (mt hbad.mp hb) (not_goodShape_small hsh))⟩

/-! ## Command writes that are refused -/

section CommandRefusal

variable {s : State} {m : Master} {sh : Shape} {code : Byte} {arg : BitVec 56}

/-- A write of the command word is checked in both part states (R157). -/
theorem isChecked_commandAccess : isChecked s (commandAccess s m sh code arg) = true := by
  have haddr := commandAccess_addr s m (sh := sh) code arg
  have hpos := shape_bytes_pos sh
  have hlen : accessLen (commandAccess s m sh code arg) = sh.bytes := rfl
  simp only [isChecked, touchesStatus, inRegion, touches, haddr, hlen, Bool.and_eq_true, Bool.or_eq_true,
    decide_eq_true_eq]
  exact ⟨by omega, .inr (by omega)⟩

theorem not_badAddress_commandAccess : ¬ BadAddress s (commandAccess s m sh code arg) 0x1FF8 := by
  unfold BadAddress
  omega

/-- The command word takes a write of 8 bytes alone (R161). -/
theorem goodShape_commandAccess : GoodShape (commandAccess s m sh code arg) 0x1FF8 ↔ isEight sh = true := by
  have hshape : (commandAccess s m sh code arg).shape = sh := rfl
  rw [goodShape_status (by omega), hshape, isEight_iff]
  refine ⟨fun h => h.2.resolve_left nofun, fun h => ?_⟩
  have hbytes : sh.bytes = 8 := isEight_bytes ((isEight_iff sh).mpr h)
  exact ⟨⟨.inl ⟨h.imp_right fun h0 => ⟨0, h0⟩, by omega⟩, by omega, by omega⟩, .inr h⟩

/-- A command write is refused by its size, then by its master (R161, R162). -/
theorem checkAccess_commandAccess_refused :
    (isEight sh = false → checkAccess s (commandAccess s m sh code arg) = some .badSize) ∧
    (isEight sh = true → m ≠ s.straps.control → checkAccess s (commandAccess s m sh code arg) = some .notOwner) := by
  obtain ⟨-, size, write⟩ := checkAccess_refusals (commandAccess_addr s m (sh := sh) code arg)
  have hb := not_badAddress_commandAccess (s := s) (m := m) (sh := sh) (code := code) (arg := arg)
  refine ⟨fun h8 => size hb ?_, fun h8 hm => (write hb (goodShape_commandAccess.mpr h8) rfl).1 ?_⟩
  · rw [goodShape_commandAccess, h8]
    exact Bool.false_ne_true
  · exact .inl ⟨.inr (.inl (by omega)), hm⟩

/-- Codes 0 and 7 and above name no command (R175, R199). -/
theorem commandOf_unknown (h : code = 0#8 ∨ 7 ≤ code.toNat) (arg : BitVec 56) :
    commandOf (commandWord code arg) = none := by
  have hne {k : Byte} (hk : k ≠ 0#8) (hk7 : k.toNat < 7) : code ≠ k := by
    rintro rfl
    exact h.elim hk (Nat.not_le_of_lt hk7)
  simp only [commandOf, field_commandWord]
  rw [if_neg (hne (by decide) (by decide)), if_neg (hne (by decide) (by decide)), if_neg (hne (by decide) (by decide)),
    if_neg (hne (by decide) (by decide)), if_neg (hne (by decide) (by decide)), if_neg (hne (by decide) (by decide))]

end CommandRefusal

/-- Each of the seven command rows offers a write of the command word. -/
theorem accessOf_commandRow {s : State} {m : Master} {sh : Shape} {arg : BitVec 56} {unused : BitVec 40}
    {port trigger code : Byte} {c : Instr} (h : c ∈ [.activate m sh arg, .deactivate m sh arg, .flush m sh arg,
      .resyncNow m sh arg, .clearFault m sh arg, .portTransfer m sh unused port trigger,
      .unknownCommandCode m sh code arg]) : ∃ code' arg', accessOf s c = some (commandAccess s m sh code' arg') := by
  simp only [List.mem_cons, List.not_mem_nil, or_false] at h
  rcases h with rfl | rfl | rfl | rfl | rfl | rfl | rfl <;> exact ⟨_, _, rfl⟩

/-- Settles O15: every row by the checks of its access, and an unknown code by its command word. -/
theorem unknownCommandCodeIsRefused : Obligations.UnknownCommandCodeIsRefused := by
  intro m sh arg unused port trigger code s h
  refine ⟨fun c a hc hrow => ?_, fun h8 hm hcode => exec_command_refused h h8 hm rfl ?_⟩
  · obtain ⟨code', arg', hc'⟩ := accessOf_commandRow (s := s) hrow
    obtain rfl : a = commandAccess s m sh code' arg' := Option.some_inj.mp (hc.symm.trans hc')
    obtain ⟨size, master⟩ := checkAccess_commandAccess_refused (s := s) (m := m) (sh := sh) (code := code') (arg := arg')
    exact ⟨fun h8 => exec_refused h hc isChecked_commandAccess (size h8),
      fun h8 hm => exec_refused h hc isChecked_commandAccess (master h8 hm)⟩
  · rw [commandOf_unknown hcode]
    rfl

/-! ## Writes to the announcement blocks -/

/-- A write in an accepted shape by the master it belongs to passes the four checks outside the locked areas and the time
views (R158 to R163). -/
theorem checkAccess_write {s : State} {a : Access} {o : Nat} (ha : a.addr.toNat = regionBase s + o) (hd : a.dir = .write)
    (hb : ¬ BadAddress s a o) (hg : GoodShape a o) (hf : ¬ Foreign s a o) (hlo : 0x01FF < o) (hv : windowOf o ≠ .views) :
    checkAccess s a = none := by
  have hview : viewWriteStep a o = none := if_neg fun h => hv h.2
  rw [checkAccess_eq ha, addressStep_good hb, (shapeStep_eq_none hb ha).mpr hg, ownershipStep_native hd ha hf,
    if_neg (Nat.not_le_of_lt hlo), hview]
  rfl

/-- An announcement write of the control master is carried to memory (R165). -/
theorem takeAccess_announceWrite {s : State} {off : Offset} {sh : Shape} {d : List Byte} (hp : s.status.part = .active)
    (hl : d.length = sh.bytes) (hsh : PlainShape sh off) (hlo : 0x2000 ≤ off.toNat) (hhi : off.toNat + sh.bytes ≤ 0x2400) :
    takeAccess (controlWrite s off sh d) s =
      holdAndIssue (controlWrite s off sh d) (.store .none) [controlWrite s off sh d] s := by
  have hpos := shape_bytes_pos sh
  have ha : (controlWrite s off sh d).addr.toNat = regionBase s + off.toNat := regionAccess_addr ..
  have hw : windowOf off.toNat = .announce := by
    rw [windowOf, if_neg (by omega), if_neg (by omega), if_neg (by omega), if_pos (by omega)]
  have hb : ¬ BadAddress s (controlWrite s off sh d) off.toNat := by
    unfold BadAddress
    omega
  have hg : GoodShape (controlWrite s off sh d) off.toNat :=
    goodShape_of_plainShape hw (by decide) (by decide) (by decide) hsh hlo hhi
  have hf : ¬ Foreign s (controlWrite s off sh d) off.toNat := by
    rintro (⟨-, hm⟩ | hf | hf)
    · exact hm rfl
    · omega
    · omega
  have hc : isChecked s (controlWrite s off sh d) = true := isChecked_of_active hp (inRegion_regionAccess ..)
  have hk := checkAccess_write ha rfl hb hg hf (by omega) (by rw [hw]; decide)
  have ho : regionOff (controlWrite s off sh d) (regionBase s) = off.toNat := by
    rw [regionOff_of_le (ha ▸ Nat.le_add_right _ _), ha, Nat.add_sub_cancel_left]
  rw [takeAccess_accepted hc hk, carryOut, ho, hw,
    carried_write (a := controlWrite s off sh d) rfl hl]
  rfl

/-- Settles O16: the write is held with no block to hand it to, and memory's answer is relayed. -/
theorem announcementWriteReachesMemoryOnly : Obligations.AnnouncementWriteReachesMemoryOnly := by
  rintro m off sh d s h hp rfl hl hsh hlo hhi
  have hexec : exec (.regionWrite s.straps.control off sh d) s =
      .next (s.waitingFor (controlWrite s off sh d) (.store .none) (controlWrite s off sh d)) := by
    rw [exec_access (a := controlWrite s off sh d) rfl, offer_ready _ h, takeAccess_announceWrite hp hl hsh hlo hhi,
      holdAndIssue_one h.quiet h.issued]
  exact ⟨_, hexec, rfl, fun x => exec_memoryOk_write _ _ _ x h rfl (.inr rfl),
    fun x => exec_memoryError _ _ _ x h fun _ _ _ _ hj => nomatch hj⟩

/-! ## Writes to the configuration block -/

section ConfigWrite

variable {s : State} {m : Master} {off : Offset} {sh : Shape} {d : List Byte}

/-- A write that begins in the configuration block reaches no byte of the status page (R156). -/
theorem not_touchesStatus_configWrite (ho : off.toNat ≤ 0x03FF) :
    touches (regionAccess s m off .write sh d) (regionBase s) 0x1000 0x1FFF = false := by
  have hmax : sh.bytes ≤ 64 := shape_bytes_le sh
  have hlen : accessLen (regionAccess s m off .write sh d) = sh.bytes := rfl
  rw [touches, decide_eq_false_iff_not, regionAccess_addr, hlen]
  omega

/-- While TRANSPARENT it is forwarded, and handed to the configuration copy from the control master alone (R157, R166). -/
theorem forwardJob_configWrite (ho : off.toNat ≤ 0x03FF) : forwardJob s (regionAccess s m off .write sh d) =
    .store (if m = s.straps.control then .config else .none) := by
  have hpos := shape_bytes_pos sh
  have hlen : accessLen (regionAccess s m off .write sh d) = sh.bytes := rfl
  have ht : touches (regionAccess s m off .write sh d) (regionBase s) 0x0000 0x03FF = true := by
    rw [touches, decide_eq_true_iff, regionAccess_addr, hlen]
    omega
  have hwrite : (regionAccess s m off .write sh d).dir = .write := rfl
  have hmaster : (regionAccess s m off .write sh d).master = m := rfl
  rw [forwardJob, if_pos (inRegion_regionAccess ..), forwardedHandOff]
  simp only [ht, hwrite, hmaster, true_and, and_true]

/-- Memory's OK to a configuration write of the control master snoops it byte by byte (R166, R174). -/
theorem exec_memoryOk_config (h : Ready s) (hl : d.length = sh.bytes) (x : List Byte) :
    exec (.memoryAnswer true x) (s.waitingFor (controlWrite s off sh d) (.store .config) (controlWrite s off sh d)) =
      .next ((s.setStatus { s.status with
        config := d.zipIdx.foldl (fun c bi => snoopByte (off.toNat + bi.2) bi.1 c) s.status.config }).answered
          s.straps.control true []) := by
  have hok (y : List Byte) : memoryOk { access := controlWrite s off sh d, job := .store .config } y
      (hold (controlWrite s off sh d) (.store .config) s) =
        (snoopWrite (controlWrite s off sh d) s).answered s.straps.control true [] :=
    answer_snoopWrite_hold h.free rfl _ y
  rw [exec_memoryOk _ _ _ _ h, hok, snoopWrite_controlWrite hl, serve_nil]
  exact h.alone

/-- While ACTIVE a configuration write is refused by its master, and else in the global and source areas (R162). -/
theorem checkAccess_configWrite_refused (ho : off.toNat ≤ 0x03FF) (hsh : PlainShape sh off)
    (hhi : off.toNat + sh.bytes ≤ 0x0400) :
    (m ≠ s.straps.control → checkAccess s (regionAccess s m off .write sh d) = some .notOwner) ∧
    (m = s.straps.control → off.toNat ≤ 0x01FF →
      checkAccess s (regionAccess s m off .write sh d) = some .configLocked) := by
  obtain ⟨-, -, write⟩ := checkAccess_refusals (regionAccess_addr s m off .write sh d)
  have hb : ¬ BadAddress s (regionAccess s m off .write sh d) off.toNat := by
    unfold BadAddress
    omega
  have hg : GoodShape (regionAccess s m off .write sh d) off.toNat :=
    goodShape_of_plainShape (w := .config) (if_pos ho) (by decide) (by decide) (by decide) hsh (Nat.zero_le _) hhi
  obtain ⟨foreign, locked, -⟩ := write hb hg rfl
  refine ⟨fun hm => foreign (.inl ⟨.inl ho, hm⟩), fun hm hlow => locked ?_ hlow⟩
  rintro (⟨-, hf⟩ | hf | hf)
  · exact hf hm
  · omega
  · omega

end ConfigWrite

/-- Settles O17: while TRANSPARENT the write is forwarded and snooped by its master, and while ACTIVE the checks refuse it. -/
theorem configurationWriteIsSnoopedOrLocked : Obligations.ConfigurationWriteIsSnoopedOrLocked := by
  intro m off sh d s h hl ho a snooped
  refine ⟨fun hp => ?_, fun hp hsh hhi => ?_⟩
  · have hw : a.wf = true := beq_iff_eq.mpr hl
    have hexec := exec_unchecked (c := .configurationWrite m off sh d) h rfl hw
      (isChecked_transparent hp (not_touchesStatus_configWrite ho))
    refine ⟨_, hexec, rfl, fun x => exec_memoryError _ _ _ x h (forwardJob_not_announce s a), fun hm x => ?_,
      fun hm x => ?_⟩
    · rw [forwardJob_configWrite ho, if_neg hm]
      exact exec_memoryOk_write _ _ _ x h rfl (.inr rfl)
    · subst hm
      rw [forwardJob_configWrite ho, if_pos rfl]
      exact exec_memoryOk_config h hl x
  · obtain ⟨foreign, locked⟩ := checkAccess_configWrite_refused (s := s) (m := m) (d := d) ho hsh hhi
    have refuses {kind : FaultKind} (hk : checkAccess s a = some kind) :
        exec (.configurationWrite m off sh d) s = .next (s.refusedWith kind a) :=
      exec_refused h rfl (isChecked_of_active hp (inRegion_regionAccess ..)) hk
    exact ⟨fun hm => refuses (foreign hm), fun hm hlow => refuses (locked hm hlow)⟩

end Sys2Proof.Machine
end

section
/-! PROOFS. Raised events: the indication that an event sets, and the interrupt line (R182, R190, R193). -/

namespace Sys2Proof.Machine

/-! ## The bits of the event word -/

/-- The event of each bit of the event word (section 10.5). -/
def bitEvents : Vector Event 16 :=
  #v[.commit, .lateCommit, .scheduleChange, .freeze, .dispute, .sourcesDisagree, .sourceSilent, .sourceFault,
    .timebaseChange, .longHoldover, .stepBack, .accessFault, .scheduleFull, .historyDiscard, .portTransfer, .activation]

theorem bitEvents_eventBit (e : Event) : bitEvents[eventBit e]? = some e := by cases e <;> rfl

theorem eventBit_bitEvents : ∀ i : Fin 16, eventBit bitEvents[i] = i.val := by decide

theorem eventBit_lt (e : Event) : eventBit e < 16 := by
  by_contra h
  have hnone : bitEvents[eventBit e]? = none := Vector.getElem?_eq_none (by omega)
  exact nomatch hnone.symm.trans (bitEvents_eventBit e)

theorem eventBit_inj {e f : Event} : eventBit e = eventBit f ↔ e = f := by
  refine ⟨fun h => ?_, congrArg eventBit⟩
  have he := bitEvents_eventBit e
  rw [h, bitEvents_eventBit f] at he
  exact (Option.some.inj he).symm

/-- Setting an indication sets the bit of its event and no other (R190). -/
theorem hasEvent_withEvent (e f : Event) (w : BitVec 16) :
    hasEvent f (withEvent e w) = (decide (f = e) || hasEvent f w) := by
  have hbit : (1#16 <<< eventBit e).getLsbD (eventBit f) = decide (f = e) := by
    rw [← BitVec.twoPow_eq, BitVec.getLsbD_twoPow, decide_eq_true (eventBit_lt e), Bool.true_and]
    exact decide_eq_decide.mpr (eventBit_inj.trans eq_comm)
  rw [hasEvent, withEvent, BitVec.getLsbD_or, hbit, Bool.or_comm]
  rfl

/-- Two words have a bit in common exactly when some event is set in both. -/
theorem and_ne_zero_iff_hasEvent {w v : BitVec 16} :
    w &&& v ≠ 0#16 ↔ ∃ e : Event, hasEvent e w = true ∧ hasEvent e v = true := by
  constructor
  · intro h
    by_contra hnone
    refine h (BitVec.eq_of_getLsbD_eq fun i hi => ?_)
    have he : eventBit bitEvents[i] = i := eventBit_bitEvents ⟨i, hi⟩
    rw [BitVec.getLsbD_and, BitVec.getLsbD_zero, Bool.and_eq_false_iff]
    by_contra hi
    refine hnone ⟨bitEvents[i], ?_⟩
    simpa [hasEvent, he] using hi
  · rintro ⟨e, hw, hv⟩ h
    have hbit := congrArg (hasEvent e) h
    rw [hasEvent, BitVec.getLsbD_and, hasEvent, BitVec.getLsbD_zero] at hbit
    exact nomatch hbit.symm.trans (Bool.and_eq_true_iff.mpr ⟨hw, hv⟩)

/-! ## The statement -/

theorem interruptAsserted_iff {s : State} : interruptAsserted s = true ↔
    s.resetAsserted = false ∧ s.status.eventWord &&& s.status.config.glob.enableMask ≠ 0#16 := by
  simp [interruptAsserted]

/-- Settles O55: the Status Unit takes the event into its own bit, and the line is word and mask bit by bit. -/
theorem raisedEventsSetIndicationsAndTheLine : Obligations.RaisedEventsSetIndicationsAndTheLine := by
  refine ⟨fun e s => ⟨fun he => ?_, fun he => ⟨withEvent e s.status.eventWord, ?_, ?_⟩⟩, fun s => ?_⟩
  · rw [exec, execEventRaise, if_neg (by simpa using he)]
  · rw [exec, execEventRaise, if_pos (by simpa using he)]
    rfl
  · exact fun f => hasEvent_withEvent e f _
  · rw [interruptAsserted_iff, and_ne_zero_iff_hasEvent]

end Sys2Proof.Machine
end

section
/-! PROOFS. The state after reset has the laws that every step keeps (R183). -/

namespace Sys2Proof.Machine

/-- The state after reset is the part a release makes of it with both straps at 0. -/
theorem reset_eq_releasedPart : State.reset = releasedPart 0#8 0#4 State.reset := rfl

/-- The base offsets after reset are in range (R8). -/
theorem resetBase_range : ∀ sc, OffsetInRange sc (BaseRecord.reset.offset sc)
  | .civil => by
    show Config.civilMin ≤ 0 ∧ 0 ≤ Config.civilMax
    decide
  | .zone k => by
    have hzero : ∀ k : ZoneNo, BaseRecord.reset.offset (.zone k) = 0 := by decide
    rw [hzero]
    show -Config.zoneLimit ≤ 0 ∧ 0 ≤ Config.zoneLimit
    decide

theorem listLaws_reset : ListLaws State.reset where
  order := .nil
  capacity := ⟨by decide, by decide, by decide⟩
  appliedFirst := .nil
  pendingAbove := fun _ he => nomatch he
  unflagged := fun _ he => nomatch he
  claims := rfl

theorem intakeLaws_reset : IntakeLaws State.reset := by
  have hsource (n : SourceNo) : State.reset.intake.sources[n] = .reset := by
    rw [reset_eq_releasedPart, releasedPart_source]
  have hqueue (n : SourceNo) : State.reset.intake.sources[n].queue = [] := by rw [hsource]; rfl
  have hstate (n : SourceNo) : State.reset.intake.sources[n].state = .disabled := by rw [hsource]; rfl
  exact QueuesFit.intakeLaws (.of_empty hqueue fun _ => hstate) (NoSnoopHeld.of_none rfl).law (.of_empty hqueue)

/-- Settles O60: the list is empty, every source is DISABLED, and the part is the released one. -/
theorem resetStateHasEveryLaw : Obligations.ResetStateHasEveryLaw :=
  ⟨listLaws_reset, offsetLaws_nil resetBase_range, intakeLaws_reset, fun _ => releasedPart_laws 0#8 0#4 State.reset⟩

end Sys2Proof.Machine
end

section
/-! PROOFS. The configuration copy byte by byte: the field each snooped byte fills (R174, R198, tables 11.6a to
11.6c). -/

namespace Sys2Proof.Machine

/-! ## A byte put into a field -/

/-- Bit by bit, the byte stands at its place and the rest of the field stays. -/
theorem getLsbD_putByte {width : Nat} (x : BitVec width) (i : Nat) (b : Byte) {k : Nat} (hk : k < width) :
    (putByte x i b).getLsbD k = if 8 * i ≤ k ∧ k < 8 * i + 8 then b.getLsbD (k - 8 * i) else x.getLsbD k := by
  have hones : (0xFF#8).getLsbD (k - 8 * i) = decide (k - 8 * i < 8) := BitVec.getLsbD_allOnes
  have hshift (y : Byte) :
      (y.setWidth width <<< (8 * i)).getLsbD k = (!decide (k < 8 * i) && y.getLsbD (k - 8 * i)) := by
    simp [hk]
  rw [putByte, BitVec.getLsbD_or, BitVec.getLsbD_and, BitVec.getLsbD_not, hshift, hshift, hones]
  split
  · next h => simp [hk, show ¬ k < 8 * i by omega, show k - 8 * i < 8 by omega]
  · next h =>
    by_cases hlow : k < 8 * i
    · simp [hk, hlow]
    · have hbeyond : b.getLsbD (k - 8 * i) = false := BitVec.getLsbD_of_ge _ _ (by omega)
      simp [hk, hbeyond, show ¬ k - 8 * i < 8 by omega]

theorem putByte_eq_of_getLsbD {width : Nat} {x y : BitVec width} {i : Nat} {b : Byte}
    (h : ∀ k, k < width → (if 8 * i ≤ k ∧ k < 8 * i + 8 then b.getLsbD (k - 8 * i) else x.getLsbD k) = y.getLsbD k) :
    putByte x i b = y :=
  BitVec.eq_of_getLsbD_eq fun k hk => (getLsbD_putByte x i b hk).trans (h k hk)

/-- A byte of a field, the bits above it and those below it kept. -/
theorem putByte_middle {high i : Nat} (x : BitVec (high + 8 + 8 * i)) (b : Byte) :
    putByte x i b = x.extractLsb' (8 * i + 8) high ++ b ++ x.extractLsb' 0 (8 * i) :=
  putByte_eq_of_getLsbD fun k hk => by
    simp only [BitVec.getLsbD_append, BitVec.getLsbD_extractLsb']
    grind

/-- The most significant byte of a field. -/
theorem putByte_top {i : Nat} (x : BitVec (8 + 8 * i)) (b : Byte) : putByte x i b = b ++ x.extractLsb' 0 (8 * i) :=
  putByte_eq_of_getLsbD fun k hk => by
    simp only [BitVec.getLsbD_append, BitVec.getLsbD_extractLsb']
    grind

/-- The least significant byte of a field. -/
theorem putByte_bottom {high : Nat} (x : BitVec (high + 8)) (b : Byte) : putByte x 0 b = x.extractLsb' 8 high ++ b :=
  putByte_eq_of_getLsbD fun k hk => by
    simp only [BitVec.getLsbD_append, BitVec.getLsbD_extractLsb']
    grind

/-! ## The areas of the configuration block -/

theorem snoopByte_global {o : Nat} (h : o < 0x100) (b : Byte) (c : ConfigCopy) :
    snoopByte o b c = { c with glob := snoopGlobal o b c.glob } := if_pos h

theorem snoopByte_source (n : SourceNo) {j : Nat} (hj : j < 0x20) (b : Byte) (c : ConfigCopy) :
    snoopByte (0x100 + n.val * 0x20 + j) b c =
      { c with sources := c.sources.set n (snoopSource j b c.sources[n]) } := by
  have hn : (0x100 + n.val * 0x20 + j - 0x100) / 0x20 = n.val := by omega
  have hoff : (0x100 + n.val * 0x20 + j) % 0x20 = j := by omega
  rw [snoopByte, if_neg (by omega), dif_pos (by omega), hoff]
  simp only [hn]

theorem snoopByte_shadow (p : PortNo) {j : Nat} (hj : j < 0x20) (b : Byte) (c : ConfigCopy) :
    snoopByte (0x200 + p.val * 0x20 + j) b c =
      { c with shadows := c.shadows.set p (snoopShadow j b c.shadows[p]) } := by
  have hp : (0x200 + p.val * 0x20 + j - 0x200) / 0x20 = p.val := by omega
  have hoff : (0x200 + p.val * 0x20 + j) % 0x20 = j := by omega
  rw [snoopByte, if_neg (by omega), dif_neg (by omega), dif_pos (by omega), hoff]
  simp only [hp]

/-! ## Bytes of no field -/

theorem snoopGlobal_of_ge {o : Nat} (h : 0x32 ≤ o) (b : Byte) (g : GlobalConfig) : snoopGlobal o b g = g := by
  simp (disch := omega) only [snoopGlobal, if_neg, dif_neg]

theorem snoopSource_of_ge {j : Nat} (h : 6 ≤ j) (b : Byte) (c : SourceConfig) : snoopSource j b c = c := by
  obtain ⟨k, rfl⟩ := Nat.exists_eq_add_of_le' h
  rfl

theorem snoopShadow_unheld {j : Nat} (h : j = 4 ∨ 10 ≤ j) (b : Byte) (p : Policy) : snoopShadow j b p = p := by
  rcases h with rfl | h
  · rfl
  · obtain ⟨k, rfl⟩ := Nat.exists_eq_add_of_le' h
    rfl

/-- A byte that belongs to no field changes nothing (R174). -/
theorem snoopByte_unheld {o : Nat} (h : (0x32 ≤ o ∧ o ≤ 0xFF) ∨ (0x100 ≤ o ∧ o ≤ 0x1FF ∧ 6 ≤ o % 0x20) ∨
    (0x200 ≤ o ∧ o ≤ 0x3FF ∧ (o % 0x20 = 4 ∨ 10 ≤ o % 0x20)) ∨ 0x400 ≤ o) (b : Byte) (c : ConfigCopy) :
    snoopByte o b c = c := by
  rcases h with ⟨hlo, hhi⟩ | ⟨hlo, hhi, hj⟩ | ⟨hlo, hhi, hj⟩ | ho
  · rw [snoopByte_global (by omega), snoopGlobal_of_ge hlo]
  · rw [snoopByte, if_neg (by omega), dif_pos (by omega)]
    simp only [snoopSource_of_ge hj, Fin.getElem_fin, Vector.set_getElem_self]
  · rw [snoopByte, if_neg (by omega), dif_neg (by omega), dif_pos (by omega)]
    simp only [snoopShadow_unheld hj, Fin.getElem_fin, Vector.set_getElem_self]
  · rw [snoopByte, if_neg (by omega), dif_neg (by omega), dif_neg (by omega)]

/-! ## Fields of four bytes in the global area -/

theorem snoopGlobal_zoneOffset (k : ZoneNo) (j : Fin 4) (b : Byte) (g : GlobalConfig) :
    snoopGlobal (0x08 + 4 * k.val + j.val) b g =
      { g with zoneOffsets := g.zoneOffsets.set k (putByte g.zoneOffsets[k] (3 - j.val) b) } := by
  have hk : (0x08 + 4 * k.val + j.val - 0x08) / 4 = k.val := by omega
  have hj : (0x08 + 4 * k.val + j.val) % 4 = j.val := by omega
  simp (disch := omega) only [snoopGlobal, if_neg, dif_pos, hk, hj]

/-- The fields of four bytes, each from its most significant byte on. -/
theorem snoopGlobal_words (j : Fin 4) (b : Byte) (g : GlobalConfig) :
    snoopGlobal (0x18 + j.val) b g = { g with silence := putByte g.silence (3 - j.val) b } ∧
    snoopGlobal (0x1C + j.val) b g = { g with grid := putByte g.grid (3 - j.val) b } ∧
    snoopGlobal (0x20 + j.val) b g = { g with minLead := putByte g.minLead (3 - j.val) b } ∧
    snoopGlobal (0x24 + j.val) b g = { g with horizon := putByte g.horizon (3 - j.val) b } ∧
    snoopGlobal (0x28 + j.val) b g = { g with tolerance := putByte g.tolerance (3 - j.val) b } := by
  fin_cases j <;> exact ⟨rfl, rfl, rfl, rfl, rfl⟩

/-! ## The statement -/

/-- Settles O19: a byte falls in one area, there in one field, and there at its own place. -/
theorem snoopedByteFillsTheHeldBits : Obligations.SnoopedByteFillsTheHeldBits := by
  intro b c g global high low put
  have hhigh (x : BitVec 16) : high x = putByte x 1 b := (putByte_top (i := 1) x b).symm
  have hlow (x : BitVec 16) : low x = putByte x 0 b := (putByte_bottom (high := 8) x b).symm
  have hput (x : BitVec 32) (j : Fin 4) : put x j = putByte x (3 - j.val) b := by
    match j with
    | 0 => exact (putByte_top (i := 3) x b).symm
    | 1 => exact (putByte_middle (high := 8) (i := 2) x b).symm
    | 2 => exact (putByte_middle (high := 16) (i := 1) x b).symm
    | 3 => exact (putByte_bottom (high := 24) x b).symm
  have hglobal {o : Nat} {new : GlobalConfig} (ho : o < 0x100) (h : snoopGlobal o b g = new) : global o new :=
    (snoopByte_global ho b c).trans (h ▸ rfl)
  simp only [hhigh, hlow, hput]
  refine ⟨hglobal (by decide) rfl, hglobal (by decide) rfl, hglobal (by decide) rfl, hglobal (by decide) rfl,
    hglobal (by decide) rfl, hglobal (by decide) rfl, hglobal (by decide) rfl, hglobal (by decide) rfl, fun j => ?words,
    hglobal (by decide) rfl, hglobal (by decide) rfl, hglobal (by decide) rfl, hglobal (by decide) rfl,
    hglobal (by decide) rfl, hglobal (by decide) rfl, fun n => ?source, fun p => ?shadow,
    fun o ho => snoopByte_unheld ho b c⟩
  case words =>
    obtain ⟨hsilence, hgrid, hlead, hhorizon, htolerance⟩ := snoopGlobal_words j b g
    exact ⟨fun k => hglobal (by omega) (snoopGlobal_zoneOffset k j b g), hglobal (by omega) hsilence,
      hglobal (by omega) hgrid, hglobal (by omega) hlead, hglobal (by omega) hhorizon, hglobal (by omega) htolerance⟩
  case source =>
    have byte {j : Nat} (hj : j < 0x20) := snoopByte_source n hj b c
    exact ⟨byte (j := 0) (by decide), byte (j := 1) (by decide), byte (j := 2) (by decide), byte (j := 3) (by decide),
      byte (j := 4) (by decide), byte (j := 5) (by decide)⟩
  case shadow =>
    have byte {j : Nat} (hj : j < 0x20) := snoopByte_shadow p hj b c
    have lead0 (x : BitVec 24) : b ++ x.extractLsb' 0 16 = putByte x 2 b := (putByte_top (i := 2) x b).symm
    have lead1 (x : BitVec 24) : x.extractLsb' 16 8 ++ b ++ x.extractLsb' 0 8 = putByte x 1 b :=
      (putByte_middle (high := 8) (i := 1) x b).symm
    have lead2 (x : BitVec 24) : x.extractLsb' 8 16 ++ b = putByte x 0 b := (putByte_bottom (high := 16) x b).symm
    rw [lead0, lead1, lead2]
    exact ⟨byte (j := 0) (by decide), byte (j := 1) (by decide), byte (j := 2) (by decide), byte (j := 3) (by decide),
      byte (j := 5) (by decide), byte (j := 6) (by decide), byte (j := 7) (by decide), byte (j := 8) (by decide),
      byte (j := 9) (by decide)⟩

end Sys2Proof.Machine
end

section
/-! PROOFS. Reads of the status page that need no snapshot: the event word and the fault flags, returned and cleared, and the
words of the source, fault and port records and the command word, returned as laid out (R184, R185, R188, R189, R191, R197,
R199). -/

namespace Sys2Proof.Machine

/-! ## What a read clears (R188, R191) -/

section Clears

variable {rel len : Nat} {s : State}

theorem mapSources_self (v : Vector Source 8) : mapSources (fun _ src => src) v = v := by
  ext k hk
  simp [mapSources]

/-- Every source left as it is but one. -/
theorem mapSources_one (n : SourceNo) (f : Source → Source) (v : Vector Source 8) :
    mapSources (fun k src => if k = n then f src else src) v = v.set n (f v[n]) := by
  ext k hk
  simp only [mapSources, Vector.getElem_ofFn, Vector.getElem_set, Fin.ext_iff, eq_comm (a := k)]
  split
  · rename_i h
    subst h
    rfl
  · rfl

theorem clearRead_path : (clearRead rel len s).path = s.path := by
  unfold clearRead
  dsimp only
  split <;> rfl

/-- A read that covers neither the event word nor any fault flags clears nothing. -/
theorem clearRead_nothing (he : coversEvents rel len = false) (hf : ∀ k, coversFlags rel len k = false) :
    clearRead rel len s = s := by
  simp only [clearRead, he, hf, Bool.false_eq_true, if_false, mapSources_self]
  rfl

/-- A read that covers the event word clears its 16 indications (R191). -/
theorem clearRead_events (he : coversEvents rel len = true) (hf : ∀ k, coversFlags rel len k = false) :
    clearRead rel len s = s.setStatus { s.status with eventWord := 0#16 } := by
  simp only [clearRead, he, hf, Bool.false_eq_true, if_false, if_true, mapSources_self]
  rfl

/-- A read that covers the fault flags of one source clears those six (R188). -/
theorem clearRead_flags {n : SourceNo} (he : coversEvents rel len = false)
    (hf : ∀ k, coversFlags rel len k = true ↔ k = n) :
    clearRead rel len s = updSource n (fun src => { src with flags := 0#6 }) s := by
  simp only [clearRead, he, hf, Bool.false_eq_true, if_false, mapSources_one]
  rfl

/-- A read of one word covers no byte of the summary, the base record or the images when the word lies in none. -/
theorem coversList_word {w : Nat} (h : 0x15 ≤ w ∧ (w < 0x80 ∨ 0x100 ≤ w)) : coversList (8 * w) 8 = false := by
  simp only [coversList, coversRange, Bool.or_eq_false_iff, decide_eq_false_iff_not]
  omega

/-- Of the reads of one word, that of word 18h of the page covers the event word (section 11.7). -/
theorem coversEvents_word (w : Nat) : coversEvents (8 * w) 8 = decide (w = 0x18) :=
  decide_eq_decide.mpr (by omega)

/-- That of word 6 of a source record covers the fault flags of the source (section 11.7). -/
theorem coversFlags_word (w : Nat) (k : SourceNo) : coversFlags (8 * w) 8 k = decide (w = 0x20 + 8 * k.val + 6) :=
  decide_eq_decide.mpr (by omega)

end Clears

/-! ## A read answered at once -/

/-- The page as a read shows it that needs no snapshot (R185). -/
def pageNow (s : State) : Nat → Word := pageWord (pageView (statusSample s) s.list.sched s)

section AtOnce

variable {s : State} {m : Master} {rel : Nat} {sh : Shape}

/-- A read of a beat of 8 or 4 bytes of the page is checked and accepted in both part states (R157 to R161). -/
theorem takeAccess_pageRead (hsh : sh = .beat .eight ∧ rel % 8 = 0 ∨ sh = .beat .four ∧ rel % 4 = 0)
    (hlast : rel + sh.bytes ≤ 0x1000) {a : Access}
    (ha : a = regionAccess s m (BitVec.ofNat 16 (0x1000 + rel)) .read sh []) :
    regionOff a (regionBase s) = 0x1000 + rel ∧ takeAccess a s = statusRead a (0x1000 + rel) s := by
  have hpos := shape_bytes_pos sh
  have haddr : a.addr.toNat = regionBase s + (0x1000 + rel) := by
    rw [ha, regionAccess_addr, BitVec.toNat_ofNat]
    omega
  have hdir : a.dir = .read := by rw [ha]; rfl
  have hshape : a.shape = sh := by rw [ha]; rfl
  have hoff : regionOff a (regionBase s) = 0x1000 + rel := by
    rw [regionOff_of_le (haddr ▸ Nat.le_add_right _ _), haddr]
    exact Nat.add_sub_cancel_left _ _
  have hc : isChecked s a = true := by
    simp only [isChecked, touchesStatus, inRegion, touches, accessLen, haddr, hshape, Bool.and_eq_true,
      Bool.or_eq_true, decide_eq_true_eq]
    exact ⟨by omega, .inr (by omega)⟩
  have hb : ¬ BadAddress s a (0x1000 + rel) := by
    rw [badAddress_read_iff hdir]
    omega
  have hg : GoodShape a (0x1000 + rel) := by
    rw [goodShape_status (by omega), hshape]
    refine ⟨⟨?_, by omega, by omega⟩, .inl hdir⟩
    rcases hsh with ⟨h, h8⟩ | ⟨h, h4⟩
    · exact .inl ⟨.inl h, by omega⟩
    · exact .inr ⟨h, by omega⟩
  have hw : windowOf (0x1000 + rel) = .status := by
    rw [windowOf, if_neg (by omega), if_neg (by omega), if_pos (by omega)]
  refine ⟨hoff, ?_⟩
  rw [takeAccess_read haddr hdir hc hb hg, carryOut, hoff]
  simp only [hw, hdir]

/-- A read that covers no byte of the summary, the base record or the images is answered with the page as it stands, and
clears what it covers, in both part states (R185, R188, R191). -/
theorem exec_statusRead_atOnce (hr : Ready s)
    (hsh : sh = .beat .eight ∧ rel % 8 = 0 ∨ sh = .beat .four ∧ rel % 4 = 0) (hlast : rel + sh.bytes ≤ 0x1000)
    (hl : coversList rel sh.bytes = false) :
    exec (.statusRead m (BitVec.ofNat 16 (0x1000 + rel)) sh) s =
      .next ((clearRead rel sh.bytes s).answered m true (areaBytes (pageNow s) rel sh.bytes)) := by
  obtain ⟨hoff, htake⟩ := takeAccess_pageRead (s := s) (m := m) hsh hlast rfl
  have hlen : accessLen (regionAccess s m (BitVec.ofNat 16 (0x1000 + rel)) .read sh []) = sh.bytes := rfl
  rw [exec_access (a := regionAccess s m (BitVec.ofNat 16 (0x1000 + rel)) .read sh []) rfl, offer_ready _ hr, htake,
    statusRead, Nat.add_sub_cancel_left, hlen, if_neg (fun h => Bool.false_ne_true (hl.symm.trans h.2)),
    answerStatus, hoff, hlen, Nat.add_sub_cancel_left]
  exact congrArg _ (answer_read rfl ((congrArg (·.held) clearRead_path).trans hr.free) (areaBytes_length _ _ _))

/-- The words of the page that a read returns with nothing cleared and no snapshot: of the source records all but the fault
flags, the fault record, the port records and the command word. -/
def PlainWord (w : Nat) : Prop :=
  (0x20 ≤ w ∧ w < 0x60 ∧ w % 8 ≠ 6) ∨ (0x60 ≤ w ∧ w < 0x62) ∨ (0x100 ≤ w ∧ w < 0x140) ∨ w = 0x1FF

/-- Such a word is returned, and nothing changes (R188, R189, R199). -/
theorem exec_statusRead_plain {w : Nat} (hr : Ready s) (h : PlainWord w) :
    exec (.statusRead m (BitVec.ofNat 16 (0x1000 + 8 * w)) (.beat .eight)) s =
      .next (s.answered m true (wordBytes (pageNow s w))) := by
  have hbytes : (Shape.beat .eight).bytes = 8 := rfl
  unfold PlainWord at h
  have he : coversEvents (8 * w) 8 = false := (coversEvents_word w).trans (decide_eq_false (by omega))
  have hf (k : SourceNo) : coversFlags (8 * w) 8 k = false := (coversFlags_word w k).trans (decide_eq_false (by omega))
  rw [exec_statusRead_atOnce hr (.inl ⟨rfl, by omega⟩) (by omega) (coversList_word (by omega)), hbytes, areaBytes_word,
    clearRead_nothing he hf]

end AtOnce

/-! ## Where the words lie on the page (section 11.7) -/

section Place

variable (s : State)

theorem pageNow_events : pageNow s 0x18 = place 7 s.status.eventWord := rfl

theorem pageNow_source (n : SourceNo) {k : Nat} (hk : k < 8) :
    pageNow s (0x20 + 8 * n.val + k) = sourceWord s.intake.sources[n] k := by
  have hn : (Fin.ofNat 8 ((0x20 + 8 * n.val + k - 0x20) / 8) : SourceNo) = n := by
    rw [show (0x20 + 8 * n.val + k - 0x20) / 8 = n.val by omega, Fin.ofNat_val_eq_self]
  have hmod : (0x20 + 8 * n.val + k) % 8 = k := by omega
  unfold pageNow pageWord
  rw [if_neg (by omega), if_neg (by omega), if_neg (by omega), if_pos (by omega), hmod]
  simp only [hn]
  rfl

theorem pageNow_fault {k : Nat} (hk : k < 2) :
    pageNow s (0x60 + k) = faultWord s.path.fault s.path.secondFault k := by
  unfold pageNow pageWord
  rw [if_neg (by omega), if_neg (by omega), if_neg (by omega), if_neg (by omega), if_pos (by omega),
    Nat.add_sub_cancel_left]
  rfl

theorem pageNow_port (p : PortNo) {k : Nat} (hk : k < 4) :
    pageNow s (0x100 + 4 * p.val + k) = portWord s.patcher.ports[p] k := by
  have hp : (Fin.ofNat 16 ((0x100 + 4 * p.val + k - 0x100) / 4) : PortNo) = p := by
    rw [show (0x100 + 4 * p.val + k - 0x100) / 4 = p.val by omega, Fin.ofNat_val_eq_self]
  have hmod : (0x100 + 4 * p.val + k) % 4 = k := by omega
  unfold pageNow pageWord
  rw [if_neg (by omega), if_neg (by omega), if_neg (by omega), if_neg (by omega), if_neg (by omega),
    if_neg (by omega), if_pos (by omega), hmod]
  simp only [hp]
  rfl

theorem pageNow_command : pageNow s 0x1FF = s.status.lastCommand := rfl

end Place

/-! ## The words as their fields in a row (R188, R189, section 11.7) -/

/-- A value in the last field of a word is the word's value. -/
theorem place_last {n : Nat} (x : BitVec n) : place 7 x = x.setWidth 64 := by simp [place]

/-- The state of the source and its last disposition. -/
theorem sourceWord_disposition (src : Source) : sourceWord src 0 =
    src.state.code ++ src.disposition.outcome.code ++ (src.disposition.answer.map ListAnswer.code).getD 0#8 ++
      BitVec.ofNat 8 ((if src.disposition.seq.isSome then 1 else 0) + (if src.disposition.answer.isSome then 2 else 0)) ++
      src.disposition.seq.getD 0#16 ++ 0#16 := by
  apply eq_of_setWidth_word
  rw [sourceWord, BitVec.or_assoc _ (placeBit 3 0 _), placeBits_two]
  simp only [setWidth_append_word, BitVec.shiftLeft_or_distrib, ← BitVec.shiftLeft_add]
  simp [place]

/-- An absent candidate reads 0 (R188). -/
theorem sourceWord_noCandidate {src : Source} (h : src.candidate = none) :
    sourceWord src 1 = 0#64 ∧ sourceWord src 2 = 0#64 := by
  simp only [sourceWord, h, and_self]

/-- The candidate: what it proposes, its count, and whether its boundary is dated by the grid. -/
theorem sourceWord_candidate {src : Source} {c : Candidate} (h : src.candidate = some c) :
    sourceWord src 1 = c.content.code ++ BitVec.ofNat 8 c.count ++ (if c.gridDated then 1#8 else 0#8) ++
      c.content.zoneByte ++ BitVec.ofInt 32 c.content.newOffset ∧
    sourceWord src 2 = 0#16 ++ c.content.boundary := by
  simp only [sourceWord, h, place_second, and_true]
  apply eq_of_setWidth_word
  simp only [placeBit_eq_place 2 0 _ (by decide), setWidth_append_word, BitVec.shiftLeft_or_distrib,
    ← BitVec.shiftLeft_add]
  simp [place, signed32]

/-- An absent confirmed proposal reads 0 (R188). -/
theorem sourceWord_noConfirmed {src : Source} (h : src.confirmed = none) :
    sourceWord src 3 = 0#64 ∧ sourceWord src 4 = 0#64 := by
  simp only [sourceWord, h, and_self]

/-- The confirmed proposal, with the boundary it names. -/
theorem sourceWord_confirmed {src : Source} {c : Confirmed} (h : src.confirmed = some c) :
    sourceWord src 3 = (Content.leap c.content).code ++ (if c.gridDated then 1#8 else 0#8) ++ 0#48 ∧
    sourceWord src 4 = 0#16 ++ (Content.leap c.content).boundary := by
  simp only [sourceWord, h, place_second, Content.code, Content.boundary, and_true]
  apply eq_of_setWidth_word
  simp only [placeBit_eq_place 1 0 _ (by decide), setWidth_append_word, BitVec.shiftLeft_or_distrib,
    ← BitVec.shiftLeft_add]
  simp [place]

/-- The last second at which the source was heard, and whether there is one. -/
theorem sourceWord_lastHeard (src : Source) : sourceWord src 5 =
    (if src.lastHeard.isSome then 1#8 else 0#8) ++ 0#8 ++ src.lastHeard.getD 0#48 := by
  apply eq_of_setWidth_word
  simp only [sourceWord, placeBit_eq_place 0 0 _ (by decide), setWidth_append_word, BitVec.shiftLeft_or_distrib,
    ← BitVec.shiftLeft_add]
  simp [place]

/-- The fault flags. -/
theorem sourceWord_flags (src : Source) : sourceWord src 6 = src.flags.setWidth 64 := by
  rw [sourceWord, place_last]
  simp

/-- With no refusal recorded the fault record reads 0 (R189). -/
theorem faultWord_none : faultWord none false 0 = 0#64 ∧ faultWord none false 1 = 0#64 := ⟨rfl, rfl⟩

/-- The refused access with SECOND-FAULT, and the second of its refusal (R189). -/
theorem faultWord_some (f : FaultRecord) (second : Bool) :
    faultWord (some f) second 0 = BitVec.ofNat 8 (if second then 3 else 1) ++ f.kind.code ++ (0#4 ++ f.master) ++
      (if f.dir == .write then 1#8 else 0#8) ++ 0#16 ++ f.off ∧
    faultWord (some f) second 1 = 0#16 ++ f.second := by
  have hflags : placeBit 0 0 true ||| placeBit 0 1 second = place 0 (BitVec.ofNat 8 (if second then 3 else 1)) := by
    rw [placeBits_two]
    cases second <;> rfl
  have hdir : dirByte f.dir = if f.dir == .write then 1#8 else 0#8 := by cases f.dir <;> rfl
  refine ⟨?_, place_second _⟩
  apply eq_of_setWidth_word
  rw [faultWord, hflags, hdir]
  simp only [setWidth_append_word, BitVec.shiftLeft_or_distrib, ← BitVec.shiftLeft_add]
  simp [place]

/-- The active policy of a port. -/
theorem portWord_policy (p : Port) : portWord p 0 =
    (if p.active.enabled then 1#8 else 0#8) ++ (0#4 ++ p.active.scale) ++ (0#6 ++ p.active.zone) ++
      (0#2 ++ p.active.mask) ++ 0#8 ++ p.active.lead := by
  apply eq_of_setWidth_word
  simp only [portWord, placeBit_eq_place 0 0 _ (by decide), setWidth_append_word, BitVec.shiftLeft_or_distrib,
    ← BitVec.shiftLeft_add]
  simp [place]

/-- The hold of the active policy, and the pending transfer. -/
theorem portWord_transfer (p : Port) : portWord p 1 =
    p.active.hold ++ (if p.transfer.isSome then 1#8 else 0#8) ++ triggerCode p.transfer ++ 0#32 := by
  apply eq_of_setWidth_word
  simp only [portWord, placeBit_eq_place 2 0 _ (by decide), setWidth_append_word, BitVec.shiftLeft_or_distrib,
    ← BitVec.shiftLeft_add]
  simp [place]

/-! ## The codes of the fields, in the statement's order (section 11.2) -/

theorem SourceState.code_eq (x : SourceState) :
    x.code = BitVec.ofNat 8 ([SourceState.disabled, .waiting, .listening, .silent].idxOf x) := by cases x <;> rfl

theorem DispositionOutcome.code_eq (x : DispositionOutcome) : x.code =
    BitVec.ofNat 8 ([DispositionOutcome.none, .malformed, .unusable, .offsetDisagree, .offGrid, .tooLate, .tooFar,
      .tooSoon, .counted, .confirmed, .refused].idxOf x) := by cases x <;> rfl

theorem ListAnswer.code_eq (x : ListAnswer) : x.code =
    BitVec.ofNat 8 ([ListAnswer.armed, .armedFrozen, .replacedArmed, .replacedFrozen, .withdrawn, .unchanged, .tooLate,
      .full, .tooClose, .shiftTooLarge, .noChange, .offsetLimit, .frozen, .noSuchEntry].idxOf x + 1) := by
  cases x <;> rfl

theorem FaultKind.code_eq (x : FaultKind) : x.code =
    BitVec.ofNat 8 ([FaultKind.badSize, .badAddress, .notOwner, .configLocked, .badCommand, .nonexistentTime,
      .outOfRangeTime, .splitWrite, .viewReadOnly].idxOf x + 1) := by cases x <;> rfl

/-! ## The event word in halves -/

/-- Bytes of an area that lie in one word. -/
theorem areaBytes_within (area : Nat → Word) (i : Nat) {k len : Nat} (h : k + len ≤ 8) :
    areaBytes area (8 * i + k) len = (List.range len).map fun j => wordByte (area i) (k + j) := by
  refine List.map_congr_left fun j hj => ?_
  have hlen := List.mem_range.mp hj
  rw [show (8 * i + k + j) / 8 = i by omega, show (8 * i + k + j) % 8 = k + j by omega]

/-- Above the last two bytes of a word a value of 16 bits in its last field leaves 0. -/
theorem wordByte_place_above (x : BitVec 16) {i : Nat} (h : i < 6) : wordByte (place 7 x) i = 0#8 :=
  field_place_above 7 i x (by omega)

/-- The half of its word that holds the event word (section 11.7). -/
theorem areaBytes_eventHalf (s : State) : areaBytes (pageNow s) (8 * 0x18 + 4) 4 =
    [0#8, 0#8, s.status.eventWord.extractLsb' 8 8, s.status.eventWord.extractLsb' 0 8] := by
  have hhigh : wordByte (place 7 s.status.eventWord) 6 = s.status.eventWord.extractLsb' 8 8 := by
    rw [place_last, wordByte, BitVec.extractLsb'_setWidth_of_le (by decide)]
  have hlow : wordByte (place 7 s.status.eventWord) 7 = s.status.eventWord.extractLsb' 0 8 := by
    rw [place_last, wordByte, BitVec.extractLsb'_setWidth_of_le (by decide)]
  have h4 := wordByte_place_above s.status.eventWord (i := 4) (by decide)
  have h5 := wordByte_place_above s.status.eventWord (i := 5) (by decide)
  rw [areaBytes_within _ _ (by decide), pageNow_events, ← hhigh, ← hlow]
  simp [List.range_succ, h4, h5]

/-- The other half of that word holds nothing (R197). -/
theorem areaBytes_otherHalf (s : State) : areaBytes (pageNow s) (8 * 0x18 + 0) 4 = [0#8, 0#8, 0#8, 0#8] := by
  rw [areaBytes_within _ _ (by decide), pageNow_events]
  refine List.map_congr_left (g := fun _ => 0#8) fun j hj => wordByte_place_above _ ?_
  have := List.mem_range.mp hj
  omega

/-! ## The fault flags of a source -/

/-- A read of the fault flags of a source returns and clears them, and no other source's (R188). -/
theorem exec_statusRead_flags {s : State} (hr : Ready s) (m : Master) (n : SourceNo) :
    exec (.statusRead m (BitVec.ofNat 16 (0x1000 + 8 * (0x20 + 8 * n.val + 6))) (.beat .eight)) s =
      .next ((updSource n (fun src => { src with flags := 0#6 }) s).answered m true
        (wordBytes (s.intake.sources[n].flags.setWidth 64))) := by
  have hbytes : (Shape.beat .eight).bytes = 8 := rfl
  have he : coversEvents (8 * (0x20 + 8 * n.val + 6)) 8 = false :=
    (coversEvents_word _).trans (decide_eq_false (by omega))
  have hf (k : SourceNo) : coversFlags (8 * (0x20 + 8 * n.val + 6)) 8 k = true ↔ k = n := by
    rw [coversFlags_word, decide_eq_true_iff, Fin.ext_iff]
    omega
  rw [exec_statusRead_atOnce hr (.inl ⟨rfl, by omega⟩) (by omega) (coversList_word (by omega)), hbytes,
    clearRead_flags he hf, areaBytes_word, pageNow_source s n (by decide), sourceWord_flags]

/-! ## The statement -/

/-- Settles O22: each read is answered with the page as it stands, and clears the event word or the fault flags where it
covers them. -/
theorem statusReadsReturnAndClear : Obligations.StatusReadsReturnAndClear := by
  intro m n p s hr
  refine ⟨?eventWord, ?eventHalf, ?otherHalf, ?faultFlags, ?words⟩
  case eventWord =>
    refine (exec_statusRead_atOnce hr (rel := 8 * 0x18) (.inl ⟨rfl, rfl⟩) (by decide) rfl).trans ?_
    rw [clearRead_events rfl (by decide), ← place_last, ← pageNow_events, ← areaBytes_word]
    rfl
  case eventHalf =>
    refine (exec_statusRead_atOnce hr (rel := 8 * 0x18 + 4) (.inr ⟨rfl, rfl⟩) (by decide) rfl).trans ?_
    rw [clearRead_events rfl (by decide), ← areaBytes_eventHalf]
    rfl
  case otherHalf =>
    refine (exec_statusRead_atOnce hr (rel := 8 * 0x18 + 0) (.inr ⟨rfl, rfl⟩) (by decide) rfl).trans ?_
    rw [clearRead_nothing rfl (by decide), ← areaBytes_otherHalf s]
    rfl
  case faultFlags =>
    have hoff : 0x1130 + n.val * 0x40 = 0x1000 + 8 * (0x20 + 8 * n.val + 6) := by omega
    rw [hoff]
    exact exec_statusRead_flags hr m n
  case words =>
    intro src port reads bit code state outcome answers kinds shown source
    have plain {off w : Nat} {word : Word} (ho : off = 0x1000 + 8 * w) (h : PlainWord w) (hw : pageNow s w = word) :
        reads off word := by
      subst ho hw
      exact exec_statusRead_plain hr h
    have source' {k : Nat} {word : Word} (hw : sourceWord src k = word) (hk : k < 8 ∧ k ≠ 6 := by decide) :
        source k word :=
      plain (w := 0x20 + 8 * n.val + k) (by omega) (.inl (by omega)) ((pageNow_source s n hk.1).trans hw)
    have fault' {k : Nat} {word : Word} (hw : faultWord s.path.fault s.path.secondFault k = word)
        (hk : k < 2 := by decide) : reads (0x1300 + 8 * k) word :=
      plain (w := 0x60 + k) (by omega) (.inr (.inl (by omega))) ((pageNow_fault s hk).trans hw)
    have port' {k : Nat} {word : Word} (hw : portWord port k = word) (hk : k < 4 := by decide) :
        reads (0x1800 + 8 * k + p.val * 0x20) word :=
      plain (w := 0x100 + 4 * p.val + k) (by omega) (.inr (.inr (.inl (by omega)))) ((pageNow_port s p hk).trans hw)
    have hshown (c : Content) : c.code = code (shown c).1 ∧ c.zoneByte = code (shown c).2.1 ∧
        c.newOffset = (shown c).2.2.1 ∧ c.boundary = (shown c).2.2.2 := by
      match c with
      | .leap .noChange | .leap (.change .insert _) | .leap (.change .delete _) | .zoneSet .. | .zoneCancel .. =>
        exact ⟨rfl, rfl, rfl, rfl⟩
    clear_value reads shown
    refine ⟨source' ?disposition, fun h => ?noCandidate, fun c h => ?candidate, fun h => ?noConfirmed,
      fun c h => ?confirmed, source' (sourceWord_lastHeard src), source' (k := 7) rfl, fun h h2 => ?noFault,
      fun f h => ?fault, port' (portWord_policy port), port' (k := 1) ?transfer, port' (k := 2) rfl, port' (k := 3) rfl,
      plain (w := 0x1FF) rfl (.inr (.inr (.inr rfl))) (pageNow_command s)⟩
    case disposition =>
      rw [sourceWord_disposition, SourceState.code_eq, DispositionOutcome.code_eq]
      cases src.disposition.answer with
      | none => rfl
      | some a => exact congrArg (_ ++ _ ++ · ++ _ ++ _ ++ _) a.code_eq
    case noCandidate =>
      obtain ⟨h1, h2⟩ := sourceWord_noCandidate h
      exact ⟨source' h1, source' h2⟩
    case candidate =>
      obtain ⟨h1, h2⟩ := sourceWord_candidate h
      obtain ⟨hcode, hzone, hnew, hboundary⟩ := hshown c.content
      rw [hcode, hzone, hnew] at h1
      rw [hboundary] at h2
      exact ⟨source' h1, source' h2⟩
    case noConfirmed =>
      obtain ⟨h3, h4⟩ := sourceWord_noConfirmed h
      exact ⟨source' h3, source' h4⟩
    case confirmed =>
      obtain ⟨h3, h4⟩ := sourceWord_confirmed h
      obtain ⟨hcode, -, -, hboundary⟩ := hshown (.leap c.content)
      rw [hcode] at h3
      rw [hboundary] at h4
      exact ⟨source' h3, source' h4⟩
    case noFault =>
      obtain ⟨h0, h1⟩ := faultWord_none
      rw [← h, ← h2] at h0 h1
      exact ⟨fault' h0, fault' h1⟩
    case fault =>
      obtain ⟨h0, h1⟩ := faultWord_some f s.path.secondFault
      rw [← h, FaultKind.code_eq] at h0
      rw [← h] at h1
      exact ⟨fault' h0, fault' h1⟩
    case transfer =>
      rw [portWord_transfer]
      cases port.transfer with
      | none => rfl
      | some t => cases t <;> rfl

end Sys2Proof.Machine
end

section
/-! PROOFS. Every command answers a next state and leaves the queue of commands alone (log entry 1): the frames of accesses
and of the inner blocks give it for what they cover, and what is left is the supervisor, the command word, memory's answer,
the claims and RESET. -/

namespace Sys2Proof.Machine

/-! ## The Second Supervisor -/

/-- A move of the supervisor leaves the queue of commands. -/
theorem State.moved_pending (s : State) (new : Supervisor) (es : List Event) : (s.moved new es).pending = s.pending := rfl

/-- A mark captured and judged is at most a move of the supervisor. -/
theorem mark_pending (s : State) : (mark s).pending = s.pending := by
  unfold mark
  split
  · rfl
  · obtain ⟨new, es, hm, -⟩ := judgeMark_moved s.counter (capture s)
    rw [hm, State.moved_pending]
    rfl

/-- An expiry is at most a substitute mark. -/
theorem windowExpiry_pending (s : State) : (windowExpiry s).pending = s.pending := by
  unfold windowExpiry
  split
  · rfl
  · split
    · rw [substituteMark_eq, State.moved_pending]
    · rfl

/-- A live write is a move of the supervisor, and takes of the qualifier may follow it. -/
theorem liveWriteTaken_pending (w : Second) (s : State) : (liveWriteTaken w s).pending = s.pending := by
  obtain ⟨new, es, hl⟩ := liveWrite_moved w s
  unfold liveWriteTaken
  rw [hl]
  split
  · rw [(qualifierTake_inner _).pending, State.moved_pending]
  · rw [State.moved_pending]

/-! ## Memory's answer -/

/-- What memory's OK hands over to another block. -/
theorem handOff_pending (o : HandOff) (a : Access) (s : State) : (handOff o a s).pending = s.pending := by
  cases o with
  | none => rfl
  | config => rfl
  | intake => exact (intakeWords_inner _ _ _ s).pending
  | liveWrite => exact liveWriteTaken_pending _ s

theorem answer_pending (a : Access) (ok : Bool) (d : List Byte) (s : State) : (answer a ok d s).pending = s.pending :=
  (answer_frame a ok d s).pending

theorem takeActivate_pending (s : State) : (takeActivate s).pending = s.pending := by
  unfold takeActivate
  split
  · simp [activatePart, emptyLatches, setEvent]
  · rfl

theorem takeDeactivate_pending (s : State) : (takeDeactivate s).pending = s.pending := by
  simp [takeDeactivate, emptyLatches]

/-- The six commands of the command word, and a code that is none of them. -/
theorem takeCommand_pending (a : Access) (w : Word) (s : State) : (takeCommand a w s).pending = s.pending := by
  have hu : (s.setStatus { s.status with lastCommand := w }).pending = s.pending := rfl
  unfold takeCommand
  dsimp only
  rw [← hu]
  generalize s.setStatus _ = u
  split
  · rw [answer_pending, takeActivate_pending]
  · rw [answer_pending, takeDeactivate_pending]
  · rfl
  · rw [answer_pending]
    rfl
  · rw [answer_pending]
    rfl
  · rw [answer_pending]
    exact (takePortTransfer_inner _ _ _).pending
  · rw [answer_pending]

theorem memoryOk_pending (h : Held) (d : List Byte) (s : State) : (memoryOk h d s).pending = s.pending := by
  obtain ⟨a, j⟩ := h
  cases j with
  | store o => exact (answer_pending a true d _).trans (handOff_pending o a s)
  | command w => exact takeCommand_pending a w s
  | _ => exact (memoryOk_frame d s (fun _ h => by cases h) (fun _ h => by cases h)).pending

theorem memoryError_pending (h : Held) (s : State) : (memoryError h s).pending = s.pending := by
  unfold memoryError
  dsimp only
  split <;> rfl

theorem memoryAnswer_pending (ok : Bool) (d : List Byte) (s : State) : (memoryAnswer ok d s).pending = s.pending := by
  unfold memoryAnswer
  split
  · rfl
  · dsimp only
    split
    · exact (issueNext_frame _).pending
    · split
      · rfl
      · split
        · exact memoryOk_pending _ _ _
        · exact memoryError_pending _ _

/-! ## Claims, requests, FLUSH and queries at the list -/

/-- A request leaves the list and its requester takes the answer. -/
theorem takeRequest_pending (row : RequestRow) (s : State) : (takeRequest row s).pending = s.pending := by
  unfold takeRequest
  split
  · rfl
  · split
    · split
      · exact (deliverAnswer_inner _ _ _).pending.trans (popRequest_inner s).pending
      · rfl
    · rfl

theorem takeFlushClaim_pending (s : State) : (takeFlushClaim s).pending = s.pending := by
  unfold takeFlushClaim
  split
  · exact ((flushProgress_frame true false _).trans (serve_frame _)).pending.trans (popRequest_inner s).pending
  · rfl

/-- The lookup's answer, at the Scale Converter or the qualifier. -/
theorem deliverLookup_pending (who : Asker) (sched : Schedule) (s : State) :
    (deliverLookup who sched s).pending = s.pending := by
  unfold deliverLookup
  split
  · exact (converterLookup_frame sched s).pending
  · exact (qualifierLookup_inner sched s).pending
  · rfl

/-- The snapshot's answer, at the Election Unit, the Port Patcher or the status page. -/
theorem deliverSnapshot_pending (who : Asker) (sched : Schedule) (s : State) :
    (deliverSnapshot who sched s).pending = s.pending := by
  unfold deliverSnapshot
  split
  · exact (electionSnapshot_inner sched s).pending
  · exact (patcherSnapshot_frame sched s).pending
  · exact (quietSnapshot_inner sched s).pending
  · exact (statusSnapshot_frame sched s).pending
  · rfl

theorem takeLookup_pending (s : State) : (takeLookup s).pending = s.pending := by
  unfold takeLookup
  split
  · exact (serve_frame _).pending.trans (deliverLookup_pending _ _ (popQuery s))
  · rfl

theorem takeSnapshot_pending (s : State) : (takeSnapshot s).pending = s.pending := by
  unfold takeSnapshot
  split
  · exact (serve_frame _).pending.trans (deliverSnapshot_pending _ _ (popQuery s))
  · rfl

/-! ## RESET -/

theorem assertReset_pending (s : State) : (assertReset s).pending = s.pending := by
  cases hr : s.resetAsserted with
  | true =>
    unfold assertReset
    rw [if_pos hr]
  | false =>
    rw [assertReset_abandons hr, abandonWork_pending]
    rfl

/-! ## Every command -/

/-- The outcome is a next state, whose queue of commands is that of `s`. -/
def KeepsQueue (s : State) (o : Host.Outcome State Fault Refusal) : Prop := ∃ t, o = .next t ∧ t.pending = s.pending

theorem KeepsQueue.next {s t : State} (h : t.pending = s.pending) : KeepsQueue s (.next t) := ⟨t, rfl, h⟩

theorem KeepsQueue.unchanged (s : State) : KeepsQueue s (.next s) := .next rfl

/-- A notice taken off its way by the Intake Unit, the Election Unit or the Port Patcher. -/
theorem KeepsQueue.notice {s t : State} {w : Wires} (k : InnerFrame (s.setWires w) t) : KeepsQueue s (.next t) :=
  .next ((setWires_inner s w).trans k).pending

theorem exec_keepsQueue (c : Instr) (s : State) : KeepsQueue s (exec c s) := by
  cases ha : accessOf s c with
  | some a =>
    rw [exec_access ha]
    exact .next (offer_frame a s).pending
  | none =>
    cases c
    case resetAssert => exact .next (assertReset_pending s)
    case resetRelease =>
      simp only [exec, execResetRelease]
      split
      · exact .next (serve_frame _).pending
      · exact .unchanged s
    case secondMark e => exact .next ((mark_pending _).trans (State.elapsed_pending s e))
    case windowExpiry e => exact .next ((windowExpiry_pending _).trans (State.elapsed_pending s e))
    case memoryAnswer ok d => exact .next ((serve_frame _).pending.trans (memoryAnswer_pending ok d s))
    case freezeAndCommitClaim =>
      simp only [exec, execFreezeAndCommitClaim]
      split
      · exact .unchanged s
      · exact .next rfl
    case armRequest => exact .next (takeRequest_pending .arm s)
    case replaceRequest => exact .next (takeRequest_pending .replace s)
    case withdrawRequest => exact .next (takeRequest_pending .withdraw s)
    case listFlush => exact .next (takeFlushClaim_pending s)
    case lookupClaim => exact .next (takeLookup_pending s)
    case snapshotClaim => exact .next (takeSnapshot_pending s)
    case qualifierTake => exact .next (qualifierTake_inner s).pending
    case intakeFlush =>
      simp only [exec, execIntakeFlush]
      split
      · exact .unchanged s
      · exact .next (((flushProgress_frame false true _).trans (serve_frame _)).pending.trans (flushIntake_inner _).pending)
    case intakeChangeOfS =>
      simp only [exec, execIntakeChangeOfS]
      split
      · exact .unchanged s
      · exact .notice (intakeChange_inner _ _)
    case civilCommitNotice =>
      simp only [exec, execCivilCommitNotice]
      split
      · exact .unchanged s
      · exact .notice (civilCommit_inner _ _)
    case electionTrigger =>
      simp only [exec, execElectionTrigger]
      split
      · exact .unchanged s
      · exact .notice (takeTrigger_inner _)
    case electionFlush =>
      simp only [exec, execElectionFlush]
      split
      · exact .unchanged s
      · exact .notice (flushElection_inner _)
    case portChangeOfS =>
      simp only [exec, execPortChangeOfS]
      split
      · exact .unchanged s
      · exact .notice (arriveChangeOfS_inner _ _)
    case commitNotice =>
      simp only [exec, execCommitNotice]
      split
      · exact .unchanged s
      · exact .notice (transferPorts_inner _ _)
    case eventRaise e =>
      simp only [exec, execEventRaise]
      split
      · exact .next rfl
      · exact .unchanged s
    all_goals cases ha

/-- Settles O2: an access is offered to the part, and every other command is an operation that leaves the queue. -/
theorem everyCommandAnswersANextState : Obligations.EveryCommandAnswersANextState := exec_keepsQueue

end Sys2Proof.Machine
end
